-- ==== Sys2Proof/Word.lean ====
section
/-! DEFINITION. The word types of the block: registers are 32 bits wide, a transfer unit is 128 bits
(rule R8), memory is addressed in bytes (rule R62). -/

namespace Sys2Proof

/-- One byte of main memory. -/
abbrev Byte := BitVec 8

/-- A 32-bit register, address or cycle value (rules R8, R9). -/
abbrev Word := BitVec 32

/-- One transfer unit, the document's "128-bit word" (rule R5, `UNIT`). A configuration whose unit is narrower
uses the low bits. -/
abbrev Qword := BitVec 128

/-- The value of the opcode field `ID` of a tag (rules R5, R82). A configuration whose field is narrower uses the
low bits. -/
abbrev TagId := BitVec 3

/-- One payload word of the worker mailbox (rule R46). -/
abbrev DWord := BitVec 64

end Sys2Proof
end

