-- ==== Sys2Proof/Syntax.lean ====
section
/-! DEFINITION. The encoded inputs of the block as syntax: the two processors, the ten channels, the two
FIFOs, the registers of the two register windows, and `Instr`, one constructor for each row of the opcode
table (tag opcodes of both walkers, register accesses, event kinds; rules R80 to R88). -/

namespace Sys2Proof

/-- The two clock domains and their processors (rule R5, `NDOM`). -/
inductive Domain where
  | main
  | io
deriving DecidableEq, Repr, Inhabited

/-- The other processor. -/
def Domain.other : Domain → Domain
  | .main => .io
  | .io => .main

/-- A DMA channel number 0 .. 9 (rules R20, R21): GEOM0, GEOM1, GFX, IMG0, IMG1, BR0, BR1, BR2, SCR0, SCR1. A
configuration with fewer channels has the first `NCH` of them. -/
abbrev Chan := Fin 10

/-- An event kind number 0 .. 15 (rules R40, R88). -/
abbrev Kind := Fin 16

/-- The two FIFO instances (rules R5 and R190). -/
inductive FifoId where
  | gpath
  | bridge
deriving DecidableEq, Repr, Inhabited

/-- Which Tag-Chain Walker a channel is wired to (rules R141, R145). -/
inductive Variant where
  | full
  | simple
deriving DecidableEq, Repr, Inhabited

/-- The eight tag opcodes (rule R82). -/
inductive TagOp where
  | refe
  | cnt
  | next
  | ref
  | refs
  | call
  | ret
  | end_
deriving DecidableEq, Repr, Inhabited

/-- Direction of a register access, and the `rw` of `Translate` (rules R7, R86). -/
inductive Dir where
  | read
  | write
deriving DecidableEq, Repr, Inhabited

/-- The three signals of the geometry worker (rule R46). -/
inductive Signal where
  | finish
  | label
  | signal
deriving DecidableEq, Repr, Inhabited

/-- The six registers of a channel, in the order of rule R20. -/
inductive ChanReg where
  | chcr
  | madr
  | qwc
  | tadr
  | asr0
  | asr1
deriving DecidableEq, Repr, Inhabited

/-- Position of a channel register inside its channel (rule R10: `x[6*c + j]`). -/
def ChanReg.index : ChanReg → Fin 6
  | .chcr => 0
  | .madr => 1
  | .qwc => 2
  | .tadr => 3
  | .asr0 => 4
  | .asr1 => 5

/-- The registers that have an address in `MMIO_MAP` (rule R65). -/
inductive RegName where
  | chan (c : Chan) (r : ChanReg)
  | ctrl
  | stat
  | stadrS
  | stadrD
  | fstat (f : FifoId)
  | enabler
  | enablew
  | ioIstat
  | ioImask
deriving DecidableEq, Repr, Inhabited

/-- The slot of a register in the table that holds `MMIO_MAP`: `6 * c + j` for a channel register
(rule R10), then the ten others. -/
def RegName.index : RegName → Fin 70
  | .chan c r => ⟨6 * c.val + r.index.val, by have := c.isLt; have := r.index.isLt; omega⟩
  | .ctrl => 60
  | .stat => 61
  | .stadrS => 62
  | .stadrD => 63
  | .fstat .gpath => 64
  | .fstat .bridge => 65
  | .enabler => 66
  | .enablew => 67
  | .ioIstat => 68
  | .ioImask => 69

/-- The six registers of one channel. -/
def ChanReg.all : List ChanReg := [.chcr, .madr, .qwc, .tadr, .asr0, .asr1]

/-- Every register of `MMIO_MAP`. -/
def RegName.all : List RegName :=
  (List.finRange 10).flatMap (fun c => ChanReg.all.map (RegName.chan c)) ++
    [.ctrl, .stat, .stadrS, .stadrD, .fstat .gpath, .fstat .bridge, .enabler, .enablew, .ioIstat, .ioImask]

/-- The processor whose window holds the register (rule R86): the IO CPU reaches `IO_ISTAT` and
`IO_IMASK`, the MAIN CPU reaches every other one. -/
def RegName.cpu : RegName → Domain
  | .ioIstat => .io
  | .ioImask => .io
  | _ => .main

/-- Whether the register answers an access in this direction: `ENABLER` is read only and `ENABLEW`
write only (rules R33, R234). The opcode table has no row for the other half of the pair; rule R234
gives it the effect of an unmapped access. -/
def RegName.answers : RegName → Dir → Bool
  | .enabler, .write => false
  | .enablew, .read => false
  | _, _ => true

/-- The instructions: one constructor for each row of `spec/opcode_table.json`.

A tag constructor holds the channel that fetched the tag (the walker's operand `c`, rule R130) and the
tag's fields `QWC`, `IRQ` and `ADDR` (rule R81). A register access holds the channel its address selects
and, for a write, the 32-bit value (rule R220). An unmapped access and an event of both schedulers hold
the processor; every event holds its payload (rules R39, R157). -/
inductive Instr where
  | refeFull (c : Chan) (q : BitVec 16) (irq : Bool) (a : Word)
  | cntFull (c : Chan) (q : BitVec 16) (irq : Bool) (a : Word)
  | nextFull (c : Chan) (q : BitVec 16) (irq : Bool) (a : Word)
  | refFull (c : Chan) (q : BitVec 16) (irq : Bool) (a : Word)
  | refsFull (c : Chan) (q : BitVec 16) (irq : Bool) (a : Word)
  | callFull (c : Chan) (q : BitVec 16) (irq : Bool) (a : Word)
  | retFull (c : Chan) (q : BitVec 16) (irq : Bool) (a : Word)
  | endFull (c : Chan) (q : BitVec 16) (irq : Bool) (a : Word)
  | refeSimple (c : Chan) (q : BitVec 16) (irq : Bool) (a : Word)
  | cntSimple (c : Chan) (q : BitVec 16) (irq : Bool) (a : Word)
  | nextSimple (c : Chan) (q : BitVec 16) (irq : Bool) (a : Word)
  | refSimple (c : Chan) (q : BitVec 16) (irq : Bool) (a : Word)
  | refsSimple (c : Chan) (q : BitVec 16) (irq : Bool) (a : Word)
  | callSimple (c : Chan) (q : BitVec 16) (irq : Bool) (a : Word)
  | retSimple (c : Chan) (q : BitVec 16) (irq : Bool) (a : Word)
  | endSimple (c : Chan) (q : BitVec 16) (irq : Bool) (a : Word)
  | wChcr (c : Chan) (v : Word)
  | rChcr (c : Chan)
  | wMadr (c : Chan) (v : Word)
  | rMadr (c : Chan)
  | wQwc (c : Chan) (v : Word)
  | rQwc (c : Chan)
  | wTadr (c : Chan) (v : Word)
  | rTadr (c : Chan)
  | wAsr0 (c : Chan) (v : Word)
  | rAsr0 (c : Chan)
  | wAsr1 (c : Chan) (v : Word)
  | rAsr1 (c : Chan)
  | wCtrl (v : Word)
  | rCtrl
  | wStat (v : Word)
  | rStat
  | wStadrS (v : Word)
  | rStadrS
  | wStadrD (v : Word)
  | rStadrD
  | rFstatGpath
  | wFstatGpath (v : Word)
  | rFstatBridge
  | wFstatBridge (v : Word)
  | rEnabler
  | wEnablew (v : Word)
  | wIoIstat (v : Word)
  | rIoIstat
  | wIoImask (v : Word)
  | rIoImask
  | wUnmapped (p : Domain) (a : Word) (v : Word)
  | rUnmapped (p : Domain) (a : Word)
  | eventDmaContMain (c : Chan) (w : Word)
  | eventDmaContIo (k : Fin 10) (w : Word)
  | eventIntTest (p : Domain) (w : Word)
  | eventBridgeStepIo (w : Word)
  | eventBridgeStepMain (w : Word)
  | eventTimer (p : Domain) (j : Fin 4) (w : Word)
deriving DecidableEq, Repr

end Sys2Proof
end

