-- ==== Sys2Proof/Config.lean ====
section
/-! DEFINITION. What an implementation fixes and what the environment answers: the parameters of
rules R5, R6 and R12 as plain data (`Config`), the answers of the external collaborators of rule R7 (`Answers`,
`Region`), and the free values, opaque constants that stand for every parameter and answer that no source
gives a value. -/

namespace Sys2Proof

/-! ## Parameters (rule R6) -/

/-- One entry of `stepDelta(c, m)`: a step of `chan` that moved `moved` units is followed by its
continuation event after `cycles` cycles. -/
structure StepDelta where
  chan : Chan
  moved : Nat
  cycles : Nat
deriving DecidableEq, Repr, Inhabited

/-- The bit position of every named field of a register and of a tag: the layouts, keyed by field name
(rules R12, R22, R32, R33, R35, R37, R44, R81; decisions D2, D6, D14, D15, D17, D23 of the spec). Each is
the lowest bit of its field. -/
structure Layout where
  /-- `CHCR.STR`, one bit. -/
  chcrSTR : Nat
  /-- `CHCR.DIR`, one bit. -/
  chcrDIR : Nat
  /-- `CHCR.MOD`, two bits. -/
  chcrMOD : Nat
  /-- `CHCR.STM`, two bits. -/
  chcrSTM : Nat
  /-- `CHCR.CHOP`, three bits. -/
  chcrCHOP : Nat
  /-- `CHCR.TIE`, one bit. -/
  chcrTIE : Nat
  /-- `CHCR.ASP`, two bits. -/
  chcrASP : Nat
  /-- `CTRL.DMAE`, one bit. -/
  ctrlDMAE : Nat
  /-- `CPND` in `ENABLEW` and `ENABLER`, one bit. -/
  enableCPND : Nat
  /-- `STAT.CIS`, one bit for each channel. -/
  statCIS : Nat
  /-- `STAT.SIS`, one bit. -/
  statSIS : Nat
  /-- `STAT.BEIS`, one bit. -/
  statBEIS : Nat
  /-- `STAT.CIM`, one bit for each channel. -/
  statCIM : Nat
  /-- `STAT.SIM`, one bit. -/
  statSIM : Nat
  /-- The channel bits of `IO_ISTAT` and `IO_IMASK`, one for each channel. -/
  ioCH : Nat
  /-- `FSTAT.COUNT`, eight bits. -/
  fstatCOUNT : Nat
  /-- `FSTAT.EMPTY`, one bit. -/
  fstatEMPTY : Nat
  /-- `FSTAT.FULL`, one bit. -/
  fstatFULL : Nat
  /-- Tag field `QWC`, sixteen bits. -/
  tagQWC : Nat
  /-- Tag field `ID`, three bits. -/
  tagID : Nat
  /-- Tag field `IRQ`, one bit. -/
  tagIRQ : Nat
  /-- Tag field `ADDR`, 32 bits. -/
  tagADDR : Nat
deriving DecidableEq, Repr

/-- The numbers that the document itself gives (rules R5, R12). The rules read each of them here, and a
configuration may change each of them within what the types of this model hold (`Literals.valid`, log entry
32); the two sets that the rules name member by member, the domains and the FIFOs, have two members. -/
structure Literals where
  /-- `NCH`, the number of channels. -/
  nch : Nat
  /-- `UNIT` in bits. -/
  unitBits : Nat
  /-- `ASP_MAX`, the depth of the address stack. -/
  aspMax : Nat
  /-- How many low bits of a written `QWC` are significant (rule R25). -/
  qwcBits : Nat
  /-- `QWC_ZERO_EFFECTIVE` (rule R103). -/
  qwcZeroEffective : Nat
  /-- `NDOM`, the number of clock domains. -/
  ndom : Nat
  /-- `NFIFO`, the number of FIFOs. -/
  nfifo : Nat
  /-- `TAG_OPCODE_BITS`. -/
  tagOpcodeBits : Nat
deriving DecidableEq, Repr

/-- The parameters of rules R5, R6 and R12, fixed for a run (rule R47). They stand in `State` as plain data
that no step writes, so a statement about every state speaks of every configuration. -/
structure Config where
  /-- The bit positions of the named fields. -/
  layout : Layout
  /-- The document's numbers (rule R5). -/
  literals : Literals
  /-- `CYCLE_BITS`, the width of each cycle counter: 32. -/
  cycleBits : Nat
  /-- `RATIO`, main-CPU cycles per I/O-CPU cycle. -/
  ratio : Nat
  /-- `CAP_GPATH`. -/
  capGpath : Nat
  /-- `CAP_BRIDGE`. -/
  capBridge : Nat
  /-- `FULL_THRESHOLD(GPATH)`. -/
  fullGpath : Nat
  /-- `FULL_THRESHOLD(BRIDGE)`. -/
  fullBridge : Nat
  /-- `ND_GPATH`. -/
  ndGpath : Nat
  /-- `ND_BRIDGE`. -/
  ndBridge : Nat
  /-- `INT_DELTA`. -/
  intDelta : Nat
  /-- `INT_LATENCY_MAX`; `none` leaves it open. -/
  intLatencyMax : Option Nat
  /-- `RETEST_DELTA`; `none` leaves it open, and the free value `Config.freeRetestDelta` stands for it. -/
  retestDelta : Option Nat
  /-- The known values of `stepDelta(c, m)`; where no entry speaks, the free value
  `Config.freeStepDelta` stands for it. -/
  stepDeltas : List StepDelta
  /-- `walkerVariant(c)`. -/
  walker : Vector Variant 10
  /-- `ioVisible(c)`. -/
  ioVisible : Vector Bool 10
  /-- `fifoOf(c)`. -/
  fifoOf : Vector (Option FifoId) 10
  /-- `ioRelevant(k)`. -/
  ioRelevant : Vector Bool 16
  /-- `MMIO_MAP`, indexed by `RegName.index`. -/
  mmio : Vector Word 70
  /-- The opcode that each value of the `ID` field names, if any (rule R82). -/
  tagCode : Vector (Option TagOp) 8
deriving DecidableEq, Repr

/-- `UNIT` in bytes: 16 (rule R5). -/
def Config.unit (cfg : Config) : Nat := cfg.literals.unitBits / 8

/-- The channel is one of the `NCH` channels of the block (rules R5, R20). -/
def Config.hasChan (cfg : Config) (c : Chan) : Bool := decide (c.val < cfg.literals.nch)

/-! ## Answers of the environment (rule R7) -/

/-- What an agent outside the block, or the external handler of an event, may do to it (rules R11, R40,
R204). `notify c d` is the I/O bridge endpoint bringing the continuation of bridge channel `c` forward, to `d`
IO cycles from now. -/
inductive ExtOp where
  | arm (p : Domain) (k : Kind) (d : Nat) (w : Word)
  | cancel (p : Domain) (k : Kind)
  | pathRequest (f : FifoId) (i : Nat) (b : Bool)
  | arbWriteDirect (f : FifoId) (i : Nat) (d : List Qword)
  | setPathMask (f : FifoId) (i : Nat) (b : Bool)
  | fifoDrain (f : FifoId) (k : Nat)
  | notify (c : Chan) (d : Nat)
  | chanUnmasked (c : Chan)
  | workerPost (s : Signal) (w : DWord)
deriving DecidableEq, Repr, Inhabited

/-- One set of answers of the external collaborators (rule R7, U4 to U6): consulted by one channel step,
one arbiter operation or one external handler, and then replaced by the next set. -/
structure Answers where
  /-- `chanMasked(c)`, one bit for each channel. -/
  masked : BitVec 10
  /-- `pathCanAccept(GPATH, i)`. -/
  acceptGpath : List Bool
  /-- `pathCanAccept(BRIDGE, i)`. -/
  acceptBridge : List Bool
  /-- How many units `UnitSink` is ready to take. -/
  sink : Nat
  /-- The units that `UnitSource` is ready to supply. -/
  source : List Qword
  /-- What an external event handler does. -/
  handler : List ExtOp
  /-- Which domain moves first where rule R176 admits either. -/
  turn : Domain
deriving DecidableEq, Repr, Inhabited

/-- A window of main memory that `Translate` maps (rule R61). -/
structure Region where
  base : Nat
  size : Nat
  readable : Bool
  writable : Bool
  /-- A device whose reads have side effects lies here (rule R66, U10). -/
  sideEffects : Bool
deriving DecidableEq, Repr, Inhabited

/-! ## Free values -/

/-- The answers of the environment when no script gives them, one set for each consultation (rule R7). -/
opaque Config.freeAnswers : Nat → Answers

/-- `Translate(a, rw)` when no region list is given; the first argument is the number of the atomic
operation, within which the answer is constant (rule R61). -/
opaque Config.freeTranslate : Nat → Word → Dir → Bool

/-- `stepDelta(c, m)` where the configuration has no entry (rule R6: open, no default). -/
opaque Config.freeStepDelta : Chan → Nat → Nat

/-- `RETEST_DELTA` where the configuration leaves it open (rule R6: open, no default). -/
opaque Config.freeRetestDelta : Nat

/-- `labelMerge(old, new)`: the payload after a second LABEL post before a take (U7). -/
opaque Config.freeLabelMerge : DWord → DWord → DWord

end Sys2Proof
end

