-- ==== Sys2Proof/WellFormed.lean ====
section
/-! DEFINITION. Which instructions an encoded input can stand for under a configuration: the checks that
the types of `Instr` leave open. -/

namespace Sys2Proof

/-- The register belongs to the block: a channel register to one of the `NCH` channels (rules R5, R20). -/
def Config.hasReg (cfg : Config) : RegName → Bool
  | .chan c _ => cfg.hasChan c
  | _ => true

/-- No register of processor `p` that answers accesses in direction `d` stands at address `a`
(rules R86, R245). -/
def WellFormed.unmapped (cfg : Config) (p : Domain) (d : Dir) (a : Word) : Bool :=
  RegName.all.all fun r => !(cfg.hasReg r && r.cpu == p && r.answers d && cfg.mmio[r.index.val] == a)

/-- A tag of opcode `op` that the walker `v` of channel `c` can meet: the channel is wired to that walker
(rule R145), some value of `ID` names the opcode (rule R82), and the bits of the address below one unit (3:0)
are zero (rule R83). -/
def WellFormed.tag (cfg : Config) (v : Variant) (op : TagOp) (c : Chan) (a : Word) : Bool :=
  cfg.walker[c.val] == v && cfg.tagCode.toList.contains (some op) && (a &&& BitVec.ofNat 32 (cfg.unit - 1)) == 0#32

/-- An unmapped access: 4-byte aligned (rule R220) at an address that maps nothing for the issuer. -/
def WellFormed.access (cfg : Config) (p : Domain) (d : Dir) (a : Word) : Bool :=
  a.toNat % 4 == 0 && WellFormed.unmapped cfg p d a

/-- The instructions that some encoded input stands for. A register access that a constructor names by its
register is well formed if the register belongs to the block, an event whatever its operands. -/
def WellFormed (cfg : Config) : Instr → Bool
  | .refeFull c _ _ a => WellFormed.tag cfg .full .refe c a
  | .cntFull c _ _ a => WellFormed.tag cfg .full .cnt c a
  | .nextFull c _ _ a => WellFormed.tag cfg .full .next c a
  | .refFull c _ _ a => WellFormed.tag cfg .full .ref c a
  | .refsFull c _ _ a => WellFormed.tag cfg .full .refs c a
  | .callFull c _ _ a => WellFormed.tag cfg .full .call c a
  | .retFull c _ _ a => WellFormed.tag cfg .full .ret c a
  | .endFull c _ _ a => WellFormed.tag cfg .full .end_ c a
  | .refeSimple c _ _ a => WellFormed.tag cfg .simple .refe c a
  | .cntSimple c _ _ a => WellFormed.tag cfg .simple .cnt c a
  | .nextSimple c _ _ a => WellFormed.tag cfg .simple .next c a
  | .refSimple c _ _ a => WellFormed.tag cfg .simple .ref c a
  | .refsSimple c _ _ a => WellFormed.tag cfg .simple .refs c a
  | .callSimple c _ _ a => WellFormed.tag cfg .simple .call c a
  | .retSimple c _ _ a => WellFormed.tag cfg .simple .ret c a
  | .endSimple c _ _ a => WellFormed.tag cfg .simple .end_ c a
  | .wUnmapped p a _ => WellFormed.access cfg p .write a
  | .rUnmapped p a => WellFormed.access cfg p .read a
  | .wChcr c _ => cfg.hasChan c
  | .rChcr c => cfg.hasChan c
  | .wMadr c _ => cfg.hasChan c
  | .rMadr c => cfg.hasChan c
  | .wQwc c _ => cfg.hasChan c
  | .rQwc c => cfg.hasChan c
  | .wTadr c _ => cfg.hasChan c
  | .rTadr c => cfg.hasChan c
  | .wAsr0 c _ => cfg.hasChan c
  | .rAsr0 c => cfg.hasChan c
  | .wAsr1 c _ => cfg.hasChan c
  | .rAsr1 c => cfg.hasChan c
  | .wCtrl _ => true
  | .rCtrl => true
  | .wStat _ => true
  | .rStat => true
  | .wStadrS _ => true
  | .rStadrS => true
  | .wStadrD _ => true
  | .rStadrD => true
  | .rFstatGpath => true
  | .wFstatGpath _ => true
  | .rFstatBridge => true
  | .wFstatBridge _ => true
  | .rEnabler => true
  | .wEnablew _ => true
  | .wIoIstat _ => true
  | .rIoIstat => true
  | .wIoImask _ => true
  | .rIoImask => true
  | .eventDmaContMain _ _ => true
  | .eventDmaContIo _ _ => true
  | .eventIntTest _ _ => true
  | .eventBridgeStepIo _ => true
  | .eventBridgeStepMain _ => true
  | .eventTimer _ _ _ => true

end Sys2Proof
end

