-- ==== Sys2Proof/Decode.lean ====
section
/-! DEFINITION. The three decoders of the block (rule R80), total on their inputs and rejecting by name,
and after them the encoder, written from the same layouts. A tag is read from its 16 bytes in memory
order, a register access from the issuing processor, the direction, the width, the address and the data,
and an event from the scheduler and its kind number. Before them stand the default layouts and the default
configuration. -/

namespace Sys2Proof

/-! ## Layouts and literals (decisions D2, D6, D14, D15, D17, D23 of the spec) -/

/-- The positions of the spec's layouts: `CHCR` (rule R22), `CTRL` (rule R32), the enabler pair (rule R33),
`STAT` (rule R35), the IO pair (rule R37), `FSTAT` (rule R44) and a tag (rule R81). -/
def Layout.default : Layout where
  chcrSTR := 0
  chcrDIR := 1
  chcrMOD := 2
  chcrSTM := 4
  chcrCHOP := 6
  chcrTIE := 9
  chcrASP := 24
  ctrlDMAE := 0
  enableCPND := 16
  statCIS := 0
  statSIS := 13
  statBEIS := 15
  statCIM := 16
  statSIM := 29
  ioCH := 0
  fstatCOUNT := 0
  fstatEMPTY := 8
  fstatFULL := 9
  tagQWC := 0
  tagID := 28
  tagIRQ := 31
  tagADDR := 32

/-- Fields given as position and width, none reaching past `size` and no two sharing a bit. -/
def fieldsApart (size : Nat) : List (Nat × Nat) → Bool
  | [] => true
  | x :: l =>
    decide (x.1 + x.2 ≤ size) && l.all (fun y => decide (x.1 + x.2 ≤ y.1) || decide (y.1 + y.2 ≤ x.1)) &&
      fieldsApart size l

/-- The fields of `CHCR` stand apart (rule R22). -/
def Layout.chcrValid (l : Layout) : Bool :=
  fieldsApart 32 [(l.chcrSTR, 1), (l.chcrDIR, 1), (l.chcrMOD, 2), (l.chcrSTM, 2), (l.chcrCHOP, 3),
    (l.chcrTIE, 1), (l.chcrASP, 2)]

/-- The fields of `STAT` stand apart, with `n` channels, and a mask bit stands as far above its status bit for
the stall as for the channels (rules R35, R38). -/
def Layout.statValid (l : Layout) (n : Nat) : Bool :=
  fieldsApart 32 [(l.statCIS, n), (l.statSIS, 1), (l.statBEIS, 1), (l.statCIM, n), (l.statSIM, 1)] &&
    decide (l.statCIS < l.statCIM) && decide (l.statSIM + l.statCIS = l.statSIS + l.statCIM)

/-- The fields of `FSTAT` stand apart (rule R44). -/
def Layout.fstatValid (l : Layout) : Bool :=
  fieldsApart 32 [(l.fstatCOUNT, 8), (l.fstatEMPTY, 1), (l.fstatFULL, 1)]

/-- The fields of a tag, which is one unit, stand apart (rule R81). -/
def Layout.tagValid (l : Layout) (x : Literals) : Bool :=
  fieldsApart x.unitBits [(l.tagQWC, 16), (l.tagID, x.tagOpcodeBits), (l.tagIRQ, 1), (l.tagADDR, 32)]

/-- Every field lies inside its register or tag, and no two fields of one share a bit. -/
def Layout.valid (l : Layout) (x : Literals) : Bool :=
  l.chcrValid && l.statValid x.nch && l.fstatValid && l.tagValid x && decide (l.ctrlDMAE < 32) &&
    decide (l.enableCPND < 32) && decide (l.ioCH + x.nch ≤ 32)

/-- The document's numbers as written (rules R5, R12). -/
def Literals.written : Literals where
  nch := 10
  unitBits := 128
  aspMax := 2
  qwcBits := 16
  qwcZeroEffective := 0x10000
  ndom := 2
  nfifo := 2
  tagOpcodeBits := 3

/-- The numbers stay within what the types and the registers hold: at most ten channels, a unit of 8, 16, 32, 64
or 128 bits (the width of a unit is a power of two, as forced-zero address bits need), a stack of at most two
slots, a count of at most 16 bits in a tag, a count of at most 17 bits in `QWC`, an opcode of at most three
bits (rules R20, R25, R27, R63, R81). -/
def Literals.valid (x : Literals) : Bool :=
  decide (1 ≤ x.nch) && decide (x.nch ≤ 10) && [8, 16, 32, 64, 128].contains x.unitBits &&
    decide (x.aspMax ≤ 2) && decide (x.qwcBits ≤ 16) && decide (1 ≤ x.qwcZeroEffective) &&
    decide (x.qwcZeroEffective ≤ 0x10000) && decide (x.ndom = 2) && decide (x.nfifo = 2) &&
    decide (x.tagOpcodeBits ≤ 3)

/-! ## The default configuration -/

/-- The window bases of rule R65. -/
def Config.defaultBases : List Word :=
  [0x10008000#32, 0x10009000#32, 0x1000A000#32, 0x1000B000#32, 0x1000B400#32,
   0x1000C000#32, 0x1000C400#32, 0x1000C800#32, 0x1000D000#32, 0x1000D400#32]

/-- The default `MMIO_MAP` of rule R65, in the order of `RegName.index`. -/
def Config.defaultMmioList : List Word :=
  Config.defaultBases.flatMap (fun b => [b, b + 0x10#32, b + 0x20#32, b + 0x30#32, b + 0x40#32, b + 0x50#32]) ++
    [0x1000E000#32, 0x1000E010#32, 0x1000E060#32, 0x1000E070#32, 0x1000E080#32, 0x1000E090#32,
     0x1000F520#32, 0x1000F590#32, 0x1F801070#32, 0x1F801074#32]

/-- The defaults of rule R6, with the layouts and the numbers as written; the parameters without a default
are left open. -/
def Config.default : Config where
  layout := Layout.default
  literals := Literals.written
  cycleBits := 32
  ratio := 8
  capGpath := 16
  capBridge := 32
  fullGpath := 16
  fullBridge := 32
  ndGpath := 2
  ndBridge := 1
  intDelta := 4
  intLatencyMax := none
  retestDelta := none
  stepDeltas := []
  walker := #v[.full, .full, .full, .simple, .simple, .simple, .simple, .simple, .simple, .simple]
  ioVisible := #v[false, false, false, false, false, true, true, true, false, false]
  fifoOf := #v[none, none, some .gpath, none, none, some .bridge, some .bridge, some .bridge, none, none]
  ioRelevant := #v[false, false, false, false, false, true, true, true, false, false, true, true,
    false, false, false, false]
  mmio := ⟨Config.defaultMmioList.toArray, rfl⟩
  tagCode := #v[some .refe, some .cnt, some .next, some .ref, some .refs, some .call, some .ret, some .end_]

/-! ## Bit-field and byte-order helpers -/

/-- The bits below one unit, bits 3:0, forced to zero (rules R24, R63). -/
def Config.align (cfg : Config) (v : Word) : Word := v &&& ~~~BitVec.ofNat 32 (cfg.unit - 1)

/-- The value of a unit: its low `UNIT` bits. -/
def Config.cut (cfg : Config) (q : Qword) : Qword := (q.setWidth cfg.literals.unitBits).setWidth 128

/-- The unit whose bytes these are in ascending address order: byte 0 in bits 7:0 (rule R62). -/
def qwordOfBytes (l : List Byte) : Qword :=
  l.foldr (fun b acc => (acc <<< 8) ||| b.setWidth 128) 0#128

/-- The first `n` bytes of a unit in ascending address order (rule R62). -/
def qwordBytes (n : Nat) (q : Qword) : List Byte :=
  (List.range n).map fun i => q.extractLsb' (8 * i) 8

/-! ## The channel bits of the status words -/

/-- One bit for each channel from bit 0 on: bits 9:0 (rules R35, R37). -/
def Config.chanBits (cfg : Config) : Word := BitVec.ofNat 32 (2 ^ cfg.literals.nch - 1)

/-- The status bits of `STAT`, cleared by writing 1: `CIS`, `SIS`, `BEIS` (rule R35). -/
def Config.statStatusMask (cfg : Config) : Word :=
  (cfg.chanBits <<< cfg.layout.statCIS) ||| (1#32 <<< cfg.layout.statSIS) ||| (1#32 <<< cfg.layout.statBEIS)

/-- The mask bits of `STAT`, toggled by writing 1: `CIM`, `SIM` (rule R35). -/
def Config.statMaskMask (cfg : Config) : Word :=
  (cfg.chanBits <<< cfg.layout.statCIM) ||| (1#32 <<< cfg.layout.statSIM)

/-- The bits of `pending[MAIN]`: `CIS`, `SIS` (rule R38). -/
def Config.statPendingMask (cfg : Config) : Word :=
  (cfg.chanBits <<< cfg.layout.statCIS) ||| (1#32 <<< cfg.layout.statSIS)

/-- The channel bits of `IO_ISTAT` and `IO_IMASK` (rule R37). -/
def Config.ioMask (cfg : Config) : Word := cfg.chanBits <<< cfg.layout.ioCH

/-! ## Encoded inputs -/

/-- An encoded input together with the part of the machine that reads it (rule R80). -/
inductive Encoded where
  | tag (c : Chan) (bytes : List Byte)
  | access (p : Domain) (d : Dir) (width : Nat) (a : Word) (v : Word)
  | event (p : Domain) (k : BitVec 4) (w : Word)
deriving DecidableEq, Repr

/-- Why an encoded input stands for no instruction. -/
inductive Reject where
  /-- Fewer or more bytes than one unit, 16, were given as a tag (rule R90: the length is fixed). -/
  | tagLength
  /-- The configured opcode table leaves this `ID` undefined (rule R82); the walkers of rules R139 and
  R144 handle it. -/
  | undefinedOpcode (id : TagId)
  /-- A register access that is not 32 bits wide (rule R64, U2). -/
  | accessWidth
  /-- A register access at an address that is no multiple of 4 (rule R64, U2). -/
  | accessMisaligned
deriving DecidableEq, Repr

/-! ## Tags -/

/-- The fields of a tag as rule R83 assembles them. -/
structure TagWord where
  id : TagId
  q : BitVec 16
  irq : Bool
  a : Word
deriving DecidableEq, Repr

/-- Operand assembly from a tag (rules R81, R83); the bits outside the four fields (27:16 and 127:64) are
not read (rule R84). -/
def tagFields (cfg : Config) (t : Qword) : TagWord where
  id := (t.extractLsb' cfg.layout.tagID cfg.literals.tagOpcodeBits).setWidth 3
  q := t.extractLsb' cfg.layout.tagQWC 16
  irq := t.getLsbD cfg.layout.tagIRQ
  a := cfg.align (t.extractLsb' cfg.layout.tagADDR 32)

/-- The opcode that the configured table gives an `ID` value (rule R82). -/
def Config.tagOp (cfg : Config) (id : TagId) : Option TagOp :=
  cfg.tagCode[id.toNat]'(by have := id.isLt; omega)

/-- The instruction of an opcode on a walker. -/
def tagInstr (v : Variant) (op : TagOp) (c : Chan) (q : BitVec 16) (irq : Bool) (a : Word) : Instr :=
  match v, op with
  | .full, .refe => .refeFull c q irq a
  | .full, .cnt => .cntFull c q irq a
  | .full, .next => .nextFull c q irq a
  | .full, .ref => .refFull c q irq a
  | .full, .refs => .refsFull c q irq a
  | .full, .call => .callFull c q irq a
  | .full, .ret => .retFull c q irq a
  | .full, .end_ => .endFull c q irq a
  | .simple, .refe => .refeSimple c q irq a
  | .simple, .cnt => .cntSimple c q irq a
  | .simple, .next => .nextSimple c q irq a
  | .simple, .ref => .refSimple c q irq a
  | .simple, .refs => .refsSimple c q irq a
  | .simple, .call => .callSimple c q irq a
  | .simple, .ret => .retSimple c q irq a
  | .simple, .end_ => .endSimple c q irq a

/-- The tag decoder of channel `c` (rules R81 to R83); the wiring selects the walker (rule R80). -/
def decodeTag (cfg : Config) (c : Chan) (bytes : List Byte) : Except Reject Instr :=
  if bytes.length = cfg.unit then
    let t := tagFields cfg (qwordOfBytes bytes)
    match cfg.tagOp t.id with
    | some op => .ok (tagInstr cfg.walker[c.val] op c t.q t.irq t.a)
    | none => .error (.undefinedOpcode t.id)
  else .error .tagLength

/-! ## Register accesses -/

/-- The address of a register (rule R65). -/
def Config.addr (cfg : Config) (r : RegName) : Word := cfg.mmio[r.index.val]

/-- The register of the block that processor `p` reaches at address `a` in direction `d`: exact match (rule
R86). -/
def Config.regAt (cfg : Config) (p : Domain) (d : Dir) (a : Word) : Option RegName :=
  RegName.all.find? fun r => cfg.hasReg r && r.cpu == p && r.answers d && cfg.addr r == a

/-- The write of value `v` to a register. `ENABLER` answers no write (rule R234). -/
def writeInstr (a v : Word) : RegName → Instr
  | .chan c .chcr => .wChcr c v
  | .chan c .madr => .wMadr c v
  | .chan c .qwc => .wQwc c v
  | .chan c .tadr => .wTadr c v
  | .chan c .asr0 => .wAsr0 c v
  | .chan c .asr1 => .wAsr1 c v
  | .ctrl => .wCtrl v
  | .stat => .wStat v
  | .stadrS => .wStadrS v
  | .stadrD => .wStadrD v
  | .fstat .gpath => .wFstatGpath v
  | .fstat .bridge => .wFstatBridge v
  | .enabler => .wUnmapped .main a v
  | .enablew => .wEnablew v
  | .ioIstat => .wIoIstat v
  | .ioImask => .wIoImask v

/-- The read of a register. `ENABLEW` answers no read (rule R234). -/
def readInstr (a : Word) : RegName → Instr
  | .chan c .chcr => .rChcr c
  | .chan c .madr => .rMadr c
  | .chan c .qwc => .rQwc c
  | .chan c .tadr => .rTadr c
  | .chan c .asr0 => .rAsr0 c
  | .chan c .asr1 => .rAsr1 c
  | .ctrl => .rCtrl
  | .stat => .rStat
  | .stadrS => .rStadrS
  | .stadrD => .rStadrD
  | .fstat .gpath => .rFstatGpath
  | .fstat .bridge => .rFstatBridge
  | .enabler => .rEnabler
  | .enablew => .rUnmapped .main a
  | .ioIstat => .rIoIstat
  | .ioImask => .rIoImask

/-- The register window (rule R86): 32-bit aligned accesses only (rule R64), a mapped address selects its
register's operation, any other address the unmapped one (rule R245). -/
def decodeAccess (cfg : Config) (p : Domain) (d : Dir) (width : Nat) (a v : Word) : Except Reject Instr :=
  if width ≠ 32 then .error .accessWidth
  else if a.toNat % 4 ≠ 0 then .error .accessMisaligned
  else
    match d, cfg.regAt p d a with
    | .write, some r => .ok (writeInstr a v r)
    | .write, none => .ok (.wUnmapped p a v)
    | .read, some r => .ok (readInstr a r)
    | .read, none => .ok (.rUnmapped p a)

/-! ## Events -/

/-- The handler that kind `k` selects in the scheduler of domain `p` (rules R40, R157). -/
def decodeEvent (p : Domain) (k : Kind) (w : Word) : Instr :=
  if h : k.val < 10 then
    match p with
    | .main => .eventDmaContMain ⟨k.val, h⟩ w
    | .io => .eventDmaContIo ⟨k.val, h⟩ w
  else if k.val = 10 then .eventIntTest p w
  else if k.val = 11 then
    match p with
    | .main => .eventBridgeStepMain w
    | .io => .eventBridgeStepIo w
  else .eventTimer p ⟨k.val - 12, by omega⟩ w

/-- The decoder of the block over its three kinds of input (rule R80). -/
def decode (cfg : Config) : Encoded → Except Reject Instr
  | .tag c bytes => decodeTag cfg c bytes
  | .access p d width a v => decodeAccess cfg p d width a v
  | .event p k w => .ok (decodeEvent p k.toFin w)

/-! ## The encoder -/

/-- The `ID` value of an opcode: the least one that the configured table gives it (rule R82). -/
def Config.codeOf (cfg : Config) (op : TagOp) : TagId :=
  match (List.finRange 8).find? (fun i => cfg.tagCode[i.val] == some op) with
  | some i => BitVec.ofFin i
  | none => 0#3

/-- The 128 bits of a tag, ignored bits zero (rules R81, R89). -/
def tagBits (l : Layout) (id : TagId) (q : BitVec 16) (irq : Bool) (a : Word) : Qword :=
  (q.setWidth 128 <<< l.tagQWC) ||| (id.setWidth 128 <<< l.tagID) |||
    ((BitVec.ofBool irq).setWidth 128 <<< l.tagIRQ) ||| (a.setWidth 128 <<< l.tagADDR)

/-- A tag as its 16 bytes in memory order. -/
def encodeTag (cfg : Config) (op : TagOp) (c : Chan) (q : BitVec 16) (irq : Bool) (a : Word) : Encoded :=
  .tag c (qwordBytes cfg.unit (tagBits cfg.layout (cfg.codeOf op) q irq a))

/-- A 32-bit write of `v` to register `r` by the processor that reaches it. -/
def encodeWrite (cfg : Config) (r : RegName) (v : Word) : Encoded :=
  .access r.cpu .write 32 (cfg.addr r) v

/-- A 32-bit read of register `r`; a read carries no data. -/
def encodeRead (cfg : Config) (r : RegName) : Encoded :=
  .access r.cpu .read 32 (cfg.addr r) 0#32

/-- The encoded input that stands for an instruction. -/
def encode (cfg : Config) : Instr → Encoded
  | .refeFull c q irq a => encodeTag cfg .refe c q irq a
  | .cntFull c q irq a => encodeTag cfg .cnt c q irq a
  | .nextFull c q irq a => encodeTag cfg .next c q irq a
  | .refFull c q irq a => encodeTag cfg .ref c q irq a
  | .refsFull c q irq a => encodeTag cfg .refs c q irq a
  | .callFull c q irq a => encodeTag cfg .call c q irq a
  | .retFull c q irq a => encodeTag cfg .ret c q irq a
  | .endFull c q irq a => encodeTag cfg .end_ c q irq a
  | .refeSimple c q irq a => encodeTag cfg .refe c q irq a
  | .cntSimple c q irq a => encodeTag cfg .cnt c q irq a
  | .nextSimple c q irq a => encodeTag cfg .next c q irq a
  | .refSimple c q irq a => encodeTag cfg .ref c q irq a
  | .refsSimple c q irq a => encodeTag cfg .refs c q irq a
  | .callSimple c q irq a => encodeTag cfg .call c q irq a
  | .retSimple c q irq a => encodeTag cfg .ret c q irq a
  | .endSimple c q irq a => encodeTag cfg .end_ c q irq a
  | .wChcr c v => encodeWrite cfg (.chan c .chcr) v
  | .rChcr c => encodeRead cfg (.chan c .chcr)
  | .wMadr c v => encodeWrite cfg (.chan c .madr) v
  | .rMadr c => encodeRead cfg (.chan c .madr)
  | .wQwc c v => encodeWrite cfg (.chan c .qwc) v
  | .rQwc c => encodeRead cfg (.chan c .qwc)
  | .wTadr c v => encodeWrite cfg (.chan c .tadr) v
  | .rTadr c => encodeRead cfg (.chan c .tadr)
  | .wAsr0 c v => encodeWrite cfg (.chan c .asr0) v
  | .rAsr0 c => encodeRead cfg (.chan c .asr0)
  | .wAsr1 c v => encodeWrite cfg (.chan c .asr1) v
  | .rAsr1 c => encodeRead cfg (.chan c .asr1)
  | .wCtrl v => encodeWrite cfg .ctrl v
  | .rCtrl => encodeRead cfg .ctrl
  | .wStat v => encodeWrite cfg .stat v
  | .rStat => encodeRead cfg .stat
  | .wStadrS v => encodeWrite cfg .stadrS v
  | .rStadrS => encodeRead cfg .stadrS
  | .wStadrD v => encodeWrite cfg .stadrD v
  | .rStadrD => encodeRead cfg .stadrD
  | .rFstatGpath => encodeRead cfg (.fstat .gpath)
  | .wFstatGpath v => encodeWrite cfg (.fstat .gpath) v
  | .rFstatBridge => encodeRead cfg (.fstat .bridge)
  | .wFstatBridge v => encodeWrite cfg (.fstat .bridge) v
  | .rEnabler => encodeRead cfg .enabler
  | .wEnablew v => encodeWrite cfg .enablew v
  | .wIoIstat v => encodeWrite cfg .ioIstat v
  | .rIoIstat => encodeRead cfg .ioIstat
  | .wIoImask v => encodeWrite cfg .ioImask v
  | .rIoImask => encodeRead cfg .ioImask
  | .wUnmapped p a v => .access p .write 32 a v
  | .rUnmapped p a => .access p .read 32 a 0#32
  | .eventDmaContMain c w => .event .main (BitVec.ofNat 4 c.val) w
  | .eventDmaContIo k w => .event .io (BitVec.ofNat 4 k.val) w
  | .eventIntTest p w => .event p 10#4 w
  | .eventBridgeStepIo w => .event .io 11#4 w
  | .eventBridgeStepMain w => .event .main 11#4 w
  | .eventTimer p j w => .event p (BitVec.ofNat 4 (12 + j.val)) w

/-! ## The words of the opcode table -/

/-- The access that a 32-bit word of the opcode table names under the default `MMIO_MAP`: the offset of a
channel register (taken on channel 0) or the address of a register of either processor. The table gives
the write row and the read row of a register one word; the write is taken, except at `ENABLER`, which
answers reads only. -/
def tableAccess (w : Nat) : Option Encoded :=
  let a := if w < 0x60 then 0x10008000#32 + BitVec.ofNat 32 w else BitVec.ofNat 32 w
  match RegName.all.find? (fun r => Config.default.addr r == a) with
  | some r => some (.access r.cpu (if r.answers .write then .write else .read) 32 a 0#32)
  | none => none

/-- How a word of the opcode table is laid out: 8 bits or fewer are an event kind of the MAIN scheduler;
32 bits or fewer that name a register are an access to it; any other word is a tag, its bits above
`nbits` zero, read by channel 0 (which is wired to the full walker). -/
def tableEncoded (nbits w : Nat) : Option Encoded :=
  if nbits ≤ 8 then (if w < 16 then some (.event .main (BitVec.ofNat 4 w) 0#32) else none)
  else if nbits ≤ 32 then
    match tableAccess w with
    | some e => some e
    | none => some (.tag 0 (qwordBytes Config.default.unit (BitVec.ofNat 128 w)))
  else some (.tag 0 (qwordBytes Config.default.unit (BitVec.ofNat 128 w)))

/-- The instruction the decoder reads from a word of the opcode table. -/
def decodeTableWord (nbits w : Nat) : Option Instr :=
  match tableEncoded nbits w with
  | some e =>
    match decode Config.default e with
    | .ok i => some i
    | .error _ => none
  | none => none

end Sys2Proof
end

