-- ==== Sys2Proof/Machine/State.lean ====
section
/-! DEFINITION. The state of the block as plain data (rules R20 to R46), the environment that stands
beside it (rules R7, R47), the reasons a step can stop, and the state after reset (rule R48). -/

namespace Sys2Proof.Machine

/-! ## The channels -/

/-- One DMA channel: its six registers (rules R20 to R27), its hidden state (rule R29) and its bit of the
`queued` mask (rule R30). `CHCR` is held field by field, so its reserved bits, which read as zero and
ignore writes (rule R22), are not stored. -/
structure Channel where
  /-- `CHCR.STR`, start/busy. -/
  str : Bool
  /-- `CHCR.DIR`: true is memory to unit. -/
  dir : Bool
  /-- `CHCR.MOD` as stored (rule R23). -/
  mod : BitVec 2
  /-- `CHCR.STM`. -/
  stm : BitVec 2
  /-- `CHCR.CHOP`, stored and read back only. -/
  chop : BitVec 3
  /-- `CHCR.TIE`. -/
  tie : Bool
  /-- `CHCR.ASP`, 0 .. 2 (rule R27). -/
  asp : BitVec 2
  madr : Word
  /-- `QWC`, a count of units 0 .. 0x10000 (rule R25). -/
  qwc : Nat
  tadr : Word
  asr0 : Word
  asr1 : Word
  /-- `done[c]`. -/
  done : Bool
  /-- `curOp[c]`: `none` is NONE, otherwise the opcode value of the tag in transfer. -/
  curOp : Option TagId
  /-- `queued[c]`. -/
  queued : Bool
deriving DecidableEq, Repr, Inhabited

/-! ## The schedulers -/

/-- One event slot (rule R39): the arm bit and the armed instance. -/
structure Slot where
  armed : Bool
  start : Word
  delta : Word
  payload : Word
deriving DecidableEq, Repr, Inhabited

/-- The scheduler of one domain (rule R39). -/
structure Sched where
  cycle : Word
  slots : Vector Slot 16
  nextValid : Bool
  nextEvent : Word
  /-- `S` of rule R155 while a pass runs: the kinds of its snapshot that have not fired. Empty otherwise. -/
  passSet : List Kind
deriving DecidableEq, Repr

/-! ## The FIFOs -/

/-- One FIFO with its status mirror and its arbiter (rules R43 to R45). -/
structure Fifo where
  data : List Qword
  readPos : Nat
  writePos : Nat
  size : Nat
  /-- `FSTAT[f]`, the stored CPU-visible mirror. -/
  fstat : Word
  /-- `req[f]`: bit `i` is direct producer `i`. -/
  req : List Bool
  /-- `PMASK[f]`: bit `i` is producer `i`. -/
  pmask : List Bool
deriving DecidableEq, Repr, Inhabited

/-- The worker mailbox (rule R46). -/
structure Mailbox where
  finish : Bool
  label : Bool
  signal : Bool
  /-- `wk.payload[0]`, of SIGNAL. -/
  payload0 : DWord
  /-- `wk.payload[1]`, of LABEL. -/
  payload1 : DWord
deriving DecidableEq, Repr, Inhabited

/-! ## The environment -/

/-- One operation that an agent of rule R11 performs next. The first five are the agents of the block's
two domains; `store`, `remap` and `reset` are the platform's. -/
inductive Op where
  /-- A register access by the CPU of `p` (rule R220). -/
  | access (p : Domain) (d : Dir) (width : Nat) (a : Word) (v : Word)
  /-- `Advance(p, n)` (rule R154). -/
  | advance (p : Domain) (n : Nat)
  /-- `Pass(p)` (rule R155). -/
  | pass (p : Domain)
  /-- `Reanchor()` outside a pass (rule R172). -/
  | reanchor
  /-- An external operation acting in domain `p` (rule R11). -/
  | ext (p : Domain) (e : ExtOp)
  /-- Another agent stores the bytes `d` in ascending order from address `a` of main memory (rule R73). How
  wide such a store may be, and how aligned, no rule says: DESIGN CHOICE, log entry 33, any number of bytes
  at any address, as one operation. -/
  | store (a : Word) (d : List Byte)
  /-- The windows that `Translate` maps change between operations (rule R61). -/
  | remap (rs : List Region)
  /-- `Reset` (rule R290). -/
  | reset
deriving DecidableEq, Repr

/-- What leaves the block. -/
inductive Output where
  /-- Units handed to `UnitSink(c, ..)` and taken by it (rule R7). -/
  | unit (c : Chan) (d : List Qword)
  /-- The result of `FifoDrain(f, ..)` (rule R203). -/
  | drained (f : FifoId) (d : List Qword)
  /-- The result of `ArbWriteDirect(f, i, ..)`: units consumed (rule R200). -/
  | accepted (f : FifoId) (i : Nat) (n : Nat)
  /-- A signal handed to the graphics subsystem by `WorkerTake`, with its payload word if it has one (rule R46). What
  is handed with FINISH, which has none, no rule says: DESIGN CHOICE, log entry 22, no word. -/
  | worker (s : Signal) (w : Option DWord)
deriving DecidableEq, Repr

/-! ## The state -/

/-- The machine. The first group is the block's own state, the second the environment and the parameters
it runs in (rule R47), which are the model's own fields. -/
structure State where
  /-- The channels; those from `NCH` of the configuration on are not part of the block. -/
  chans : Vector Channel 10
  /-- `CTRL.DMAE` (rule R32). -/
  dmae : Bool
  /-- `ENABLE.CPND` (rule R33). -/
  cpnd : Bool
  /-- `STAT` (rule R35). -/
  stat : Word
  /-- `STADR_S` (rule R36). -/
  stadrS : Word
  /-- `STADR_D` (rule R36). -/
  stadrD : Word
  /-- `IO_ISTAT` (rule R37). -/
  ioIstat : Word
  /-- `IO_IMASK` (rule R37). -/
  ioImask : Word
  /-- `exc[MAIN]` (rule R38). -/
  excMain : Bool
  /-- `exc[IO]` (rule R38). -/
  excIo : Bool
  schedMain : Sched
  schedIo : Sched
  /-- `mainAnchor` (rule R42). -/
  mainAnchor : Word
  /-- `ioAnchor` (rule R42). -/
  ioAnchor : Word
  /-- `residue` (rule R42). -/
  residue : Nat
  gpath : Fifo
  bridge : Fifo
  wk : Mailbox
  /-- Main memory: the listed bytes, addresses rising, no entry equal to what an unlisted one reads as. -/
  mem : List Host.Cell
  /-- The configuration (rules R5, R6, R12); no step writes it. -/
  cfg : Config
  /-- The windows that `Translate` maps; `none` leaves the answer to the free value. -/
  map : Option (List Region)
  /-- The environment's coming answers; where the list is empty, the free value answers. -/
  script : List Answers
  /-- How many sets of answers have been consulted: the argument of the free value. -/
  ticks : Nat
  /-- How many operations have been performed: the argument of the free translation. -/
  opCount : Nat
  /-- The I/O bridge endpoint has moved a unit through the bridge FIFO (rule R204, log entry 34). -/
  endpointMoved : Bool
  /-- The operations that the agents perform next, in the order of rule R70. -/
  agenda : List Op
  /-- The value the last read returned to the MAIN CPU. -/
  readMain : Word
  /-- The value the last read returned to the IO CPU. -/
  readIo : Word
  /-- What has left the block, newest first. -/
  out : List Output
deriving DecidableEq, Repr

/-! ## Why a step stops -/

/-- No fault exists: "There is no host-fatal error path inside this core" (rule R261). Every exceptional
condition of rule R260 is a state change. -/
inductive Fault
deriving DecidableEq, Repr

/-- The operations this model gives no meaning. Each refusal is safe: it stops where the hardware goes on,
and no claim about a next state speaks of it. -/
inductive Refusal where
  /-- Raised by `exec` for an instruction without a meaning. Safe. -/
  | notModelled (mnemonic : String)
  /-- Raised when `Continue(c)` reaches the Interleave arm, for which no source has a rule (rule R120,
  U1). Safe. -/
  | interleaveStep (c : Chan)
  /-- Raised for a register access that is not 32 bits wide or not 4-byte aligned (rules R64, R220, U2).
  Safe. -/
  | accessShape
  /-- Raised before any operation when a parameter is outside the range of rule R6 (U17). Safe. -/
  | configuration
  /-- Raised before any operation when a mapped window is a device whose reads have side effects (rule
  R66, U10). Safe. -/
  | sideEffectWindow
deriving DecidableEq, Repr

/-! ## Reset -/

/-- A channel after reset: all six registers 0, `done` 0, `curOp` NONE, not queued (rule R48). -/
def Channel.reset : Channel where
  str := false
  dir := false
  mod := 0#2
  stm := 0#2
  chop := 0#3
  tie := false
  asp := 0#2
  madr := 0#32
  qwc := 0
  tadr := 0#32
  asr0 := 0#32
  asr1 := 0#32
  done := false
  curOp := none
  queued := false

/-- A slot after reset. The arm bit is 0; the other three are unspecified (rule R48) and are zero here,
which no rule reads (log entry 3). -/
def Slot.reset : Slot where
  armed := false
  start := 0#32
  delta := 0#32
  payload := 0#32

/-- A scheduler after reset: cycle 0, nothing armed, no next event (rule R48), and no pass running. -/
def Sched.reset : Sched where
  cycle := 0#32
  slots := Vector.replicate 16 Slot.reset
  nextValid := false
  nextEvent := 0#32
  passSet := []

/-- A FIFO of `cap` units with `np` producers after reset: empty, `FSTAT` with `EMPTY` alone set (0x100), no
request, no mask (rule R48). The ring's contents are unspecified and are zero here (log entry 3). -/
def Fifo.reset (l : Layout) (cap np : Nat) : Fifo where
  data := List.replicate cap 0#128
  readPos := 0
  writePos := 0
  size := 0
  fstat := 1#32 <<< l.fstatEMPTY
  req := List.replicate np false
  pmask := List.replicate np false

/-- The mailbox after reset: no flag; the payload words are unspecified and are zero here (log entry 3). -/
def Mailbox.reset : Mailbox where
  finish := false
  label := false
  signal := false
  payload0 := 0#64
  payload1 := 0#64

/-- The number of producers of each FIFO under the default configuration: the direct paths and the
channels wired to it (rule R45). -/
def State.resetProducers : FifoId → Nat
  | .gpath => 3
  | .bridge => 4

/-- The machine right after reset (rules R48, R290, R291) under the default configuration, with no
operation offered yet, nothing stored in main memory and the memory map left open. -/
def State.reset : State where
  chans := Vector.replicate 10 Channel.reset
  dmae := false
  cpnd := false
  stat := 0#32
  stadrS := 0#32
  stadrD := 0#32
  ioIstat := 0#32
  ioImask := 0#32
  excMain := false
  excIo := false
  schedMain := Sched.reset
  schedIo := Sched.reset
  mainAnchor := 0#32
  ioAnchor := 0#32
  residue := 0
  gpath := Fifo.reset Layout.default 16 (State.resetProducers .gpath)
  bridge := Fifo.reset Layout.default 32 (State.resetProducers .bridge)
  wk := Mailbox.reset
  mem := []
  cfg := Config.default
  map := none
  script := []
  ticks := 0
  opCount := 0
  endpointMoved := false
  agenda := []
  readMain := 0#32
  readIo := 0#32
  out := []

end Sys2Proof.Machine
end

