-- ==== Sys2Proof/Machine/Operands.lean ====
section
/-! DEFINITION. Operand forms and parameters: cycle arithmetic (rule R9), the fields of a written `CHCR`
and the word a read returns (rules R22, R222), the addresses a tag names (rule R83), the channel register
writers with their forced-zero bits (rules R24 to R27), and the parameters of rule R6 as the rules read
them. -/

namespace Sys2Proof.Machine

/-! ## Cycle arithmetic (rule R9) -/

/-- `sdiff(a, b)` of rule R9: `(a - b) mod 2^32` read as a signed number. -/
def sdiff32 (a b : Word) : Int := (a - b).toInt

/-! ## `CHCR` (rules R22, R23, R221, R222) -/

/-- The modes that the mode selector names (rule R23). -/
inductive Mode where
  | normal
  | chain
  | interleave
deriving DecidableEq, Repr

/-- `effMode(MOD)`: the undefined value 3 behaves as Chain (rule R23). -/
def effMode (m : BitVec 2) : Mode :=
  if m = 0#2 then .normal else if m = 2#2 then .interleave else .chain

/-- A written stack depth: one above `ASP_MAX` (3) is stored as `ASP_MAX` (2) (rules R5, R22). -/
def clampAsp (m : Nat) (v : BitVec 2) : BitVec 2 := if m < v.toNat then BitVec.ofNat 2 m else v

/-- The fields other than `STR` that a `CHCR` write stores while `STR` = 0 (rule R221). -/
def Channel.storeFields (cfg : Config) (ch : Channel) (v : Word) : Channel :=
  { ch with
    dir := v.getLsbD cfg.layout.chcrDIR
    mod := v.extractLsb' cfg.layout.chcrMOD 2
    stm := v.extractLsb' cfg.layout.chcrSTM 2
    chop := v.extractLsb' cfg.layout.chcrCHOP 3
    tie := v.getLsbD cfg.layout.chcrTIE
    asp := clampAsp cfg.literals.aspMax (v.extractLsb' cfg.layout.chcrASP 2) }

/-- A flag as a word with the bit at position `i`. -/
def bitAt (b : Bool) (i : Nat) : Word := (BitVec.ofBool b).setWidth 32 <<< i

/-- The word a read of `CHCR` returns (rule R222). -/
def Channel.chcr (l : Layout) (ch : Channel) : Word :=
  bitAt ch.str l.chcrSTR ||| bitAt ch.dir l.chcrDIR ||| (ch.mod.setWidth 32 <<< l.chcrMOD) |||
    (ch.stm.setWidth 32 <<< l.chcrSTM) ||| (ch.chop.setWidth 32 <<< l.chcrCHOP) |||
    bitAt ch.tie l.chcrTIE ||| (ch.asp.setWidth 32 <<< l.chcrASP)

/-! ## The other channel registers -/

/-- A load of `MADR`: bits 3:0 forced to zero (rule R24). -/
def Channel.withMadr (ch : Channel) (cfg : Config) (v : Word) : Channel := { ch with madr := cfg.align v }

/-- A load of `TADR` (rule R26). -/
def Channel.withTadr (ch : Channel) (cfg : Config) (v : Word) : Channel := { ch with tadr := cfg.align v }

/-- A load of `ASR0` (rule R27). -/
def Channel.withAsr0 (ch : Channel) (cfg : Config) (v : Word) : Channel := { ch with asr0 := cfg.align v }

/-- A load of `ASR1` (rule R27). -/
def Channel.withAsr1 (ch : Channel) (cfg : Config) (v : Word) : Channel := { ch with asr1 := cfg.align v }

/-- A software write of `QWC`: the low `bits` (16) bits, zero-extended (rules R12, R25, R225). -/
def Channel.withQwc (bits : Nat) (ch : Channel) (v : Word) : Channel := { ch with qwc := v.toNat % 2 ^ bits }

/-- The word a read of `QWC` returns (rule R226). -/
def Channel.qwcWord (ch : Channel) : Word := BitVec.ofNat 32 ch.qwc

/-! ## Addresses of a tag (rule R83) -/

/-- `m` units as a byte distance, modulo 2^32 (rule R67). -/
def unitBytes (cfg : Config) (m : Nat) : Word := BitVec.ofNat 32 (cfg.unit * m)

/-- The address following the tag at `t`. -/
def postTag (cfg : Config) (t : Word) : Word := t + BitVec.ofNat 32 cfg.unit

/-- The address following the block of `q` units that follows the tag at `t`. -/
def postBlock (cfg : Config) (t : Word) (q : Nat) : Word := postTag cfg t + unitBytes cfg q

/-! ## Parameters (rule R6) -/

/-- The greatest delta an event may have (rule R163). -/
def maxDelta : Nat := 2147483647

/-- A free value brought into the range 1 .. 2^31 - 1 that rules R6 and R163 give it. -/
def inDeltaRange (x : Nat) : Nat := x % maxDelta + 1

/-- `stepDelta(c, m)`. -/
def stepDelta (cfg : Config) (c : Chan) (m : Nat) : Nat :=
  match cfg.stepDeltas.find? (fun e => e.chan == c && e.moved == m) with
  | some e => e.cycles
  | none => inDeltaRange (Config.freeStepDelta c m)

/-- `RETEST_DELTA`. -/
def retestDelta (cfg : Config) : Nat :=
  match cfg.retestDelta with
  | some d => d
  | none => inDeltaRange Config.freeRetestDelta

/-- `CAP(f)`. -/
def cap (cfg : Config) : FifoId → Nat
  | .gpath => cfg.capGpath
  | .bridge => cfg.capBridge

/-- `FULL_THRESHOLD(f)`. -/
def fullThreshold (cfg : Config) : FifoId → Nat
  | .gpath => cfg.fullGpath
  | .bridge => cfg.fullBridge

/-- `ND(f)`, the number of direct-path producers. -/
def nd (cfg : Config) : FifoId → Nat
  | .gpath => cfg.ndGpath
  | .bridge => cfg.ndBridge

/-- `fifoOf(c)`. -/
def fifoOf (cfg : Config) (c : Chan) : Option FifoId := cfg.fifoOf[c.val]

/-- The channels wired to a FIFO in ascending order: its DMA producers (rule R45). -/
def dmaProducers (cfg : Config) (f : FifoId) : List Chan :=
  (List.finRange 10).filter fun c => cfg.hasChan c && fifoOf cfg c == some f

/-- `NP(f)`, the number of producers (rule R45). -/
def np (cfg : Config) (f : FifoId) : Nat := nd cfg f + (dmaProducers cfg f).length

/-- The producer index of channel `c` on FIFO `f` (rule R45). -/
def producerIndex (cfg : Config) (f : FifoId) (c : Chan) : Nat :=
  nd cfg f + (dmaProducers cfg f).findIdx (· == c)

/-- The channel of DMA producer `i` of FIFO `f` (rule R45). -/
def producerChan (cfg : Config) (f : FifoId) (i : Nat) : Option Chan :=
  if nd cfg f ≤ i then (dmaProducers cfg f)[i - nd cfg f]? else none

/-- No address occurs twice. -/
def distinct : List Nat → Bool
  | [] => true
  | a :: l => !(l.any (Nat.beq a)) && distinct l

/-- The conditions of rule R6 on the parameters, with those that the layouts and the document's numbers must
meet for a register or a tag to hold them; outside them the model refuses to run (U17, log entries 14 and
32). The last two say that no two `ID` values name one opcode (rule R82 gives each opcode one value) and that
the opcode field is wide enough for each value that names one.
`INT_LATENCY_MAX` is open between `INT_DELTA` and 99 where it is not given. -/
def Config.valid (cfg : Config) : Bool :=
  cfg.layout.valid cfg.literals && cfg.literals.valid && decide (cfg.cycleBits = 32) && decide (1 ≤ cfg.ratio) &&
    decide (1 ≤ cfg.capGpath) && decide (1 ≤ cfg.capBridge) &&
    decide (1 ≤ cfg.fullGpath) && decide (cfg.fullGpath ≤ cfg.capGpath) &&
    decide (1 ≤ cfg.fullBridge) && decide (cfg.fullBridge ≤ cfg.capBridge) &&
    decide (1 ≤ cfg.ndGpath) && decide (1 ≤ cfg.intDelta) &&
    (match cfg.intLatencyMax with
      | some l => decide (cfg.intDelta ≤ l) && decide (l ≤ 99)
      | none => decide (cfg.intDelta ≤ 99)) &&
    (match cfg.retestDelta with
      | some d => decide (1 ≤ d) && decide (d ≤ maxDelta)
      | none => true) &&
    cfg.stepDeltas.all (fun e => decide (1 ≤ e.cycles) && decide (e.cycles ≤ maxDelta)) &&
    cfg.mmio.toList.all (fun a => a.toNat % 4 == 0) &&
    distinct (cfg.mmio.toList.map BitVec.toNat) &&
    decide (cfg.tagCode.toList.filterMap id).Nodup &&
    (cfg.tagCode.toList.drop (2 ^ cfg.literals.tagOpcodeBits)).all Option.isNone

end Sys2Proof.Machine
end

