-- ==== Sys2Proof/Machine/Flags.lean ====
section
/-! DEFINITION. The status flags: setting and writing `STAT` (rules R35, R235), the IO pair (rules R37,
R239, R240), the pending masks (rule R38) and the FIFO status mirror (rules R44, R194). -/

namespace Sys2Proof.Machine

/-- `STAT` with `CIS[c]` set; a channel that the block does not have has no bit. -/
def setCis (cfg : Config) (st : Word) (c : Chan) : Word :=
  if cfg.hasChan c then st ||| (1#32 <<< (cfg.layout.statCIS + c.val)) else st

/-- `STAT` with `SIS` set. -/
def setSis (l : Layout) (st : Word) : Word := st ||| (1#32 <<< l.statSIS)

/-- `STAT` with `BEIS` set. -/
def setBeis (l : Layout) (st : Word) : Word := st ||| (1#32 <<< l.statBEIS)

/-- A software write of `STAT`: status bits are cleared where `v` is 1, mask bits are toggled where `v` is
1, reserved bits of `v` are ignored (rule R235). -/
def writeStat (cfg : Config) (st v : Word) : Word :=
  (st &&& ~~~(v &&& cfg.statStatusMask)) ^^^ (v &&& cfg.statMaskMask)

/-- `pending[MAIN]`: each status bit with the mask bit that stands above it (rule R38). -/
def pendingMain (cfg : Config) (st : Word) : Word :=
  (st &&& (st >>> (cfg.layout.statCIM - cfg.layout.statCIS))) &&& cfg.statPendingMask

/-- `IO_ISTAT` with bit `c` set; a channel that the block does not have has no bit. -/
def setIoIstat (cfg : Config) (st : Word) (c : Chan) : Word :=
  if cfg.hasChan c then st ||| (1#32 <<< (cfg.layout.ioCH + c.val)) else st

/-- A software write of `IO_ISTAT`: AND-clear (rule R239). -/
def writeIoIstat (cfg : Config) (st v : Word) : Word := st &&& v &&& cfg.ioMask

/-- A software write of `IO_IMASK`: plain store of bits 9:0 (rule R240). -/
def writeIoImask (cfg : Config) (v : Word) : Word := v &&& cfg.ioMask

/-- `pending[IO]` (rule R38). -/
def pendingIo (cfg : Config) (st mask : Word) : Word := st &&& mask &&& cfg.ioMask

/-- `FSTAT[f]` for an occupancy and a full threshold (rules R44, R194). -/
def fstatWord (l : Layout) (size threshold : Nat) : Word :=
  (BitVec.ofNat 32 (min size 255) <<< l.fstatCOUNT) ||| bitAt (size == 0) l.fstatEMPTY |||
    bitAt (decide (threshold ≤ size)) l.fstatFULL

end Sys2Proof.Machine
end

