-- ==== Sys2Proof/Machine/Memory.lean ====
section
/-! DEFINITION. Main memory as the block sees it (rules R60 to R64): bytes by address in one canonical
form, and the unit (16 bytes) as the only access width; `u` is the number of bytes in a unit. -/

namespace Sys2Proof.Machine

/-- What a byte of memory that nothing has written reads as (log entry 2). -/
def unlistedByte : Byte := 0#8

/-- The byte at address `a`. -/
def memGet : List Host.Cell → Nat → Byte
  | [], _ => unlistedByte
  | (b, v) :: t, a => if a = b then v else memGet t a

/-- Memory with byte `v` at address `a`, kept in canonical form: storing what an unlisted address reads as
removes the entry. -/
def memSet : List Host.Cell → Nat → Byte → List Host.Cell
  | [], a, v => if v = unlistedByte then [] else [(a, v)]
  | (b, w) :: t, a, v =>
    if a < b then (if v = unlistedByte then (b, w) :: t else (a, v) :: (b, w) :: t)
    else if a = b then (if v = unlistedByte then t else (a, v) :: t)
    else (b, w) :: memSet t a v

/-- Every address of the list is above `lo`, the addresses rise, and no entry equals what an unlisted
address reads as. -/
def memRises : Nat → List Host.Cell → Bool
  | _, [] => true
  | lo, (a, v) :: t => decide (lo ≤ a) && decide (v ≠ unlistedByte) && memRises (a + 1) t

/-- The canonical form, over the 32-bit address space of rule R60. -/
def Memory.wf (m : List Host.Cell) : Bool := memRises 0 m && m.all fun c => decide (c.1 < 4294967296)

/-- `n` bytes in ascending order from `a` (addresses modulo 2^32, rule R67). -/
def readBytes (m : List Host.Cell) : Word → Nat → List Byte
  | _, 0 => []
  | a, n + 1 => memGet m a.toNat :: readBytes m (a + 1#32) n

/-- Bytes stored in ascending order from `a`. -/
def writeBytes (m : List Host.Cell) : Word → List Byte → List Host.Cell
  | _, [] => m
  | a, b :: t => writeBytes (memSet m a.toNat b) (a + 1#32) t

/-- `MemRead(a, u)` (rule R62). -/
def readUnit (u : Nat) (m : List Host.Cell) (a : Word) : Qword := qwordOfBytes (readBytes m a u)

/-- `MemWrite(a, u, q)` (rule R62). -/
def writeUnit (u : Nat) (m : List Host.Cell) (a : Word) (q : Qword) : List Host.Cell :=
  writeBytes m a (qwordBytes u q)

/-- `n` units in ascending order from `a` (rule R64). -/
def readUnits (u : Nat) (m : List Host.Cell) : Word → Nat → List Qword
  | _, 0 => []
  | a, n + 1 => readUnit u m a :: readUnits u m (a + BitVec.ofNat 32 u) n

/-- Units stored in ascending order from `a` (rule R64). -/
def writeUnits (u : Nat) (m : List Host.Cell) : Word → List Qword → List Host.Cell
  | _, [] => m
  | a, q :: t => writeUnits u (writeUnit u m a q) (a + BitVec.ofNat 32 u) t

/-- A window covers the unit of `u` bytes at `a` and allows the access. -/
def Region.allows (r : Region) (u : Nat) (a : Word) (d : Dir) : Bool :=
  decide (r.base ≤ a.toNat) && decide (a.toNat + u ≤ r.base + r.size) &&
    (match d with
      | .read => r.readable
      | .write => r.writable)

/-- `Translate(a, rw)` (rules R7, R61): some mapped window allows the access; with the map left open, the
free value answers, the same within one atomic operation. -/
def translate (s : State) (a : Word) (d : Dir) : Bool :=
  match s.map with
  | some rs => rs.any fun r => Region.allows r s.cfg.unit a d
  | none => Config.freeTranslate s.opCount a d

/-- The number of leading units of `a`, `a + UNIT`, .. that translate, at most `n` (rule R76). -/
def leadingUnits (s : State) (d : Dir) : Word → Nat → Nat
  | _, 0 => 0
  | a, n + 1 => if translate s a d then leadingUnits s d (a + BitVec.ofNat 32 s.cfg.unit) n + 1 else 0

end Sys2Proof.Machine
end

