-- ==== Sys2Proof/Machine/Ops.lean ====
section
/-! DEFINITION. The named operations over the state: one accessor and one update for each piece of it, the
event scheduler's `Arm` and `Cancel` (rules R151, R152), the clock bridge's conversion (rules R170 to
R173), the FIFO rings and the arbiter (rules R191 to R200), and the exceptional conditions: completion,
stall, bus error and the pending test (rules R119, R265 to R268). The block has no trap entry of its own
and no return from one (rule R272): raising a condition latches status bits, and the exception line
follows at the pending test. -/

namespace Sys2Proof.Machine

/-! ## Accessors and updates -/

/-- `CH[c]`. -/
def State.ch (s : State) (c : Chan) : Channel := s.chans[c.val]

/-- `CH[c] <- x`. -/
def State.setCh (s : State) (c : Chan) (x : Channel) : State := { s with chans := s.chans.set c.val x }

/-- The scheduler of domain `p`. -/
def State.sched (s : State) : Domain → Sched
  | .main => s.schedMain
  | .io => s.schedIo

/-- Replaces the scheduler of domain `p`. -/
def State.setSched (s : State) (p : Domain) (x : Sched) : State :=
  match p with
  | .main => { s with schedMain := x }
  | .io => { s with schedIo := x }

/-- FIFO `f`. -/
def State.fifo (s : State) : FifoId → Fifo
  | .gpath => s.gpath
  | .bridge => s.bridge

/-- Replaces FIFO `f`. -/
def State.setFifo (s : State) (f : FifoId) (x : Fifo) : State :=
  match f with
  | .gpath => { s with gpath := x }
  | .bridge => { s with bridge := x }

/-- `exc[p]`. -/
def State.exc (s : State) : Domain → Bool
  | .main => s.excMain
  | .io => s.excIo

/-- `exc[p] <- b`. -/
def State.setExc (s : State) (p : Domain) (b : Bool) : State :=
  match p with
  | .main => { s with excMain := b }
  | .io => { s with excIo := b }

/-- The value a read returns to the CPU of `p`. -/
def State.setRead (s : State) (p : Domain) (v : Word) : State :=
  match p with
  | .main => { s with readMain := v }
  | .io => { s with readIo := v }

/-- Units, results and signals leaving the block. -/
def State.emit (s : State) (o : Output) : State := { s with out := o :: s.out }

/-- The environment's present answers: the head of the script, or the free value of this consultation. -/
def State.answers (s : State) : Answers :=
  match s.script with
  | a :: _ => a
  | [] => Config.freeAnswers s.ticks

/-- The environment moves on to its next answers. -/
def State.tick (s : State) : State := { s with script := s.script.tail, ticks := s.ticks + 1 }

/-- The outcome of an operation. -/
abbrev Result := Host.Outcome State Fault Refusal

/-- Runs `g` on the next state, if there is one. -/
def andThen (r : Result) (g : State → Result) : Result :=
  match r with
  | .next s => g s
  | .fault e => .fault e
  | .refused e => .refused e

/-- `globalEnable` (rule R34). -/
def State.globalEnable (s : State) : Bool := s.dmae && !s.cpnd

/-- `chanMasked(c)` (rule R7). -/
def State.chanMasked (s : State) (c : Chan) : Bool := s.answers.masked.getLsbD c.val

/-- `canRun(c)` (rule R101). -/
def State.canRun (s : State) (c : Chan) : Bool := s.globalEnable && !s.chanMasked c

/-- Whether channel `c` is Running (rule R31). -/
def State.running (s : State) (c : Chan) : Bool := (s.ch c).str && !(s.ch c).queued

/-- The opcode of the tag whose block channel `c` transfers, under the configured codes (rules R29,
R82). -/
def State.curTagOp (s : State) (c : Chan) : Option TagOp :=
  match (s.ch c).curOp with
  | some id => s.cfg.tagOp id
  | none => none

/-! ## The event scheduler -/

/-- The due time of kind `k` (rule R150). -/
def Sched.due (x : Sched) (k : Kind) : Word := x.slots[k.val].start + x.slots[k.val].delta

/-- Kind `k` is due (rule R153). -/
def Sched.isDue (x : Sched) (k : Kind) : Bool :=
  x.slots[k.val].armed && decide ((x.slots[k.val].delta.toNat : Int) ≤ sdiff32 x.cycle x.slots[k.val].start)

/-- A pass of the domain is enabled (rule R159). -/
def Sched.passDue (x : Sched) : Bool := x.nextValid && decide (0 ≤ sdiff32 x.cycle x.nextEvent)

/-- `Arm` on one scheduler: the slot takes the new instance and `nextEventCycle` comes forward (rule
R151). An event armed while a pass runs is not in the snapshot of that pass, also where its kind was (corner
case of rule R155, rule R69; log entry 29). -/
def Sched.arm (x : Sched) (k : Kind) (d : Nat) (w : Word) : Sched :=
  let t := x.cycle + BitVec.ofNat 32 d
  { x with
    slots := x.slots.set k.val { armed := true, start := x.cycle, delta := BitVec.ofNat 32 d, payload := w }
    nextValid := true
    nextEvent := if !x.nextValid || decide (sdiff32 t x.nextEvent < 0) then t else x.nextEvent
    passSet := x.passSet.filter (· != k) }

/-- `Cancel` on one scheduler (rule R152). -/
def Sched.cancel (x : Sched) (k : Kind) : Sched :=
  { x with slots := x.slots.set k.val { x.slots[k.val] with armed := false } }

/-- `Arm(p, k, d, w)` (rule R151). The break request that arming an I/O-relevant MAIN kind sends writes no
state: it is the candidate `ioEq(due)` of `ioLimit` from then on (rules R173, R175). -/
def arm (p : Domain) (k : Kind) (d : Nat) (w : Word) (s : State) : State :=
  s.setSched p ((s.sched p).arm k d w)

/-- `Cancel(p, k)` (rule R152). -/
def cancel (p : Domain) (k : Kind) (s : State) : State := s.setSched p ((s.sched p).cancel k)

/-- The kind `DMA_CONT[c]` (rule R40). -/
def dmaCont (c : Chan) : Kind := ⟨c.val, by omega⟩

/-- The kind `INT_TEST` (rule R40). -/
def intTest : Kind := 10

/-- The kind `BRIDGE_STEP` (rule R40). -/
def bridgeStep : Kind := 11

/-- The kind `TIMER[j]` (rule R40). -/
def timer (j : Fin 4) : Kind := ⟨12 + j.val, by omega⟩

/-! ## The clock bridge -/

/-- `toIO(m)`: truncating division by the ratio (rule R170). -/
def toIO (cfg : Config) (m : Nat) : Nat := m / cfg.ratio

/-- `toMain(i)` (rule R170). -/
def toMain (cfg : Config) (i : Nat) : Nat := i * cfg.ratio

/-- The delta that a MAIN operation gives an event of IO: at least 1 (rule R179). -/
def toIODelta (cfg : Config) (d : Nat) : Nat := max 1 (toIO cfg d)

/-- `ioEq(T)`: the IO cycle current at MAIN cycle `t` (rule R171). -/
def ioEq (s : State) (t : Word) : Word :=
  s.ioAnchor + BitVec.ofInt 32 ((sdiff32 t s.mainAnchor + s.residue).tdiv s.cfg.ratio)

/-- `mainEq(U)`: the first MAIN cycle whose IO cycle is at or after `u` (rule R171). -/
def mainEq (s : State) (u : Word) : Word :=
  s.mainAnchor + BitVec.ofInt 32 (sdiff32 u s.ioAnchor * s.cfg.ratio - s.residue)

/-- `Reanchor()` (rule R172). -/
def reanchor (s : State) : State :=
  let e := sdiff32 s.schedMain.cycle s.mainAnchor + s.residue
  { s with
    ioAnchor := s.ioAnchor + BitVec.ofInt 32 (e.tdiv s.cfg.ratio)
    residue := (e.tmod s.cfg.ratio).toNat
    mainAnchor := s.schedMain.cycle }

/-- The candidates of the I/O limit: the next IO event and the converted due time of each armed
I/O-relevant MAIN event (rule R173). -/
def ioLimitCandidates (s : State) : List Word :=
  (if s.schedIo.nextValid then [s.schedIo.nextEvent] else []) ++
    ((List.finRange 16).filter fun k => s.schedMain.slots[k.val].armed && s.cfg.ioRelevant[k.val]).map
      fun k => ioEq s (s.schedMain.due k)

/-- The member of a list that comes first as seen from `now` (the least `sdiff32(x, now)`). -/
def earliest (now : Word) : List Word → Option Word
  | [] => none
  | a :: l =>
    match earliest now l with
    | none => some a
    | some b => if sdiff32 a now ≤ sdiff32 b now then some a else some b

/-- `ioLimit`, if there is a candidate (rule R173). -/
def ioLimit (s : State) : Option Word := earliest s.schedIo.cycle (ioLimitCandidates s)

/-- Constraint K3 for domain `p`: the other domain has caught up with its converted time (rule R176). -/
def caughtUp (s : State) : Domain → Bool
  | .main => decide (0 ≤ sdiff32 s.schedIo.cycle (ioEq s s.schedMain.cycle))
  | .io => decide (0 ≤ sdiff32 s.schedMain.cycle (mainEq s s.schedIo.cycle))

/-! ## Exceptional conditions and the interrupt controller -/

/-- `pending[p]` (rule R38). -/
def State.pending (s : State) : Domain → Word
  | .main => pendingMain s.cfg s.stat
  | .io => pendingIo s.cfg s.ioIstat s.ioImask

/-- `EvaluatePending(p)`: the line follows the pending mask (rule R267). -/
def evaluatePending (p : Domain) (s : State) : State := s.setExc p (s.pending p != 0#32)

/-- The delay of the interrupt re-test event (rule R268). -/
def intDelta (cfg : Config) : Domain → Nat
  | .main => cfg.intDelta
  | .io => toIODelta cfg cfg.intDelta

/-- `SchedTest(p)`, called from a MAIN operation (rules R268, R270). -/
def schedTest (p : Domain) (s : State) : State :=
  if s.pending p != 0#32 && !s.exc p then arm p intTest (intDelta s.cfg p) 0#32 s else s

/-- The IO half of `RaiseChannel(c)` (rules R265, R270). -/
def raiseIo (c : Chan) (s : State) : State :=
  if s.cfg.ioVisible[c.val] then schedTest .io { s with ioIstat := setIoIstat s.cfg s.ioIstat c } else s

/-- `RaiseChannel(c)`: latch a channel's completion (rule R265). -/
def raiseChannel (c : Chan) (s : State) : State :=
  raiseIo c (schedTest .main { s with stat := setCis s.cfg s.stat c })

/-- `RaiseStall()`: latch the stall condition (rule R266). -/
def raiseStall (s : State) : State := schedTest .main { s with stat := setSis s.cfg.layout s.stat }

/-- `Complete(c)` (rule R117). -/
def complete (c : Chan) (s : State) : State := raiseChannel c (s.setCh c { s.ch c with str := false })

/-- The channel leaves Running or ArmedWaitingEnable: `STR` and its queue bit are cleared and its
continuation is cancelled; the part that force-stop and bus error share (rules R118, R119). -/
def haltChannel (c : Chan) (s : State) : State :=
  cancel .main (dmaCont c) (s.setCh c { s.ch c with str := false, queued := false })

/-- `ForceStop(c)` (rule R118). -/
def forceStop (c : Chan) (s : State) : State := haltChannel c s

/-- `BusError(c)`: the one exception of the block (rule R119). -/
def busError (c : Chan) (s : State) : State :=
  raiseChannel c (haltChannel c { s with stat := setBeis s.cfg.layout s.stat })

/-! ## The FIFO rings -/

/-- One unit enters the ring (rule R191). -/
def Fifo.push (cap : Nat) (q : Fifo) (x : Qword) : Fifo :=
  { q with data := q.data.set q.writePos x, writePos := (q.writePos + 1) % cap, size := q.size + 1 }

/-- `n` units leave the ring, oldest first (rule R192). -/
def Fifo.pops (cap : Nat) : Nat → Fifo → List Qword × Fifo
  | 0, q => ([], q)
  | n + 1, q =>
    let r := Fifo.pops cap n { q with readPos := (q.readPos + 1) % cap, size := q.size - 1 }
    (q.data.getD q.readPos 0#128 :: r.1, r.2)

/-- `UpdateFstat(f)` (rule R194). -/
def Fifo.updateFstat (l : Layout) (threshold : Nat) (q : Fifo) : Fifo :=
  { q with fstat := fstatWord l q.size threshold }

/-- `FifoWrite` on one ring: units enqueued and the ring after (rule R191). -/
def Fifo.write (l : Layout) (cap threshold : Nat) (q : Fifo) (d : List Qword) : Nat × Fifo :=
  let n := min d.length (cap - q.size)
  (n, ((d.take n).foldl (Fifo.push cap) q).updateFstat l threshold)

/-- `FifoRead` on one ring: units dequeued and the ring after (rule R192). -/
def Fifo.read (l : Layout) (cap threshold : Nat) (q : Fifo) (k : Nat) : List Qword × Fifo :=
  let r := Fifo.pops cap (min k q.size) q
  (r.1, r.2.updateFstat l threshold)

/-- `FifoWrite(f, d)` (rule R191). -/
def fifoWrite (f : FifoId) (d : List Qword) (s : State) : Nat × State :=
  let r := (s.fifo f).write s.cfg.layout (cap s.cfg f) (fullThreshold s.cfg f) d
  (r.1, s.setFifo f r.2)

/-- `FifoRead(f, k)` (rule R192). -/
def fifoRead (f : FifoId) (k : Nat) (s : State) : List Qword × State :=
  let r := (s.fifo f).read s.cfg.layout (cap s.cfg f) (fullThreshold s.cfg f) k
  (r.1, s.setFifo f r.2)

/-! ## The arbiter -/

/-- `pathCanAccept(f, i)` (rule R7). -/
def State.pathCanAccept (s : State) (f : FifoId) (i : Nat) : Bool :=
  match f with
  | .gpath => s.answers.acceptGpath.getD i false
  | .bridge => s.answers.acceptBridge.getD i false

/-- `grantable(f, i)` (rule R196). -/
def grantable (s : State) (f : FifoId) (i : Nat) : Bool :=
  (s.fifo f).req.getD i false && !(s.fifo f).pmask.getD i false && s.pathCanAccept f i

/-- `winner(f)`: the least grantable direct path (rule R196). -/
def winner (s : State) (f : FifoId) : Option Nat := (List.range (nd s.cfg f)).find? (grantable s f)

/-- `ArbWriteDma(f, c, d)` (rule R199). -/
def arbWriteDma (f : FifoId) (c : Chan) (d : List Qword) (s : State) : Nat × State :=
  if (winner s f).isSome then (0, s)
  else if (s.fifo f).pmask.getD (producerIndex s.cfg f c) false then (0, s)
  else fifoWrite f d s

/-- `ArbWriteDirect(f, i, d)` (rule R200). -/
def arbWriteDirect (f : FifoId) (i : Nat) (d : List Qword) (s : State) : Nat × State :=
  if winner s f = some i then fifoWrite f d s else (0, s)

/-- The MAIN side tells the I/O endpoint that a step of channel `c` moved `m` units through the bridge
FIFO (rule R204). -/
def notifyEndpoint (c : Chan) (m : Nat) (s : State) : State :=
  if m = 0 then s else arm .io bridgeStep (toIODelta s.cfg (stepDelta s.cfg c m)) (BitVec.ofNat 32 c.val) s

end Sys2Proof.Machine
end

