-- ==== Sys2Proof/Machine/Walker.lean ====
section
/-! DEFINITION. The Tag-Chain Walker (rules R130 to R144): for each opcode where the block is (`MADR`),
where the next tag is (`TADR`), and whether the chain stops. A walker rule reads and writes the registers
of one channel only; `ch.tadr` at its entry is the address `T` of the tag. -/

namespace Sys2Proof.Machine

/-- `Push(c, v)`, under the precondition `ASP < ASP_MAX` (rule R140); the slot order is inferred by the spec
(D10, log entry 30). -/
def Channel.pushAsr (ch : Channel) (cfg : Config) (v : Word) : Channel :=
  let ch1 := if ch.asp = 0#2 then ch.withAsr0 cfg v else ch.withAsr1 cfg v
  { ch1 with asp := ch.asp + 1#2 }

/-- `Pop(c)`, under the precondition `ASP > 0`: the value popped and the channel after (rule R140). -/
def Channel.popAsr (ch : Channel) : Word × Channel :=
  let asp := ch.asp - 1#2
  (if asp = 0#2 then ch.asr0 else ch.asr1, { ch with asp := asp })

/-- REFE (rule R131): the channel after, and whether the chain stops. -/
def walkRefe (cfg : Config) (a : Word) (ch : Channel) : Channel × Bool :=
  ((ch.withMadr cfg a).withTadr cfg (postTag cfg ch.tadr), true)

/-- CNT (rule R132). -/
def walkCnt (cfg : Config) (ch : Channel) : Channel × Bool :=
  ((ch.withMadr cfg (postTag cfg ch.tadr)).withTadr cfg (postTag cfg ch.tadr), false)

/-- NEXT (rule R133); that the tag's own address field is meant is inferred by the spec (D10, log entry
30). -/
def walkNext (cfg : Config) (a : Word) (ch : Channel) : Channel × Bool :=
  ((ch.withMadr cfg (postTag cfg ch.tadr)).withTadr cfg a, false)

/-- REF (rule R134). -/
def walkRef (cfg : Config) (a : Word) (ch : Channel) : Channel × Bool :=
  ((ch.withMadr cfg a).withTadr cfg (postTag cfg ch.tadr), false)

/-- REFS (rule R135); the stall check is outside the walker (rule R114). -/
def walkRefs (cfg : Config) (a : Word) (ch : Channel) : Channel × Bool :=
  ((ch.withMadr cfg a).withTadr cfg (postTag cfg ch.tadr), false)

/-- CALL on the full walker (rule R136): with the stack full, at the depth `ASP_MAX` (2), the chain
stops at the CALL tag. The address that is meant and what the overflow leaves are inferred by the spec
(D10, log entry 30). -/
def walkCall (cfg : Config) (q : Nat) (a : Word) (ch : Channel) : Channel × Bool :=
  if cfg.literals.aspMax ≤ ch.asp.toNat then (ch.withMadr cfg (postTag cfg ch.tadr), true)
  else (((ch.pushAsr cfg (postBlock cfg ch.tadr q)).withMadr cfg (postTag cfg ch.tadr)).withTadr cfg a, false)

/-- RET on the full walker (rule R137): with the stack empty the chain stops at the RET tag. That its block
follows the tag is inferred by the spec (D10, log entry 30). -/
def walkRet (cfg : Config) (ch : Channel) : Channel × Bool :=
  let ch1 := ch.withMadr cfg (postTag cfg ch.tadr)
  if ch.asp = 0#2 then (ch1, true)
  else
    let r := ch1.popAsr
    (r.2.withTadr cfg r.1, false)

/-- END (rule R138): the pointer freezes at the END tag, as the spec resolves its source by interpretation
(C2, log entry 30). It is also CALL, RET and any undefined value on the simple walker (rules R142 to R144). -/
def walkEnd (cfg : Config) (ch : Channel) : Channel × Bool := (ch.withMadr cfg (postTag cfg ch.tadr), true)

/-- An opcode the configured table leaves undefined, on the full walker (rule R139): inferred by the spec
(D10, log entry 30). -/
def walkUndefined (cfg : Config) (ch : Channel) : Channel × Bool :=
  ((ch.withMadr cfg (postTag cfg ch.tadr)).withTadr cfg (postTag cfg ch.tadr), true)

/-- What a fetched tag does to its channel (rule R108 after the read): `QWC` and `curOp` are loaded, the
walker runs, and `done` records whether the chain ends after this block, by the walker or by the tag
interrupt (rule R109). -/
def loadTag (c : Chan) (id : TagId) (q : BitVec 16) (irq : Bool) (walk : Channel → Channel × Bool)
    (s : State) : State :=
  let r := walk { s.ch c with qwc := q.toNat, curOp := some id }
  s.setCh c { r.1 with done := r.2 || (irq && r.1.tie) }

end Sys2Proof.Machine
end

