-- ==== Sys2Proof/Machine/TagsFull.lean ====
section
/-! DEFINITION. The tags of the full walker (rules R131 to R138), each as a channel meets it after the fetch (rule R108). -/

namespace Sys2Proof.Machine

/-- `REFE` on the full walker (rule R131). -/
def execRefeFull (c : Chan) (q : BitVec 16) (irq : Bool) (a : Word) (s : State) : Result :=
  .next (loadTag c (s.cfg.codeOf .refe) q irq (walkRefe s.cfg a) s)

/-- `CNT` on the full walker (rule R132). -/
def execCntFull (c : Chan) (q : BitVec 16) (irq : Bool) (_a : Word) (s : State) : Result :=
  .next (loadTag c (s.cfg.codeOf .cnt) q irq (walkCnt s.cfg) s)

/-- `NEXT` on the full walker (rule R133). -/
def execNextFull (c : Chan) (q : BitVec 16) (irq : Bool) (a : Word) (s : State) : Result :=
  .next (loadTag c (s.cfg.codeOf .next) q irq (walkNext s.cfg a) s)

/-- `REF` on the full walker (rule R134). -/
def execRefFull (c : Chan) (q : BitVec 16) (irq : Bool) (a : Word) (s : State) : Result :=
  .next (loadTag c (s.cfg.codeOf .ref) q irq (walkRef s.cfg a) s)

/-- `REFS` on the full walker (rule R135). -/
def execRefsFull (c : Chan) (q : BitVec 16) (irq : Bool) (a : Word) (s : State) : Result :=
  .next (loadTag c (s.cfg.codeOf .refs) q irq (walkRefs s.cfg a) s)

/-- `CALL` on the full walker (rule R136). -/
def execCallFull (c : Chan) (q : BitVec 16) (irq : Bool) (a : Word) (s : State) : Result :=
  .next (loadTag c (s.cfg.codeOf .call) q irq (walkCall s.cfg q.toNat a) s)

/-- `RET` on the full walker (rule R137). -/
def execRetFull (c : Chan) (q : BitVec 16) (irq : Bool) (_a : Word) (s : State) : Result :=
  .next (loadTag c (s.cfg.codeOf .ret) q irq (walkRet s.cfg) s)

/-- `END` on the full walker (rule R138). -/
def execEndFull (c : Chan) (q : BitVec 16) (irq : Bool) (_a : Word) (s : State) : Result :=
  .next (loadTag c (s.cfg.codeOf .end_) q irq (walkEnd s.cfg) s)

end Sys2Proof.Machine
end

