-- ==== Sys2Proof/Machine/TagsSimple.lean ====
section
/-! DEFINITION. The tags of the simple walker (rules R131 to R135, R138, R141 to R143): no call stack, and the values of CALL
and RET act as END. -/

namespace Sys2Proof.Machine

/-- `REFE` on the simple walker (rule R131). -/
def execRefeSimple (c : Chan) (q : BitVec 16) (irq : Bool) (a : Word) (s : State) : Result :=
  .next (loadTag c (s.cfg.codeOf .refe) q irq (walkRefe s.cfg a) s)

/-- `CNT` on the simple walker (rule R132). -/
def execCntSimple (c : Chan) (q : BitVec 16) (irq : Bool) (_a : Word) (s : State) : Result :=
  .next (loadTag c (s.cfg.codeOf .cnt) q irq (walkCnt s.cfg) s)

/-- `NEXT` on the simple walker (rule R133). -/
def execNextSimple (c : Chan) (q : BitVec 16) (irq : Bool) (a : Word) (s : State) : Result :=
  .next (loadTag c (s.cfg.codeOf .next) q irq (walkNext s.cfg a) s)

/-- `REF` on the simple walker (rule R134). -/
def execRefSimple (c : Chan) (q : BitVec 16) (irq : Bool) (a : Word) (s : State) : Result :=
  .next (loadTag c (s.cfg.codeOf .ref) q irq (walkRef s.cfg a) s)

/-- `REFS` on the simple walker (rule R135). -/
def execRefsSimple (c : Chan) (q : BitVec 16) (irq : Bool) (a : Word) (s : State) : Result :=
  .next (loadTag c (s.cfg.codeOf .refs) q irq (walkRefs s.cfg a) s)

/-- `CALL` on the simple walker (rule R142). Identical to END; the stack is not touched. -/
def execCallSimple (c : Chan) (q : BitVec 16) (irq : Bool) (_a : Word) (s : State) : Result :=
  .next (loadTag c (s.cfg.codeOf .call) q irq (walkEnd s.cfg) s)

/-- `RET` on the simple walker (rule R143). Identical to END; the stack is not touched. -/
def execRetSimple (c : Chan) (q : BitVec 16) (irq : Bool) (_a : Word) (s : State) : Result :=
  .next (loadTag c (s.cfg.codeOf .ret) q irq (walkEnd s.cfg) s)

/-- `END` on the simple walker (rule R138). -/
def execEndSimple (c : Chan) (q : BitVec 16) (irq : Bool) (_a : Word) (s : State) : Result :=
  .next (loadTag c (s.cfg.codeOf .end_) q irq (walkEnd s.cfg) s)

end Sys2Proof.Machine
end

