-- ==== Sys2Proof/Machine/Channel.lean ====
section
/-! DEFINITION. The DMA channel state machine (rules R100 to R125): tag fetch, the transfer primitive in
both directions, the stall check, re-arming, one step in each mode, start, the continuation handler, and
restart after a blocked start. -/

namespace Sys2Proof.Machine

/-! ## Tag fetch -/

/-- The meaning of an opcode on a walker: the tag instruction it stands for. -/
def runTag (v : Variant) (op : TagOp) (c : Chan) (q : BitVec 16) (irq : Bool) (a : Word) (s : State) : Result :=
  match v, op with
  | .full, .refe => execRefeFull c q irq a s
  | .full, .cnt => execCntFull c q irq a s
  | .full, .next => execNextFull c q irq a s
  | .full, .ref => execRefFull c q irq a s
  | .full, .refs => execRefsFull c q irq a s
  | .full, .call => execCallFull c q irq a s
  | .full, .ret => execRetFull c q irq a s
  | .full, .end_ => execEndFull c q irq a s
  | .simple, .refe => execRefeSimple c q irq a s
  | .simple, .cnt => execCntSimple c q irq a s
  | .simple, .next => execNextSimple c q irq a s
  | .simple, .ref => execRefSimple c q irq a s
  | .simple, .refs => execRefsSimple c q irq a s
  | .simple, .call => execCallSimple c q irq a s
  | .simple, .ret => execRetSimple c q irq a s
  | .simple, .end_ => execEndSimple c q irq a s

/-- A fetched tag whose `ID` the configured table leaves undefined: the full walker stops past the tag
(rule R139), the simple walker at it (rule R144). -/
def undefinedTag (c : Chan) (t : TagWord) (s : State) : State :=
  match s.cfg.walker[c.val] with
  | .full => loadTag c t.id t.q t.irq (walkUndefined s.cfg) s
  | .simple => loadTag c t.id t.q t.irq (walkEnd s.cfg) s

/-- `FetchTag(c)` (rule R108): `none` where `TADR` does not translate. -/
def fetchTag (c : Chan) (s : State) : Option Result :=
  if translate s (s.ch c).tadr .read then
    let t := tagFields s.cfg (readUnit s.cfg.unit s.mem (s.ch c).tadr)
    match s.cfg.tagOp t.id with
    | some op => some (runTag s.cfg.walker[c.val] op c t.q t.irq t.a s)
    | none => some (.next (undefinedTag c t s))
  else none

/-! ## Transfer -/

/-- `Sink(c, d)`: units taken, and the state after (rule R112). A channel wired to a FIFO offers its units
to the arbiter, and a bridge channel then notifies the endpoint (rule R204); any other channel offers them
to its unit, which takes a prefix of its own choice (rule R7). -/
def sink (c : Chan) (d : List Qword) (s : State) : Nat × State :=
  match fifoOf s.cfg c with
  | some .gpath => arbWriteDma .gpath c d s
  | some .bridge =>
    let r := arbWriteDma .bridge c d s
    (r.1, notifyEndpoint c r.1 r.2)
  | none =>
    let m := min s.answers.sink d.length
    (m, if m = 0 then s else s.emit (.unit c (d.take m)))

/-- `Source(c, n)`: the units supplied, at most `n`, and the state after (rule R112). -/
def source (c : Chan) (n : Nat) (s : State) : List Qword × State :=
  match fifoOf s.cfg c with
  | some .gpath => fifoRead .gpath n s
  | some .bridge =>
    let r := fifoRead .bridge n s
    (r.1, notifyEndpoint c r.1.length r.2)
  | none => ((s.answers.source.take n).map s.cfg.cut, s)

/-- The registers after `m` units have moved (the last lines of rules R110 and R111): `MADR` and `QWC`
follow, `TADR` follows under CNT (rule R113), and a stall source publishes `MADR` (rule R115). -/
def advanceChannel (c : Chan) (m : Nat) (s : State) : State :=
  let ch := s.ch c
  let ch1 := { ch.withMadr s.cfg (ch.madr + unitBytes s.cfg m) with qwc := ch.qwc - m }
  let ch2 := if s.curTagOp c = some .cnt then ch1.withTadr s.cfg (ch.tadr + unitBytes s.cfg m) else ch1
  let s1 := s.setCh c ch2
  if ch.stm = 1#2 then { s1 with stadrS := ch2.madr } else s1

/-- The units that move in one step of at most `n'` units: the count, and the state after the data has
moved but before the registers follow. -/
def moveUnits (c : Chan) (n : Nat) (s : State) : Nat × State :=
  let a := (s.ch c).madr
  if (s.ch c).dir then sink c (readUnits s.cfg.unit s.mem a n) s
  else
    let r := source c n s
    (r.1.length, { r.2 with mem := writeUnits s.cfg.unit r.2.mem a r.1 })

/-- The access a transfer makes to main memory: reads for memory to unit, writes for unit to memory. -/
def transferDir (ch : Channel) : Dir := if ch.dir then .read else .write

/-- `Transfer(c, n)` (rules R110, R111): the units moved and the state after, or `none` where the first
unit does not translate (rule R76). -/
def transfer (c : Chan) (n : Nat) (s : State) : Option (Nat × State) :=
  match leadingUnits s (transferDir (s.ch c)) (s.ch c).madr n with
  | 0 => none
  | n' + 1 =>
    let r := moveUnits c (n' + 1) s
    some (r.1, advanceChannel c r.1 r.2)

/-- `StallLimit(c, wanted)` (rule R114): the units allowed, and the state after. -/
def stallLimit (c : Chan) (wanted : Nat) (s : State) : Nat × State :=
  let ch := s.ch c
  if ch.stm = 2#2 ∧ effMode ch.mod = .chain ∧ s.curTagOp c = some .refs then
    let s1 := { s with stadrD := s.cfg.align ch.madr }
    let avail := if ch.madr.toNat < s.stadrS.toNat then (s.stadrS.toNat - ch.madr.toNat) / s.cfg.unit else 0
    let allowed := min wanted avail
    (allowed, if allowed = 0 then raiseStall s1 else s1)
  else (wanted, s)

/-- `Rearm(c, wanted, m)` (rule R116). -/
def rearm (c : Chan) (wanted m : Nat) (s : State) : State :=
  let d := if 0 < wanted ∧ m = 0 then retestDelta s.cfg else stepDelta s.cfg c m
  arm .main (dmaCont c) d (BitVec.ofNat 32 c.val) s

/-! ## Steps -/

/-- Moves at most `n` of `wanted` units and re-arms, or raises the bus error. -/
def transferStep (c : Chan) (wanted n : Nat) (s : State) : State :=
  match transfer c n s with
  | none => busError c s
  | some r => rearm c wanted r.1 r.2

/-- `StepNormal(c)` (rule R106). -/
def stepNormal (c : Chan) (s : State) : State := transferStep c (s.ch c).qwc (s.ch c).qwc s

/-- The part of `StepChain(c)` after the tag fetch (rule R107). -/
def blockStep (c : Chan) (s : State) : State :=
  let wanted := (s.ch c).qwc
  if wanted = 0 then rearm c 0 0 s
  else
    let r := stallLimit c wanted s
    if r.1 = 0 then rearm c wanted 0 r.2 else transferStep c wanted r.1 r.2

/-- `StepChain(c)` (rule R107). -/
def stepChain (c : Chan) (s : State) : Result :=
  if (s.ch c).qwc = 0 then
    match fetchTag c s with
    | none => .next (busError c s)
    | some r => andThen r fun t => .next (blockStep c t)
  else .next (blockStep c s)

/-- `Continue(c)` (rule R104). The Interleave arm has no rule in any source (rule R120). -/
def continueChan (c : Chan) (s : State) : Result :=
  match effMode (s.ch c).mod with
  | .normal => .next (if (s.ch c).qwc = 0 then complete c s else stepNormal c s)
  | .chain => if (s.ch c).qwc = 0 ∧ (s.ch c).done then .next (complete c s) else stepChain c s
  | .interleave => .refused (.interleaveStep c)

/-! ## Start, continuation and restart -/

/-- The environment moves on after the consultation that `r` made. -/
def ticked (r : Result) : Result := andThen r fun t => .next t.tick

/-- The channel joins the queue: ArmedWaitingEnable (rules R30, R102, R124). -/
def enqueue (c : Chan) (s : State) : State := s.setCh c { s.ch c with queued := true }

/-- The registers a start write prepares: `done` and `curOp` cleared, and the zero-`QWC` quirk of Normal
mode, `QWC_ZERO_EFFECTIVE` (rules R5, R102, R103). -/
def startChannel (cfg : Config) (ch : Channel) : Channel :=
  { ch with
    done := false
    curOp := none
    qwc := if effMode ch.mod = .normal ∧ ch.qwc = 0 then cfg.literals.qwcZeroEffective else ch.qwc }

/-- One step if the channel can run, otherwise the queue (rules R101, R102, R105, R124). -/
def runOrQueue (c : Chan) (s : State) : Result :=
  if s.canRun c then ticked (continueChan c s) else .next (enqueue c s).tick

/-- `StartRequest(c)` (rule R102). -/
def startRequest (c : Chan) (s : State) : Result := runOrQueue c (s.setCh c (startChannel s.cfg (s.ch c)))

/-- `OnDmaCont(c)` (rule R105). -/
def onDmaCont (c : Chan) (s : State) : Result := runOrQueue c s

/-- The channel leaves the queue and takes a step (rules R122, R123). -/
def resume (c : Chan) (s : State) : Result :=
  ticked (continueChan c (s.setCh c { s.ch c with queued := false }))

/-- `RestartQueued` over the channels still to visit (rule R122). -/
def restartFrom : List Chan → State → Result
  | [], s => .next s
  | c :: l, s =>
    if (s.ch c).queued then
      (if s.chanMasked c then restartFrom l s.tick else andThen (resume c s) (restartFrom l))
    else restartFrom l s

/-- `RestartQueued` (rule R122): the channels of the block, 0 .. 9, in ascending order. -/
def restartQueued (s : State) : Result := restartFrom ((List.finRange 10).filter s.cfg.hasChan) s

/-- `ChanUnmasked(c)` (rule R123). -/
def chanUnmasked (c : Chan) (s : State) : Result :=
  if (s.ch c).queued then (if s.canRun c then resume c s else .next s.tick) else .next s

end Sys2Proof.Machine
end

