-- ==== Sys2Proof/Machine/ChannelRegs.lean ====
section
/-! DEFINITION. Register accesses of the MAIN CPU to the six registers of a channel (rules R220 to R230).
A write to a channel whose `STR` is 1 is ignored, except that a `CHCR` write with bit 0 clear stops the
channel (rule R28). -/

namespace Sys2Proof.Machine

/-- A software write to a channel register other than `CHCR`: ignored while `STR` = 1 (rule R28). -/
def writeIdle (c : Chan) (load : Channel → Channel) (s : State) : State :=
  if (s.ch c).str then s else s.setCh c (load (s.ch c))

/-- `W CHCR[c] <- v` (rule R221). A start stores the fields, sets `STR` and runs the first step inside the
write (rule R102). -/
def execWChcr (c : Chan) (v : Word) (s : State) : Result :=
  if (s.ch c).str then
    (if v.getLsbD s.cfg.layout.chcrSTR then .next s else .next (forceStop c s))
  else
    let ch := Channel.storeFields s.cfg (s.ch c) v
    if v.getLsbD s.cfg.layout.chcrSTR then startRequest c (s.setCh c { ch with str := true })
    else .next (s.setCh c ch)

/-- `R CHCR[c]` (rule R222). -/
def execRChcr (c : Chan) (s : State) : Result := .next (s.setRead .main (Channel.chcr s.cfg.layout (s.ch c)))

/-- `W MADR[c] <- v` (rule R223). -/
def execWMadr (c : Chan) (v : Word) (s : State) : Result :=
  .next (writeIdle c (fun ch => ch.withMadr s.cfg v) s)

/-- `R MADR[c]` (rule R224). -/
def execRMadr (c : Chan) (s : State) : Result := .next (s.setRead .main (s.ch c).madr)

/-- `W QWC[c] <- v` (rule R225). -/
def execWQwc (c : Chan) (v : Word) (s : State) : Result :=
  .next (writeIdle c (fun ch => Channel.withQwc s.cfg.literals.qwcBits ch v) s)

/-- `R QWC[c]` (rule R226). -/
def execRQwc (c : Chan) (s : State) : Result := .next (s.setRead .main (s.ch c).qwcWord)

/-- `W TADR[c] <- v` (rule R227). -/
def execWTadr (c : Chan) (v : Word) (s : State) : Result :=
  .next (writeIdle c (fun ch => ch.withTadr s.cfg v) s)

/-- `R TADR[c]` (rule R228). -/
def execRTadr (c : Chan) (s : State) : Result := .next (s.setRead .main (s.ch c).tadr)

/-- `W ASR0[c] <- v` (rule R229). -/
def execWAsr0 (c : Chan) (v : Word) (s : State) : Result :=
  .next (writeIdle c (fun ch => ch.withAsr0 s.cfg v) s)

/-- `R ASR0[c]` (rule R230). -/
def execRAsr0 (c : Chan) (s : State) : Result := .next (s.setRead .main (s.ch c).asr0)

/-- `W ASR1[c] <- v` (rule R229). -/
def execWAsr1 (c : Chan) (v : Word) (s : State) : Result :=
  .next (writeIdle c (fun ch => ch.withAsr1 s.cfg v) s)

/-- `R ASR1[c]` (rule R230). -/
def execRAsr1 (c : Chan) (s : State) : Result := .next (s.setRead .main (s.ch c).asr1)

end Sys2Proof.Machine
end

