-- ==== Sys2Proof/Machine/External.lean ====
section
/-! DEFINITION. The operations of the agents outside the block (rules R11, R197, R200, R201, R203, R204,
R46), which of them an agent acting in a domain may perform, and the external event handlers, which
perform a sequence of them (rules R40, R157). -/

namespace Sys2Proof.Machine

/-- The domain in which the direct paths and the consumer of a FIFO act: the graphics side in MAIN, the
I/O bridge endpoint in IO (rules R11, R204). -/
def fifoSide : FifoId → Domain
  | .gpath => .main
  | .bridge => .io

/-- The delta of an event of domain `q` armed by an operation of domain `p` (rule R179). -/
def crossDelta (cfg : Config) (p q : Domain) (d : Nat) : Nat :=
  match p, q with
  | .main, .io => toIODelta cfg d
  | .io, .main => toMain cfg d
  | _, _ => d

/-- Which kinds an external agent of domain `p` may arm in domain `q`: its own domain's, and from IO the
`BRIDGE_STEP` of MAIN (rules R40, R70, R204); the continuation of a channel of the block only, and in MAIN only
while that channel is Running, which its handler assumes (rules R105, R126). The `DMA_CONT` of MAIN that the
endpoint arms is the operation `notify` (rule R204). -/
def mayArm (s : State) (p q : Domain) (k : Kind) : Bool :=
  (p == q || (q == .main && k == bridgeStep)) &&
    (if h : k.val < 10 then s.cfg.hasChan ⟨k.val, h⟩ && (q == .io || s.running ⟨k.val, h⟩) else true)

/-- The I/O bridge endpoint may notify MAIN for channel `c`: it has moved a unit before, and `c` is a bridge
channel that is Running (rule R204, log entry 34). The delta of the event is within the range of rule R163. -/
def mayNotify (s : State) (c : Chan) (d : Nat) : Bool :=
  s.endpointMoved && s.cfg.hasChan c && s.running c && fifoOf s.cfg c == some .bridge && decide (1 ≤ d) &&
    decide (toMain s.cfg d ≤ maxDelta)

/-- Whether an agent acting in domain `p` may perform the operation now (log entry 9). Any kind of the own domain may
be cancelled, the continuation of a Running channel included, which leaves that channel Running with nothing armed:
DESIGN CHOICE, log entry 36, where rules R31 and R40 differ. -/
def permitted (p : Domain) (s : State) : ExtOp → Bool
  | .arm q k d _ => mayArm s p q k && decide (crossDelta s.cfg p q d ≤ maxDelta)
  | .cancel q _ => p == q
  | .pathRequest f i _ => p == fifoSide f && decide (i < nd s.cfg f)
  | .arbWriteDirect f i d => p == fifoSide f && decide (i < nd s.cfg f) && !d.isEmpty
  | .setPathMask f i _ => p == .main && decide (i < np s.cfg f)
  | .fifoDrain f k => p == fifoSide f && decide (1 ≤ k)
  | .notify c d => p == .io && mayNotify s c d
  | .chanUnmasked c => p == .main && s.cfg.hasChan c
  | .workerPost _ _ => true

/-- `PathRequest(f, i, b)` (rule R197). -/
def pathRequest (f : FifoId) (i : Nat) (b : Bool) (s : State) : State :=
  s.setFifo f { s.fifo f with req := (s.fifo f).req.set i b }

/-- `SetPathMask(f, i, b)` (rule R201): unmasking a DMA producer tells its channel. -/
def setPathMask (f : FifoId) (i : Nat) (b : Bool) (s : State) : Result :=
  let s1 := s.setFifo f { s.fifo f with pmask := (s.fifo f).pmask.set i b }
  match producerChan s.cfg f i with
  | some c => if b then .next s1 else chanUnmasked c s1
  | none => .next s1

/-- `WorkerPost(s, w)`: the payload word of the signal, then its flag (rule R46). A second LABEL post
before a take leaves a merge of the two payloads that no source gives, a free value (U7). -/
def workerPost (g : Signal) (w : DWord) (s : State) : State :=
  match g with
  | .finish => { s with wk := { s.wk with finish := true } }
  | .signal => { s with wk := { s.wk with payload0 := w, signal := true } }
  | .label =>
    { s with wk := { s.wk with
        payload1 := if s.wk.label then Config.freeLabelMerge s.wk.payload1 w else w
        label := true } }

/-- One signal of `WorkerTake`: if its flag is set it is handed on with its payload word, if it has one. -/
def takeSignal (g : Signal) (w : Option DWord) (set : Bool) (s : State) : State :=
  if set then s.emit (.worker g w) else s

/-- `WorkerTake`, at the start of a MAIN pass (rule R46): every flag that is set is handed on and cleared. DESIGN
CHOICE, log entry 22: the order of the three signals, and that FINISH, which has no payload word, is handed on
without one. -/
def workerTake (s : State) : State :=
  let s1 := takeSignal .finish none s.wk.finish s
  let s2 := takeSignal .label (some s.wk.payload1) s.wk.label s1
  let s3 := takeSignal .signal (some s.wk.payload0) s.wk.signal s2
  { s3 with wk := { s3.wk with finish := false, label := false, signal := false } }

/-- An operation on FIFO `f` moved `n` units: once an endpoint operation has moved a unit, the endpoint may notify
MAIN (rule R204). -/
def afterMove (f : FifoId) (n : Nat) (s : State) : State :=
  if f = .bridge ∧ 0 < n then { s with endpointMoved := true } else s

/-- The notification IO to MAIN (rule R204): the continuation of channel `c` is brought forward, to `d` IO
cycles from now. -/
def notifyMain (c : Chan) (d : Nat) (s : State) : State :=
  arm .main (dmaCont c) (toMain s.cfg d) (BitVec.ofNat 32 c.val) s

/-- An operation of an outside agent acting in domain `p`. What the agent may not do is no operation of
the block and changes nothing. -/
def performExt (p : Domain) (e : ExtOp) (s : State) : Result :=
  if permitted p s e then
    match e with
    | .arm q k d w => .next (arm q k (crossDelta s.cfg p q d) w s)
    | .cancel q k => .next (cancel q k s)
    | .pathRequest f i b => .next (pathRequest f i b s)
    | .arbWriteDirect f i d =>
      let r := arbWriteDirect f i (d.map s.cfg.cut) s
      .next (afterMove f r.1 (r.2.emit (.accepted f i r.1))).tick
    | .setPathMask f i b => setPathMask f i b s
    | .fifoDrain f k =>
      let r := fifoRead f k s
      .next (afterMove f r.1.length (r.2.emit (.drained f r.1)))
    | .notify c d => .next (notifyMain c d s)
    | .chanUnmasked c => chanUnmasked c s
    | .workerPost g w => .next (workerPost g w s)
  else .next s

/-- A sequence of such operations. -/
def performExts (p : Domain) : List ExtOp → State → Result
  | [], s => .next s
  | e :: l, s => andThen (performExt p e s) (performExts p l)

/-- An external event handler of domain `p`: whatever sequence of operations the environment answers,
including none (rules R40, R157, U6). -/
def extHandler (p : Domain) (s : State) : Result := performExts p s.answers.handler s.tick

end Sys2Proof.Machine
end

