-- ==== Sys2Proof/Machine/Events.lean ====
section
/-! DEFINITION. The event handlers (rules R40, R105, R157, R161, R204, R268): what firing an event kind
does once its arm bit is cleared. -/

namespace Sys2Proof.Machine

/-- `DMA_CONT[c]` in the MAIN scheduler: `OnDmaCont(c)`; the payload is not used (rule R105). -/
def execEventDmaContMain (c : Chan) (_w : Word) (s : State) : Result := onDmaCont c s

/-- `DMA_CONT[k]` in the IO scheduler: the I/O CPU's own DMA, an external handler (rule R157). -/
def execEventDmaContIo (_k : Chan) (_w : Word) (s : State) : Result := extHandler .io s

/-- `INT_TEST` in either scheduler: `OnIntTest(p)` (rule R268). -/
def execEventIntTest (p : Domain) (_w : Word) (s : State) : Result := .next (evaluatePending p s)

/-- `BRIDGE_STEP` in the IO scheduler: the I/O bridge endpoint acts (rule R204). -/
def execEventBridgeStepIo (_w : Word) (s : State) : Result := extHandler .io s

/-- `BRIDGE_STEP` in the MAIN scheduler: no handler; the pass is the effect (rules R40, R157). -/
def execEventBridgeStepMain (_w : Word) (s : State) : Result := .next s

/-- `TIMER[j]` in either scheduler: an external handler (rule R161). -/
def execEventTimer (p : Domain) (_j : Fin 4) (_w : Word) (s : State) : Result := extHandler p s

end Sys2Proof.Machine
end

