-- ==== Sys2Proof/Machine/GlobalRegs.lean ====
section
/-! DEFINITION. Register accesses to the global registers: the master enable and its enabler pair (rules
R231 to R234), the two interrupt pairs (rules R235, R236, R239, R240, R243), the stall addresses (rules
R237, R238), the FIFO status mirrors (rules R241, R242), and unmapped addresses (rule R245). -/

namespace Sys2Proof.Machine

/-- What a write to either half of the global enable does once the bit is stored: an off-to-on change of
`globalEnable` restarts the queued channels (rules R34, R231, R233). -/
def afterEnableWrite (was : Bool) (s : State) : Result :=
  if !was && s.globalEnable then restartQueued s else .next s

/-- `W CTRL <- v` (rule R231). -/
def execWCtrl (v : Word) (s : State) : Result :=
  afterEnableWrite s.globalEnable { s with dmae := v.getLsbD s.cfg.layout.ctrlDMAE }

/-- `R CTRL` (rule R232). -/
def execRCtrl (s : State) : Result := .next (s.setRead .main (bitAt s.dmae s.cfg.layout.ctrlDMAE))

/-- `W ENABLEW <- v` (rule R233). -/
def execWEnablew (v : Word) (s : State) : Result :=
  afterEnableWrite s.globalEnable { s with cpnd := v.getLsbD s.cfg.layout.enableCPND }

/-- `R ENABLER` (rule R234). -/
def execREnabler (s : State) : Result := .next (s.setRead .main (bitAt s.cpnd s.cfg.layout.enableCPND))

/-- `W STAT <- v` (rule R235). -/
def execWStat (v : Word) (s : State) : Result :=
  .next (evaluatePending .main { s with stat := writeStat s.cfg s.stat v })

/-- `R STAT` (rule R236). -/
def execRStat (s : State) : Result := .next (s.setRead .main s.stat)

/-- `W STADR_S <- v` (rule R237). -/
def execWStadrS (v : Word) (s : State) : Result := .next { s with stadrS := s.cfg.align v }

/-- `R STADR_S` (rule R238). -/
def execRStadrS (s : State) : Result := .next (s.setRead .main s.stadrS)

/-- `W STADR_D <- v` (rule R237). -/
def execWStadrD (v : Word) (s : State) : Result := .next { s with stadrD := s.cfg.align v }

/-- `R STADR_D` (rule R238). -/
def execRStadrD (s : State) : Result := .next (s.setRead .main s.stadrD)

/-- `W IO_ISTAT <- v` by the IO CPU (rule R239). -/
def execWIoIstat (v : Word) (s : State) : Result :=
  .next (evaluatePending .io { s with ioIstat := writeIoIstat s.cfg s.ioIstat v })

/-- `R IO_ISTAT` by the IO CPU (rule R243). -/
def execRIoIstat (s : State) : Result := .next (s.setRead .io s.ioIstat)

/-- `W IO_IMASK <- v` by the IO CPU (rule R240). -/
def execWIoImask (v : Word) (s : State) : Result :=
  .next (evaluatePending .io { s with ioImask := writeIoImask s.cfg v })

/-- `R IO_IMASK` by the IO CPU (rule R243). -/
def execRIoImask (s : State) : Result := .next (s.setRead .io s.ioImask)

/-- `R FSTAT[GPATH]` (rule R241). -/
def execRFstatGpath (s : State) : Result := .next (s.setRead .main (s.fifo .gpath).fstat)

/-- `W FSTAT[GPATH] <- v`: ignored, the register is read-only (rule R242). -/
def execWFstatGpath (_v : Word) (s : State) : Result := .next s

/-- `R FSTAT[BRIDGE]` (rule R241). -/
def execRFstatBridge (s : State) : Result := .next (s.setRead .main (s.fifo .bridge).fstat)

/-- `W FSTAT[BRIDGE] <- v`: ignored (rule R242). -/
def execWFstatBridge (_v : Word) (s : State) : Result := .next s

/-- A write to an address that maps no register for the issuer, and the write of `ENABLER`: ignored (rules
R234, R245). -/
def execWUnmapped (_p : Domain) (_a _v : Word) (s : State) : Result := .next s

/-- A read of an address that maps no register for the issuer, and the read of `ENABLEW`: returns 0 (rules
R234, R245). -/
def execRUnmapped (p : Domain) (_a : Word) (s : State) : Result := .next (s.setRead p 0#32)

end Sys2Proof.Machine
end

