-- ==== Sys2Proof/Machine/Dispatch.lean ====
section
/-! DEFINITION. The meaning of every instruction: one arm per constructor of `Instr`. -/

namespace Sys2Proof.Machine

def exec (i : Instr) (s : State) : Host.Outcome State Fault Refusal :=
  match i with
  | .refeFull c q irq a => Sys2Proof.Machine.execRefeFull c q irq a s
  | .cntFull c q irq a => Sys2Proof.Machine.execCntFull c q irq a s
  | .nextFull c q irq a => Sys2Proof.Machine.execNextFull c q irq a s
  | .refFull c q irq a => Sys2Proof.Machine.execRefFull c q irq a s
  | .refsFull c q irq a => Sys2Proof.Machine.execRefsFull c q irq a s
  | .callFull c q irq a => Sys2Proof.Machine.execCallFull c q irq a s
  | .retFull c q irq a => Sys2Proof.Machine.execRetFull c q irq a s
  | .endFull c q irq a => Sys2Proof.Machine.execEndFull c q irq a s
  | .refeSimple c q irq a => Sys2Proof.Machine.execRefeSimple c q irq a s
  | .cntSimple c q irq a => Sys2Proof.Machine.execCntSimple c q irq a s
  | .nextSimple c q irq a => Sys2Proof.Machine.execNextSimple c q irq a s
  | .refSimple c q irq a => Sys2Proof.Machine.execRefSimple c q irq a s
  | .refsSimple c q irq a => Sys2Proof.Machine.execRefsSimple c q irq a s
  | .callSimple c q irq a => Sys2Proof.Machine.execCallSimple c q irq a s
  | .retSimple c q irq a => Sys2Proof.Machine.execRetSimple c q irq a s
  | .endSimple c q irq a => Sys2Proof.Machine.execEndSimple c q irq a s
  | .wChcr c v => Sys2Proof.Machine.execWChcr c v s
  | .rChcr c => Sys2Proof.Machine.execRChcr c s
  | .wMadr c v => Sys2Proof.Machine.execWMadr c v s
  | .rMadr c => Sys2Proof.Machine.execRMadr c s
  | .wQwc c v => Sys2Proof.Machine.execWQwc c v s
  | .rQwc c => Sys2Proof.Machine.execRQwc c s
  | .wTadr c v => Sys2Proof.Machine.execWTadr c v s
  | .rTadr c => Sys2Proof.Machine.execRTadr c s
  | .wAsr0 c v => Sys2Proof.Machine.execWAsr0 c v s
  | .rAsr0 c => Sys2Proof.Machine.execRAsr0 c s
  | .wAsr1 c v => Sys2Proof.Machine.execWAsr1 c v s
  | .rAsr1 c => Sys2Proof.Machine.execRAsr1 c s
  | .wCtrl v => Sys2Proof.Machine.execWCtrl v s
  | .rCtrl => Sys2Proof.Machine.execRCtrl s
  | .wStat v => Sys2Proof.Machine.execWStat v s
  | .rStat => Sys2Proof.Machine.execRStat s
  | .wStadrS v => Sys2Proof.Machine.execWStadrS v s
  | .rStadrS => Sys2Proof.Machine.execRStadrS s
  | .wStadrD v => Sys2Proof.Machine.execWStadrD v s
  | .rStadrD => Sys2Proof.Machine.execRStadrD s
  | .rFstatGpath => Sys2Proof.Machine.execRFstatGpath s
  | .wFstatGpath v => Sys2Proof.Machine.execWFstatGpath v s
  | .rFstatBridge => Sys2Proof.Machine.execRFstatBridge s
  | .wFstatBridge v => Sys2Proof.Machine.execWFstatBridge v s
  | .rEnabler => Sys2Proof.Machine.execREnabler s
  | .wEnablew v => Sys2Proof.Machine.execWEnablew v s
  | .wIoIstat v => Sys2Proof.Machine.execWIoIstat v s
  | .rIoIstat => Sys2Proof.Machine.execRIoIstat s
  | .wIoImask v => Sys2Proof.Machine.execWIoImask v s
  | .rIoImask => Sys2Proof.Machine.execRIoImask s
  | .wUnmapped p a v => Sys2Proof.Machine.execWUnmapped p a v s
  | .rUnmapped p a => Sys2Proof.Machine.execRUnmapped p a s
  | .eventDmaContMain c w => Sys2Proof.Machine.execEventDmaContMain c w s
  | .eventDmaContIo k w => Sys2Proof.Machine.execEventDmaContIo k w s
  | .eventIntTest p w => Sys2Proof.Machine.execEventIntTest p w s
  | .eventBridgeStepIo w => Sys2Proof.Machine.execEventBridgeStepIo w s
  | .eventBridgeStepMain w => Sys2Proof.Machine.execEventBridgeStepMain w s
  | .eventTimer p j w => Sys2Proof.Machine.execEventTimer p j w s

end Sys2Proof.Machine
end

