-- ==== Sys2Proof/Machine/Pass.lean ====
section
/-! DEFINITION. The scheduler pass (rules R155 to R158) and the clock (rules R154, R176): which events
fire and in what order, what a pass does at its start and its end, and how far a domain may advance. -/

namespace Sys2Proof.Machine

/-! ## The pass -/

/-- The due kinds, the snapshot of a pass (rules R153, R155). -/
def dueKinds (x : Sched) : List Kind := (List.finRange 16).filter x.isDue

/-- Kind `j` fires before kind `k`: the smaller due time as seen from now, then the smaller number (rule
R156). -/
def firesBefore (x : Sched) (j k : Kind) : Bool :=
  decide (sdiff32 (x.due j) x.cycle < sdiff32 (x.due k) x.cycle) ||
    (decide (sdiff32 (x.due j) x.cycle = sdiff32 (x.due k) x.cycle) && decide (j.val ≤ k.val))

/-- The member of the snapshot that fires next, or `k` (rule R156). -/
def firstToFire (x : Sched) (k : Kind) : List Kind → Kind
  | [] => k
  | j :: l => firstToFire x (if firesBefore x j k then j else k) l

/-- `Handler(p, k, w)`: the instruction that the kind decodes to (rule R157). -/
def runHandler (p : Domain) (k : Kind) (w : Word) (s : State) : Result := exec (decodeEvent p k w) s

/-- Kind `k` leaves the snapshot of the running pass: `S <- S - {k}` (rule R155). -/
def Sched.leavePass (x : Sched) (k : Kind) : Sched := { x with passSet := x.passSet.filter (· != k) }

/-- One member of the snapshot: it leaves the snapshot, and if it is still armed its arm bit is cleared and
then its handler runs (rules R155, R162). -/
def fire (p : Domain) (k : Kind) (s : State) : Result :=
  let s1 := s.setSched p ((s.sched p).leavePass k)
  if (s.sched p).slots[k.val].armed then
    runHandler p k (s.sched p).slots[k.val].payload (cancel p k s1)
  else .next s1

/-- The snapshot fires in the order of rule R156, until no member is left; `n` bounds their number. A member
that an earlier handler cancelled does not run, and one that an earlier handler re-armed is no member any
more: it fires in a later pass, when its new due time has come (corner case of rule R155, rule R69; log entry
29). -/
def fireAll (p : Domain) : Nat → State → Result
  | 0, s => .next s
  | n + 1, s =>
    match (s.sched p).passSet with
    | [] => .next s
    | j :: l => andThen (fire p (firstToFire (s.sched p) j l) s) (fireAll p n)

/-- `nextEventCycle` and `nextValid` recomputed at the end of a pass: the earliest due time of an armed
kind, if any is armed (rule R158). -/
def Sched.recompute (x : Sched) : Sched :=
  match earliest x.cycle (((List.finRange 16).filter fun k => x.slots[k.val].armed).map x.due) with
  | some t => { x with nextValid := true, nextEvent := t }
  | none => { x with nextValid := false }

/-- What a MAIN pass does first (rule R155). -/
def passStart (p : Domain) (s : State) : State :=
  match p with
  | .main => workerTake (reanchor s)
  | .io => s

/-- What a pass does last (rules R155, R158, R267). -/
def passEnd (p : Domain) (s : State) : State :=
  evaluatePending p (s.setSched p (s.sched p).recompute)

/-- `S <- { k | k is due }`: the snapshot at the start of a pass (rules R153, R155). -/
def Sched.snapshot (x : Sched) : Sched := { x with passSet := dueKinds x }

/-- `Pass(p)` (rule R155). -/
def pass (p : Domain) (s : State) : Result :=
  let s1 := passStart p s
  let s2 := s1.setSched p (s1.sched p).snapshot
  andThen (fireAll p (s2.sched p).passSet.length s2) fun t => .next (passEnd p t)

/-! ## The clock -/

/-- The greatest advance the model takes in one operation: a MAIN advance stays below 2^30, before which
the bridge must re-anchor (rule R172), and no advance exceeds 2^31 - 1 (rule R154). -/
def advanceCap : Domain → Nat
  | .main => 1073741823
  | .io => maxDelta

/-- The preconditions of `Advance(p, n)` (rules R154, R176). -/
def advanceOk (p : Domain) (n : Nat) (s : State) : Bool :=
  decide (1 ≤ n) && decide (n ≤ advanceCap p) &&
    (!(s.sched p).nextValid || decide ((n : Int) ≤ sdiff32 (s.sched p).nextEvent (s.sched p).cycle)) &&
    (match p with
      | .io =>
        match ioLimit s with
        | some l => decide ((n : Int) ≤ sdiff32 l s.schedIo.cycle)
        | none => true
      | .main =>
        !s.schedIo.nextValid ||
          decide (0 ≤ sdiff32 s.schedIo.nextEvent (ioEq s (s.schedMain.cycle + BitVec.ofNat 32 n))))

/-- The cycle counter moves on by `n`. -/
def Sched.forward (x : Sched) (n : Nat) : Sched := { x with cycle := x.cycle + BitVec.ofNat 32 n }

/-- `Advance(p, n)` (rule R154). The bridge re-anchors first where the MAIN counter would otherwise move
2^30 cycles or more past its anchor; this leaves the correspondence as it is (rule R172). -/
def advance (p : Domain) (n : Nat) (s : State) : State :=
  let s1 :=
    match p with
    | .main =>
      if 1073741824 ≤ sdiff32 (s.schedMain.cycle + BitVec.ofNat 32 n) s.mainAnchor ∨
          sdiff32 (s.schedMain.cycle + BitVec.ofNat 32 n) s.mainAnchor < 0 then reanchor s else s
    | .io => s
  s1.setSched p ((s1.sched p).forward n)

/-- A signed distance as a count of cycles. -/
def cyclesTo (a b : Word) : Nat := (sdiff32 a b).toNat

/-- How many cycles MAIN may advance before it converts past the next IO event, of `n` asked for (K2 of rule R176),
counted from the present MAIN cycle. Where that event already compares as past, no count is too great by itself:
only the comparison modulo 2^32 says which ones rule R176 admits (log entry 35). -/
def overtakeRoom (n : Nat) (s : State) : Nat :=
  let room := sdiff32 s.schedIo.nextEvent (ioEq s s.schedMain.cycle)
  let phase := (sdiff32 s.schedMain.cycle s.mainAnchor + s.residue).tmod s.cfg.ratio
  if room < 0 then n else ((room + 1) * s.cfg.ratio - 1 - phase).toNat

/-- The greatest part of an advance of `n` cycles that the limits of rules R154 and R176 leave, before
they are checked: the own domain's next event, the I/O limit for IO, and the next IO event for MAIN. -/
def advancePart (p : Domain) (n : Nat) (s : State) : Nat :=
  let own := if (s.sched p).nextValid then cyclesTo (s.sched p).nextEvent (s.sched p).cycle else n
  let other :=
    match p with
    | .io =>
      match ioLimit s with
      | some l => cyclesTo l s.schedIo.cycle
      | none => n
    | .main => if s.schedIo.nextValid then overtakeRoom n s else n
  min (min n (advanceCap p)) (min own other)

/-- As much of an advance of `n` cycles as rules R154 and R176 admit in this state, with the state after it: the whole
if it is admitted, otherwise the greatest part; nothing if no cycle is admitted. -/
def tryPart (p : Domain) (n : Nat) (s : State) : Option (Nat × State) :=
  let a := if advanceOk p n s then n else advancePart p n s
  if advanceOk p a s then some (a, advance p a s) else none

/-- As much of an advance of `n` cycles as is admitted, at once or, if that is nothing, once the bridge has
re-anchored. That the bridge re-anchors here is a DESIGN CHOICE, log entry 24: rule R172 lets it run at any time. -/
def tryAdvance (p : Domain) (n : Nat) (s : State) : Option (Nat × State) :=
  tryPart p n s <|> tryPart p n (reanchor s)

end Sys2Proof.Machine
end

