-- ==== Sys2Proof/Machine/Run.lean ====
section
/-! DEFINITION. One step of the machine: the next operation of the agenda is performed, or, while the rules
hold it back, what lets it proceed (rules R159, R176 to R178); with no operation offered the schedulers run
by themselves (rule R154). -/

namespace Sys2Proof.Machine

/-- `Pass(p)` may run: it is due and the other domain has caught up (rules R155, R176, R178). -/
def passReady (p : Domain) (s : State) : Bool := (s.sched p).passDue && caughtUp s p

/-- An operation of domain `p` other than a pass or an advance may run: no pass of `p` is enabled and the
other domain has caught up (rules R159, R176, R220). -/
def mayAct (p : Domain) (s : State) : Bool := !(s.sched p).passDue && caughtUp s p

/-- How far the other domain of `p` runs while an operation of `p` waits: to the converted time of `p` if
it is behind (K3), otherwise to its own next event, which is what holds `p` back (K1, K2). -/
def catchUpCycles (p : Domain) (s : State) : Nat :=
  if caughtUp s p then
    (if (s.sched p.other).nextValid then
      cyclesTo (s.sched p.other).nextEvent (s.sched p.other).cycle
    else 0)
  else
    match p with
    | .main => (ioEq s s.schedMain.cycle - s.schedIo.cycle).toNat
    | .io => (mainEq s s.schedIo.cycle - s.schedMain.cycle).toNat

/-- Domain `p` advances by as much of `n` cycles as the limits admit, if any (rules R154, R176). -/
def runCycles (p : Domain) (n : Nat) (s : State) : Option State :=
  (tryAdvance p n s).map Prod.snd

/-- Domain `p` advances by as much as the limits admit in one operation, if they admit any cycle. -/
def runMost (p : Domain) (s : State) : Option State := runCycles p (advanceCap p) s

/-- What happens while an operation of domain `p` is held: the pass of `p` if it may run, otherwise it is
the other domain's turn, which passes or advances by as much as `p` waits for (rules R159, R178). Where none of
that is admitted, which only clocks far apart can bring about (log entry 35), the other domain advances by what is
admitted, or else `p` itself does (DESIGN CHOICE, log entry 7); the state stays only if rules R154 and R176 admit no
cycle of either domain. -/
def release (p : Domain) (s : State) : Result :=
  if passReady p s then pass p s
  else if passReady p.other s then pass p.other s
  else .next ((runCycles p.other (catchUpCycles p s) s <|> runMost p.other s <|> runMost p s).getD s)

/-- The jump of an idle domain to its next due event (rule R154). -/
def jump (p : Domain) (s : State) : Option State :=
  if (s.sched p).nextValid then runCycles p (cyclesTo (s.sched p).nextEvent (s.sched p).cycle) s else none

/-- No agent offers an operation: a due pass runs, otherwise a domain jumps to its next event; where either
domain may move first the environment answers which (rules R154, R178, U13). -/
def idleTurn (s : State) : Result :=
  let p := s.answers.turn
  if (s.sched p).passDue then ticked (release p s)
  else if (s.sched p.other).passDue then ticked (release p.other s)
  else
    match jump p s with
    | some t => .next t.tick
    | none =>
      match jump p.other s with
      | some t => .next t.tick
      | none => .next s

/-- With nothing armed in either domain an idle machine stays as it is (rule R280). -/
def idle (s : State) : Result :=
  if s.schedMain.nextValid || s.schedIo.nextValid then idleTurn s else .next s

/-- A register access: decoded (rule R86) and executed; an access of another width or alignment has no
meaning (rules R64, R220, U2). -/
def runAccess (p : Domain) (d : Dir) (width : Nat) (a v : Word) (s : State) : Result :=
  match decode s.cfg (.access p d width a v) with
  | .ok i => exec i s
  | .error _ => .refused .accessShape

/-- `Reset` (rule R290): every piece of the block's state takes the value of rule R48. Main memory, the
configuration and the environment are not part of the block. -/
def performReset (s : State) : State :=
  { State.reset with
    gpath := Fifo.reset s.cfg.layout (cap s.cfg .gpath) (np s.cfg .gpath)
    bridge := Fifo.reset s.cfg.layout (cap s.cfg .bridge) (np s.cfg .bridge)
    mem := s.mem
    cfg := s.cfg
    map := s.map
    script := s.script
    ticks := s.ticks
    opCount := s.opCount
    endpointMoved := s.endpointMoved
    agenda := s.agenda
    readMain := s.readMain
    readIo := s.readIo
    out := s.out }

/-- Whether an external operation waits for the domain it acts in: the worker's posts do not (rule R75). -/
def extWaits : ExtOp → Bool
  | .workerPost _ _ => false
  | _ => true

/-- The operation `op` at the head of the agenda, `s` being the state with it taken off and `held` the
state with it still there. An advance that the limits cut short leaves its rest on the agenda; an advance
of no cycles and a pass that is not due are no operations. A store by another agent may have any width and
any alignment (DESIGN CHOICE, log entry 33). -/
def perform (op : Op) (held s : State) : Result :=
  match op with
  | .access p d width a v => if mayAct p s then runAccess p d width a v s else release p held
  | .advance p n =>
    if n = 0 then .next s
    else
      match tryAdvance p n s with
      | some (a, t) => .next (if a = n then t else { t with agenda := .advance p (n - a) :: t.agenda })
      | none => release p held
  | .pass p => if passReady p s then pass p s else if (s.sched p).passDue then release p held else .next s
  | .reanchor => .next (reanchor s)
  | .ext p e => if mayAct p s || !extWaits e then performExt p e s else release p held
  | .store a d => .next { s with mem := writeBytes s.mem a d }
  | .remap rs => .next { s with map := some rs }
  | .reset => .next (performReset s)

/-- A mapped window is a device whose reads have side effects (rule R66, U10). -/
def sideEffectWindow (s : State) : Bool :=
  match s.map with
  | some rs => rs.any Region.sideEffects
  | none => false

/-- What the parameters and the memory map must meet before any operation runs: refused outside the ranges
of rule R6 (U17) or with a side-effect window in reach (U10). -/
def admitted (s : State) (r : Result) : Result :=
  if !Config.valid s.cfg then .refused .configuration
  else if sideEffectWindow s then .refused .sideEffectWindow
  else r

/-- One step: the next atomic operation. -/
def runStep (s : State) : Result :=
  match s.agenda with
  | [] => admitted s (idle { s with opCount := s.opCount + 1 })
  | op :: rest =>
    admitted s (perform op { s with opCount := s.opCount + 1 }
      { s with
        opCount := s.opCount + 1
        agenda := rest })

end Sys2Proof.Machine
end

