-- ==== Sys2Proof/Machine/Fetch.lean ====
section
/-! DEFINITION. Placing an encoded input where the next step reads it: a register access at the head of the
agenda, an event in its slot and due, a tag in memory at the tag pointer of a channel whose continuation is
due. -/

namespace Sys2Proof.Machine

/-- No event of domain `p` is armed or due. -/
def Sched.quiet (x : Sched) : Sched :=
  { x with slots := x.slots.map (fun e => { e with armed := false }), nextValid := false }

/-- Nothing holds an operation back: no event armed, and the two clocks in step. -/
def calm (s : State) : State :=
  { s with
    schedMain := s.schedMain.quiet
    schedIo := s.schedIo.quiet
    mainAnchor := s.schedMain.cycle
    ioAnchor := s.schedIo.cycle
    residue := 0 }

/-- Kind `k` of domain `p` is due now and the pass that fires it is next. -/
def dueNow (p : Domain) (k : Kind) (w : Word) (s : State) : State :=
  let t := arm p k 0 w s
  { t with agenda := .pass p :: t.agenda }

/-- Channel `c` is Running in Chain mode and is about to fetch a tag. -/
def awaitTag (c : Chan) (s : State) : State :=
  s.setCh c { s.ch c with str := true, mod := 1#2, qwc := 0, done := false, queued := false }

/-- Answers that mask no channel. -/
def unmaskedAnswers : Answers where
  masked := 0#10
  acceptGpath := []
  acceptBridge := []
  sink := 0
  source := []
  handler := []
  turn := .main

/-- All of main memory mapped for reads and writes. -/
def openMap : List Region := [{ base := 0, size := 4294967296, readable := true, writable := true, sideEffects := false }]

/-- Places an encoded input so that the very next step runs it. -/
def loadEncoded (s : State) : Encoded → State
  | .access p d width a v => { calm s with agenda := .access p d width a v :: s.agenda }
  | .event p k w =>
    let t := calm s
    let t1 :=
      match decodeEvent p k.toFin w with
      | .eventDmaContMain c _ => t.setCh c { t.ch c with str := true, queued := false }
      | _ => t
    dueNow p k.toFin w t1
  | .tag c bytes =>
    let t := awaitTag c (calm s)
    dueNow .main (dmaCont c) 0#32
      { t with
        mem := writeBytes t.mem (s.cfg.align (t.ch c).tadr) bytes
        map := some openMap
        dmae := true
        cpnd := false
        script := unmaskedAnswers :: t.script }

/-- Places a word of the opcode table where the next step fetches; a word that the table's layout does not
cover changes nothing. -/
def loadTableWord (s : State) (nbits w : Nat) : State :=
  match tableEncoded nbits w with
  | some e => loadEncoded s e
  | none => s

end Sys2Proof.Machine
end

