-- ==== Sys2Proof/Machine/Step.lean ====
section
/-! DEFINITION. One step of the machine, and the state in which the next step runs a given word of the
opcode table. -/

namespace Sys2Proof.Machine

/-- One step: the next atomic operation of the interleaving of rule R70. -/
def step (s : State) : Host.Outcome State Fault Refusal := Sys2Proof.Machine.runStep s

/-- The state whose very next step runs the instruction that the word stands for. -/
def State.withFetchWord (s : State) (nbits w : Nat) : State := Sys2Proof.Machine.loadTableWord s nbits w

end Sys2Proof.Machine
end

