-- ==== Sys2Proof/Safety.lean ====
section
/-! DEFINITION. The terms in which claims speak of a good state: the invariants of the spec (rules R22 to
R27, R35 to R37, R41 to R45, R126, R153, R195), each a decidable property of one state, the contents of a
ring as the queue it stands for, a chain of tags in memory (rule R147), and the run of one transfer (rule
R126). -/

namespace Sys2Proof.Machine

/-! ## Channels -/

/-- The address registers of a channel have bits 3:0 zero, the stack depth is at most 2 and the count at
most 0x10000 (rules R22, R24 to R27). -/
abbrev ChannelWf (cfg : Config) (ch : Channel) : Prop :=
  cfg.align ch.madr = ch.madr ∧ cfg.align ch.tadr = ch.tadr ∧ cfg.align ch.asr0 = ch.asr0 ∧
    cfg.align ch.asr1 = ch.asr1 ∧ ch.asp.toNat ≤ cfg.literals.aspMax ∧ ch.qwc ≤ 0x10000

/-- A count that software cannot store stands in Normal mode: the second half of law 3 of rule R126, read of one
state. That a `CHCR` write to the idle channel may end it is log entry 23. -/
abbrev CountWf (ch : Channel) : Prop := 0xFFFF < ch.qwc → effMode ch.mod = .normal

/-- Every channel is well formed. -/
abbrev ChannelsWf (s : State) : Prop := ∀ c : Chan, ChannelWf s.cfg (s.ch c)

/-- A queued channel has its start bit set, and an armed continuation belongs to a Running channel (laws 1
and 2 of rule R126). -/
abbrev QueueWf (s : State) : Prop :=
  ∀ c : Chan, ((s.ch c).queued = true → (s.ch c).str = true) ∧
    (s.schedMain.slots[(dmaCont c).val].armed = true → s.running c = true)

/-! ## Registers and memory -/

/-- The reserved bits of the status and mask words and bits 3:0 of the stall addresses read zero (rules
R35 to R37). -/
abbrev RegistersWf (s : State) : Prop :=
  s.stat &&& ~~~(s.cfg.statStatusMask ||| s.cfg.statMaskMask) = 0#32 ∧
    s.ioIstat &&& ~~~s.cfg.ioMask = 0#32 ∧ s.ioImask &&& ~~~s.cfg.ioMask = 0#32 ∧
    s.cfg.align s.stadrS = s.stadrS ∧ s.cfg.align s.stadrD = s.stadrD

/-- Main memory is in its canonical form. -/
abbrev MemoryWf (s : State) : Prop := Memory.wf s.mem = true

/-! ## FIFOs -/

/-- A ring of `cap` units with `np` producers: sizes and positions in range, the write position where the
occupied window ends, and the status mirror equal to the occupancy (rules R43 to R45, R194). -/
abbrev FifoWf (l : Layout) (cap threshold np : Nat) (q : Fifo) : Prop :=
  q.data.length = cap ∧ q.size ≤ cap ∧ q.readPos < cap ∧ q.writePos = (q.readPos + q.size) % cap ∧
    q.fstat = fstatWord l q.size threshold ∧ q.req.length = np ∧ q.pmask.length = np

/-- Both rings are well formed for the configuration. -/
abbrev FifosWf (s : State) : Prop :=
  FifoWf s.cfg.layout (cap s.cfg .gpath) (fullThreshold s.cfg .gpath) (np s.cfg .gpath) s.gpath ∧
    FifoWf s.cfg.layout (cap s.cfg .bridge) (fullThreshold s.cfg .bridge) (np s.cfg .bridge) s.bridge

/-- The units in a ring, oldest first: the queue that the ring stands for (rule R195). -/
def Fifo.contents (cap : Nat) (q : Fifo) : List Qword :=
  (List.range q.size).map fun i => q.data.getD ((q.readPos + i) % cap) 0#128

/-! ## Schedulers and the bridge -/

/-- How many cycles are left until kind `k` is due, negative if it is late. -/
def Sched.remaining (x : Sched) (k : Kind) : Int :=
  (x.slots[k.val].delta.toNat : Int) - sdiff32 x.cycle x.slots[k.val].start

/-- No event is late and the next pass comes no later than any armed event (rules R39, R153, R154). -/
abbrev SchedTimely (x : Sched) : Prop :=
  (x.nextValid = true → 0 ≤ sdiff32 x.nextEvent x.cycle) ∧
    ∀ k : Kind, x.slots[k.val].armed = true →
      x.nextValid = true ∧ x.slots[k.val].delta.toNat ≤ maxDelta ∧
        0 ≤ sdiff32 x.cycle x.slots[k.val].start ∧ sdiff32 x.nextEvent x.cycle ≤ x.remaining k

/-- Both schedulers are timely. -/
abbrev SchedsTimely (s : State) : Prop := SchedTimely s.schedMain ∧ SchedTimely s.schedIo

/-- The cycles not yet converted are fewer than one IO cycle (rule R42). -/
abbrev BridgeWf (s : State) : Prop := s.residue < s.cfg.ratio

/-! ## The inputs without a meaning -/

/-- No channel that waits in the queue is in Interleave mode, whose step no source gives (rule R120). -/
abbrev NoInterleaveQueued (s : State) : Prop :=
  ∀ c : Chan, (s.ch c).queued = true → effMode (s.ch c).mod ≠ .interleave

/-- No channel that waits, in the queue or for its continuation, is in Interleave mode. -/
abbrev NoInterleaveWaiting (s : State) : Prop :=
  ∀ c : Chan, (s.ch c).queued = true ∨ s.schedMain.slots[(dmaCont c).val].armed = true →
    effMode (s.ch c).mod ≠ .interleave

/-! ## Frames -/

/-- What one step of channel `c` may change, and nothing else: channel `c`, the status bits it latches
(never a mask bit, and never from 1 to 0), the two stall addresses, its continuation and the interrupt test
of MAIN, the interrupt test and the bridge step of IO, the two rings, main memory and what leaves the
block. No clock, no other channel and no setting changes (rules R68, R70, R118, R126). -/
structure StepFrame (c : Chan) (s t : State) : Prop where
  fields : t = { s with
    chans := t.chans, stat := t.stat, stadrS := t.stadrS, stadrD := t.stadrD, ioIstat := t.ioIstat,
    schedMain := t.schedMain, schedIo := t.schedIo, gpath := t.gpath, bridge := t.bridge, mem := t.mem,
    script := t.script, ticks := t.ticks, out := t.out }
  channels : ∀ d, d ≠ c → t.ch d = s.ch d
  statBits : ∃ w, t.stat = s.stat ||| (w &&& s.cfg.statStatusMask)
  ioStatBits : ∃ w, t.ioIstat = s.ioIstat ||| (w &&& s.cfg.ioMask)
  cycleMain : t.schedMain.cycle = s.schedMain.cycle
  cycleIo : t.schedIo.cycle = s.schedIo.cycle
  slotsMain : ∀ k : Kind, k ≠ dmaCont c → k ≠ intTest →
    t.schedMain.slots[k.val] = s.schedMain.slots[k.val]
  slotsIo : ∀ k : Kind, k ≠ intTest → k ≠ bridgeStep → t.schedIo.slots[k.val] = s.schedIo.slots[k.val]

/-- The bytes of `n` units of `u` bytes from address `a` on (addresses modulo 2^32). -/
abbrev InUnits (u : Nat) (a : Word) (n b : Nat) : Prop := (BitVec.ofNat 32 b - a).toNat < u * n ∧ b < 4294967296

/-- The state in which the block transfer of a step of channel `c` begins: after the tag fetch where the step
fetches one (rule R107), otherwise the state itself. -/
def blockStart (c : Chan) (s : State) : State :=
  if s.canRun c = true ∧ effMode (s.ch c).mod = .chain ∧ (s.ch c).qwc = 0 ∧ (s.ch c).done = false then
    match fetchTag c s with
    | some (.next u) => u
    | _ => s
  else s

/-- The state that a start write of `v` to an Idle channel prepares (rules R102, R103, R221). -/
def startState (c : Chan) (v : Word) (s : State) : State :=
  s.setCh c (startChannel s.cfg { Channel.storeFields s.cfg (s.ch c) v with str := true })

/-! ## Chains of tags (rule R147) -/

/-- The stack of return addresses, the last one pushed first (rules R27, R140). -/
def Channel.stack (ch : Channel) : List Word :=
  if ch.asp = 0#2 then [] else if ch.asp = 1#2 then [ch.asr0] else [ch.asr1, ch.asr0]

/-- Where a chain goes after the tag at `t`, with `st` on the stack: the next tag and the
stack, or nowhere, for every opcode of both walkers and for a value that names none (rules R131 to R139,
R142 to R144, R146). The arms that the spec itself infers (D10, C2) are listed in log entry 30. -/
def chainNext (cfg : Config) (v : Variant) (t : Word) (st : List Word) (q : Nat) (a : Word) :
    Option TagOp → Option (Word × List Word)
  | some .refe => none
  | some .cnt => some (postBlock cfg t q, st)
  | some .next => some (a, st)
  | some .ref => some (postTag cfg t, st)
  | some .refs => some (postTag cfg t, st)
  | some .call =>
    match v with
    | .full => if st.length < cfg.literals.aspMax then some (a, postBlock cfg t q :: st) else none
    | .simple => none
  | some .ret =>
    match v, st with
    | .full, r :: l => some (r, l)
    | _, _ => none
  | some .end_ => none
  | none => none

/-- Main memory holds a chain of `n` tags for channel `c` from address `t` on, `st` being on the stack: every
tag translates, and the last one, and no earlier one, ends the chain, by its opcode or by the tag interrupt
(rules R109, R146, R147). -/
def ChainOf (s : State) (c : Chan) : Nat → Word → List Word → Prop
  | 0, _, _ => False
  | n + 1, t, st =>
    let w := tagFields s.cfg (readUnit s.cfg.unit s.mem t)
    translate s t .read = true ∧
      match chainNext s.cfg s.cfg.walker[c.val] t st w.q.toNat w.a (s.cfg.tagOp w.id) with
      | none => n = 0
      | some (t', st') => if w.irq && (s.ch c).tie then n = 0 else ChainOf s c n t' st'

/-- One application of the walker: the tag at `TADR` is fetched and walked, and its block has been moved whole
(rules R107, R108, R110). -/
def afterTag (c : Chan) (s : State) : Option State :=
  match fetchTag c s with
  | some (.next t) => some (advanceChannel c (t.ch c).qwc t)
  | _ => none

/-- `n` applications of the walker. -/
def walkTags (c : Chan) : Nat → State → Option State
  | 0, s => some s
  | n + 1, s => (afterTag c s).bind (walkTags c n)

/-! ## The run of one transfer (rule R126) -/

/-- The next operation is a write of `v` to `CHCR` of channel `c`, and nothing holds it back (rule R221). -/
def WritesChcr (c : Chan) (v : Word) (s : State) : Prop :=
  ∃ p d n a x rest, s.agenda = .access p d n a x :: rest ∧ mayAct p s = true ∧
    decode s.cfg (.access p d n a x) = .ok (.wChcr c v)

/-- The next operation neither resets the block nor force-stops channel `c`: it is no write of its `CHCR` with
the start bit clear that may act now (rules R28, R118, R290). -/
def Undisturbed (c : Chan) (s : State) : Prop :=
  match s.agenda with
  | .reset :: _ => False
  | .access p d n a v :: _ =>
    mayAct p s = true → ∀ x, decode s.cfg (.access p d n a v) = .ok (.wChcr c x) →
      x.getLsbD s.cfg.layout.chcrSTR = true
  | _ => True

/-- `t` is reached from `s` by steps in whose source channel `c` is busy and undisturbed. -/
inductive TransferRun (c : Chan) (s : State) : State → Prop
  | here : TransferRun c s s
  | more {t u : State} : TransferRun c s t → (t.ch c).str = true → Undisturbed c t → step t = .next u →
      TransferRun c s u

/-- How many units of channel `c` have left the block to its unit. -/
def unitsOut (c : Chan) : List Output → Nat
  | [] => 0
  | .unit d l :: o => (if d = c then l.length else 0) + unitsOut c o
  | _ :: o => unitsOut c o

end Sys2Proof.Machine
end

