-- ==== Sys2Proof/Certificates/Slice0/Obligations.lean ====
section
/-! DEFINITION. The statements for the provers, from the numbered rules of the spec. A docstring names the
rules; a statement that rests on a choice of the model says so and names the log entry. Where a docstring gives
a number of rule R5 (10 channels, units of 16 bytes, bits 3:0, depth 2), the statement reads it from the
configuration. -/

open Sys2Proof Sys2Proof.Machine

/-! ## Encodings -/

/-- Decoding is the inverse of encoding, for every well-formed instruction under every configuration of
rule R6 (rules R80 to R83, R86, R88). -/
def Obligations.DecodeEncode : Prop :=
  ∀ (cfg : Config) (i : Instr), Config.valid cfg = true → WellFormed cfg i = true →
    decode cfg (encode cfg i) = .ok i

/-- Whatever the decoder answers is well formed (rules R80, R83, R86, R145). -/
def Obligations.DecodedIsWellFormed : Prop :=
  ∀ (cfg : Config) (e : Encoded) (i : Instr), decode cfg e = .ok i → WellFormed cfg i = true

/-- The bits of a tag that no field holds are not read: with the layout and the numbers as written bits 27:16, 35:32 and 127:64
(rules R81, R83, R84). -/
def Obligations.IgnoredTagBits : Prop :=
  ∀ (cfg : Config) (c : Chan) (t u : Qword),
    let id := BitVec.ofNat 3 (2 ^ cfg.literals.tagOpcodeBits - 1)
    let fields := tagBits cfg.layout id 0xFFFF#16 true (~~~BitVec.ofNat 32 (cfg.unit - 1))
    (cfg.layout = Layout.default → cfg.literals = Literals.written →
      fields = 0x0000000000000000FFFFFFF0F000FFFF#128) ∧
    (t &&& fields = u &&& fields →
      decode cfg (.tag c (qwordBytes cfg.unit t)) = decode cfg (.tag c (qwordBytes cfg.unit u)))

/-- Words written out from the encodings: tags of rules R81 to R84 byte by byte (vectors V-E1, V-E3, V-E6, V-E9
and V-E11) on channels of both walkers, register accesses at the default addresses of rule R65 with a gap
and the other processor's register (rules R86, R245), and event kinds of both schedulers (rules R40, R88).
Before them the layouts and numbers under which they are written (rules R5, R22, R32, R33, R35, R37, R44,
R81). -/
def Obligations.SpecWords : Prop :=
  Config.default.layout = {
    chcrSTR := 0, chcrDIR := 1, chcrMOD := 2, chcrSTM := 4, chcrCHOP := 6, chcrTIE := 9, chcrASP := 24,
    ctrlDMAE := 0, enableCPND := 16, statCIS := 0, statSIS := 13, statBEIS := 15, statCIM := 16,
    statSIM := 29, ioCH := 0, fstatCOUNT := 0, fstatEMPTY := 8, fstatFULL := 9, tagQWC := 0, tagID := 28,
    tagIRQ := 31, tagADDR := 32 } ∧
  Config.default.literals = {
    nch := 10, unitBits := 128, aspMax := 2, qwcBits := 16, qwcZeroEffective := 0x10000, ndom := 2,
    nfifo := 2, tagOpcodeBits := 3 } ∧
  Config.default.cycleBits = 32 ∧ Config.valid Config.default = true ∧
  decode Config.default (.tag 0
      [0x02#8, 0x00#8, 0x00#8, 0x00#8, 0x00#8, 0x20#8, 0x00#8, 0x00#8,
       0x00#8, 0x00#8, 0x00#8, 0x00#8, 0x00#8, 0x00#8, 0x00#8, 0x00#8]) =
    .ok (.refeFull 0 2#16 false 0x2000#32) ∧
  decode Config.default (.tag 3
      [0x01#8, 0x00#8, 0x00#8, 0x20#8, 0x00#8, 0x30#8, 0x00#8, 0x00#8,
       0x00#8, 0x00#8, 0x00#8, 0x00#8, 0x00#8, 0x00#8, 0x00#8, 0x00#8]) =
    .ok (.nextSimple 3 1#16 false 0x3000#32) ∧
  decode Config.default (.tag 2
      [0x01#8, 0x00#8, 0x00#8, 0x50#8, 0x00#8, 0x30#8, 0x00#8, 0x00#8,
       0x00#8, 0x00#8, 0x00#8, 0x00#8, 0x00#8, 0x00#8, 0x00#8, 0x00#8]) =
    .ok (.callFull 2 1#16 false 0x3000#32) ∧
  decode Config.default (.tag 1
      [0x01#8, 0x00#8, 0x00#8, 0x90#8, 0x00#8, 0x00#8, 0x00#8, 0x00#8,
       0x00#8, 0x00#8, 0x00#8, 0x00#8, 0x00#8, 0x00#8, 0x00#8, 0x00#8]) =
    .ok (.cntFull 1 1#16 true 0x0#32) ∧
  decode Config.default (.tag 9
      [0x02#8, 0x00#8, 0xBC#8, 0x3A#8, 0x0F#8, 0x20#8, 0x00#8, 0x00#8,
       0x0D#8, 0xF0#8, 0xFE#8, 0xCA#8, 0xEF#8, 0xBE#8, 0xAD#8, 0xDE#8]) =
    .ok (.refSimple 9 2#16 false 0x2000#32) ∧
  decode Config.default (.access .main .write 32 0x10008000#32 7#32) = .ok (.wChcr 0 7#32) ∧
  decode Config.default (.access .main .read 32 0x1000C830#32 0#32) = .ok (.rTadr 7) ∧
  decode Config.default (.access .main .write 32 0x1000E010#32 1#32) = .ok (.wStat 1#32) ∧
  decode Config.default (.access .main .read 32 0x1000F520#32 0#32) = .ok .rEnabler ∧
  decode Config.default (.access .io .write 32 0x1F801070#32 5#32) = .ok (.wIoIstat 5#32) ∧
  decode Config.default (.access .main .read 32 0x1F801070#32 0#32) =
    .ok (.rUnmapped .main 0x1F801070#32) ∧
  decode Config.default (.access .main .read 32 0x10008004#32 0#32) =
    .ok (.rUnmapped .main 0x10008004#32) ∧
  decode Config.default (.event .main 0b1001#4 3#32) = .ok (.eventDmaContMain 9 3#32) ∧
  decode Config.default (.event .io 0b0000#4 3#32) = .ok (.eventDmaContIo 0 3#32) ∧
  decode Config.default (.event .io 0b1011#4 5#32) = .ok (.eventBridgeStepIo 5#32) ∧
  decode Config.default (.event .main 0b1101#4 0#32) = .ok (.eventTimer .main 1 0#32)

/-- The two halves of the enabler pair that answer nothing: a write of `ENABLER` and a read of `ENABLEW`
decode to the unmapped access, wherever the configuration puts them; that they share its decoding is the
model's reading, log entry 11. The write changes nothing, the read returns 0, and a read of `ENABLER` returns
`CPND` at its position (rules R33, R234). -/
def Obligations.EnablerHalves : Prop :=
  ∀ (cfg : Config) (v : Word) (s : State), Config.valid cfg = true →
    decode cfg (.access .main .write 32 (cfg.addr .enabler) v) =
      .ok (.wUnmapped .main (cfg.addr .enabler) v) ∧
    decode cfg (.access .main .read 32 (cfg.addr .enablew) 0#32) =
      .ok (.rUnmapped .main (cfg.addr .enablew)) ∧
    exec (.wUnmapped .main (cfg.addr .enabler) v) s = .next s ∧
    exec (.rUnmapped .main (cfg.addr .enablew)) s = .next { s with readMain := 0#32 } ∧
    exec .rEnabler s = .next { s with
      readMain := if s.cpnd then 1#32 <<< s.cfg.layout.enableCPND else 0#32 }

/-! ## A step runs the decoded instruction -/

/-- A register access that nothing holds back is one step: the instruction its address, direction and issuer
decode to (rules R68, R86, R220). An access of another width or at an address that is no multiple of 4 is
refused by name (rules R64, R220; U2). The agenda and the refusal are the model's, log entries 7 and 13. -/
def Obligations.StepRunsAccess : Prop :=
  ∀ (s : State) (p : Domain) (d : Dir) (width : Nat) (a v : Word) (rest : List Op),
    Config.valid s.cfg = true → sideEffectWindow s = false →
    s.agenda = .access p d width a v :: rest → mayAct p s = true →
    (∀ i : Instr, decode s.cfg (.access p d width a v) = .ok i →
      step s = exec i { s with opCount := s.opCount + 1, agenda := rest }) ∧
    (width ≠ 32 ∨ a.toNat % 4 ≠ 0 → step s = .refused .accessShape)

/-- A pass is one step. Its snapshot `S` is the kinds that are armed and due at its start. Until no member is
left, the member that comes first by rule R156, that is by its due time start + delta, leaves `S`: if it is
still armed it runs the instruction that its kind decodes to, its arm bit cleared first; one that an earlier
handler cancelled does not run. An event that a handler arms is not in `S`, also where its kind was, so it
does not fire in this pass, and the other members stay. With nothing due the pass does its start and its end
only; with one kind due that kind's instruction runs between them. After it the exception line of the domain is
the pending test (rules R69, R88, R153, R155, R157, R162, R267). The agenda is the model's, log entry 7; that a
re-armed member leaves `S` is the model's reading of the corner case of rule R155, log entry 29. -/
def Obligations.StepRunsEvent : Prop :=
  ∀ (s : State) (p : Domain) (rest : List Op),
    Config.valid s.cfg = true → sideEffectWindow s = false →
    s.agenda = .pass p :: rest → passReady p s = true →
    let withSet (l : List Kind) (u : State) : State := u.setSched p { u.sched p with passSet := l }
    let s1 := passStart p { s with opCount := s.opCount + 1, agenda := rest }
    let due := dueKinds (s.sched p)
    (∀ k : Kind, k ∈ due ↔ (s.sched p).slots[k.val].armed = true ∧
      ((s.sched p).slots[k.val].delta.toNat : Int) ≤ sdiff32 (s.sched p).cycle (s.sched p).slots[k.val].start) ∧
    step s = andThen (fireAll p due.length (withSet due s1)) (fun t => .next (passEnd p t)) ∧
    (∀ (n : Nat) (u : State), (u.sched p).passSet = [] → fireAll p n u = .next u) ∧
    (∀ (n : Nat) (j : Kind) (l : List Kind) (u : State), (u.sched p).passSet = j :: l →
      fireAll p (n + 1) u = andThen (fire p (firstToFire (u.sched p) j l) u) (fireAll p n)) ∧
    (∀ (k : Kind) (u : State) (i : Instr),
      let v := withSet ((u.sched p).passSet.filter (· != k)) u
      ((u.sched p).slots[k.val].armed = true →
        decode u.cfg (.event p (BitVec.ofFin k) (u.sched p).slots[k.val].payload) = .ok i →
          fire p k u = exec i (cancel p k v)) ∧
      ((u.sched p).slots[k.val].armed = false → fire p k u = .next v)) ∧
    (∀ (k j : Kind) (d : Nat) (w : Word) (u : State),
      j ∈ ((arm p k d w u).sched p).passSet ↔ j ∈ (u.sched p).passSet ∧ j ≠ k) ∧
    (due = [] → step s = .next (passEnd p (withSet [] s1))) ∧
    (∀ (k : Kind) (i : Instr), due = [k] →
      decode s.cfg (.event p (BitVec.ofFin k) (s.sched p).slots[k.val].payload) = .ok i →
        step s = andThen (exec i (cancel p k (withSet [] s1))) fun t => .next (passEnd p t)) ∧
    ∀ t : State, step s = .next t → t.exc p = decide (t.pending p ≠ 0#32)

/-- The step of a Running chain channel between blocks runs the instruction that the 16 bytes at `TADR`
decode to, then transfers its block (rules R105, R107, R108). Where the configured table leaves the tag's
`ID` undefined, the block follows the tag, the pointer stands past the tag on the full walker and at the tag
on the simple one, and the chain ends with this block (rules R82, R139, R144). This second clause is an arm that
the spec itself infers and marks so: decision D10 for the full walker, conflict C2 for the simple one (log entry 30,
rule R147). -/
def Obligations.ChannelRunsTag : Prop :=
  ∀ (s : State) (c : Chan) (w : Word),
    s.canRun c = true → effMode (s.ch c).mod = .chain → (s.ch c).qwc = 0 → (s.ch c).done = false →
    translate s (s.ch c).tadr .read = true →
    let t := (s.ch c).tadr
    let u := BitVec.ofNat 32 s.cfg.unit
    let down (x : Word) : Word := x &&& ~~~BitVec.ofNat 32 (s.cfg.unit - 1)
    (∀ i : Instr, decode s.cfg (.tag c (readBytes s.mem t s.cfg.unit)) = .ok i →
      exec (.eventDmaContMain c w) s = ticked (andThen (exec i s) fun t => .next (blockStep c t))) ∧
    (∀ id, decode s.cfg (.tag c (readBytes s.mem t s.cfg.unit)) = .error (.undefinedOpcode id) →
      exec (.eventDmaContMain c w) s = .next (blockStep c (s.setCh c { s.ch c with
        madr := down (t + u)
        tadr := if s.cfg.walker[c.val] = .full then down (t + u) else t
        qwc := ((readUnit s.cfg.unit s.mem t).extractLsb' s.cfg.layout.tagQWC 16).toNat
        curOp := some id
        done := true })).tick)

/-! ## Tags -/

/-- REFE, REF and REFS on both walkers: the block is at the tag's address, the next tag follows this one;
REFE ends the chain, REF and REFS end it only by the tag interrupt. Nothing else changes (rules R108,
R109, R131, R134, R135). -/
def Obligations.ReferenceTags : Prop :=
  ∀ (c : Chan) (q : BitVec 16) (irq : Bool) (a : Word) (s : State),
    let u := BitVec.ofNat 32 s.cfg.unit
    let down (x : Word) : Word := x &&& ~~~BitVec.ofNat 32 (s.cfg.unit - 1)
    let loaded (op : TagOp) (stop : Bool) : State :=
      s.setCh c { s.ch c with
        madr := down a, tadr := down ((s.ch c).tadr + u), qwc := q.toNat,
        curOp := some (s.cfg.codeOf op), done := stop || (irq && (s.ch c).tie) }
    exec (.refeFull c q irq a) s = .next (loaded .refe true) ∧
    exec (.refFull c q irq a) s = .next (loaded .ref false) ∧
    exec (.refsFull c q irq a) s = .next (loaded .refs false) ∧
    exec (.refeSimple c q irq a) s = .next (loaded .refe true) ∧
    exec (.refSimple c q irq a) s = .next (loaded .ref false) ∧
    exec (.refsSimple c q irq a) s = .next (loaded .refs false)

/-- CNT and NEXT on both walkers: the block follows the tag; after CNT the tag pointer stands at the block,
after NEXT at the tag's address (rules R108, R109, R132, R133). That NEXT goes to the address field of the tag
itself is an arm that the spec infers and marks so: decision D10 (log entry 30, rule R147). -/
def Obligations.ContinueTags : Prop :=
  ∀ (c : Chan) (q : BitVec 16) (irq : Bool) (a : Word) (s : State),
    let u := BitVec.ofNat 32 s.cfg.unit
    let down (x : Word) : Word := x &&& ~~~BitVec.ofNat 32 (s.cfg.unit - 1)
    let loaded (op : TagOp) (next : Word) : State :=
      s.setCh c { s.ch c with
        madr := down ((s.ch c).tadr + u), tadr := down next, qwc := q.toNat,
        curOp := some (s.cfg.codeOf op), done := irq && (s.ch c).tie }
    exec (.cntFull c q irq a) s = .next (loaded .cnt ((s.ch c).tadr + u)) ∧
    exec (.cntSimple c q irq a) s = .next (loaded .cnt ((s.ch c).tadr + u)) ∧
    exec (.nextFull c q irq a) s = .next (loaded .next a) ∧
    exec (.nextSimple c q irq a) s = .next (loaded .next a)

/-- END on both walkers, and CALL and RET on the simple walker: the block follows the tag, the tag pointer
is frozen at the tag, the stack is untouched, the chain ends (rules R108, R138, R142, R143). That the pointer
freezes at this tag is an arm that the spec resolves by interpretation and marks so: conflict C2 (log entry 30, rules
R138 and R147). -/
def Obligations.EndTags : Prop :=
  ∀ (c : Chan) (q : BitVec 16) (irq : Bool) (a : Word) (s : State),
    let u := BitVec.ofNat 32 s.cfg.unit
    let down (x : Word) : Word := x &&& ~~~BitVec.ofNat 32 (s.cfg.unit - 1)
    let ended (op : TagOp) : State :=
      s.setCh c { s.ch c with
        madr := down ((s.ch c).tadr + u), qwc := q.toNat,
        curOp := some (s.cfg.codeOf op), done := true }
    exec (.endFull c q irq a) s = .next (ended .end_) ∧
    exec (.endSimple c q irq a) s = .next (ended .end_) ∧
    exec (.callSimple c q irq a) s = .next (ended .call) ∧
    exec (.retSimple c q irq a) s = .next (ended .ret)

/-- CALL and RET on the full walker. CALL below the full depth (2) pushes the address after its block and
jumps; at the full depth the chain stops with pointer and stack unchanged. RET with the stack empty stops the
chain with the pointer at the tag; otherwise the pointer takes the slot popped (rules R108, R109, R136, R137,
R140). Arms that the spec infers and marks so, decision D10: that CALL goes to the address field of its own tag,
what its overflow leaves in `MADR`, `TADR` and the stack, that the block of RET follows its tag, and that slot 0
is `ASR0` and is filled first (log entry 30, rule R147). -/
def Obligations.CallAndRetFull : Prop :=
  ∀ (c : Chan) (q : BitVec 16) (irq : Bool) (a : Word) (s : State),
    let ch := s.ch c
    let u := BitVec.ofNat 32 s.cfg.unit
    let down (x : Word) : Word := x &&& ~~~BitVec.ofNat 32 (s.cfg.unit - 1)
    let ret := down (ch.tadr + u + BitVec.ofNat 32 (s.cfg.unit * q.toNat))
    let loaded (op : TagOp) : Channel := { ch with
      madr := down (ch.tadr + u), qwc := q.toNat, curOp := some (s.cfg.codeOf op) }
    exec (.callFull c q irq a) s = .next (s.setCh c
      (if s.cfg.literals.aspMax ≤ ch.asp.toNat then { loaded .call with done := true }
      else if ch.asp = 0#2 then
        { loaded .call with tadr := down a, asr0 := ret, asp := ch.asp + 1#2, done := irq && ch.tie }
      else
        { loaded .call with tadr := down a, asr1 := ret, asp := ch.asp + 1#2, done := irq && ch.tie })) ∧
    exec (.retFull c q irq a) s = .next (s.setCh c
      (if ch.asp = 0#2 then { loaded .ret with done := true }
      else
        { loaded .ret with
          tadr := down (if ch.asp = 1#2 then ch.asr0 else ch.asr1)
          asp := ch.asp - 1#2
          done := irq && ch.tie }))

/-- The laws of the walker: every tag, one whose `ID` the table leaves undefined included, keeps its channel
well formed (so bits 3:0 of the addresses stay zero and the depth stays at most 2), changes nothing but its
channel, and on the simple walker leaves the stack alone (rules R139, R144, R147). The undefined value on the full
walker is an arm that the spec infers and marks so: decision D10 (log entry 30). -/
def Obligations.WalkerLaws : Prop :=
  ∀ (v : Variant) (op : TagOp) (c : Chan) (q : BitVec 16) (irq : Bool) (a : Word) (x : TagWord) (s : State),
    Config.valid s.cfg = true → ChannelWf s.cfg (s.ch c) →
      (∃ t, exec (tagInstr v op c q irq a) s = .next t ∧ ChannelWf s.cfg (t.ch c) ∧ t = s.setCh c (t.ch c) ∧
        (v = .simple → (t.ch c).asp = (s.ch c).asp ∧ (t.ch c).asr0 = (s.ch c).asr0 ∧
          (t.ch c).asr1 = (s.ch c).asr1)) ∧
      let u := undefinedTag c x s
      ChannelWf s.cfg (u.ch c) ∧ u = s.setCh c (u.ch c) ∧ (u.ch c).asp = (s.ch c).asp ∧
        (u.ch c).asr0 = (s.ch c).asr0 ∧ (u.ch c).asr1 = (s.ch c).asr1

/-- Chain termination, property P1: the walker applied tag by tag to a chain of `N` tags goes on at each of the
first `N - 1` and stops at the `N`-th, with whatever stack it starts, on either walker (rules R109, R131 to
R139, R142 to R144, R146, R147). The chain walks through arms that the spec infers and marks so: the next address
of NEXT and of CALL, the overflow of CALL, the order of the two slots and the undefined value on the full walker
by decision D10, the end of END and of what the simple walker treats as END by conflict C2 (log entry 30). -/
def Obligations.ChainTerminates : Prop :=
  ∀ (c : Chan) (N : Nat) (s : State), Config.valid s.cfg = true → ChannelWf s.cfg (s.ch c) →
    ChainOf s c N (s.ch c).tadr (s.ch c).stack →
      ∀ n, 1 ≤ n → n ≤ N → ∃ t, walkTags c n s = some t ∧ (t.ch c).done = decide (n = N)

/-- With `ASP_MAX` at its value 2 the third CALL in a row ends the chain with the depth at 2, the two saved
addresses kept and the tag pointer at the third CALL's tag (rules R5, R136, R147, property P2). That the
overflow leaves the tag pointer and the saved slots, and that CALL goes to the address field of its own tag, are
arms that the spec infers and marks so: decision D10 (log entry 30). -/
def Obligations.ThirdCallStops : Prop :=
  ∀ (c : Chan) (q1 q2 q3 : BitVec 16) (i1 i2 i3 : Bool) (a1 a2 a3 : Word) (s t u w : State),
    s.cfg.literals.aspMax = 2 → (s.ch c).asp = 0#2 → exec (.callFull c q1 i1 a1) s = .next t →
    exec (.callFull c q2 i2 a2) t = .next u → exec (.callFull c q3 i3 a3) u = .next w →
      (w.ch c).done = true ∧ (w.ch c).asp = 2#2 ∧ (w.ch c).tadr = a2 &&& ~~~BitVec.ofNat 32 (s.cfg.unit - 1) ∧
        (w.ch c).asr0 = (t.ch c).asr0 ∧ (w.ch c).asr1 = (u.ch c).asr1

/-! ## The channel registers -/

/-- Software writes of `MADR`, `QWC`, `TADR`, `ASR0` and `ASR1`: ignored while `STR` is 1, otherwise the
register alone changes, with its forced-zero and dropped bits; `QWC` keeps the configured number of low bits
(16) (rules R5, R12, R28, R223, R225, R227, R229). -/
def Obligations.ChannelRegisterWrites : Prop :=
  ∀ (c : Chan) (v : Word) (s : State),
    let down (x : Word) : Word := x &&& ~~~BitVec.ofNat 32 (s.cfg.unit - 1)
    let put (ch : Channel) : State := if (s.ch c).str then s else s.setCh c ch
    exec (.wMadr c v) s = .next (put { s.ch c with madr := down v }) ∧
    exec (.wQwc c v) s = .next (put { s.ch c with qwc := v.toNat % 2 ^ s.cfg.literals.qwcBits }) ∧
    exec (.wTadr c v) s = .next (put { s.ch c with tadr := down v }) ∧
    exec (.wAsr0 c v) s = .next (put { s.ch c with asr0 := down v }) ∧
    exec (.wAsr1 c v) s = .next (put { s.ch c with asr1 := down v }) ∧
    (s.cfg.literals = Literals.written → s.cfg.literals.qwcBits = 16 ∧ down v = v &&& 0xFFFFFFF0#32)

/-- Every register read returns its value, its fields at their positions, to the CPU that reaches the register
and changes nothing else (rules
R222, R224, R226, R228, R230, R232, R236, R238, R241, R243, R245; for `ENABLER` see `EnablerHalves`). -/
def Obligations.RegisterReads : Prop :=
  ∀ (c : Chan) (a : Word) (s : State),
    let ch := s.ch c
    let l := s.cfg.layout
    let bit (b : Bool) (n : Nat) : Word := if b then 1#32 <<< n else 0#32
    exec (.rChcr c) s = .next { s with
      readMain := bit ch.str l.chcrSTR ||| bit ch.dir l.chcrDIR |||
        (BitVec.ofNat 32 ch.mod.toNat <<< l.chcrMOD) ||| (BitVec.ofNat 32 ch.stm.toNat <<< l.chcrSTM) |||
        (BitVec.ofNat 32 ch.chop.toNat <<< l.chcrCHOP) ||| bit ch.tie l.chcrTIE |||
        (BitVec.ofNat 32 ch.asp.toNat <<< l.chcrASP) } ∧
    exec (.rMadr c) s = .next { s with readMain := ch.madr } ∧
    exec (.rQwc c) s = .next { s with readMain := BitVec.ofNat 32 ch.qwc } ∧
    exec (.rTadr c) s = .next { s with readMain := ch.tadr } ∧
    exec (.rAsr0 c) s = .next { s with readMain := ch.asr0 } ∧
    exec (.rAsr1 c) s = .next { s with readMain := ch.asr1 } ∧
    exec .rCtrl s = .next { s with readMain := bit s.dmae l.ctrlDMAE } ∧
    exec .rStat s = .next { s with readMain := s.stat } ∧
    exec .rStadrS s = .next { s with readMain := s.stadrS } ∧
    exec .rStadrD s = .next { s with readMain := s.stadrD } ∧
    exec .rFstatGpath s = .next { s with readMain := s.gpath.fstat } ∧
    exec .rFstatBridge s = .next { s with readMain := s.bridge.fstat } ∧
    exec .rIoIstat s = .next { s with readIo := s.ioIstat } ∧
    exec .rIoImask s = .next { s with readIo := s.ioImask } ∧
    exec (.rUnmapped .main a) s = .next { s with readMain := 0#32 } ∧
    exec (.rUnmapped .io a) s = .next { s with readIo := 0#32 } ∧
    (l = Layout.default → l.ctrlDMAE = 0)

/-- A `CHCR` write with the start bit clear to an Idle channel stores the fields and starts nothing, a written
stack depth of 3 stored as 2; a read under the layout of rule R22 returns them with the reserved bits zero
(rules R22, R221, R222). -/
def Obligations.ChcrReadsBack : Prop :=
  ∀ (c : Chan) (v : Word) (s : State), (s.ch c).str = false → v.getLsbD s.cfg.layout.chcrSTR = false →
    let l := s.cfg.layout
    let asp := v.extractLsb' l.chcrASP 2
    let t := s.setCh c { s.ch c with
      dir := v.getLsbD l.chcrDIR
      mod := v.extractLsb' l.chcrMOD 2
      stm := v.extractLsb' l.chcrSTM 2
      chop := v.extractLsb' l.chcrCHOP 3
      tie := v.getLsbD l.chcrTIE
      asp := if s.cfg.literals.aspMax < asp.toNat then BitVec.ofNat 2 s.cfg.literals.aspMax else asp }
    exec (.wChcr c v) s = .next t ∧
    (l = Layout.default → s.cfg.literals = Literals.written →
      exec (.rChcr c) t = .next { t with
        readMain := (v &&& 0x000003FE#32) |||
          (if v &&& 0x03000000#32 = 0x03000000#32 then 0x02000000#32 else v &&& 0x03000000#32) })

/-- While `STR` is 1 a `CHCR` write with bit 0 set is ignored, and one with bit 0 clear force-stops the
channel: `STR` and its queue bit are cleared, its continuation is cancelled, and nothing else changes
(rules R28, R118, R221, property P5). -/
def Obligations.ForceStop : Prop :=
  ∀ (c : Chan) (v : Word) (s : State), (s.ch c).str = true →
    exec (.wChcr c v) s = .next
      (if v.getLsbD s.cfg.layout.chcrSTR then s
      else
        { s with
          chans := s.chans.set c.val { s.ch c with str := false, queued := false }
          schedMain := { s.schedMain with
            slots := s.schedMain.slots.set c.val
              { s.schedMain.slots[c.val] with armed := false } } })

/-- While a channel cannot run, a start write stores the fields, sets `STR`, clears `done` and `curOp`, loads
0x10000 (`QWC_ZERO_EFFECTIVE`) into a zero `QWC` in Normal mode, and queues the channel without a step; and
its continuation parks it in the queue and changes nothing else (rules R101 to R103, R105, R124, R221,
property P4). -/
def Obligations.CannotRun : Prop :=
  ∀ (c : Chan) (v w : Word) (s : State), s.canRun c = false →
    exec (.eventDmaContMain c w) s = .next (s.setCh c { s.ch c with queued := true }).tick ∧
    let l := s.cfg.layout
    let asp := v.extractLsb' l.chcrASP 2
    ((s.ch c).str = false → v.getLsbD l.chcrSTR = true →
      exec (.wChcr c v) s = .next (s.setCh c { s.ch c with
        str := true
        dir := v.getLsbD l.chcrDIR
        mod := v.extractLsb' l.chcrMOD 2
        stm := v.extractLsb' l.chcrSTM 2
        chop := v.extractLsb' l.chcrCHOP 3
        tie := v.getLsbD l.chcrTIE
        asp := if s.cfg.literals.aspMax < asp.toNat then BitVec.ofNat 2 s.cfg.literals.aspMax else asp
        done := false
        curOp := none
        qwc := if v.extractLsb' l.chcrMOD 2 = 0#2 ∧ (s.ch c).qwc = 0 then s.cfg.literals.qwcZeroEffective
          else (s.ch c).qwc
        queued := true }).tick)

/-- A start write while the channel can run takes the first step inside the write, from the state that the
write prepared; it completes in every mode but Interleave, and changes nothing outside the frame of a step
of that channel (rules R102, R104, R126). -/
def Obligations.StartRuns : Prop :=
  ∀ (c : Chan) (v : Word) (s : State), (s.ch c).str = false → v.getLsbD s.cfg.layout.chcrSTR = true →
    s.canRun c = true →
    exec (.wChcr c v) s = ticked (continueChan c (startState c v s)) ∧
    (v.extractLsb' s.cfg.layout.chcrMOD 2 ≠ 2#2 → ∃ t, exec (.wChcr c v) s = .next t ∧ StepFrame c s t)

/-- A start write in Interleave mode while the channel can run, and the continuation of such a channel, are
refused by name: the mode has no stepping rule (rule R120, U1). The refusal is the model's, log entry 12. -/
def Obligations.InterleaveRefused : Prop :=
  ∀ (c : Chan) (v w : Word) (s : State), s.canRun c = true →
    ((s.ch c).str = false → v.getLsbD s.cfg.layout.chcrSTR = true →
      v.extractLsb' s.cfg.layout.chcrMOD 2 = 2#2 →
      exec (.wChcr c v) s = .refused (.interleaveStep c)) ∧
    ((s.ch c).mod = 2#2 → exec (.eventDmaContMain c w) s = .refused (.interleaveStep c))

/-! ## The continuation of a channel -/

/-- The continuation of a channel that can run completes in every mode but Interleave and changes nothing
outside the frame of a step of that channel (rules R104, R105, R126). -/
def Obligations.ContinuationRuns : Prop :=
  ∀ (c : Chan) (w : Word) (s : State), s.canRun c = true → effMode (s.ch c).mod ≠ .interleave →
    ∃ t, exec (.eventDmaContMain c w) s = .next t ∧ StepFrame c s t

/-- The bytes of main memory that a step stores: none for memory to unit; for unit to memory only the units
that moved, from the `MADR` at which the block stood when the transfer began (rules R110, R111). -/
def Obligations.StepMemoryFrame : Prop :=
  ∀ (c : Chan) (w v : Word) (s t : State) (b : Nat),
    (exec (.eventDmaContMain c w) s = .next t →
      let u := blockStart c s
      ((s.ch c).dir = true ∨ ¬ InUnits s.cfg.unit (u.ch c).madr ((u.ch c).qwc - (t.ch c).qwc) b) →
        memGet t.mem b = memGet s.mem b) ∧
    ((s.ch c).str = false → v.getLsbD s.cfg.layout.chcrSTR = true → exec (.wChcr c v) s = .next t →
      let u := blockStart c (startState c v s)
      (v.getLsbD s.cfg.layout.chcrDIR = true ∨ ¬ InUnits s.cfg.unit (u.ch c).madr ((u.ch c).qwc - (t.ch c).qwc) b) →
        memGet t.mem b = memGet s.mem b)

/-- A transfer with nothing left completes: `STR` is cleared, the completion bit of the channel is latched
in `STAT` and, where the channel is visible to IO, in `IO_ISTAT`, and the interrupt test of each domain
whose line is down is armed if an unmasked bit is set (rules R104, R117, R265, R268). -/
def Obligations.Completion : Prop :=
  ∀ (c : Chan) (w : Word) (s : State), s.cfg.hasChan c = true → s.canRun c = true → (s.ch c).qwc = 0 →
    (effMode (s.ch c).mod = .normal ∨ effMode (s.ch c).mod = .chain ∧ (s.ch c).done = true) →
    ∃ t, exec (.eventDmaContMain c w) s = .next t ∧
      t.ch c = { s.ch c with str := false } ∧
      t.stat = s.stat ||| (1#32 <<< (s.cfg.layout.statCIS + c.val)) ∧
      t.ioIstat = (if s.cfg.ioVisible[c.val] then s.ioIstat ||| (1#32 <<< (s.cfg.layout.ioCH + c.val))
        else s.ioIstat) ∧
      t.schedMain = (if t.pending .main ≠ 0#32 ∧ s.excMain = false then
        s.schedMain.arm 10 s.cfg.intDelta 0#32 else s.schedMain) ∧
      t.schedIo = (if s.cfg.ioVisible[c.val] = true ∧ t.pending .io ≠ 0#32 ∧ s.excIo = false then
        s.schedIo.arm 10 (max 1 (s.cfg.intDelta / s.cfg.ratio)) 0#32 else s.schedIo) ∧
      t.mem = s.mem ∧ t.out = s.out ∧ t.gpath = s.gpath ∧ t.bridge = s.bridge ∧
      t.stadrS = s.stadrS ∧ t.stadrD = s.stadrD

/-- A tag address, or the first address of a block, that does not translate is a bus error, in Normal mode and
in Chain mode, for a block just fetched and for one in its middle: `BEIS` and the completion bit are latched,
`STR` and the queue bit cleared, the continuation not armed, every other register of the channel as the tag
fetch left it, and nothing moves (rules R76, R108, R110, R111, R119, R262). -/
def Obligations.BusError : Prop :=
  ∀ (c : Chan) (w : Word) (s : State), s.cfg.hasChan c = true → s.canRun c = true →
    let u := blockStart c s
    (effMode (s.ch c).mod = .chain ∧ (s.ch c).qwc = 0 ∧ (s.ch c).done = false ∧
        translate s (s.ch c).tadr .read = false ∨
      effMode (s.ch c).mod ≠ .interleave ∧ 0 < (u.ch c).qwc ∧ 0 < (stallLimit c (u.ch c).qwc u).1 ∧
        translate s (u.ch c).madr (transferDir (u.ch c)) = false) →
    ∃ t, exec (.eventDmaContMain c w) s = .next t ∧
      t.ch c = { u.ch c with str := false, queued := false } ∧
      t.stat = s.stat ||| (1#32 <<< s.cfg.layout.statBEIS) ||| (1#32 <<< (s.cfg.layout.statCIS + c.val)) ∧
      t.schedMain.slots[c.val].armed = false ∧ t.mem = s.mem ∧ t.out = s.out ∧
      t.gpath = s.gpath ∧ t.bridge = s.bridge ∧ StepFrame c s t

/-- A Normal step from memory to a unit behind no FIFO: of the units that translate the unit takes what it
is ready for, in order from `MADR`; `MADR` and `QWC` follow, and the continuation is armed from now with
the delay of the count moved, or the re-test delay if nothing moved (rules R76, R106, R110, R112, R116). -/
def Obligations.NormalStepToUnit : Prop :=
  ∀ (c : Chan) (w : Word) (s : State), s.canRun c = true → effMode (s.ch c).mod = .normal →
    0 < (s.ch c).qwc → (s.ch c).dir = true → fifoOf s.cfg c = none → (s.ch c).curOp = none →
    (s.ch c).stm ≠ 1#2 → translate s (s.ch c).madr .read = true →
    let n := leadingUnits s .read (s.ch c).madr (s.ch c).qwc
    let m := min s.answers.sink n
    let down (x : Word) : Word := x &&& ~~~BitVec.ofNat 32 (s.cfg.unit - 1)
    ∃ t, exec (.eventDmaContMain c w) s = .next t ∧
      t.ch c = { s.ch c with
        madr := down ((s.ch c).madr + BitVec.ofNat 32 (s.cfg.unit * m)), qwc := (s.ch c).qwc - m } ∧
      t.out = (if m = 0 then s.out else .unit c (readUnits s.cfg.unit s.mem (s.ch c).madr m) :: s.out) ∧
      t.schedMain = s.schedMain.arm (dmaCont c) (if m = 0 then retestDelta s.cfg else stepDelta s.cfg c m)
        (BitVec.ofNat 32 c.val) ∧
      t.mem = s.mem ∧ t.stat = s.stat ∧ StepFrame c s t

/-- A Normal step from a unit behind no FIFO to memory: the units supplied stand in memory in ascending
order from `MADR`, every other byte is as before, and `MADR` and `QWC` follow (rules R62, R64, R76, R106,
R111, R112, R116). The canonical form is the model's choice, log entry 2. -/
def Obligations.NormalStepToMemory : Prop :=
  ∀ (c : Chan) (w : Word) (s : State), Config.valid s.cfg = true → s.canRun c = true → effMode (s.ch c).mod = .normal →
    0 < (s.ch c).qwc → (s.ch c).qwc ≤ 0x10000 → (s.ch c).dir = false → fifoOf s.cfg c = none →
    (s.ch c).curOp = none → (s.ch c).stm ≠ 1#2 → MemoryWf s → translate s (s.ch c).madr .write = true →
    let d := (s.answers.source.take (leadingUnits s .write (s.ch c).madr (s.ch c).qwc)).map s.cfg.cut
    let down (x : Word) : Word := x &&& ~~~BitVec.ofNat 32 (s.cfg.unit - 1)
    ∃ t, exec (.eventDmaContMain c w) s = .next t ∧
      readUnits s.cfg.unit t.mem (s.ch c).madr d.length = d ∧
      (∀ b, ¬ InUnits s.cfg.unit (s.ch c).madr d.length b → memGet t.mem b = memGet s.mem b) ∧
      t.ch c = { s.ch c with
        madr := down ((s.ch c).madr + BitVec.ofNat 32 (s.cfg.unit * d.length))
        qwc := (s.ch c).qwc - d.length } ∧
      t.schedMain = s.schedMain.arm (dmaCont c)
        (if d.length = 0 then retestDelta s.cfg else stepDelta s.cfg c d.length)
        (BitVec.ofNat 32 c.val) ∧
      t.out = s.out ∧ t.stat = s.stat ∧ StepFrame c s t

/-- Every transfer, whatever its direction and whatever stands behind the channel: it moves at most what was
wanted, `MADR` advances and `QWC` falls by the count moved, `TADR` advances with them under CNT and only
then, and a stall source publishes `MADR` (rules R110, R111, R113, R115). That a stall source publishes also
after a transfer of no unit is the model's reading, log entry 19. -/
def Obligations.TransferAdvances : Prop :=
  ∀ (c : Chan) (n m : Nat) (s t : State), transfer c n s = some (m, t) →
    let down (x : Word) : Word := x &&& ~~~BitVec.ofNat 32 (s.cfg.unit - 1)
    m ≤ n ∧
    t.ch c = { s.ch c with
      madr := down ((s.ch c).madr + BitVec.ofNat 32 (s.cfg.unit * m))
      qwc := (s.ch c).qwc - m
      tadr := if s.curTagOp c = some .cnt then down ((s.ch c).tadr + BitVec.ofNat 32 (s.cfg.unit * m))
        else (s.ch c).tadr } ∧
    t.stadrS = (if (s.ch c).stm = 1#2 then (t.ch c).madr else s.stadrS)

/-- The stall check (rule R114): on a REFS block of a drain channel in Chain mode the drain address is
published and at most the units below the source address are allowed, none raising the stall; otherwise
nothing is limited. -/
def Obligations.StallCheck : Prop :=
  ∀ (c : Chan) (wanted : Nat) (s : State), 1 ≤ wanted → (s.ch c).madr &&& BitVec.ofNat 32 (s.cfg.unit - 1) = 0#32 →
    let ch := s.ch c
    let avail := if ch.madr.toNat < s.stadrS.toNat then (s.stadrS.toNat - ch.madr.toNat) / s.cfg.unit else 0
    stallLimit c wanted s =
      if ch.stm = 2#2 ∧ effMode ch.mod = .chain ∧ s.curTagOp c = some .refs then
        (min wanted avail,
          if min wanted avail = 0 then raiseStall { s with stadrD := ch.madr }
          else { s with stadrD := ch.madr })
      else (wanted, s)

/-- The step of a drain channel whose REFS block has no unit below the source address moves nothing, latches
`SIS`, publishes the drain address and re-tests after the re-test delay (rules R107, R114, R116, R266). -/
def Obligations.StalledDrain : Prop :=
  ∀ (c : Chan) (w : Word) (s : State), s.canRun c = true → effMode (s.ch c).mod = .chain →
    0 < (s.ch c).qwc → (s.ch c).stm = 2#2 → s.curTagOp c = some .refs →
    (s.ch c).madr &&& BitVec.ofNat 32 (s.cfg.unit - 1) = 0#32 →
    s.stadrS.toNat < (s.ch c).madr.toNat + s.cfg.unit →
    ∃ t, exec (.eventDmaContMain c w) s = .next t ∧ t.ch c = s.ch c ∧
      t.stat = s.stat ||| (1#32 <<< s.cfg.layout.statSIS) ∧ t.stadrD = (s.ch c).madr ∧ t.stadrS = s.stadrS ∧
      t.schedMain.slots[c.val] =
        { armed := true, start := s.schedMain.cycle, delta := BitVec.ofNat 32 (retestDelta s.cfg),
          payload := BitVec.ofNat 32 c.val } ∧
      t.mem = s.mem ∧ t.out = s.out ∧ t.gpath = s.gpath ∧ t.bridge = s.bridge ∧ StepFrame c s t

/-! ## The global enable and the queue -/

/-- Writes of `CTRL` and `ENABLEW` that do not turn `globalEnable` on store their bit and touch no channel
(rules R32 to R34, R231, R233). -/
def Obligations.EnableWriteWithoutRestart : Prop :=
  ∀ (v : Word) (s : State),
    let dmae := v.getLsbD s.cfg.layout.ctrlDMAE
    let cpnd := v.getLsbD s.cfg.layout.enableCPND
    ((s.globalEnable = true ∨ dmae = false ∨ s.cpnd = true) →
      exec (.wCtrl v) s = .next { s with dmae := dmae }) ∧
    ((s.globalEnable = true ∨ cpnd = true ∨ s.dmae = false) →
      exec (.wEnablew v) s = .next { s with cpnd := cpnd })

/-- Turning `globalEnable` on completes unless a queued channel is in Interleave mode: the bit is stored, no
channel joins the queue, and a channel that was not queued is as before (rules R122, R231, R233). -/
def Obligations.EnableWriteRestarts : Prop :=
  ∀ (v : Word) (s : State), s.globalEnable = false → NoInterleaveQueued s →
    (s.cpnd = false → v.getLsbD s.cfg.layout.ctrlDMAE = true →
      ∃ t, exec (.wCtrl v) s = .next t ∧ t.dmae = true ∧ t.cpnd = false ∧
        ∀ c, ((t.ch c).queued = true → (s.ch c).queued = true) ∧
          ((s.ch c).queued = false → t.ch c = s.ch c)) ∧
    (s.dmae = true → v.getLsbD s.cfg.layout.enableCPND = false →
      ∃ t, exec (.wEnablew v) s = .next t ∧ t.dmae = true ∧ t.cpnd = false ∧
        ∀ c, ((t.ch c).queued = true → (s.ch c).queued = true) ∧
          ((s.ch c).queued = false → t.ch c = s.ch c))

/-- Turning `globalEnable` on, by `CTRL` or by `ENABLEW`, visits the channels in ascending order inside the
write: a queued one that is not masked leaves the queue and takes its step, a queued one that is masked stays
queued, any other one is passed over. So with one queued channel the write is that channel's step, or, with
it masked, leaves it queued (rules R104, R122, R231, R233). -/
def Obligations.RestartStepsInsideTheWrite : Prop :=
  ∀ (v : Word) (s : State), s.globalEnable = false →
    let visit (c : Chan) (u : State) : Result :=
      if (u.ch c).queued = false then .next u
      else if u.chanMasked c then .next u.tick
      else ticked (continueChan c (u.setCh c { u.ch c with queued := false }))
    let restart (u : State) : Result :=
      ((List.finRange 10).filter s.cfg.hasChan).foldl (fun r c => andThen r (visit c)) (.next u)
    let on (i : Instr) (u : State) : Prop :=
      exec i s = restart u ∧
      ∀ c, s.cfg.hasChan c = true → (s.ch c).queued = true → (∀ d, d ≠ c → (s.ch d).queued = false) →
        (s.chanMasked c = false →
          exec i s = ticked (continueChan c (u.setCh c { s.ch c with queued := false }))) ∧
        (s.chanMasked c = true → exec i s = .next u.tick)
    (s.cpnd = false → v.getLsbD s.cfg.layout.ctrlDMAE = true → on (.wCtrl v) { s with dmae := true }) ∧
    (s.dmae = true → v.getLsbD s.cfg.layout.enableCPND = false → on (.wEnablew v) { s with cpnd := false })

/-! ## The other registers -/

/-- Writes of the stall addresses drop bits 3:0 and are held by no channel; writes of the FIFO mirrors and of
unmapped addresses change nothing; `IO_ISTAT` keeps the bits that are set in the value and `IO_IMASK` stores
the ten channel bits (9:0), and the IO line follows. Nothing else changes (rules R37, R237, R239, R240, R242,
R245, R267). -/
def Obligations.GlobalWrites : Prop :=
  ∀ (v a : Word) (p : Domain) (s : State),
    let bits := BitVec.ofNat 32 (2 ^ s.cfg.literals.nch - 1) <<< s.cfg.layout.ioCH
    let down (x : Word) : Word := x &&& ~~~BitVec.ofNat 32 (s.cfg.unit - 1)
    exec (.wStadrS v) s = .next { s with stadrS := down v } ∧
    exec (.wStadrD v) s = .next { s with stadrD := down v } ∧
    exec (.wFstatGpath v) s = .next s ∧ exec (.wFstatBridge v) s = .next s ∧
    exec (.wUnmapped p a v) s = .next s ∧
    exec (.wIoIstat v) s = .next { s with
      ioIstat := s.ioIstat &&& v &&& bits
      excIo := decide ((s.ioIstat &&& v &&& bits) &&& s.ioImask &&& bits ≠ 0#32) } ∧
    exec (.wIoImask v) s = .next { s with
      ioImask := v &&& bits
      excIo := decide (s.ioIstat &&& (v &&& bits) &&& bits ≠ 0#32) } ∧
    (s.cfg.layout = Layout.default → s.cfg.literals = Literals.written →
      bits = 0x3FF#32 ∧ down v = v &&& 0xFFFFFFF0#32)

/-- A write of `STAT`, bit by bit: the status bits `CIS`, `SIS` and `BEIS` (9:0, 13 and 15) are cleared where
the value is 1, the mask bits `CIM` and `SIM` (25:16 and 29) toggle where it is 1, every other bit stays; then
the exception line follows the pending mask; nothing else changes (rules R35, R235, R267, property P6). -/
def Obligations.StatWrite : Prop :=
  ∀ (v : Word) (s : State), Config.valid s.cfg = true →
    let l := s.cfg.layout
    let n := s.cfg.literals.nch
    ∃ t, exec (.wStat v) s = .next t ∧
      (∀ i, i < 32 → t.stat.getLsbD i =
        if l.statCIS ≤ i ∧ i < l.statCIS + n ∨ i = l.statSIS ∨ i = l.statBEIS then
          s.stat.getLsbD i && !v.getLsbD i
        else if l.statCIM ≤ i ∧ i < l.statCIM + n ∨ i = l.statSIM then s.stat.getLsbD i ^^ v.getLsbD i
        else s.stat.getLsbD i) ∧
      t.excMain = decide (t.pending .main ≠ 0#32) ∧
      t = { s with stat := t.stat, excMain := t.excMain } ∧
      (l = Layout.default → s.cfg.literals = Literals.written →
      n = 10 ∧ l.statCIS = 0 ∧ l.statSIS = 13 ∧ l.statBEIS = 15 ∧ l.statCIM = 16 ∧ l.statSIM = 29)

/-- The pending masks bit by bit (a completion bit with its mask bit, the stall bit with its mask bit; an IO
status bit with its mask bit), and the events that need nothing else: the interrupt test sets the line of
its domain to the pending test, the bridge step of MAIN changes nothing (rules R38, R157, R267, R268). -/
def Obligations.PendingTest : Prop :=
  ∀ (s : State) (i : Nat) (w : Word), Config.valid s.cfg = true →
    let l := s.cfg.layout
    let n := s.cfg.literals.nch
    (∀ c : Chan, s.cfg.hasChan c = true → (s.pending .main).getLsbD (l.statCIS + c.val) =
      (s.stat.getLsbD (l.statCIS + c.val) && s.stat.getLsbD (l.statCIM + c.val))) ∧
    (s.pending .main).getLsbD l.statSIS = (s.stat.getLsbD l.statSIS && s.stat.getLsbD l.statSIM) ∧
    (¬ (l.statCIS ≤ i ∧ i < l.statCIS + n ∨ i = l.statSIS) → (s.pending .main).getLsbD i = false) ∧
    (s.pending .io).getLsbD i =
      (decide (l.ioCH ≤ i ∧ i < l.ioCH + n) && s.ioIstat.getLsbD i && s.ioImask.getLsbD i) ∧
    exec (.eventIntTest .main w) s = .next { s with excMain := decide (s.pending .main ≠ 0#32) } ∧
    exec (.eventIntTest .io w) s = .next { s with excIo := decide (s.pending .io ≠ 0#32) } ∧
    exec (.eventBridgeStepMain w) s = .next s

/-! ## Events -/

/-- The events with an external handler complete, whatever the environment answers, unless a queued channel
is in Interleave mode, and with no answer change nothing (rules R40, R157, R161, R204; U6). Which operations
an agent may perform is the model's reading, log entry 9. -/
def Obligations.ExternalEventsComplete : Prop :=
  ∀ (p : Domain) (j : Fin 4) (k : Fin 10) (w : Word) (s : State),
    (NoInterleaveQueued s →
      (∃ t, exec (.eventTimer p j w) s = .next t) ∧ (∃ t, exec (.eventDmaContIo k w) s = .next t) ∧
        ∃ t, exec (.eventBridgeStepIo w) s = .next t) ∧
    (s.answers.handler = [] →
      exec (.eventTimer p j w) s = .next s.tick ∧ exec (.eventDmaContIo k w) s = .next s.tick ∧
        exec (.eventBridgeStepIo w) s = .next s.tick)

/-- The events of the IO scheduler with an external handler touch no channel register, no queue bit, no
status or mask word, no clock, no setting and no byte of memory; of the MAIN scheduler they arm the bridge step
and, once the endpoint has moved a unit, continuations of Running bridge channels, and nothing else (rules R40,
R204). What outside agents may do, and how long a move entitles the endpoint to notify, is the model's reading,
log entries 9 and 34. -/
def Obligations.EndpointFrame : Prop :=
  ∀ (k : Fin 10) (j : Fin 4) (w : Word) (s t : State),
    (exec (.eventBridgeStepIo w) s = .next t ∨ exec (.eventDmaContIo k w) s = .next t ∨
      exec (.eventTimer .io j w) s = .next t) →
      t = { s with
        schedMain := t.schedMain, schedIo := t.schedIo, bridge := t.bridge, endpointMoved := t.endpointMoved,
        wk := t.wk, script := t.script, ticks := t.ticks, out := t.out } ∧
      t.schedMain.cycle = s.schedMain.cycle ∧ t.schedIo.cycle = s.schedIo.cycle ∧
      (s.endpointMoved = true → t.endpointMoved = true) ∧
      ∀ k : Kind, k ≠ bridgeStep → t.schedMain.slots[k.val] ≠ s.schedMain.slots[k.val] →
        t.endpointMoved = true ∧ ∃ c, k = dmaCont c ∧ s.running c = true ∧ fifoOf s.cfg c = some .bridge

/-- `Arm`: the slot takes the new instance from now, the next pass comes forward to it if it is sooner or if
none was due, and nothing else changes (rules R41, R151). Of the snapshot of a running pass, the model's own
field, this says nothing: `StepRunsEvent` does. -/
def Obligations.ArmEffect : Prop :=
  ∀ (p : Domain) (k : Kind) (d : Nat) (w : Word) (s : State),
    let x := s.sched p
    let due := x.cycle + BitVec.ofNat 32 d
    arm p k d w s = s.setSched p
      { cycle := x.cycle
        slots := x.slots.set k.val
          { armed := true, start := x.cycle, delta := BitVec.ofNat 32 d, payload := w }
        nextValid := true
        nextEvent := if x.nextValid = false ∨ (due - x.nextEvent).toInt < 0 then due else x.nextEvent
        passSet := ((arm p k d w s).sched p).passSet }

/-- Within a pass the member that fires is the most overdue, and among equals the lowest kind (rule
R156). -/
def Obligations.FiringOrder : Prop :=
  ∀ (x : Sched) (k : Kind) (l : List Kind),
    firstToFire x k l ∈ k :: l ∧
      ∀ j ∈ k :: l, sdiff32 (x.due (firstToFire x k l)) x.cycle < sdiff32 (x.due j) x.cycle ∨
        sdiff32 (x.due (firstToFire x k l)) x.cycle = sdiff32 (x.due j) x.cycle ∧
          (firstToFire x k l).val ≤ j.val

/-- At the end of a pass the next pass is due when the first armed event is, and no pass is due if nothing
is armed (rule R158). -/
def Obligations.NextEventRecomputed : Prop :=
  ∀ (x : Sched),
    x.recompute.slots = x.slots ∧ x.recompute.cycle = x.cycle ∧
    (x.recompute.nextValid = true ↔ ∃ k : Kind, x.slots[k.val].armed = true) ∧
    (x.recompute.nextValid = true →
      (∃ k : Kind, x.slots[k.val].armed = true ∧ x.recompute.nextEvent = x.due k) ∧
      ∀ k : Kind, x.slots[k.val].armed = true →
        sdiff32 x.recompute.nextEvent x.cycle ≤ sdiff32 (x.due k) x.cycle)

/-! ## The clock bridge -/

/-- Moving the anchors forward does not change the correspondence of the two clocks, for every MAIN cycle at
or after the new anchor within the range of the signed difference (rules R171, R172). -/
def Obligations.ReanchorKeepsCorrespondence : Prop :=
  ∀ (s : State) (t : Word), 1 ≤ s.cfg.ratio → 0 ≤ sdiff32 s.schedMain.cycle s.mainAnchor →
    0 ≤ sdiff32 t s.schedMain.cycle →
    sdiff32 s.schedMain.cycle s.mainAnchor + sdiff32 t s.schedMain.cycle < 2147483648 →
      ioEq (reanchor s) t = ioEq s t ∧ (reanchor s).residue < s.cfg.ratio ∧
        reanchor s = { s with
          mainAnchor := s.schedMain.cycle, ioAnchor := ioEq s s.schedMain.cycle,
          residue := (reanchor s).residue }

/-- `mainEq` is the first MAIN cycle at which the IO cycle is current: converting it back gives the IO cycle,
the anchor included, and after the anchor the cycle before it does not, as long as the product and the residue
stay in the range of the signed difference (rule R171). -/
def Obligations.MainEqInverse : Prop :=
  ∀ (s : State) (u : Word), 1 ≤ s.cfg.ratio → s.residue < s.cfg.ratio → s.residue < 2147483648 →
    0 ≤ sdiff32 u s.ioAnchor → sdiff32 u s.ioAnchor * s.cfg.ratio < 2147483648 →
      ioEq s (mainEq s u) = u ∧
        (1 ≤ sdiff32 u s.ioAnchor → ioEq s (mainEq s u - 1#32) = u - 1#32)

/-- An armed I/O-relevant MAIN event breaks the IO slice: in every state in which it is armed, the one that
`Arm` leaves included, no advance of IO goes past its converted due time. An advance may be made exactly if it goes
past no due pass of its own domain, for IO not past the I/O limit (K1), for MAIN not into a converted cycle past the
next IO event (K2); and an advance that may be made is one step, which makes it whole, changing the clock of its
domain, the anchors and nothing else (rules R151, R154, R173, R175, R176). The agenda, and that one advance of MAIN
stays below 2^30 cycles, are the model's, log entries 7 and 24. -/
def Obligations.BreakEarly : Prop :=
  ∀ (s : State) (k : Kind) (d n : Nat) (w : Word),
    (s.cfg.ioRelevant[k.val] = true →
      (s.schedMain.slots[k.val].armed = true → advanceOk .io n s = true →
        (n : Int) ≤ sdiff32 (ioEq s (s.schedMain.due k)) s.schedIo.cycle) ∧
      (advanceOk .io n (arm .main k d w s) = true →
        (n : Int) ≤ sdiff32 (ioEq s (s.schedMain.cycle + BitVec.ofNat 32 d)) s.schedIo.cycle)) ∧
    (advanceOk .io n s = true ↔ 1 ≤ n ∧ n < 2147483648 ∧
      (s.schedIo.nextValid = true → (n : Int) ≤ sdiff32 s.schedIo.nextEvent s.schedIo.cycle) ∧
      ∀ l, ioLimit s = some l → (n : Int) ≤ sdiff32 l s.schedIo.cycle) ∧
    (advanceOk .main n s = true ↔ 1 ≤ n ∧ n < 1073741824 ∧
      (s.schedMain.nextValid = true → (n : Int) ≤ sdiff32 s.schedMain.nextEvent s.schedMain.cycle) ∧
      (s.schedIo.nextValid = true →
        0 ≤ sdiff32 s.schedIo.nextEvent (ioEq s (s.schedMain.cycle + BitVec.ofNat 32 n)))) ∧
    ∀ (p : Domain) (rest : List Op), Config.valid s.cfg = true → sideEffectWindow s = false →
      s.agenda = .advance p n :: rest → advanceOk p n s = true →
      ∃ m i r, step s = .next (({ s with
        opCount := s.opCount + 1, agenda := rest, mainAnchor := m, ioAnchor := i, residue := r }).setSched p
          { s.sched p with cycle := (s.sched p).cycle + BitVec.ofNat 32 n })

/-- A step of a channel behind the bridge FIFO that moved units tells the IO side: its bridge step is armed
from the IO clock with the converted delay, at least 1, and the channel as payload; a step that moved none
leaves the IO scheduler alone (rules R112, R179, R204). -/
def Obligations.BridgeNotifiesEndpoint : Prop :=
  ∀ (c : Chan) (n m : Nat) (s t : State), fifoOf s.cfg c = some .bridge → transfer c n s = some (m, t) →
    t.schedIo = if m = 0 then s.schedIo else
      s.schedIo.arm 11 (max 1 (stepDelta s.cfg c m / s.cfg.ratio)) (BitVec.ofNat 32 c.val)

/-! ## FIFOs, arbiter, mailbox -/

/-- A ring is a queue: a write appends the units that fit, a read removes the oldest, the counts are exact,
and both keep the ring well formed (rules R43, R191, R192, R194, R195, property P3). -/
def Obligations.FifoIsAQueue : Prop :=
  ∀ (l : Layout) (cap threshold np : Nat) (q : Fifo) (d : List Qword) (k : Nat), FifoWf l cap threshold np q →
    ((q.write l cap threshold d).1 = min d.length (cap - q.size) ∧
      FifoWf l cap threshold np (q.write l cap threshold d).2 ∧
      (q.write l cap threshold d).2.contents cap =
        q.contents cap ++ d.take (q.write l cap threshold d).1) ∧
    ((q.read l cap threshold k).1.length = min k q.size ∧
      FifoWf l cap threshold np (q.read l cap threshold k).2 ∧
      q.contents cap = (q.read l cap threshold k).1 ++ (q.read l cap threshold k).2.contents cap)

/-- The arbiter: a DMA channel gets nothing while a direct path is grantable or its own path is masked,
otherwise what fits; a direct path gets what fits exactly when it is the lowest grantable one (rules R196,
R199, R200). -/
def Obligations.Arbitration : Prop :=
  ∀ (f : FifoId) (c : Chan) (i : Nat) (d : List Qword) (s : State),
    let fits := min d.length (cap s.cfg f - (s.fifo f).size)
    let masked := (s.fifo f).pmask.getD (producerIndex s.cfg f c) false
    let wins (j : Nat) : Prop :=
      j < nd s.cfg f ∧ grantable s f j = true ∧ ∀ h, h < j → grantable s f h = false
    ((∃ j, wins j) ∨ masked = true → arbWriteDma f c d s = (0, s)) ∧
    ((∀ j, ¬ wins j) → masked = false →
      (arbWriteDma f c d s).1 = fits ∧ ((arbWriteDma f c d s).2.fifo f).size = (s.fifo f).size + fits) ∧
    (¬ wins i → arbWriteDirect f i d s = (0, s)) ∧
    (wins i →
      (arbWriteDirect f i d s).1 = fits ∧
        ((arbWriteDirect f i d s).2.fifo f).size = (s.fifo f).size + fits)

/-- The mailbox: a posted SIGNAL or LABEL is handed on with its payload at the next take, and a posted FINISH without
one; the take leaves the three flags clear and the payload words alone (rule R46). What is handed with FINISH, which
has no payload word, no rule says: no word is the model's choice, log entry 22; and that what leaves the block is
recorded in `out` is the model's, log entry 26. -/
def Obligations.MailboxTake : Prop :=
  ∀ (w : DWord) (s : State), s.wk.finish = false → s.wk.label = false → s.wk.signal = false →
    workerTake (workerPost .signal w s) =
      { s with wk := { s.wk with payload0 := w }, out := .worker .signal (some w) :: s.out } ∧
    workerTake (workerPost .label w s) =
      { s with wk := { s.wk with payload1 := w }, out := .worker .label (some w) :: s.out } ∧
    workerTake (workerPost .finish w s) = { s with out := .worker .finish none :: s.out }

/-! ## Memory -/

/-- A unit stored reads back, little-endian, and every byte outside its 16 is as before (rules R62, R67).
The canonical form is the model's choice, log entry 2. -/
def Obligations.UnitReadsBack : Prop :=
  ∀ (cfg : Config) (m : List Host.Cell) (a : Word) (q : Qword), cfg.literals.valid = true → Memory.wf m = true →
    let n := cfg.unit
    readUnit n (writeUnit n m a q) a = cfg.cut q ∧
    (∀ i, i < n → memGet (writeUnit n m a q) (a + BitVec.ofNat 32 i).toNat = q.extractLsb' (8 * i) 8) ∧
    (∀ b, ¬ InUnits n a 1 b → memGet (writeUnit n m a q) b = memGet m b) ∧
    (cfg.literals = Literals.written → n = 16 ∧ cfg.cut q = q)

/-! ## Invariants of every step -/

/-- Queue and continuation: a queued channel has `STR` set, and an armed continuation belongs to a Running
channel; every step keeps both (rule R126, laws 1 and 2). What outside agents may do is the model's reading,
log entry 9. -/
def Obligations.StepKeepsQueue : Prop :=
  ∀ s t : State, QueueWf s → step s = .next t → QueueWf t

/-- Every step keeps the channels well formed: addresses aligned, depth at most `ASP_MAX` (2), count at most
0x10000. A count above 0xFFFF comes only from a Normal start with `QWC` = 0, inside a `CHCR` write that starts the
idle channel, and only a `CHCR` write to the idle channel changes the mode of a channel with such a count. So the
count 0x10000 is stored in Normal mode only (law 3 of rule R126 as rules R25 and R103 have it), and a count of that
size stays in Normal mode until a `CHCR` write to the idle channel that holds it selects another mode: the reading
of log entry 23 (rules R24 to R27, R103, R126, R147, R221). -/
def Obligations.StepKeepsChannels : Prop :=
  ∀ s t : State, ChannelsWf s → step s = .next t → ChannelsWf t ∧
    ∀ c, 0xFFFF < (t.ch c).qwc →
      ((s.ch c).qwc ≤ 0xFFFF →
        (s.ch c).qwc = 0 ∧ (s.ch c).str = false ∧ effMode (t.ch c).mod = .normal ∧
          ∃ v, WritesChcr c v s ∧ v.getLsbD s.cfg.layout.chcrSTR = true ∧
            effMode (v.extractLsb' s.cfg.layout.chcrMOD 2) = .normal) ∧
      (0xFFFF < (s.ch c).qwc → (t.ch c).mod ≠ (s.ch c).mod → (s.ch c).str = false ∧ ∃ v, WritesChcr c v s) ∧
      (CountWf (s.ch c) → CountWf (t.ch c) ∨
        (s.ch c).str = false ∧ 0xFFFF < (s.ch c).qwc ∧
          ∃ v, WritesChcr c v s ∧ effMode (v.extractLsb' s.cfg.layout.chcrMOD 2) ≠ .normal)

/-- The run of one transfer, from the start write until `STR` falls, unless software stops it or resets the
block. While `STR` is 1 the completion bit of the channel is not set anew, and when `STR` has fallen it is
set (law 6). A Normal start with `QWC` = 0 moves exactly 0x10000 (`QWC_ZERO_EFFECTIVE`) units before `STR`
falls, counted by `MADR` and `QWC` and, for memory to a unit behind no FIFO, by the units that left, or ends in
a bus error with units left (law 4, property P4). The mode stays the one that the start selected, and if `QWC`
was one that software can store, it is above 0xFFFF in Normal mode only (law 3 over the transfer; log entry 23)
(rules R28, R103, R104, R117, R119, R126). The agenda is the model's, log entry 7. -/
def Obligations.TransferLaws : Prop :=
  ∀ (c : Chan) (v : Word) (rest : List Op) (s s1 t : State), s.cfg.hasChan c = true → QueueWf s →
    mayAct .main s = true →
    s.agenda = .access .main .write 32 (s.cfg.addr (.chan c .chcr)) v :: rest →
    (s.ch c).str = false → v.getLsbD s.cfg.layout.chcrSTR = true →
    step s = .next s1 → TransferRun c s1 t →
    let cis := s.cfg.layout.statCIS + c.val
    let units := s.cfg.literals.qwcZeroEffective
    ((t.ch c).str = true → t.stat.getLsbD cis = true → s.stat.getLsbD cis = true) ∧
    ((t.ch c).str = false → t.stat.getLsbD cis = true) ∧
    (effMode (v.extractLsb' s.cfg.layout.chcrMOD 2) = .normal → (s.ch c).qwc = 0 → (t.ch c).str = false →
      t.stat.getLsbD s.cfg.layout.statBEIS = true ∧ 0 < (t.ch c).qwc ∨
      (t.ch c).qwc = 0 ∧ (t.ch c).madr = ((s.ch c).madr + BitVec.ofNat 32 (s.cfg.unit * units)) &&&
          ~~~BitVec.ofNat 32 (s.cfg.unit - 1) ∧
        (v.getLsbD s.cfg.layout.chcrDIR = true → fifoOf s.cfg c = none →
          unitsOut c t.out = unitsOut c s.out + units)) ∧
    (t.ch c).mod = v.extractLsb' s.cfg.layout.chcrMOD 2 ∧
    ((s.ch c).qwc ≤ 0xFFFF → CountWf (t.ch c))

/-- Every step keeps both rings well formed and their status mirrors exact (rules R43, R194, R195). -/
def Obligations.StepKeepsFifos : Prop :=
  ∀ s t : State, FifosWf s → step s = .next t → FifosWf t

/-- No event is ever late: every step keeps every armed event's due time, and the next pass, at or after the
present cycle, with the next pass no later than any armed event (rules R153, R154, R158). What outside
agents may do is the model's reading, log entry 9. -/
def Obligations.NoEventIsLate : Prop :=
  ∀ s t : State, SchedsTimely s → step s = .next t → SchedsTimely t

/-- Every step keeps main memory in its canonical form, the reserved bits of the status and mask words zero,
the stall addresses aligned and the residue below the ratio (rules R35 to R37, R42, R62). The canonical form
is the model's choice, log entry 2. -/
def Obligations.StepKeepsRegisters : Prop :=
  ∀ s t : State, MemoryWf s → RegistersWf s → BridgeWf s → step s = .next t →
    MemoryWf t ∧ RegistersWf t ∧ BridgeWf t

/-- The machine right after reset meets every invariant (rules R48, R290, R291). That main memory then lists
nothing, and the canonical form itself, are the model's choice, log entry 2. -/
def Obligations.ResetMeetsInvariants : Prop :=
  QueueWf State.reset ∧ ChannelsWf State.reset ∧ FifosWf State.reset ∧ SchedsTimely State.reset ∧
    MemoryWf State.reset ∧ RegistersWf State.reset ∧ BridgeWf State.reset

/-- A reset step, whatever the state: every register, status bit, mask, line, clock, arm bit, anchor, ring
position, request and mailbox flag at its value of rule R48, and main memory and the configuration as they
were (rules R48, R290, R291). That nothing holds a reset back and that the rest of the agenda stays are the
model's, log entries 7 and 28. -/
def Obligations.ResetStep : Prop :=
  ∀ (s : State) (rest : List Op), Config.valid s.cfg = true → sideEffectWindow s = false →
    s.agenda = .reset :: rest →
    ∃ t, step s = .next t ∧
      (∀ c, t.ch c = {
        str := false, dir := false, mod := 0#2, stm := 0#2, chop := 0#3, tie := false, asp := 0#2,
        madr := 0#32, qwc := 0, tadr := 0#32, asr0 := 0#32, asr1 := 0#32, done := false,
        curOp := none, queued := false }) ∧
      t.dmae = false ∧ t.cpnd = false ∧ t.stat = 0#32 ∧ t.stadrS = 0#32 ∧ t.stadrD = 0#32 ∧
      t.ioIstat = 0#32 ∧ t.ioImask = 0#32 ∧ t.excMain = false ∧ t.excIo = false ∧
      (∀ p, (t.sched p).cycle = 0#32 ∧ (t.sched p).nextValid = false ∧
        ∀ k : Kind, (t.sched p).slots[k.val].armed = false) ∧
      t.mainAnchor = 0#32 ∧ t.ioAnchor = 0#32 ∧ t.residue = 0 ∧
      (∀ f, (t.fifo f).size = 0 ∧ (t.fifo f).readPos = 0 ∧ (t.fifo f).writePos = 0 ∧
        (t.fifo f).fstat = 1#32 <<< s.cfg.layout.fstatEMPTY ∧ (t.fifo f).req = List.replicate (np s.cfg f) false ∧
        (t.fifo f).pmask = List.replicate (np s.cfg f) false) ∧
      t.wk.finish = false ∧ t.wk.label = false ∧ t.wk.signal = false ∧
      t.mem = s.mem ∧ t.cfg = s.cfg ∧ t.agenda = rest

/-! ## Rules of the whole machine -/

/-- What only software changes: no step changes the configuration, and no step other than a register access or a
reset changes `DMAE`, `CPND`, a mask bit of `STAT`, `IO_IMASK`, or a field of `CHCR` other than `STR`, which
it only clears, and `ASP` (rules R22, R32, R33, R35, R37, R47, R49). -/
def Obligations.SettingsOnlyBySoftware : Prop :=
  ∀ s t : State, step s = .next t →
    t.cfg = s.cfg ∧
    ((∀ p d n a v, s.agenda.head? ≠ some (.access p d n a v)) → s.agenda.head? ≠ some .reset →
      t.dmae = s.dmae ∧ t.cpnd = s.cpnd ∧ t.ioImask = s.ioImask ∧
        t.stat &&& s.cfg.statMaskMask = s.stat &&& s.cfg.statMaskMask ∧
        ∀ c, (t.ch c).dir = (s.ch c).dir ∧ (t.ch c).mod = (s.ch c).mod ∧ (t.ch c).stm = (s.ch c).stm ∧
          (t.ch c).chop = (s.ch c).chop ∧ (t.ch c).tie = (s.ch c).tie ∧
          ((t.ch c).str = true → (s.ch c).str = true))

/-- The machine is total (rules R4, R261): within the ranges of rule R6, with no side-effect window and no
Interleave channel waiting in the queue or for its continuation, every step answers a next state, unless its
operation is a register access that may act now and is of an illegal shape or starts an Interleave transfer
of an idle channel that can run. Where this is the model's choice and not the rules': rules R4 and R261 refuse a
second LABEL post before a take (U7), which here answers a next state with a free payload (DESIGN CHOICE, log
entry 16); an operation that an agent may not perform, an advance of no cycles and a pass that is not due change
nothing (log entries 7 and 9); the refusals left out are those of log entries 12 to 15. -/
def Obligations.StepIsTotal : Prop :=
  ∀ s : State, Config.valid s.cfg = true → sideEffectWindow s = false → NoInterleaveWaiting s →
    (∀ p d n a v rest, s.agenda = .access p d n a v :: rest → mayAct p s = true →
      n = 32 ∧ a.toNat % 4 = 0 ∧
        ∀ c x, decode s.cfg (.access p d n a v) = .ok (.wChcr c x) →
          ¬ (x.getLsbD s.cfg.layout.chcrSTR = true ∧ (s.ch c).str = false ∧ s.canRun c = true ∧
            x.extractLsb' s.cfg.layout.chcrMOD 2 = 2#2)) →
      ∃ t, step s = .next t
end

