-- ==== Sys2Proof/Laws/Memory.lean ====
section
/-! SUPPORT. Main memory: reading one byte after a store, and the canonical form under every memory
operation. -/

namespace Sys2Proof.Machine

/-! ### One byte -/

/-- An address below every listed one reads as unlisted memory. -/
theorem memGet_below {m : List Host.Cell} {lo a : Nat} (h : memRises lo m = true) (ha : a < lo) :
    memGet m a = unlistedByte := by
  induction m generalizing lo with
  | nil => rfl
  | cons c t ih =>
    obtain ⟨b, v⟩ := c
    simp only [memRises, Bool.and_eq_true, decide_eq_true_eq] at h
    rw [memGet, if_neg (by omega)]
    exact ih h.2 (by omega)

/-- A lower bound may be weakened. -/
theorem memRises_mono {m : List Host.Cell} {lo lo' : Nat} (h : memRises lo m = true) (hl : lo' ≤ lo) :
    memRises lo' m = true := by
  cases m with
  | nil => rfl
  | cons c t =>
    obtain ⟨b, v⟩ := c
    simp only [memRises, Bool.and_eq_true, decide_eq_true_eq] at h ⊢
    exact ⟨⟨by omega, h.1.2⟩, h.2⟩

/-- A store keeps the canonical form. -/
theorem memRises_memSet {m : List Host.Cell} {lo a : Nat} (v : Byte) (h : memRises lo m = true)
    (ha : lo ≤ a) : memRises lo (memSet m a v) = true := by
  induction m generalizing lo with
  | nil =>
    unfold memSet
    split <;> simp_all [memRises]
  | cons c t ih =>
    obtain ⟨b, w⟩ := c
    simp only [memRises, Bool.and_eq_true, decide_eq_true_eq] at h
    unfold memSet
    split
    · split
      · simp [memRises, h]
      · rename_i h1 h2
        simp only [memRises, Bool.and_eq_true, decide_eq_true_eq]
        exact ⟨⟨ha, h2⟩, ⟨by omega, h.1.2⟩, h.2⟩
    · split
      · split
        · exact memRises_mono h.2 (by omega)
        · rename_i h1 h2 h3
          simp only [memRises, Bool.and_eq_true, decide_eq_true_eq]
          exact ⟨⟨ha, h3⟩, by subst h2; exact h.2⟩
      · simp only [memRises, Bool.and_eq_true, decide_eq_true_eq]
        exact ⟨⟨h.1.1, h.1.2⟩, ih h.2 (by omega)⟩

/-- A byte stored is read back. -/
theorem memGet_memSet_self {m : List Host.Cell} {lo : Nat} (a : Nat) (v : Byte)
    (h : memRises lo m = true) : memGet (memSet m a v) a = v := by
  induction m generalizing lo with
  | nil =>
    unfold memSet
    split <;> simp_all [memGet]
  | cons c t ih =>
    obtain ⟨b, w⟩ := c
    simp only [memRises, Bool.and_eq_true, decide_eq_true_eq] at h
    unfold memSet
    split
    · rename_i hab
      split
      · rename_i hv
        rw [memGet, if_neg (by omega), memGet_below h.2 (by omega), hv]
      · simp [memGet]
    · split
      · rename_i hab
        split
        · rename_i hv
          rw [memGet_below h.2 (by omega), hv]
        · simp [memGet]
      · rename_i hne
        rw [memGet, if_neg hne]
        exact ih h.2

/-- A store leaves every other byte as it was. -/
theorem memGet_memSet_ne (m : List Host.Cell) {a b : Nat} (v : Byte) (h : b ≠ a) :
    memGet (memSet m a v) b = memGet m b := by
  induction m with
  | nil =>
    unfold memSet
    split
    · rfl
    · simp [memGet, h]
  | cons c t ih =>
    obtain ⟨d, w⟩ := c
    unfold memSet
    split
    · split
      · rfl
      · simp [memGet, h]
    · split
      · rename_i hd
        subst hd
        split <;> simp [memGet, h]
      · simp only [memGet]
        split
        · rfl
        · exact ih

/-! ### The canonical form -/

theorem memSet_bounded {m : List Host.Cell} {a n : Nat} (v : Byte) (ha : a < n)
    (h : ∀ c ∈ m, c.1 < n) : ∀ c ∈ memSet m a v, c.1 < n := by
  induction m with
  | nil =>
    unfold memSet
    split <;> simp [ha]
  | cons c t ih =>
    obtain ⟨d, w⟩ := c
    have ht : ∀ c ∈ t, c.1 < n := fun c hc => h c (List.mem_cons_of_mem _ hc)
    have hd : d < n := h (d, w) List.mem_cons_self
    unfold memSet
    split
    · split
      · exact h
      · intro c hc
        rcases List.mem_cons.mp hc with rfl | hc
        · exact ha
        · exact h c hc
    · split
      · split
        · exact ht
        · intro c hc
          rcases List.mem_cons.mp hc with rfl | hc
          · exact ha
          · exact ht c hc
      · intro c hc
        rcases List.mem_cons.mp hc with rfl | hc
        · exact hd
        · exact ih ht c hc

/-- The canonical form, as two facts. -/
theorem Memory.wf_iff (m : List Host.Cell) :
    Memory.wf m = true ↔ memRises 0 m = true ∧ ∀ c ∈ m, c.1 < 4294967296 := by
  simp [Memory.wf, List.all_eq_true]

/-- Storing one byte keeps the canonical form. -/
theorem Memory.wf_memSet {m : List Host.Cell} (a : Word) (v : Byte) (h : Memory.wf m = true) :
    Memory.wf (memSet m a.toNat v) = true := by
  rw [Memory.wf_iff] at h ⊢
  exact ⟨memRises_memSet v h.1 (by omega), memSet_bounded v a.isLt h.2⟩

theorem Memory.wf_writeBytes {m : List Host.Cell} (a : Word) (l : List Byte) (h : Memory.wf m = true) :
    Memory.wf (writeBytes m a l) = true := by
  induction l generalizing m a with
  | nil => exact h
  | cons b t ih => exact ih _ (Memory.wf_memSet a b h)

/-- Storing one unit keeps the canonical form. -/
theorem Memory.wf_writeUnit {m : List Host.Cell} (u : Nat) (a : Word) (q : Qword) (h : Memory.wf m = true) :
    Memory.wf (writeUnit u m a q) = true := Memory.wf_writeBytes a _ h

/-- Storing units keeps the canonical form. -/
theorem Memory.wf_writeUnits {m : List Host.Cell} (u : Nat) (a : Word) (l : List Qword)
    (h : Memory.wf m = true) : Memory.wf (writeUnits u m a l) = true := by
  induction l generalizing m a with
  | nil => exact h
  | cons q t ih => exact ih _ (Memory.wf_writeUnit u a q h)

/-- The memory after reset is in canonical form. -/
theorem Memory.wf_reset : Memory.wf State.reset.mem = true := rfl

/-! ### Several bytes -/

/-- Storing bytes leaves every byte outside them as it was. -/
theorem memGet_writeBytes_out (m : List Host.Cell) (a : Word) (l : List Byte) (b : Nat)
    (h : ∀ i < l.length, b ≠ (a + BitVec.ofNat 32 i).toNat) :
    memGet (writeBytes m a l) b = memGet m b := by
  induction l generalizing m a with
  | nil => rfl
  | cons v t ih =>
    rw [writeBytes, ih, memGet_memSet_ne]
    · simpa using h 0 (by simp)
    · intro i hi
      have := h (i + 1) (by simpa using hi)
      rwa [show a + 1#32 + BitVec.ofNat 32 i = a + BitVec.ofNat 32 (i + 1) by
        rw [BitVec.add_assoc, Nat.add_comm i 1, BitVec.ofNat_add]]

@[simp] theorem qwordBytes_length (u : Nat) (q : Qword) : (qwordBytes u q).length = u := by simp [qwordBytes]

/-- Storing one unit leaves every byte outside it as it was. -/
theorem memGet_writeUnit_out (u : Nat) (m : List Host.Cell) (a : Word) (q : Qword) (b : Nat)
    (h : ∀ i < u, b ≠ (a + BitVec.ofNat 32 i).toNat) :
    memGet (writeUnit u m a q) b = memGet m b :=
  memGet_writeBytes_out m a _ b (by simpa using h)

/-- Storing units leaves every byte outside them as it was. -/
theorem memGet_writeUnits_out (u : Nat) (m : List Host.Cell) (a : Word) (l : List Qword) (b : Nat)
    (h : ∀ i < u * l.length, b ≠ (a + BitVec.ofNat 32 i).toNat) :
    memGet (writeUnits u m a l) b = memGet m b := by
  induction l generalizing m a with
  | nil => rfl
  | cons q t ih =>
    have hl : u * (q :: t).length = u + u * t.length := by simp [Nat.mul_add, Nat.add_comm]
    rw [writeUnits, ih, memGet_writeUnit_out]
    · exact fun i hi => h i (by omega)
    · intro i hi
      have := h (u + i) (by omega)
      rwa [show a + BitVec.ofNat 32 u + BitVec.ofNat 32 i = a + BitVec.ofNat 32 (u + i) by
        rw [BitVec.add_assoc, BitVec.ofNat_add]]

end Sys2Proof.Machine
end

