-- ==== Sys2Proof/Laws/Decode.lean ====
section
/-! SUPPORT. The decoders: byte order, tag fields and their packing, and the register that stands at an
address. -/

namespace Sys2Proof

/-! ### Bytes of a unit -/

/-- Byte `i` of a unit assembled from bytes. -/
theorem qwordOfBytes_extract (l : List Byte) (i : Nat) (hi : i < l.length) (hl : l.length ≤ 16) :
    (qwordOfBytes l).extractLsb' (8 * i) 8 = l[i] := by
  induction l generalizing i with
  | nil => simp at hi
  | cons b t ih =>
    ext j hj
    cases i with
    | zero =>
      simp [qwordOfBytes, BitVec.getLsbD_shiftLeft, hj]
      omega
    | succ i =>
      have hi' : i < t.length := by simpa using hi
      have hl' : t.length ≤ 16 := by simp at hl; omega
      have h := congrArg (fun x => x.getLsbD j) (ih i hi' hl')
      have h1 : b.getLsbD (8 * (i + 1) + j) = false := BitVec.getLsbD_of_ge _ _ (by omega)
      have h2 : 8 * (i + 1) + j < 128 := by simp at hl; omega
      have h3 : 8 * (i + 1) + j - 8 = 8 * i + j := by omega
      simp only [qwordOfBytes, List.foldr_cons, BitVec.getElem_extractLsb', BitVec.getLsbD_or,
        BitVec.getLsbD_shiftLeft, BitVec.getLsbD_setWidth, h1, h2, h3]
      simp only [qwordOfBytes, BitVec.getLsbD_extractLsb'] at h
      simpa [hj, show ¬ 8 * (i + 1) + j < 8 by omega] using h

/-- The widths that a unit may have (rule R5). -/
theorem Literals.unitBits_of_valid {x : Literals} (h : x.valid = true) :
    x.unitBits = 8 ∨ x.unitBits = 16 ∨ x.unitBits = 32 ∨ x.unitBits = 64 ∨ x.unitBits = 128 := by
  simp only [Literals.valid, Bool.and_eq_true] at h
  simpa using h.1.1.1.1.1.1.1.2

/-- A unit is a whole number of bytes, at most 16. -/
theorem Config.unit_of_valid {cfg : Config} (h : cfg.literals.valid = true) :
    8 * cfg.unit = cfg.literals.unitBits ∧ cfg.unit ≤ 16 := by
  have := Literals.unitBits_of_valid h
  unfold Config.unit
  omega

/-- A unit assembled from bytes has no bit above them. -/
theorem qwordOfBytes_high (l : List Byte) (k : Nat) (h : 8 * l.length ≤ k) :
    (qwordOfBytes l).getLsbD k = false := by
  induction l generalizing k with
  | nil => simp [qwordOfBytes]
  | cons b t ih =>
    have hl : 8 * t.length + 8 ≤ k := by simpa [Nat.mul_add] using h
    have h1 := ih (k - 8) (by omega)
    have h2 : b.getLsbD k = false := BitVec.getLsbD_of_ge _ _ (by omega)
    simp only [qwordOfBytes] at h1
    simp [qwordOfBytes, BitVec.getLsbD_shiftLeft, h1, h2]

/-- The first `n` bytes of a unit hold its low `8 n` bits (rule R62). -/
theorem qwordOfBytes_qwordBytes (n : Nat) (q : Qword) (hn : n ≤ 16) :
    qwordOfBytes (qwordBytes n q) = (q.setWidth (8 * n)).setWidth 128 := by
  have hlen : (qwordBytes n q).length = n := by simp [qwordBytes]
  ext k hk
  rw [← BitVec.getLsbD_eq_getElem, ← BitVec.getLsbD_eq_getElem]
  by_cases hkn : k < 8 * n
  · have h := qwordOfBytes_extract (qwordBytes n q) (k / 8) (by omega) (by omega)
    have h' := congrArg (fun x => x.getLsbD (k % 8)) h
    simp only [qwordBytes, List.getElem_map, List.getElem_range, BitVec.getLsbD_extractLsb',
      Nat.mod_lt k (by decide : 0 < 8), decide_true, Bool.true_and, Nat.div_add_mod] at h'
    rw [show (qwordOfBytes (qwordBytes n q)).getLsbD k = q.getLsbD k from h']
    simp [hkn, hk]
  · rw [qwordOfBytes_high _ _ (by omega)]
    simp [hkn]

/-- The bytes of a unit make up its value (rule R62). -/
theorem Config.qwordOfBytes_qwordBytes {cfg : Config} (h : cfg.literals.valid = true) (q : Qword) :
    qwordOfBytes (qwordBytes cfg.unit q) = cfg.cut q := by
  obtain ⟨hu, h16⟩ := Config.unit_of_valid h
  rw [Sys2Proof.qwordOfBytes_qwordBytes _ _ h16, hu]
  rfl

/-! ### Tags -/

/-- A bit inside a field that stands at position `p`. -/
theorem getLsbD_field_in {w p i : Nat} (x : BitVec w) (hi : i < w) (hp : p + w ≤ 128) :
    (x.setWidth 128 <<< p).getLsbD (p + i) = x.getLsbD i := by
  simp [show p + i < 128 by omega]

/-- A bit outside a field that stands at position `p`. -/
theorem getLsbD_field_out {w p j : Nat} (x : BitVec w) (h : j < p ∨ p + w ≤ j) :
    (x.setWidth 128 <<< p).getLsbD j = false := by
  rcases h with h | h
  · simp [BitVec.getLsbD_shiftLeft, h]
  · simp [BitVec.getLsbD_shiftLeft, BitVec.getLsbD_of_ge x (j - p) (by omega)]

/-- What a valid layout says of the fields of a tag. -/
theorem Layout.valid_tag {l : Layout} {x : Literals} (h : l.valid x = true) :
    fieldsApart x.unitBits [(l.tagQWC, 16), (l.tagID, x.tagOpcodeBits), (l.tagIRQ, 1), (l.tagADDR, 32)] = true := by
  simp only [Layout.valid, Bool.and_eq_true] at h
  exact h.1.1.1.2

/-- What a valid layout says of the fields of `STAT`: the status bits and the mask bits stand apart, and each
mask bit the same distance above its status bit. -/
theorem Layout.valid_stat {l : Layout} {x : Literals} (h : l.valid x = true) :
    fieldsApart 32 [(l.statCIS, x.nch), (l.statSIS, 1), (l.statBEIS, 1), (l.statCIM, x.nch), (l.statSIM, 1)] = true ∧
      l.statCIS < l.statCIM ∧ l.statSIM + l.statCIS = l.statSIS + l.statCIM := by
  have h' : l.statValid x.nch = true := by simp only [Layout.valid, Bool.and_eq_true] at h; exact h.1.1.1.1.1.2
  simp only [Layout.statValid, Bool.and_eq_true, decide_eq_true_eq] at h'
  tauto

/-- Fields that stand apart: each one inside the register, and no later one shares a bit with it. -/
theorem fieldsApart_cons {size : Nat} {x : Nat × Nat} {l : List (Nat × Nat)}
    (h : fieldsApart size (x :: l) = true) :
    x.1 + x.2 ≤ size ∧ (∀ y ∈ l, x.1 + x.2 ≤ y.1 ∨ y.1 + y.2 ≤ x.1) ∧ fieldsApart size l = true := by
  simpa [fieldsApart, and_assoc] using h

/-- The fields of a packed tag (rules R81, R83): its unit holds all of them. -/
theorem tagFields_tagBits {cfg : Config} (hl : cfg.layout.valid cfg.literals = true)
    (hu : cfg.literals.unitBits ≤ 128) (id : TagId)
    (hid : id.toNat < 2 ^ cfg.literals.tagOpcodeBits) (q : BitVec 16) (irq : Bool) (a : Word) :
    tagFields cfg (cfg.cut (tagBits cfg.layout id q irq a)) = { id := id, q := q, irq := irq, a := cfg.align a } := by
  have h := Layout.valid_tag hl
  simp only [fieldsApart, Bool.and_eq_true, Bool.or_eq_true, decide_eq_true_eq, List.all_cons,
    List.all_nil, and_true] at h
  obtain ⟨⟨b1, d1, d2, d3⟩, ⟨b2, d4, d5⟩, ⟨b3, d6⟩, b4⟩ := h
  have cutBit : ∀ (t : Qword) k, k < cfg.literals.unitBits → (cfg.cut t).getLsbD k = t.getLsbD k := fun t k hk => by
    simp [Config.cut, hk, show k < 128 by omega]
  have idOut : ∀ j, j < cfg.layout.tagID ∨ cfg.layout.tagID + cfg.literals.tagOpcodeBits ≤ j →
      (id.setWidth 128 <<< cfg.layout.tagID).getLsbD j = false := fun j hj => by
    by_cases h0 : j < cfg.layout.tagID
    · simp [BitVec.getLsbD_shiftLeft, h0]
    · have : id.getLsbD (j - cfg.layout.tagID) = false := by
        rw [← BitVec.testBit_toNat]
        exact Nat.testBit_lt_two_pow (lt_of_lt_of_le hid (Nat.pow_le_pow_right (by decide) (by omega)))
      simp [BitVec.getLsbD_shiftLeft, this]
  have idIn : ∀ i, cfg.layout.tagID + i < 128 →
      (id.setWidth 128 <<< cfg.layout.tagID).getLsbD (cfg.layout.tagID + i) = id.getLsbD i := fun i hi => by
    simp only [BitVec.getLsbD_shiftLeft, BitVec.getLsbD_setWidth]
    simp [hi, show i < 128 by omega]
  have h1 : ((cfg.cut (tagBits cfg.layout id q irq a)).extractLsb' cfg.layout.tagID
      cfg.literals.tagOpcodeBits).setWidth 3 = id := by
    ext i hi
    rw [← BitVec.getLsbD_eq_getElem, ← BitVec.getLsbD_eq_getElem, BitVec.getLsbD_setWidth,
      BitVec.getLsbD_extractLsb']
    by_cases hw : i < cfg.literals.tagOpcodeBits
    · rw [cutBit _ _ (by omega)]
      simp only [tagBits, BitVec.getLsbD_or]
      rw [getLsbD_field_out q (by omega), idIn i (by omega), getLsbD_field_out _ (by omega),
        getLsbD_field_out a (by omega)]
      simp [hi, hw]
    · have : id.getLsbD i = false := by
        rw [← BitVec.testBit_toNat]
        exact Nat.testBit_lt_two_pow (lt_of_lt_of_le hid (Nat.pow_le_pow_right (by decide) (by omega)))
      simp [hw, this]
  have h2 : (cfg.cut (tagBits cfg.layout id q irq a)).extractLsb' cfg.layout.tagQWC 16 = q := by
    ext i hi
    rw [← BitVec.getLsbD_eq_getElem, ← BitVec.getLsbD_eq_getElem, BitVec.getLsbD_extractLsb', cutBit _ _ (by omega)]
    simp only [tagBits, BitVec.getLsbD_or]
    rw [getLsbD_field_in q hi (by omega), idOut _ (by omega), getLsbD_field_out _ (by omega),
      getLsbD_field_out a (by omega)]
    simp [hi]
  have h3 : (cfg.cut (tagBits cfg.layout id q irq a)).getLsbD cfg.layout.tagIRQ = irq := by
    have h := getLsbD_field_in (p := cfg.layout.tagIRQ) (i := 0) (BitVec.ofBool irq) (by decide) (by omega)
    rw [cutBit _ _ (by omega)]
    simp only [tagBits, BitVec.getLsbD_or]
    rw [getLsbD_field_out q (by omega), idOut _ (by omega), getLsbD_field_out a (by omega)]
    simpa using h
  have h4 : (cfg.cut (tagBits cfg.layout id q irq a)).extractLsb' cfg.layout.tagADDR 32 = a := by
    ext i hi
    rw [← BitVec.getLsbD_eq_getElem, ← BitVec.getLsbD_eq_getElem, BitVec.getLsbD_extractLsb', cutBit _ _ (by omega)]
    simp only [tagBits, BitVec.getLsbD_or]
    rw [getLsbD_field_out q (by omega), idOut _ (by omega), getLsbD_field_out _ (by omega),
      getLsbD_field_in a hi (by omega)]
    simp [hi]
  simp [tagFields, h1, h2, h3, h4]

/-! ### Aligned addresses -/

/-- An address whose bits below one unit are zero is its aligned self (rule R63). -/
theorem Config.align_of_low {cfg : Config} {a : Word} (h : a &&& BitVec.ofNat 32 (cfg.unit - 1) = 0#32) :
    cfg.align a = a := by
  unfold Config.align
  ext i hi
  have := congrArg (fun x => x.getLsbD i) h
  simp only [BitVec.getLsbD_and, ← BitVec.getLsbD_eq_getElem] at this ⊢
  revert this
  cases a.getLsbD i <;> simp [hi]

/-- Forcing the low bits to zero twice is once (rule R63). -/
@[simp] theorem Config.align_align (cfg : Config) (a : Word) : cfg.align (cfg.align a) = cfg.align a := by
  simp [Config.align, BitVec.and_assoc]

/-- A word with its low `n` bits set. -/
theorem getLsbD_low {n i : Nat} (hi : i < 32) : (BitVec.ofNat 32 (2 ^ n - 1)).getLsbD i = decide (i < n) := by
  rw [BitVec.getLsbD_ofNat, Nat.testBit_two_pow_sub_one]
  simp [hi]

/-- An address is a multiple of a power of two when its low bits are zero. -/
theorem and_low_eq_self (a : Word) (k : Nat) (hk : k ≤ 4) :
    a &&& ~~~BitVec.ofNat 32 (2 ^ k - 1) = a ↔ a.toNat % 2 ^ k = 0 := by
  have bit : ∀ i, i < 32 → (a &&& ~~~BitVec.ofNat 32 (2 ^ k - 1)).getLsbD i =
      (a.getLsbD i && !decide (i < k)) := fun i hi => by
    rw [BitVec.getLsbD_and, BitVec.getLsbD_not, getLsbD_low hi]
    simp [hi]
  constructor
  · intro h
    refine Nat.eq_of_testBit_eq fun i => ?_
    rw [Nat.testBit_mod_two_pow, Nat.zero_testBit]
    by_cases hi : i < k
    · have := congrArg (fun x => x.getLsbD i) h
      rw [bit i (by omega)] at this
      rw [BitVec.testBit_toNat]
      simp [hi] at this
      simp [this]
    · simp [hi]
  · intro h
    ext i hi
    rw [← BitVec.getLsbD_eq_getElem, ← BitVec.getLsbD_eq_getElem, bit i hi]
    by_cases hk : i < k
    · have := congrArg (fun n => n.testBit i) h
      rw [Nat.testBit_mod_two_pow, Nat.zero_testBit] at this
      simp [hk] at this
      simp [← BitVec.testBit_toNat, this, hk]
    · simp [hk]

/-- A whole number of units after an aligned address is aligned (rules R24, R63). -/
theorem Config.align_add {cfg : Config} (hv : cfg.literals.valid = true) {a : Word} (h : cfg.align a = a) (m : Nat) :
    cfg.align (a + BitVec.ofNat 32 (cfg.unit * m)) = a + BitVec.ofNat 32 (cfg.unit * m) := by
  obtain ⟨k, hk, hu⟩ : ∃ k, k ≤ 4 ∧ cfg.unit = 2 ^ k := by
    unfold Config.unit
    rcases Literals.unitBits_of_valid hv with h | h | h | h | h <;> rw [h]
    exacts [⟨0, by decide, by decide⟩, ⟨1, by decide, by decide⟩, ⟨2, by decide, by decide⟩,
      ⟨3, by decide, by decide⟩, ⟨4, by decide, by decide⟩]
  simp only [Config.align, hu] at h ⊢
  rw [and_low_eq_self _ _ hk] at h ⊢
  have hd : 2 ^ k ∣ 2 ^ 32 := Nat.pow_dvd_pow 2 (by omega)
  simp only [BitVec.toNat_add, BitVec.toNat_ofNat]
  rw [Nat.mod_mod_of_dvd _ hd, Nat.add_mod, h, Nat.mod_mod_of_dvd _ hd]
  simp

end Sys2Proof
end

