-- ==== Sys2Proof/Laws/State.lean ====
section
/-! SUPPORT. What each update of the state leaves alone and what it sets: one lemma per field and update, so
that no later proof unfolds a record update. -/

namespace Sys2Proof.Machine

/-! ### `setCh` -/

@[simp] theorem State.setCh_dmae (s : State) (c : Chan) (x : Channel) : (s.setCh c x).dmae = s.dmae := rfl
@[simp] theorem State.setCh_cpnd (s : State) (c : Chan) (x : Channel) : (s.setCh c x).cpnd = s.cpnd := rfl
@[simp] theorem State.setCh_stat (s : State) (c : Chan) (x : Channel) : (s.setCh c x).stat = s.stat := rfl
@[simp] theorem State.setCh_stadrS (s : State) (c : Chan) (x : Channel) :
    (s.setCh c x).stadrS = s.stadrS := rfl
@[simp] theorem State.setCh_stadrD (s : State) (c : Chan) (x : Channel) :
    (s.setCh c x).stadrD = s.stadrD := rfl
@[simp] theorem State.setCh_ioIstat (s : State) (c : Chan) (x : Channel) :
    (s.setCh c x).ioIstat = s.ioIstat := rfl
@[simp] theorem State.setCh_ioImask (s : State) (c : Chan) (x : Channel) :
    (s.setCh c x).ioImask = s.ioImask := rfl
@[simp] theorem State.setCh_excMain (s : State) (c : Chan) (x : Channel) :
    (s.setCh c x).excMain = s.excMain := rfl
@[simp] theorem State.setCh_excIo (s : State) (c : Chan) (x : Channel) : (s.setCh c x).excIo = s.excIo := rfl
@[simp] theorem State.setCh_schedMain (s : State) (c : Chan) (x : Channel) :
    (s.setCh c x).schedMain = s.schedMain := rfl
@[simp] theorem State.setCh_schedIo (s : State) (c : Chan) (x : Channel) :
    (s.setCh c x).schedIo = s.schedIo := rfl
@[simp] theorem State.setCh_mainAnchor (s : State) (c : Chan) (x : Channel) :
    (s.setCh c x).mainAnchor = s.mainAnchor := rfl
@[simp] theorem State.setCh_ioAnchor (s : State) (c : Chan) (x : Channel) :
    (s.setCh c x).ioAnchor = s.ioAnchor := rfl
@[simp] theorem State.setCh_residue (s : State) (c : Chan) (x : Channel) :
    (s.setCh c x).residue = s.residue := rfl
@[simp] theorem State.setCh_gpath (s : State) (c : Chan) (x : Channel) : (s.setCh c x).gpath = s.gpath := rfl
@[simp] theorem State.setCh_bridge (s : State) (c : Chan) (x : Channel) :
    (s.setCh c x).bridge = s.bridge := rfl
@[simp] theorem State.setCh_wk (s : State) (c : Chan) (x : Channel) : (s.setCh c x).wk = s.wk := rfl
@[simp] theorem State.setCh_mem (s : State) (c : Chan) (x : Channel) : (s.setCh c x).mem = s.mem := rfl
@[simp] theorem State.setCh_cfg (s : State) (c : Chan) (x : Channel) : (s.setCh c x).cfg = s.cfg := rfl
@[simp] theorem State.setCh_map (s : State) (c : Chan) (x : Channel) : (s.setCh c x).map = s.map := rfl
@[simp] theorem State.setCh_script (s : State) (c : Chan) (x : Channel) :
    (s.setCh c x).script = s.script := rfl
@[simp] theorem State.setCh_ticks (s : State) (c : Chan) (x : Channel) : (s.setCh c x).ticks = s.ticks := rfl
@[simp] theorem State.setCh_opCount (s : State) (c : Chan) (x : Channel) :
    (s.setCh c x).opCount = s.opCount := rfl
@[simp] theorem State.setCh_endpointMoved (s : State) (c : Chan) (x : Channel) :
    (s.setCh c x).endpointMoved = s.endpointMoved := rfl
@[simp] theorem State.setCh_agenda (s : State) (c : Chan) (x : Channel) :
    (s.setCh c x).agenda = s.agenda := rfl
@[simp] theorem State.setCh_readMain (s : State) (c : Chan) (x : Channel) :
    (s.setCh c x).readMain = s.readMain := rfl
@[simp] theorem State.setCh_readIo (s : State) (c : Chan) (x : Channel) :
    (s.setCh c x).readIo = s.readIo := rfl
@[simp] theorem State.setCh_out (s : State) (c : Chan) (x : Channel) : (s.setCh c x).out = s.out := rfl

/-! ### `setSched` -/

@[simp] theorem State.setSched_chans (s : State) (p : Domain) (x : Sched) :
    (s.setSched p x).chans = s.chans := by cases p <;> rfl
@[simp] theorem State.setSched_dmae (s : State) (p : Domain) (x : Sched) :
    (s.setSched p x).dmae = s.dmae := by cases p <;> rfl
@[simp] theorem State.setSched_cpnd (s : State) (p : Domain) (x : Sched) :
    (s.setSched p x).cpnd = s.cpnd := by cases p <;> rfl
@[simp] theorem State.setSched_stat (s : State) (p : Domain) (x : Sched) :
    (s.setSched p x).stat = s.stat := by cases p <;> rfl
@[simp] theorem State.setSched_stadrS (s : State) (p : Domain) (x : Sched) :
    (s.setSched p x).stadrS = s.stadrS := by cases p <;> rfl
@[simp] theorem State.setSched_stadrD (s : State) (p : Domain) (x : Sched) :
    (s.setSched p x).stadrD = s.stadrD := by cases p <;> rfl
@[simp] theorem State.setSched_ioIstat (s : State) (p : Domain) (x : Sched) :
    (s.setSched p x).ioIstat = s.ioIstat := by cases p <;> rfl
@[simp] theorem State.setSched_ioImask (s : State) (p : Domain) (x : Sched) :
    (s.setSched p x).ioImask = s.ioImask := by cases p <;> rfl
@[simp] theorem State.setSched_excMain (s : State) (p : Domain) (x : Sched) :
    (s.setSched p x).excMain = s.excMain := by cases p <;> rfl
@[simp] theorem State.setSched_excIo (s : State) (p : Domain) (x : Sched) :
    (s.setSched p x).excIo = s.excIo := by cases p <;> rfl
@[simp] theorem State.setSched_mainAnchor (s : State) (p : Domain) (x : Sched) :
    (s.setSched p x).mainAnchor = s.mainAnchor := by cases p <;> rfl
@[simp] theorem State.setSched_ioAnchor (s : State) (p : Domain) (x : Sched) :
    (s.setSched p x).ioAnchor = s.ioAnchor := by cases p <;> rfl
@[simp] theorem State.setSched_residue (s : State) (p : Domain) (x : Sched) :
    (s.setSched p x).residue = s.residue := by cases p <;> rfl
@[simp] theorem State.setSched_gpath (s : State) (p : Domain) (x : Sched) :
    (s.setSched p x).gpath = s.gpath := by cases p <;> rfl
@[simp] theorem State.setSched_bridge (s : State) (p : Domain) (x : Sched) :
    (s.setSched p x).bridge = s.bridge := by cases p <;> rfl
@[simp] theorem State.setSched_wk (s : State) (p : Domain) (x : Sched) :
    (s.setSched p x).wk = s.wk := by cases p <;> rfl
@[simp] theorem State.setSched_mem (s : State) (p : Domain) (x : Sched) :
    (s.setSched p x).mem = s.mem := by cases p <;> rfl
@[simp] theorem State.setSched_cfg (s : State) (p : Domain) (x : Sched) :
    (s.setSched p x).cfg = s.cfg := by cases p <;> rfl
@[simp] theorem State.setSched_map (s : State) (p : Domain) (x : Sched) :
    (s.setSched p x).map = s.map := by cases p <;> rfl
@[simp] theorem State.setSched_script (s : State) (p : Domain) (x : Sched) :
    (s.setSched p x).script = s.script := by cases p <;> rfl
@[simp] theorem State.setSched_ticks (s : State) (p : Domain) (x : Sched) :
    (s.setSched p x).ticks = s.ticks := by cases p <;> rfl
@[simp] theorem State.setSched_opCount (s : State) (p : Domain) (x : Sched) :
    (s.setSched p x).opCount = s.opCount := by cases p <;> rfl
@[simp] theorem State.setSched_endpointMoved (s : State) (p : Domain) (x : Sched) :
    (s.setSched p x).endpointMoved = s.endpointMoved := by cases p <;> rfl
@[simp] theorem State.setSched_agenda (s : State) (p : Domain) (x : Sched) :
    (s.setSched p x).agenda = s.agenda := by cases p <;> rfl
@[simp] theorem State.setSched_readMain (s : State) (p : Domain) (x : Sched) :
    (s.setSched p x).readMain = s.readMain := by cases p <;> rfl
@[simp] theorem State.setSched_readIo (s : State) (p : Domain) (x : Sched) :
    (s.setSched p x).readIo = s.readIo := by cases p <;> rfl
@[simp] theorem State.setSched_out (s : State) (p : Domain) (x : Sched) :
    (s.setSched p x).out = s.out := by cases p <;> rfl

/-! ### `setFifo` -/

@[simp] theorem State.setFifo_chans (s : State) (f : FifoId) (x : Fifo) :
    (s.setFifo f x).chans = s.chans := by cases f <;> rfl
@[simp] theorem State.setFifo_dmae (s : State) (f : FifoId) (x : Fifo) :
    (s.setFifo f x).dmae = s.dmae := by cases f <;> rfl
@[simp] theorem State.setFifo_cpnd (s : State) (f : FifoId) (x : Fifo) :
    (s.setFifo f x).cpnd = s.cpnd := by cases f <;> rfl
@[simp] theorem State.setFifo_stat (s : State) (f : FifoId) (x : Fifo) :
    (s.setFifo f x).stat = s.stat := by cases f <;> rfl
@[simp] theorem State.setFifo_stadrS (s : State) (f : FifoId) (x : Fifo) :
    (s.setFifo f x).stadrS = s.stadrS := by cases f <;> rfl
@[simp] theorem State.setFifo_stadrD (s : State) (f : FifoId) (x : Fifo) :
    (s.setFifo f x).stadrD = s.stadrD := by cases f <;> rfl
@[simp] theorem State.setFifo_ioIstat (s : State) (f : FifoId) (x : Fifo) :
    (s.setFifo f x).ioIstat = s.ioIstat := by cases f <;> rfl
@[simp] theorem State.setFifo_ioImask (s : State) (f : FifoId) (x : Fifo) :
    (s.setFifo f x).ioImask = s.ioImask := by cases f <;> rfl
@[simp] theorem State.setFifo_excMain (s : State) (f : FifoId) (x : Fifo) :
    (s.setFifo f x).excMain = s.excMain := by cases f <;> rfl
@[simp] theorem State.setFifo_excIo (s : State) (f : FifoId) (x : Fifo) :
    (s.setFifo f x).excIo = s.excIo := by cases f <;> rfl
@[simp] theorem State.setFifo_schedMain (s : State) (f : FifoId) (x : Fifo) :
    (s.setFifo f x).schedMain = s.schedMain := by cases f <;> rfl
@[simp] theorem State.setFifo_schedIo (s : State) (f : FifoId) (x : Fifo) :
    (s.setFifo f x).schedIo = s.schedIo := by cases f <;> rfl
@[simp] theorem State.setFifo_mainAnchor (s : State) (f : FifoId) (x : Fifo) :
    (s.setFifo f x).mainAnchor = s.mainAnchor := by cases f <;> rfl
@[simp] theorem State.setFifo_ioAnchor (s : State) (f : FifoId) (x : Fifo) :
    (s.setFifo f x).ioAnchor = s.ioAnchor := by cases f <;> rfl
@[simp] theorem State.setFifo_residue (s : State) (f : FifoId) (x : Fifo) :
    (s.setFifo f x).residue = s.residue := by cases f <;> rfl
@[simp] theorem State.setFifo_wk (s : State) (f : FifoId) (x : Fifo) :
    (s.setFifo f x).wk = s.wk := by cases f <;> rfl
@[simp] theorem State.setFifo_mem (s : State) (f : FifoId) (x : Fifo) :
    (s.setFifo f x).mem = s.mem := by cases f <;> rfl
@[simp] theorem State.setFifo_cfg (s : State) (f : FifoId) (x : Fifo) :
    (s.setFifo f x).cfg = s.cfg := by cases f <;> rfl
@[simp] theorem State.setFifo_map (s : State) (f : FifoId) (x : Fifo) :
    (s.setFifo f x).map = s.map := by cases f <;> rfl
@[simp] theorem State.setFifo_script (s : State) (f : FifoId) (x : Fifo) :
    (s.setFifo f x).script = s.script := by cases f <;> rfl
@[simp] theorem State.setFifo_ticks (s : State) (f : FifoId) (x : Fifo) :
    (s.setFifo f x).ticks = s.ticks := by cases f <;> rfl
@[simp] theorem State.setFifo_opCount (s : State) (f : FifoId) (x : Fifo) :
    (s.setFifo f x).opCount = s.opCount := by cases f <;> rfl
@[simp] theorem State.setFifo_endpointMoved (s : State) (f : FifoId) (x : Fifo) :
    (s.setFifo f x).endpointMoved = s.endpointMoved := by cases f <;> rfl
@[simp] theorem State.setFifo_agenda (s : State) (f : FifoId) (x : Fifo) :
    (s.setFifo f x).agenda = s.agenda := by cases f <;> rfl
@[simp] theorem State.setFifo_readMain (s : State) (f : FifoId) (x : Fifo) :
    (s.setFifo f x).readMain = s.readMain := by cases f <;> rfl
@[simp] theorem State.setFifo_readIo (s : State) (f : FifoId) (x : Fifo) :
    (s.setFifo f x).readIo = s.readIo := by cases f <;> rfl
@[simp] theorem State.setFifo_out (s : State) (f : FifoId) (x : Fifo) :
    (s.setFifo f x).out = s.out := by cases f <;> rfl

/-! ### `setExc` -/

@[simp] theorem State.setExc_chans (s : State) (p : Domain) (b : Bool) :
    (s.setExc p b).chans = s.chans := by cases p <;> rfl
@[simp] theorem State.setExc_dmae (s : State) (p : Domain) (b : Bool) :
    (s.setExc p b).dmae = s.dmae := by cases p <;> rfl
@[simp] theorem State.setExc_cpnd (s : State) (p : Domain) (b : Bool) :
    (s.setExc p b).cpnd = s.cpnd := by cases p <;> rfl
@[simp] theorem State.setExc_stat (s : State) (p : Domain) (b : Bool) :
    (s.setExc p b).stat = s.stat := by cases p <;> rfl
@[simp] theorem State.setExc_stadrS (s : State) (p : Domain) (b : Bool) :
    (s.setExc p b).stadrS = s.stadrS := by cases p <;> rfl
@[simp] theorem State.setExc_stadrD (s : State) (p : Domain) (b : Bool) :
    (s.setExc p b).stadrD = s.stadrD := by cases p <;> rfl
@[simp] theorem State.setExc_ioIstat (s : State) (p : Domain) (b : Bool) :
    (s.setExc p b).ioIstat = s.ioIstat := by cases p <;> rfl
@[simp] theorem State.setExc_ioImask (s : State) (p : Domain) (b : Bool) :
    (s.setExc p b).ioImask = s.ioImask := by cases p <;> rfl
@[simp] theorem State.setExc_schedMain (s : State) (p : Domain) (b : Bool) :
    (s.setExc p b).schedMain = s.schedMain := by cases p <;> rfl
@[simp] theorem State.setExc_schedIo (s : State) (p : Domain) (b : Bool) :
    (s.setExc p b).schedIo = s.schedIo := by cases p <;> rfl
@[simp] theorem State.setExc_mainAnchor (s : State) (p : Domain) (b : Bool) :
    (s.setExc p b).mainAnchor = s.mainAnchor := by cases p <;> rfl
@[simp] theorem State.setExc_ioAnchor (s : State) (p : Domain) (b : Bool) :
    (s.setExc p b).ioAnchor = s.ioAnchor := by cases p <;> rfl
@[simp] theorem State.setExc_residue (s : State) (p : Domain) (b : Bool) :
    (s.setExc p b).residue = s.residue := by cases p <;> rfl
@[simp] theorem State.setExc_gpath (s : State) (p : Domain) (b : Bool) :
    (s.setExc p b).gpath = s.gpath := by cases p <;> rfl
@[simp] theorem State.setExc_bridge (s : State) (p : Domain) (b : Bool) :
    (s.setExc p b).bridge = s.bridge := by cases p <;> rfl
@[simp] theorem State.setExc_wk (s : State) (p : Domain) (b : Bool) :
    (s.setExc p b).wk = s.wk := by cases p <;> rfl
@[simp] theorem State.setExc_mem (s : State) (p : Domain) (b : Bool) :
    (s.setExc p b).mem = s.mem := by cases p <;> rfl
@[simp] theorem State.setExc_cfg (s : State) (p : Domain) (b : Bool) :
    (s.setExc p b).cfg = s.cfg := by cases p <;> rfl
@[simp] theorem State.setExc_map (s : State) (p : Domain) (b : Bool) :
    (s.setExc p b).map = s.map := by cases p <;> rfl
@[simp] theorem State.setExc_script (s : State) (p : Domain) (b : Bool) :
    (s.setExc p b).script = s.script := by cases p <;> rfl
@[simp] theorem State.setExc_ticks (s : State) (p : Domain) (b : Bool) :
    (s.setExc p b).ticks = s.ticks := by cases p <;> rfl
@[simp] theorem State.setExc_opCount (s : State) (p : Domain) (b : Bool) :
    (s.setExc p b).opCount = s.opCount := by cases p <;> rfl
@[simp] theorem State.setExc_endpointMoved (s : State) (p : Domain) (b : Bool) :
    (s.setExc p b).endpointMoved = s.endpointMoved := by cases p <;> rfl
@[simp] theorem State.setExc_agenda (s : State) (p : Domain) (b : Bool) :
    (s.setExc p b).agenda = s.agenda := by cases p <;> rfl
@[simp] theorem State.setExc_readMain (s : State) (p : Domain) (b : Bool) :
    (s.setExc p b).readMain = s.readMain := by cases p <;> rfl
@[simp] theorem State.setExc_readIo (s : State) (p : Domain) (b : Bool) :
    (s.setExc p b).readIo = s.readIo := by cases p <;> rfl
@[simp] theorem State.setExc_out (s : State) (p : Domain) (b : Bool) :
    (s.setExc p b).out = s.out := by cases p <;> rfl

/-! ### `setRead` -/

@[simp] theorem State.setRead_chans (s : State) (p : Domain) (v : Word) :
    (s.setRead p v).chans = s.chans := by cases p <;> rfl
@[simp] theorem State.setRead_dmae (s : State) (p : Domain) (v : Word) :
    (s.setRead p v).dmae = s.dmae := by cases p <;> rfl
@[simp] theorem State.setRead_cpnd (s : State) (p : Domain) (v : Word) :
    (s.setRead p v).cpnd = s.cpnd := by cases p <;> rfl
@[simp] theorem State.setRead_stat (s : State) (p : Domain) (v : Word) :
    (s.setRead p v).stat = s.stat := by cases p <;> rfl
@[simp] theorem State.setRead_stadrS (s : State) (p : Domain) (v : Word) :
    (s.setRead p v).stadrS = s.stadrS := by cases p <;> rfl
@[simp] theorem State.setRead_stadrD (s : State) (p : Domain) (v : Word) :
    (s.setRead p v).stadrD = s.stadrD := by cases p <;> rfl
@[simp] theorem State.setRead_ioIstat (s : State) (p : Domain) (v : Word) :
    (s.setRead p v).ioIstat = s.ioIstat := by cases p <;> rfl
@[simp] theorem State.setRead_ioImask (s : State) (p : Domain) (v : Word) :
    (s.setRead p v).ioImask = s.ioImask := by cases p <;> rfl
@[simp] theorem State.setRead_excMain (s : State) (p : Domain) (v : Word) :
    (s.setRead p v).excMain = s.excMain := by cases p <;> rfl
@[simp] theorem State.setRead_excIo (s : State) (p : Domain) (v : Word) :
    (s.setRead p v).excIo = s.excIo := by cases p <;> rfl
@[simp] theorem State.setRead_schedMain (s : State) (p : Domain) (v : Word) :
    (s.setRead p v).schedMain = s.schedMain := by cases p <;> rfl
@[simp] theorem State.setRead_schedIo (s : State) (p : Domain) (v : Word) :
    (s.setRead p v).schedIo = s.schedIo := by cases p <;> rfl
@[simp] theorem State.setRead_mainAnchor (s : State) (p : Domain) (v : Word) :
    (s.setRead p v).mainAnchor = s.mainAnchor := by cases p <;> rfl
@[simp] theorem State.setRead_ioAnchor (s : State) (p : Domain) (v : Word) :
    (s.setRead p v).ioAnchor = s.ioAnchor := by cases p <;> rfl
@[simp] theorem State.setRead_residue (s : State) (p : Domain) (v : Word) :
    (s.setRead p v).residue = s.residue := by cases p <;> rfl
@[simp] theorem State.setRead_gpath (s : State) (p : Domain) (v : Word) :
    (s.setRead p v).gpath = s.gpath := by cases p <;> rfl
@[simp] theorem State.setRead_bridge (s : State) (p : Domain) (v : Word) :
    (s.setRead p v).bridge = s.bridge := by cases p <;> rfl
@[simp] theorem State.setRead_wk (s : State) (p : Domain) (v : Word) :
    (s.setRead p v).wk = s.wk := by cases p <;> rfl
@[simp] theorem State.setRead_mem (s : State) (p : Domain) (v : Word) :
    (s.setRead p v).mem = s.mem := by cases p <;> rfl
@[simp] theorem State.setRead_cfg (s : State) (p : Domain) (v : Word) :
    (s.setRead p v).cfg = s.cfg := by cases p <;> rfl
@[simp] theorem State.setRead_map (s : State) (p : Domain) (v : Word) :
    (s.setRead p v).map = s.map := by cases p <;> rfl
@[simp] theorem State.setRead_script (s : State) (p : Domain) (v : Word) :
    (s.setRead p v).script = s.script := by cases p <;> rfl
@[simp] theorem State.setRead_ticks (s : State) (p : Domain) (v : Word) :
    (s.setRead p v).ticks = s.ticks := by cases p <;> rfl
@[simp] theorem State.setRead_opCount (s : State) (p : Domain) (v : Word) :
    (s.setRead p v).opCount = s.opCount := by cases p <;> rfl
@[simp] theorem State.setRead_endpointMoved (s : State) (p : Domain) (v : Word) :
    (s.setRead p v).endpointMoved = s.endpointMoved := by cases p <;> rfl
@[simp] theorem State.setRead_agenda (s : State) (p : Domain) (v : Word) :
    (s.setRead p v).agenda = s.agenda := by cases p <;> rfl
@[simp] theorem State.setRead_out (s : State) (p : Domain) (v : Word) :
    (s.setRead p v).out = s.out := by cases p <;> rfl

/-! ### `emit` -/

@[simp] theorem State.emit_chans (s : State) (o : Output) : (s.emit o).chans = s.chans := rfl
@[simp] theorem State.emit_dmae (s : State) (o : Output) : (s.emit o).dmae = s.dmae := rfl
@[simp] theorem State.emit_cpnd (s : State) (o : Output) : (s.emit o).cpnd = s.cpnd := rfl
@[simp] theorem State.emit_stat (s : State) (o : Output) : (s.emit o).stat = s.stat := rfl
@[simp] theorem State.emit_stadrS (s : State) (o : Output) : (s.emit o).stadrS = s.stadrS := rfl
@[simp] theorem State.emit_stadrD (s : State) (o : Output) : (s.emit o).stadrD = s.stadrD := rfl
@[simp] theorem State.emit_ioIstat (s : State) (o : Output) : (s.emit o).ioIstat = s.ioIstat := rfl
@[simp] theorem State.emit_ioImask (s : State) (o : Output) : (s.emit o).ioImask = s.ioImask := rfl
@[simp] theorem State.emit_excMain (s : State) (o : Output) : (s.emit o).excMain = s.excMain := rfl
@[simp] theorem State.emit_excIo (s : State) (o : Output) : (s.emit o).excIo = s.excIo := rfl
@[simp] theorem State.emit_schedMain (s : State) (o : Output) : (s.emit o).schedMain = s.schedMain := rfl
@[simp] theorem State.emit_schedIo (s : State) (o : Output) : (s.emit o).schedIo = s.schedIo := rfl
@[simp] theorem State.emit_mainAnchor (s : State) (o : Output) : (s.emit o).mainAnchor = s.mainAnchor := rfl
@[simp] theorem State.emit_ioAnchor (s : State) (o : Output) : (s.emit o).ioAnchor = s.ioAnchor := rfl
@[simp] theorem State.emit_residue (s : State) (o : Output) : (s.emit o).residue = s.residue := rfl
@[simp] theorem State.emit_gpath (s : State) (o : Output) : (s.emit o).gpath = s.gpath := rfl
@[simp] theorem State.emit_bridge (s : State) (o : Output) : (s.emit o).bridge = s.bridge := rfl
@[simp] theorem State.emit_wk (s : State) (o : Output) : (s.emit o).wk = s.wk := rfl
@[simp] theorem State.emit_mem (s : State) (o : Output) : (s.emit o).mem = s.mem := rfl
@[simp] theorem State.emit_cfg (s : State) (o : Output) : (s.emit o).cfg = s.cfg := rfl
@[simp] theorem State.emit_map (s : State) (o : Output) : (s.emit o).map = s.map := rfl
@[simp] theorem State.emit_script (s : State) (o : Output) : (s.emit o).script = s.script := rfl
@[simp] theorem State.emit_ticks (s : State) (o : Output) : (s.emit o).ticks = s.ticks := rfl
@[simp] theorem State.emit_opCount (s : State) (o : Output) : (s.emit o).opCount = s.opCount := rfl
@[simp] theorem State.emit_endpointMoved (s : State) (o : Output) :
    (s.emit o).endpointMoved = s.endpointMoved := rfl
@[simp] theorem State.emit_agenda (s : State) (o : Output) : (s.emit o).agenda = s.agenda := rfl
@[simp] theorem State.emit_readMain (s : State) (o : Output) : (s.emit o).readMain = s.readMain := rfl
@[simp] theorem State.emit_readIo (s : State) (o : Output) : (s.emit o).readIo = s.readIo := rfl

/-! ### `tick` -/

@[simp] theorem State.tick_chans (s : State) : (s.tick).chans = s.chans := rfl
@[simp] theorem State.tick_dmae (s : State) : (s.tick).dmae = s.dmae := rfl
@[simp] theorem State.tick_cpnd (s : State) : (s.tick).cpnd = s.cpnd := rfl
@[simp] theorem State.tick_stat (s : State) : (s.tick).stat = s.stat := rfl
@[simp] theorem State.tick_stadrS (s : State) : (s.tick).stadrS = s.stadrS := rfl
@[simp] theorem State.tick_stadrD (s : State) : (s.tick).stadrD = s.stadrD := rfl
@[simp] theorem State.tick_ioIstat (s : State) : (s.tick).ioIstat = s.ioIstat := rfl
@[simp] theorem State.tick_ioImask (s : State) : (s.tick).ioImask = s.ioImask := rfl
@[simp] theorem State.tick_excMain (s : State) : (s.tick).excMain = s.excMain := rfl
@[simp] theorem State.tick_excIo (s : State) : (s.tick).excIo = s.excIo := rfl
@[simp] theorem State.tick_schedMain (s : State) : (s.tick).schedMain = s.schedMain := rfl
@[simp] theorem State.tick_schedIo (s : State) : (s.tick).schedIo = s.schedIo := rfl
@[simp] theorem State.tick_mainAnchor (s : State) : (s.tick).mainAnchor = s.mainAnchor := rfl
@[simp] theorem State.tick_ioAnchor (s : State) : (s.tick).ioAnchor = s.ioAnchor := rfl
@[simp] theorem State.tick_residue (s : State) : (s.tick).residue = s.residue := rfl
@[simp] theorem State.tick_gpath (s : State) : (s.tick).gpath = s.gpath := rfl
@[simp] theorem State.tick_bridge (s : State) : (s.tick).bridge = s.bridge := rfl
@[simp] theorem State.tick_wk (s : State) : (s.tick).wk = s.wk := rfl
@[simp] theorem State.tick_mem (s : State) : (s.tick).mem = s.mem := rfl
@[simp] theorem State.tick_cfg (s : State) : (s.tick).cfg = s.cfg := rfl
@[simp] theorem State.tick_map (s : State) : (s.tick).map = s.map := rfl
@[simp] theorem State.tick_opCount (s : State) : (s.tick).opCount = s.opCount := rfl
@[simp] theorem State.tick_endpointMoved (s : State) : (s.tick).endpointMoved = s.endpointMoved := rfl
@[simp] theorem State.tick_agenda (s : State) : (s.tick).agenda = s.agenda := rfl
@[simp] theorem State.tick_readMain (s : State) : (s.tick).readMain = s.readMain := rfl
@[simp] theorem State.tick_readIo (s : State) : (s.tick).readIo = s.readIo := rfl
@[simp] theorem State.tick_out (s : State) : (s.tick).out = s.out := rfl

/-! ### The updated piece -/

@[simp] theorem State.ch_setCh_self (s : State) (c : Chan) (x : Channel) : (s.setCh c x).ch c = x := by
  simp [State.ch, State.setCh]

@[simp] theorem State.ch_setCh_ne (s : State) {c d : Chan} (x : Channel) (h : d ≠ c) :
    (s.setCh c x).ch d = s.ch d := by
  have : c.val ≠ d.val := fun e => h (Fin.ext e.symm)
  simp [State.ch, State.setCh, this]

theorem State.ch_setCh (s : State) (c d : Chan) (x : Channel) :
    (s.setCh c x).ch d = if d = c then x else s.ch d := by
  by_cases h : d = c
  · subst h; simp
  · simp [h]

@[simp] theorem State.setCh_setCh (s : State) (c : Chan) (x y : Channel) :
    (s.setCh c x).setCh c y = s.setCh c y := by
  simp [State.setCh]

@[simp] theorem State.setCh_ch (s : State) (c : Chan) : s.setCh c (s.ch c) = s := by
  simp [State.setCh, State.ch]

@[simp] theorem State.sched_setSched_self (s : State) (p : Domain) (x : Sched) :
    (s.setSched p x).sched p = x := by cases p <;> rfl

@[simp] theorem State.sched_setSched_other (s : State) (p : Domain) (x : Sched) :
    (s.setSched p x).sched p.other = s.sched p.other := by cases p <;> rfl

@[simp] theorem State.setSched_main_schedIo (s : State) (x : Sched) :
    (s.setSched .main x).schedIo = s.schedIo := rfl

@[simp] theorem State.setSched_main_schedMain (s : State) (x : Sched) :
    (s.setSched .main x).schedMain = x := rfl

@[simp] theorem State.setSched_io_schedIo (s : State) (x : Sched) :
    (s.setSched .io x).schedIo = x := rfl

@[simp] theorem State.setSched_io_schedMain (s : State) (x : Sched) :
    (s.setSched .io x).schedMain = s.schedMain := rfl

@[simp] theorem State.fifo_setFifo_self (s : State) (f : FifoId) (x : Fifo) :
    (s.setFifo f x).fifo f = x := by cases f <;> rfl

theorem State.fifo_setFifo_ne (s : State) {f g : FifoId} (x : Fifo) (h : g ≠ f) :
    (s.setFifo f x).fifo g = s.fifo g := by cases f <;> cases g <;> first | rfl | exact absurd rfl h

@[simp] theorem State.exc_setExc_self (s : State) (p : Domain) (b : Bool) :
    (s.setExc p b).exc p = b := by cases p <;> rfl

@[simp] theorem State.exc_setExc_other (s : State) (p : Domain) (b : Bool) :
    (s.setExc p b).exc p.other = s.exc p.other := by cases p <;> rfl

@[simp] theorem State.setRead_main_readMain (s : State) (v : Word) : (s.setRead .main v).readMain = v := rfl

@[simp] theorem State.setRead_main_readIo (s : State) (v : Word) :
    (s.setRead .main v).readIo = s.readIo := rfl

@[simp] theorem State.setRead_io_readIo (s : State) (v : Word) : (s.setRead .io v).readIo = v := rfl

@[simp] theorem State.setRead_io_readMain (s : State) (v : Word) :
    (s.setRead .io v).readMain = s.readMain := rfl

@[simp] theorem State.emit_out (s : State) (o : Output) : (s.emit o).out = o :: s.out := rfl

@[simp] theorem State.tick_script (s : State) : s.tick.script = s.script.tail := rfl

@[simp] theorem State.tick_ticks (s : State) : s.tick.ticks = s.ticks + 1 := rfl

/-! ### Accessors through updates of other pieces -/

@[simp] theorem State.ch_setSched (s : State) (p : Domain) (x : Sched) (d : Chan) :
    (s.setSched p x).ch d = s.ch d := by cases p <;> rfl
@[simp] theorem State.ch_setFifo (s : State) (f : FifoId) (x : Fifo) (d : Chan) :
    (s.setFifo f x).ch d = s.ch d := by cases f <;> rfl
@[simp] theorem State.ch_setExc (s : State) (p : Domain) (b : Bool) (d : Chan) :
    (s.setExc p b).ch d = s.ch d := by cases p <;> rfl
@[simp] theorem State.ch_setRead (s : State) (p : Domain) (v : Word) (d : Chan) :
    (s.setRead p v).ch d = s.ch d := by cases p <;> rfl
@[simp] theorem State.ch_emit (s : State) (o : Output) (d : Chan) : (s.emit o).ch d = s.ch d := rfl
@[simp] theorem State.ch_tick (s : State) (d : Chan) : (s.tick).ch d = s.ch d := rfl

@[simp] theorem State.sched_setCh (s : State) (c : Chan) (x : Channel) (q : Domain) :
    (s.setCh c x).sched q = s.sched q := by cases q <;> rfl
@[simp] theorem State.sched_setFifo (s : State) (f : FifoId) (x : Fifo) (q : Domain) :
    (s.setFifo f x).sched q = s.sched q := by cases f <;> cases q <;> rfl
@[simp] theorem State.sched_setExc (s : State) (p : Domain) (b : Bool) (q : Domain) :
    (s.setExc p b).sched q = s.sched q := by cases p <;> cases q <;> rfl
@[simp] theorem State.sched_setRead (s : State) (p : Domain) (v : Word) (q : Domain) :
    (s.setRead p v).sched q = s.sched q := by cases p <;> cases q <;> rfl
@[simp] theorem State.sched_emit (s : State) (o : Output) (q : Domain) :
    (s.emit o).sched q = s.sched q := by cases q <;> rfl
@[simp] theorem State.sched_tick (s : State) (q : Domain) : (s.tick).sched q = s.sched q := by cases q <;> rfl

@[simp] theorem State.fifo_setCh (s : State) (c : Chan) (x : Channel) (g : FifoId) :
    (s.setCh c x).fifo g = s.fifo g := by cases g <;> rfl
@[simp] theorem State.fifo_setSched (s : State) (p : Domain) (x : Sched) (g : FifoId) :
    (s.setSched p x).fifo g = s.fifo g := by cases p <;> cases g <;> rfl
@[simp] theorem State.fifo_setExc (s : State) (p : Domain) (b : Bool) (g : FifoId) :
    (s.setExc p b).fifo g = s.fifo g := by cases p <;> cases g <;> rfl
@[simp] theorem State.fifo_setRead (s : State) (p : Domain) (v : Word) (g : FifoId) :
    (s.setRead p v).fifo g = s.fifo g := by cases p <;> cases g <;> rfl
@[simp] theorem State.fifo_emit (s : State) (o : Output) (g : FifoId) :
    (s.emit o).fifo g = s.fifo g := by cases g <;> rfl
@[simp] theorem State.fifo_tick (s : State) (g : FifoId) : (s.tick).fifo g = s.fifo g := by cases g <;> rfl

@[simp] theorem State.exc_setCh (s : State) (c : Chan) (x : Channel) (q : Domain) :
    (s.setCh c x).exc q = s.exc q := by cases q <;> rfl
@[simp] theorem State.exc_setSched (s : State) (p : Domain) (x : Sched) (q : Domain) :
    (s.setSched p x).exc q = s.exc q := by cases p <;> cases q <;> rfl
@[simp] theorem State.exc_setFifo (s : State) (f : FifoId) (x : Fifo) (q : Domain) :
    (s.setFifo f x).exc q = s.exc q := by cases f <;> cases q <;> rfl
@[simp] theorem State.exc_setRead (s : State) (p : Domain) (v : Word) (q : Domain) :
    (s.setRead p v).exc q = s.exc q := by cases p <;> cases q <;> rfl
@[simp] theorem State.exc_emit (s : State) (o : Output) (q : Domain) :
    (s.emit o).exc q = s.exc q := by cases q <;> rfl
@[simp] theorem State.exc_tick (s : State) (q : Domain) : (s.tick).exc q = s.exc q := by cases q <;> rfl

@[simp] theorem State.answers_setCh (s : State) (c : Chan) (x : Channel) :
    (s.setCh c x).answers = s.answers := rfl
@[simp] theorem State.answers_setSched (s : State) (p : Domain) (x : Sched) :
    (s.setSched p x).answers = s.answers := by cases p <;> rfl
@[simp] theorem State.answers_setFifo (s : State) (f : FifoId) (x : Fifo) :
    (s.setFifo f x).answers = s.answers := by cases f <;> rfl
@[simp] theorem State.answers_setExc (s : State) (p : Domain) (b : Bool) :
    (s.setExc p b).answers = s.answers := by cases p <;> rfl
@[simp] theorem State.answers_setRead (s : State) (p : Domain) (v : Word) :
    (s.setRead p v).answers = s.answers := by cases p <;> rfl
@[simp] theorem State.answers_emit (s : State) (o : Output) : (s.emit o).answers = s.answers := rfl

@[simp] theorem State.globalEnable_setCh (s : State) (c : Chan) (x : Channel) :
    (s.setCh c x).globalEnable = s.globalEnable := rfl
@[simp] theorem State.globalEnable_setSched (s : State) (p : Domain) (x : Sched) :
    (s.setSched p x).globalEnable = s.globalEnable := by cases p <;> rfl
@[simp] theorem State.globalEnable_setFifo (s : State) (f : FifoId) (x : Fifo) :
    (s.setFifo f x).globalEnable = s.globalEnable := by cases f <;> rfl
@[simp] theorem State.globalEnable_setExc (s : State) (p : Domain) (b : Bool) :
    (s.setExc p b).globalEnable = s.globalEnable := by cases p <;> rfl
@[simp] theorem State.globalEnable_setRead (s : State) (p : Domain) (v : Word) :
    (s.setRead p v).globalEnable = s.globalEnable := by cases p <;> rfl
@[simp] theorem State.globalEnable_emit (s : State) (o : Output) :
    (s.emit o).globalEnable = s.globalEnable := rfl
@[simp] theorem State.globalEnable_tick (s : State) : (s.tick).globalEnable = s.globalEnable := rfl

@[simp] theorem State.pending_setCh (s : State) (c : Chan) (x : Channel) (q : Domain) :
    (s.setCh c x).pending q = s.pending q := by cases q <;> rfl
@[simp] theorem State.pending_setSched (s : State) (p : Domain) (x : Sched) (q : Domain) :
    (s.setSched p x).pending q = s.pending q := by cases p <;> cases q <;> rfl
@[simp] theorem State.pending_setFifo (s : State) (f : FifoId) (x : Fifo) (q : Domain) :
    (s.setFifo f x).pending q = s.pending q := by cases f <;> cases q <;> rfl
@[simp] theorem State.pending_setExc (s : State) (p : Domain) (b : Bool) (q : Domain) :
    (s.setExc p b).pending q = s.pending q := by cases p <;> cases q <;> rfl
@[simp] theorem State.pending_setRead (s : State) (p : Domain) (v : Word) (q : Domain) :
    (s.setRead p v).pending q = s.pending q := by cases p <;> cases q <;> rfl
@[simp] theorem State.pending_emit (s : State) (o : Output) (q : Domain) :
    (s.emit o).pending q = s.pending q := by cases q <;> rfl
@[simp] theorem State.pending_tick (s : State) (q : Domain) :
    (s.tick).pending q = s.pending q := by cases q <;> rfl

end Sys2Proof.Machine
end

