-- ==== Sys2Proof/Laws/Ops.lean ====
section
/-! SUPPORT. The shared operations, each said once: what state an operation answers, as one record update, or
what it leaves alone. -/

namespace Sys2Proof.Machine

@[simp] theorem State.setSched_sched (s : State) (p : Domain) : s.setSched p (s.sched p) = s := by
  cases p <;> rfl

@[simp] theorem State.setFifo_fifo (s : State) (f : FifoId) : s.setFifo f (s.fifo f) = s := by
  cases f <;> rfl

@[simp] theorem State.setSched_setSched (s : State) (p : Domain) (x y : Sched) :
    (s.setSched p x).setSched p y = s.setSched p y := by cases p <;> rfl

/-! ### Outcomes -/

@[simp] theorem andThen_next (s : State) (g : State → Result) : andThen (.next s) g = g s := rfl

/-- A composition that answers a next state passed through one. -/
theorem andThen_eq_next {r : Result} {g : State → Result} {t : State} (h : andThen r g = .next t) :
    ∃ u, r = .next u ∧ g u = .next t := by
  cases r with
  | next u => exact ⟨u, rfl, h⟩
  | fault e => cases e
  | refused e => simp [andThen] at h

theorem ticked_eq_next {r : Result} {t : State} (h : ticked r = .next t) :
    ∃ u, r = .next u ∧ t = u.tick := by
  obtain ⟨u, hu, ht⟩ := andThen_eq_next h
  exact ⟨u, hu, by simpa using ht.symm⟩

/-! ### Event slots -/

/-- The slot that `Arm` writes. -/
theorem Sched.arm_slot_self (x : Sched) (k : Kind) (d : Nat) (w : Word) :
    (x.arm k d w).slots[k.val] =
      { armed := true, start := x.cycle, delta := BitVec.ofNat 32 d, payload := w } := by
  simp [Sched.arm]

/-- `Arm` leaves every other slot alone. -/
theorem Sched.arm_slot_ne (x : Sched) {k j : Kind} (d : Nat) (w : Word) (h : j ≠ k) :
    (x.arm k d w).slots[j.val] = x.slots[j.val] := by
  have : k.val ≠ j.val := fun e => h (Fin.ext e.symm)
  simp [Sched.arm, this]

@[simp] theorem Sched.arm_cycle (x : Sched) (k : Kind) (d : Nat) (w : Word) :
    (x.arm k d w).cycle = x.cycle := rfl

@[simp] theorem Sched.arm_nextValid (x : Sched) (k : Kind) (d : Nat) (w : Word) :
    (x.arm k d w).nextValid = true := rfl

/-- `Cancel` clears the arm bit. -/
theorem Sched.cancel_slot_self (x : Sched) (k : Kind) :
    (x.cancel k).slots[k.val] = { x.slots[k.val] with armed := false } := by
  simp [Sched.cancel]

/-- `Cancel` leaves every other slot alone. -/
theorem Sched.cancel_slot_ne (x : Sched) {k j : Kind} (h : j ≠ k) :
    (x.cancel k).slots[j.val] = x.slots[j.val] := by
  have : k.val ≠ j.val := fun e => h (Fin.ext e.symm)
  simp [Sched.cancel, this]

@[simp] theorem Sched.cancel_cycle (x : Sched) (k : Kind) : (x.cancel k).cycle = x.cycle := rfl

@[simp] theorem Sched.cancel_nextValid (x : Sched) (k : Kind) : (x.cancel k).nextValid = x.nextValid := rfl

@[simp] theorem Sched.cancel_nextEvent (x : Sched) (k : Kind) : (x.cancel k).nextEvent = x.nextEvent := rfl

/-- An armed kind is in no snapshot of a running pass, and the other members stay. -/
theorem Sched.mem_arm_passSet (x : Sched) (k j : Kind) (d : Nat) (w : Word) :
    j ∈ (x.arm k d w).passSet ↔ j ∈ x.passSet ∧ j ≠ k := by
  simp [Sched.arm]

@[simp] theorem Sched.cancel_passSet (x : Sched) (k : Kind) : (x.cancel k).passSet = x.passSet := rfl

@[simp] theorem Sched.leavePass_cycle (x : Sched) (k : Kind) : (x.leavePass k).cycle = x.cycle := rfl
@[simp] theorem Sched.leavePass_slots (x : Sched) (k : Kind) : (x.leavePass k).slots = x.slots := rfl
@[simp] theorem Sched.leavePass_nextValid (x : Sched) (k : Kind) :
    (x.leavePass k).nextValid = x.nextValid := rfl
@[simp] theorem Sched.leavePass_nextEvent (x : Sched) (k : Kind) :
    (x.leavePass k).nextEvent = x.nextEvent := rfl

/-- A member that fires leaves fewer members. -/
theorem Sched.leavePass_length_lt (x : Sched) {k : Kind} (h : k ∈ x.passSet) :
    (x.leavePass k).passSet.length < x.passSet.length := by
  refine lt_of_le_of_ne (List.length_filter_le _ _) fun e => ?_
  have := List.length_filter_eq_length_iff.1 e k h
  simp at this

@[simp] theorem Sched.snapshot_cycle (x : Sched) : x.snapshot.cycle = x.cycle := rfl
@[simp] theorem Sched.snapshot_slots (x : Sched) : x.snapshot.slots = x.slots := rfl
@[simp] theorem Sched.snapshot_nextValid (x : Sched) : x.snapshot.nextValid = x.nextValid := rfl
@[simp] theorem Sched.snapshot_nextEvent (x : Sched) : x.snapshot.nextEvent = x.nextEvent := rfl
@[simp] theorem Sched.snapshot_passSet (x : Sched) : x.snapshot.passSet = dueKinds x := rfl

/-- No channel's continuation is the interrupt test. -/
theorem dmaCont_ne_intTest (c : Chan) : dmaCont c ≠ intTest := by
  intro h
  have := congrArg Fin.val h
  have hc := c.isLt
  simp [dmaCont, intTest] at this
  omega

/-- Different channels have different continuations. -/
theorem dmaCont_injective {c d : Chan} (h : dmaCont c = dmaCont d) : c = d := by
  have := congrArg Fin.val h
  exact Fin.ext this

/-! ### Status words, bit by bit -/

/-- One bit for each channel from position `p` on. -/
theorem getLsbD_chanBits (cfg : Config) {p i : Nat} (hi : i < 32) :
    (cfg.chanBits <<< p).getLsbD i = decide (p ≤ i ∧ i < p + cfg.literals.nch) := by
  rw [BitVec.getLsbD_shiftLeft]
  by_cases hp : i < p
  · simp [hp, show ¬ p ≤ i by omega]
  · have h : cfg.chanBits.getLsbD (i - p) = decide (i - p < cfg.literals.nch) := getLsbD_low (by omega)
    rw [h]
    simp [hi, hp, show p ≤ i by omega, show i - p < cfg.literals.nch ↔ i < p + cfg.literals.nch by omega]

/-- One bit at position `p`. -/
theorem getLsbD_oneBit {p i : Nat} (hi : i < 32) : (1#32 <<< p).getLsbD i = decide (i = p) := by
  have h : ∀ j, j < 32 → (1#32).getLsbD j = decide (j = 0) := by decide
  rw [BitVec.getLsbD_shiftLeft]
  by_cases hp : i < p
  · simp [hp, show ¬ i = p by omega]
  · rw [h (i - p) (by omega)]
    simp [hi, hp, show i - p = 0 ↔ i = p by omega]

/-- The status bits of `STAT` (rule R35). -/
theorem statStatusMask_getLsbD (cfg : Config) {i : Nat} (hi : i < 32) :
    cfg.statStatusMask.getLsbD i =
      decide (cfg.layout.statCIS ≤ i ∧ i < cfg.layout.statCIS + cfg.literals.nch ∨ i = cfg.layout.statSIS ∨
        i = cfg.layout.statBEIS) := by
  simp [Config.statStatusMask, getLsbD_chanBits cfg hi, getLsbD_oneBit hi, Bool.or_assoc]

/-- The mask bits of `STAT` (rule R35). -/
theorem statMaskMask_getLsbD (cfg : Config) {i : Nat} (hi : i < 32) :
    cfg.statMaskMask.getLsbD i =
      decide (cfg.layout.statCIM ≤ i ∧ i < cfg.layout.statCIM + cfg.literals.nch ∨ i = cfg.layout.statSIM) := by
  simp [Config.statMaskMask, getLsbD_chanBits cfg hi, getLsbD_oneBit hi]

/-- Raising a completion sets the bit of the channel, if it has one, and no other. -/
theorem setCis_getLsbD (cfg : Config) (st : Word) (c : Chan) {i : Nat} (hi : i < 32) :
    (setCis cfg st c).getLsbD i =
      (st.getLsbD i || (cfg.hasChan c && decide (i = cfg.layout.statCIS + c.val))) := by
  unfold setCis
  cases cfg.hasChan c <;> simp [getLsbD_oneBit hi]

/-- Raising the stall sets its bit and no other. -/
theorem setSis_getLsbD (l : Layout) (st : Word) {i : Nat} (hi : i < 32) :
    (setSis l st).getLsbD i = (st.getLsbD i || decide (i = l.statSIS)) := by
  simp [setSis, getLsbD_oneBit hi]

/-- Raising the bus error sets its bit and no other. -/
theorem setBeis_getLsbD (l : Layout) (st : Word) {i : Nat} (hi : i < 32) :
    (setBeis l st).getLsbD i = (st.getLsbD i || decide (i = l.statBEIS)) := by
  simp [setBeis, getLsbD_oneBit hi]

/-! ### Interrupts -/

/-- `SchedTest(p)` arms the interrupt test, if at all, and does nothing else. -/
theorem schedTest_eq (p : Domain) (s : State) :
    schedTest p s = s.setSched p
      (if s.pending p != 0#32 && !s.exc p then (s.sched p).arm intTest (intDelta s.cfg p) 0#32
        else s.sched p) := by
  unfold schedTest
  split <;> simp_all [Sys2Proof.Machine.arm]

/-- The scheduler that `SchedTest(p)` leaves, with the status word already set. -/
def testedSched (s : State) (p : Domain) (pend : Word) : Sched :=
  if pend != 0#32 && !s.exc p then (s.sched p).arm intTest (intDelta s.cfg p) 0#32 else s.sched p

/-- `RaiseChannel(c)`, as one update. -/
theorem raiseChannel_eq (c : Chan) (s : State) :
    raiseChannel c s =
      { s with
        stat := setCis s.cfg s.stat c
        schedMain := testedSched s .main (pendingMain s.cfg (setCis s.cfg s.stat c))
        ioIstat := if s.cfg.ioVisible[c.val] then setIoIstat s.cfg s.ioIstat c else s.ioIstat
        schedIo :=
          if s.cfg.ioVisible[c.val] then testedSched s .io (pendingIo s.cfg (setIoIstat s.cfg s.ioIstat c) s.ioImask)
          else s.schedIo } := by
  by_cases h : s.cfg.ioVisible[c.val] = true <;>
    simp [raiseChannel, raiseIo, schedTest_eq, h, State.setSched, State.pending, State.exc, State.sched,
      testedSched, intDelta]

/-- `RaiseStall()`, as one update. -/
theorem raiseStall_eq (s : State) :
    raiseStall s =
      { s with
        stat := setSis s.cfg.layout s.stat
        schedMain := testedSched s .main (pendingMain s.cfg (setSis s.cfg.layout s.stat)) } := by
  simp [raiseStall, schedTest_eq, State.setSched, State.pending, State.exc, State.sched, testedSched, intDelta]

/-- What the interrupt test leaves in any other slot. -/
theorem testedSched_slot (s : State) (p : Domain) (w : Word) {k : Kind} (h : k ≠ intTest) :
    (testedSched s p w).slots[k.val] = (s.sched p).slots[k.val] := by
  unfold testedSched
  split
  · exact Sched.arm_slot_ne _ _ _ h
  · rfl

@[simp] theorem testedSched_cycle (s : State) (p : Domain) (w : Word) :
    (testedSched s p w).cycle = (s.sched p).cycle := by
  unfold testedSched
  split <;> rfl

/-! ### Ends of a transfer -/

/-- The channel that a force-stop or a bus error leaves. -/
@[simp] theorem haltChannel_ch_self (c : Chan) (s : State) :
    (haltChannel c s).ch c = { s.ch c with str := false, queued := false } := by
  simp [haltChannel, Sys2Proof.Machine.cancel]

/-- A force-stop leaves every other channel alone (rule R118). -/
theorem haltChannel_ch_ne {c d : Chan} (s : State) (h : d ≠ c) : (haltChannel c s).ch d = s.ch d := by
  simp [haltChannel, Sys2Proof.Machine.cancel, h]

theorem haltChannel_eq (c : Chan) (s : State) :
    haltChannel c s =
      { s with
        chans := s.chans.set c.val { s.ch c with str := false, queued := false }
        schedMain := s.schedMain.cancel (dmaCont c) } := by
  simp [haltChannel, Sys2Proof.Machine.cancel, State.setSched, State.setCh, State.sched]

/-! ### FIFOs -/

/-- The mirror follows the occupancy. -/
@[simp] theorem Fifo.updateFstat_fstat (l : Layout) (t : Nat) (q : Fifo) :
    (q.updateFstat l t).fstat = fstatWord l q.size t := rfl

@[simp] theorem Fifo.updateFstat_size (l : Layout) (t : Nat) (q : Fifo) : (q.updateFstat l t).size = q.size := rfl

theorem Fifo.foldl_push_size (cap : Nat) (l : List Qword) (q : Fifo) :
    (l.foldl (Fifo.push cap) q).size = q.size + l.length := by
  induction l generalizing q with
  | nil => rfl
  | cons x t ih => simp [ih, Fifo.push]; omega

theorem Fifo.pops_size (cap n : Nat) (q : Fifo) : (Fifo.pops cap n q).2.size = q.size - n := by
  induction n generalizing q with
  | zero => rfl
  | succ n ih => simp [Fifo.pops, ih]; omega

theorem Fifo.pops_length (cap n : Nat) (q : Fifo) : (Fifo.pops cap n q).1.length = n := by
  induction n generalizing q with
  | zero => rfl
  | succ n ih => simp [Fifo.pops, ih]

/-- The arbiter gives a DMA channel nothing, or the raw write. -/
theorem arbWriteDma_cases (f : FifoId) (c : Chan) (d : List Qword) (s : State) :
    arbWriteDma f c d s = (0, s) ∨
      (winner s f = none ∧ arbWriteDma f c d s = fifoWrite f d s) := by
  unfold arbWriteDma
  split
  · exact .inl rfl
  · split
    · exact .inl rfl
    · rename_i h _
      exact .inr ⟨by simpa using h, rfl⟩

/-- The arbiter gives a direct path nothing, or the raw write. -/
theorem arbWriteDirect_cases (f : FifoId) (i : Nat) (d : List Qword) (s : State) :
    arbWriteDirect f i d s = (0, s) ∨
      (winner s f = some i ∧ arbWriteDirect f i d s = fifoWrite f d s) := by
  unfold arbWriteDirect
  split
  · rename_i h
    exact .inr ⟨h, rfl⟩
  · exact .inl rfl

end Sys2Proof.Machine
end

