-- ==== Sys2Proof/Laws/Channel.lean ====
section
/-! SUPPORT. What the operations of a channel, of an outside agent, of a pass and of a step can do, said once
for each. -/

namespace Sys2Proof.Machine

/-! ### Tags -/

/-- Every tag loads its channel: some walker function of that channel, and nothing else. -/
theorem runTag_eq (v : Variant) (op : TagOp) (c : Chan) (q : BitVec 16) (irq : Bool) (a : Word) (s : State) :
    ∃ walk, runTag v op c q irq a s = .next (loadTag c (s.cfg.codeOf op) q irq walk s) := by
  cases v <;> cases op <;> exact ⟨_, rfl⟩

/-- A tag that decodes runs as the instruction it decodes to. -/
theorem runTag_eq_exec (v : Variant) (op : TagOp) (c : Chan) (q : BitVec 16) (irq : Bool) (a : Word)
    (s : State) : runTag v op c q irq a s = exec (tagInstr v op c q irq a) s := by
  cases v <;> cases op <;> rfl

/-- A fetch fails where the tag pointer does not translate; otherwise it loads the channel. -/
theorem fetchTag_cases (c : Chan) (s : State) :
    (translate s (s.ch c).tadr .read = false ∧ fetchTag c s = none) ∨
      (translate s (s.ch c).tadr .read = true ∧
        ∃ id q irq walk, fetchTag c s = some (.next (loadTag c id q irq walk s))) := by
  unfold fetchTag
  cases h : translate s (s.ch c).tadr .read with
  | false => exact .inl ⟨rfl, by simp⟩
  | true =>
    refine .inr ⟨rfl, ?_⟩
    simp only [if_true]
    cases s.cfg.tagOp (tagFields s.cfg (readUnit s.cfg.unit s.mem (s.ch c).tadr)).id with
    | some op =>
      obtain ⟨walk, hw⟩ := runTag_eq s.cfg.walker[c.val] op c _ _ _ s
      exact ⟨_, _, _, walk, congrArg some hw⟩
    | none =>
      simp only [undefinedTag]
      cases s.cfg.walker[c.val] <;> exact ⟨_, _, _, _, rfl⟩

/-! ### Transfers -/

theorem fifoWrite_eq (f : FifoId) (d : List Qword) (s : State) :
    ∃ x, (fifoWrite f d s).2 = s.setFifo f x := ⟨_, rfl⟩

theorem fifoRead_eq (f : FifoId) (k : Nat) (s : State) : ∃ x, (fifoRead f k s).2 = s.setFifo f x := ⟨_, rfl⟩

theorem arbWriteDma_eq (f : FifoId) (c : Chan) (d : List Qword) (s : State) :
    ∃ x, (arbWriteDma f c d s).2 = s.setFifo f x := by
  unfold arbWriteDma
  split
  · exact ⟨s.fifo f, by cases f <;> rfl⟩
  · split
    · exact ⟨s.fifo f, by cases f <;> rfl⟩
    · exact fifoWrite_eq f d s

theorem notifyEndpoint_eq (c : Chan) (m : Nat) (s : State) :
    ∃ x, notifyEndpoint c m s = { s with schedIo := x } := by
  unfold notifyEndpoint
  split
  · exact ⟨s.schedIo, rfl⟩
  · exact ⟨_, rfl⟩

/-- A sink changes only the rings, the bridge step of IO and what leaves the block. -/
theorem sink_frame (c : Chan) (d : List Qword) (s : State) :
    ∃ x g b o, (sink c d s).2 = { s with schedIo := x, gpath := g, bridge := b, out := o } := by
  unfold sink
  split
  · obtain ⟨x, h⟩ := arbWriteDma_eq .gpath c d s
    rw [h]
    exact ⟨_, _, _, _, rfl⟩
  · obtain ⟨x, h⟩ := arbWriteDma_eq .bridge c d s
    obtain ⟨y, h'⟩ := notifyEndpoint_eq c (arbWriteDma .bridge c d s).1 (arbWriteDma .bridge c d s).2
    simp only [h']
    rw [h]
    exact ⟨_, _, _, _, rfl⟩
  · dsimp only
    split <;> exact ⟨_, _, _, _, rfl⟩

/-- A source changes only the rings and the bridge step of IO. -/
theorem source_frame (c : Chan) (n : Nat) (s : State) :
    ∃ x g b, (source c n s).2 = { s with schedIo := x, gpath := g, bridge := b } := by
  unfold source
  split
  · obtain ⟨x, h⟩ := fifoRead_eq .gpath n s
    rw [h]
    exact ⟨_, _, _, rfl⟩
  · obtain ⟨x, h⟩ := fifoRead_eq .bridge n s
    obtain ⟨y, h'⟩ := notifyEndpoint_eq c (fifoRead .bridge n s).1.length (fifoRead .bridge n s).2
    simp only [h']
    rw [h]
    exact ⟨_, _, _, rfl⟩
  · exact ⟨_, _, _, rfl⟩

/-- Moving the data of a step changes no register of any channel. -/
theorem moveUnits_frame (c : Chan) (n : Nat) (s : State) :
    ∃ x g b o m, (moveUnits c n s).2 = { s with schedIo := x, gpath := g, bridge := b, out := o, mem := m } := by
  unfold moveUnits
  dsimp only
  split
  · obtain ⟨x, g, b, o, h⟩ := sink_frame c (readUnits s.cfg.unit s.mem (s.ch c).madr n) s
    exact ⟨x, g, b, o, s.mem, h⟩
  · obtain ⟨x, g, b, h⟩ := source_frame c n s
    exact ⟨x, g, b, s.out, writeUnits s.cfg.unit (source c n s).2.mem (s.ch c).madr (source c n s).1, by simp only [h]⟩

/-- A transfer fails where its first unit does not translate, and otherwise moves units and then lets the
registers follow. -/
theorem transfer_cases (c : Chan) (n : Nat) (s : State) :
    (leadingUnits s (transferDir (s.ch c)) (s.ch c).madr n = 0 ∧ transfer c n s = none) ∨
      (0 < leadingUnits s (transferDir (s.ch c)) (s.ch c).madr n ∧
        ∃ k, k = leadingUnits s (transferDir (s.ch c)) (s.ch c).madr n ∧
          transfer c n s =
            some ((moveUnits c k s).1, advanceChannel c (moveUnits c k s).1 (moveUnits c k s).2)) := by
  unfold transfer
  cases h : leadingUnits s (transferDir (s.ch c)) (s.ch c).madr n with
  | zero => exact .inl ⟨rfl, rfl⟩
  | succ k => exact .inr ⟨by omega, k + 1, rfl, rfl⟩

/-- A step moves units and re-arms, or raises the bus error. -/
theorem transferStep_cases (c : Chan) (wanted n : Nat) (s : State) :
    (transfer c n s = none ∧ transferStep c wanted n s = busError c s) ∨
      ∃ m t, transfer c n s = some (m, t) ∧ transferStep c wanted n s = rearm c wanted m t := by
  unfold transferStep
  cases h : transfer c n s with
  | none => exact .inl ⟨rfl, rfl⟩
  | some r => exact .inr ⟨r.1, r.2, rfl, rfl⟩

/-- Re-arming arms the continuation of the channel from now. -/
theorem rearm_eq (c : Chan) (wanted m : Nat) (s : State) :
    ∃ d, (d = retestDelta s.cfg ∨ d = stepDelta s.cfg c m) ∧
      rearm c wanted m s = { s with schedMain := s.schedMain.arm (dmaCont c) d (BitVec.ofNat 32 c.val) } := by
  unfold rearm
  dsimp only
  split
  · exact ⟨_, .inl rfl, rfl⟩
  · exact ⟨_, .inr rfl, rfl⟩

/-- The part of a chain step after the fetch: an empty block re-arms, a stalled one re-tests, any other one
is a transfer step. -/
theorem blockStep_cases (c : Chan) (s : State) :
    ((s.ch c).qwc = 0 ∧ blockStep c s = rearm c 0 0 s) ∨
      (0 < (s.ch c).qwc ∧ (stallLimit c (s.ch c).qwc s).1 = 0 ∧
        blockStep c s = rearm c (s.ch c).qwc 0 (stallLimit c (s.ch c).qwc s).2) ∨
      (0 < (s.ch c).qwc ∧ 0 < (stallLimit c (s.ch c).qwc s).1 ∧
        blockStep c s =
          transferStep c (s.ch c).qwc (stallLimit c (s.ch c).qwc s).1 (stallLimit c (s.ch c).qwc s).2) := by
  unfold blockStep
  dsimp only
  split
  · next h => exact .inl ⟨h, rfl⟩
  · next h =>
    split
    · next h' => exact .inr (.inl ⟨by omega, h', rfl⟩)
    · next h' => exact .inr (.inr ⟨by omega, by omega, rfl⟩)

/-- What a continuation answers when it answers a next state. -/
theorem continueChan_cases {c : Chan} {s t : State} (h : continueChan c s = .next t) :
    t = complete c s ∨ t = stepNormal c s ∨ t = busError c s ∨ t = blockStep c s ∨
      ∃ id q irq walk, t = blockStep c (loadTag c id q irq walk s) := by
  unfold continueChan at h
  split at h
  · split at h
    · cases h; exact .inl rfl
    · cases h; exact .inr (.inl rfl)
  · split at h
    · cases h; exact .inl rfl
    · unfold stepChain at h
      split at h
      · rcases fetchTag_cases c s with ⟨-, hf⟩ | ⟨-, id, q, irq, walk, hf⟩
        · rw [hf] at h
          cases h
          exact .inr (.inr (.inl rfl))
        · rw [hf] at h
          cases h
          exact .inr (.inr (.inr (.inr ⟨id, q, irq, walk, rfl⟩)))
      · cases h
        exact .inr (.inr (.inr (.inl rfl)))
  · cases h

/-- A channel that is told to run steps if it can, and joins the queue if it cannot. -/
theorem runOrQueue_cases (c : Chan) (s : State) :
    (s.canRun c = true ∧ runOrQueue c s = ticked (continueChan c s)) ∨
      (s.canRun c = false ∧ runOrQueue c s = .next (enqueue c s).tick) := by
  unfold runOrQueue
  cases h : s.canRun c with
  | true => exact .inl ⟨rfl, by simp⟩
  | false => exact .inr ⟨rfl, by simp⟩

/-- The restart of the queue, one channel at a time. -/
theorem restartFrom_cons (c : Chan) (l : List Chan) (s : State) :
    ((s.ch c).queued = false ∧ restartFrom (c :: l) s = restartFrom l s) ∨
      ((s.ch c).queued = true ∧ s.chanMasked c = true ∧ restartFrom (c :: l) s = restartFrom l s.tick) ∨
      ((s.ch c).queued = true ∧ s.chanMasked c = false ∧
        restartFrom (c :: l) s = andThen (resume c s) (restartFrom l)) := by
  rw [restartFrom]
  cases hq : (s.ch c).queued with
  | false => exact .inl ⟨rfl, by simp⟩
  | true =>
    cases hm : s.chanMasked c with
    | true => exact .inr (.inl ⟨rfl, rfl, by simp⟩)
    | false => exact .inr (.inr ⟨rfl, rfl, by simp⟩)

/-! ### Outside agents -/

/-- What an outside agent may not do changes nothing. -/
theorem performExt_not_permitted {p : Domain} {e : ExtOp} {s : State} (h : permitted p s e = false) :
    performExt p e s = .next s := by
  simp [performExt, h]

theorem performExts_cons (p : Domain) (e : ExtOp) (l : List ExtOp) (s : State) :
    performExts p (e :: l) s = andThen (performExt p e s) (performExts p l) := rfl

/-- A move through the bridge FIFO is remembered; nothing else changes (rule R204). -/
theorem afterMove_eq (f : FifoId) (n : Nat) (s : State) :
    afterMove f n s = { s with endpointMoved := s.endpointMoved || decide (f = .bridge ∧ 0 < n) } := by
  unfold afterMove
  by_cases h : f = .bridge ∧ 0 < n
  · simp [h]
  · rw [if_neg h, decide_eq_false h, Bool.or_false]

/-- When the endpoint may notify MAIN (rule R204). -/
theorem mayNotify_iff (s : State) (c : Chan) (d : Nat) :
    mayNotify s c d = true ↔ s.endpointMoved = true ∧ s.cfg.hasChan c = true ∧ s.running c = true ∧
      fifoOf s.cfg c = some .bridge ∧ 1 ≤ d ∧ toMain s.cfg d ≤ maxDelta := by
  simp [mayNotify, and_assoc]

/-! ### Passes and steps -/

/-- A snapshot member that is no longer armed leaves the snapshot and does not fire. -/
theorem fire_not_armed {p : Domain} {k : Kind} {s : State} (h : (s.sched p).slots[k.val].armed = false) :
    fire p k s = .next (s.setSched p ((s.sched p).leavePass k)) := by
  simp [fire, h]

/-- A snapshot member that is still armed leaves the snapshot and runs its handler with its arm bit cleared. -/
theorem fire_armed {p : Domain} {k : Kind} {s : State} (h : (s.sched p).slots[k.val].armed = true) :
    fire p k s = exec (decodeEvent p k (s.sched p).slots[k.val].payload)
      (cancel p k (s.setSched p ((s.sched p).leavePass k))) := by
  simp [fire, h, runHandler]

/-- Without a member left nothing fires. -/
theorem fireAll_nil {p : Domain} {n : Nat} {s : State} (h : (s.sched p).passSet = []) :
    fireAll p n s = .next s := by
  cases n with
  | zero => rfl
  | succ n => simp [fireAll, h]

/-- With members left the first of them to fire does, and then the others. -/
theorem fireAll_cons {p : Domain} {n : Nat} {j : Kind} {l : List Kind} {s : State}
    (h : (s.sched p).passSet = j :: l) :
    fireAll p (n + 1) s = andThen (fire p (firstToFire (s.sched p) j l) s) (fireAll p n) := by
  simp [fireAll, h]

/-- The worker's signals are handed on and their flags cleared; nothing else changes (rule R46). -/
theorem workerTake_eq (s : State) :
    ∃ o, workerTake s = { s with
      wk := { s.wk with
        finish := false
        label := false
        signal := false }
      out := o } := by
  have h : ∀ (g : Signal) (w : Option DWord) (b : Bool) (u : State), ∃ o, takeSignal g w b u = { u with out := o } := by
    intro g w b u
    cases b
    · exact ⟨u.out, rfl⟩
    · exact ⟨_, rfl⟩
  obtain ⟨o1, h1⟩ := h .finish none s.wk.finish s
  obtain ⟨o2, h2⟩ := h .label (some s.wk.payload1) s.wk.label { s with out := o1 }
  obtain ⟨o3, h3⟩ := h .signal (some s.wk.payload0) s.wk.signal { s with out := o2 }
  exact ⟨o3, by simp only [workerTake, h1, h2, h3]⟩

/-- The start of a pass moves no clock, arms nothing and cancels nothing. -/
@[simp] theorem passStart_sched (p q : Domain) (s : State) : (passStart p s).sched q = s.sched q := by
  cases p
  · obtain ⟨o, h⟩ := workerTake_eq (reanchor s)
    simp only [passStart, h]
    cases q <;> rfl
  · rfl

@[simp] theorem passStart_cfg (p : Domain) (s : State) : (passStart p s).cfg = s.cfg := by
  cases p
  · obtain ⟨o, h⟩ := workerTake_eq (reanchor s)
    simp only [passStart, h]
    rfl
  · rfl

/-- An advance moves the clock of its domain; beside it only the anchors may change (rules R154, R172). -/
theorem advance_eq (p : Domain) (n : Nat) (s : State) :
    ∃ m i r, advance p n s =
      ({ s with
        mainAnchor := m
        ioAnchor := i
        residue := r }).setSched p ((s.sched p).forward n) := by
  cases p
  · simp only [advance]
    split
    · exact ⟨_, _, _, rfl⟩
    · exact ⟨s.mainAnchor, s.ioAnchor, s.residue, rfl⟩
  · exact ⟨s.mainAnchor, s.ioAnchor, s.residue, rfl⟩

/-- An advance that is admitted as it stands is made whole (rules R154, R176). -/
theorem tryAdvance_of_ok {p : Domain} {n : Nat} {s : State} (h : advanceOk p n s = true) :
    tryAdvance p n s = some (n, advance p n s) := by
  simp [tryAdvance, tryPart, h]

theorem tryPart_eq_some {p : Domain} {n a : Nat} {s t : State} (h : tryPart p n s = some (a, t)) :
    a ≤ n ∧ advanceOk p a s = true ∧ t = advance p a s := by
  unfold tryPart at h
  by_cases hn : advanceOk p n s = true
  · simp only [hn, if_true, Option.some.injEq, Prod.mk.injEq] at h
    obtain ⟨rfl, rfl⟩ := h
    exact ⟨le_refl _, hn, rfl⟩
  · simp only [hn, if_false, Bool.false_eq_true, Option.ite_none_right_eq_some, Option.some.injEq,
      Prod.mk.injEq] at h
    obtain ⟨hk, rfl, rfl⟩ := h
    exact ⟨by simp [advancePart], hk, rfl⟩

/-- What is made of an advance: as much of it as is admitted, at once or after the bridge has re-anchored. -/
theorem tryAdvance_eq_some {p : Domain} {n a : Nat} {s t : State} (h : tryAdvance p n s = some (a, t)) :
    a ≤ n ∧ ∃ u, (u = s ∨ u = reanchor s) ∧ advanceOk p a u = true ∧ t = advance p a u := by
  unfold tryAdvance at h
  cases h1 : tryPart p n s with
  | some x =>
    rw [h1] at h
    cases h
    obtain ⟨ha, hk, ht⟩ := tryPart_eq_some h1
    exact ⟨ha, s, .inl rfl, hk, ht⟩
  | none =>
    rw [h1] at h
    obtain ⟨ha, hk, ht⟩ := tryPart_eq_some (show tryPart p n (reanchor s) = some (a, t) from h)
    exact ⟨ha, _, .inr rfl, hk, ht⟩

/-- What happens while an operation is held: a pass that may run, an advance that is admitted, or nothing. -/
theorem release_cases (p : Domain) (s : State) :
    (∃ q, passReady q s = true ∧ release p s = pass q s) ∨
      (∃ q n a t, tryAdvance q n s = some (a, t) ∧ release p s = .next t) ∨
      release p s = .next s := by
  have some_of : ∀ {q n t}, runCycles q n s = some t → ∃ a, tryAdvance q n s = some (a, t) := by
    intro q n t h
    obtain ⟨x, hx, rfl⟩ := Option.map_eq_some_iff.1 h
    exact ⟨x.1, hx⟩
  unfold release
  split
  · next h => exact .inl ⟨p, h, rfl⟩
  · split
    · next h => exact .inl ⟨_, h, rfl⟩
    · cases h1 : runCycles p.other (catchUpCycles p s) s with
      | some t =>
        obtain ⟨a, ha⟩ := some_of h1
        exact .inr (.inl ⟨_, _, a, t, ha, rfl⟩)
      | none =>
        cases h2 : runMost p.other s with
        | some t =>
          obtain ⟨a, ha⟩ := some_of h2
          exact .inr (.inl ⟨_, _, a, t, ha, rfl⟩)
        | none =>
          cases h3 : runMost p s with
          | some t =>
            obtain ⟨a, ha⟩ := some_of h3
            exact .inr (.inl ⟨_, _, a, t, ha, rfl⟩)
          | none => exact .inr (.inr rfl)

/-- The earliest of some times is one of them, and no later than any (rules R158, R173). -/
theorem earliest_le {now a : Word} {l : List Word} (h : a ∈ l) :
    ∃ b ∈ l, earliest now l = some b ∧ sdiff32 b now ≤ sdiff32 a now := by
  induction l generalizing a with
  | nil => cases h
  | cons x l ih =>
    simp only [earliest]
    cases l with
    | nil => exact ⟨x, by simp, rfl, by simp_all⟩
    | cons y l =>
      obtain ⟨b, hb, he, hle⟩ := ih (a := if a ∈ y :: l then a else y) (by split <;> simp_all)
      rw [he]
      dsimp only
      split
      · next hx =>
        refine ⟨x, by simp, rfl, ?_⟩
        rcases List.mem_cons.1 h with rfl | h
        · exact le_refl _
        · rw [if_pos h] at hle
          omega
      · next hx =>
        refine ⟨b, List.mem_cons_of_mem _ hb, rfl, ?_⟩
        rcases List.mem_cons.1 h with rfl | h
        · omega
        · rw [if_pos h] at hle
          exact hle

/-- A pass that answers a next state ended in the state that its last handler left. -/
theorem pass_eq_next {p : Domain} {s t : State} (h : pass p s = .next t) :
    ∃ u, fireAll p (dueKinds (s.sched p)).length
        ((passStart p s).setSched p ((passStart p s).sched p).snapshot) = .next u ∧ t = passEnd p u := by
  obtain ⟨u, hu, ht⟩ := andThen_eq_next h
  cases ht
  exact ⟨u, by simpa [Sched.snapshot] using hu, rfl⟩

/-- A step that answers a next state met the parameters and the map, and the operation answered that state. -/
theorem admitted_eq_next {s t : State} {r : Result} (h : admitted s r = .next t) :
    Config.valid s.cfg = true ∧ sideEffectWindow s = false ∧ r = .next t := by
  unfold admitted at h
  split at h
  · cases h
  · next hv =>
    split at h
    · cases h
    · next hs => exact ⟨by simpa using hv, by simpa using hs, h⟩

theorem admitted_eq {s : State} {r : Result} (hv : Config.valid s.cfg = true)
    (hs : sideEffectWindow s = false) : admitted s r = r := by
  simp [admitted, hv, hs]

/-- A step that answers a next state performed the head of the agenda, or idled. -/
theorem step_eq_next {s t : State} (h : step s = .next t) :
    Config.valid s.cfg = true ∧ sideEffectWindow s = false ∧
      ((s.agenda = [] ∧ idle { s with opCount := s.opCount + 1 } = .next t) ∨
        ∃ op rest, s.agenda = op :: rest ∧
          perform op { s with opCount := s.opCount + 1 }
            { s with
              opCount := s.opCount + 1
              agenda := rest } = .next t) := by
  unfold step runStep at h
  split at h
  · next ha =>
    obtain ⟨hv, hs, hr⟩ := admitted_eq_next h
    exact ⟨hv, hs, .inl ⟨ha, hr⟩⟩
  · next op rest ha =>
    obtain ⟨hv, hs, hr⟩ := admitted_eq_next h
    exact ⟨hv, hs, .inr ⟨op, rest, ha, hr⟩⟩

end Sys2Proof.Machine
end

