-- ==== Sys2Proof/Laws/PerInstr.lean ====
section
/-! SUPPORT. A law of every instruction, made per instruction: the shape of its encoded input. -/

namespace Sys2Proof.Laws.EncodedShape

/-- A shape the decoders accept: a tag of one unit, 16 bytes (rule R90), an access 32 bits wide at a register of
`MMIO_MAP` or at a multiple of 4 (rules R64, R220), or an event. -/
def Shaped (cfg : Config) : Encoded → Prop
  | .tag _ bytes => bytes.length = cfg.unit
  | .access _ _ width a _ => width = 32 ∧ ((∃ r, a = cfg.addr r) ∨ a.toNat % 4 = 0)
  | .event _ _ _ => True

/-- A well-formed instruction is encoded by an input of a shape the decoders accept. -/
def Statement (i : Instr) : Prop := ∀ cfg, WellFormed cfg i = true → Shaped cfg (encode cfg i)

theorem tag (cfg : Config) (op : TagOp) (c : Chan) (q : BitVec 16) (irq : Bool) (a : Word) :
    Shaped cfg (encodeTag cfg op c q irq a) := by
  simp [Shaped, encodeTag, qwordBytes]

theorem write (cfg : Config) (r : RegName) (v : Word) : Shaped cfg (encodeWrite cfg r v) :=
  ⟨rfl, .inl ⟨r, rfl⟩⟩

theorem read (cfg : Config) (r : RegName) : Shaped cfg (encodeRead cfg r) :=
  ⟨rfl, .inl ⟨r, rfl⟩⟩

theorem unmapped {cfg : Config} {p : Domain} {d : Dir} {a v : Word}
    (h : WellFormed.access cfg p d a = true) : Shaped cfg (.access p d 32 a v) := by
  simp only [WellFormed.access, Bool.and_eq_true, beq_iff_eq] at h
  exact ⟨rfl, .inr h.1⟩

theorem refeFull (c : Chan) (q : BitVec 16) (irq : Bool) (a : Word) : Statement (.refeFull c q irq a) := fun cfg _ => tag cfg _ _ _ _ _
theorem cntFull (c : Chan) (q : BitVec 16) (irq : Bool) (a : Word) : Statement (.cntFull c q irq a) := fun cfg _ => tag cfg _ _ _ _ _
theorem nextFull (c : Chan) (q : BitVec 16) (irq : Bool) (a : Word) : Statement (.nextFull c q irq a) := fun cfg _ => tag cfg _ _ _ _ _
theorem refFull (c : Chan) (q : BitVec 16) (irq : Bool) (a : Word) : Statement (.refFull c q irq a) := fun cfg _ => tag cfg _ _ _ _ _
theorem refsFull (c : Chan) (q : BitVec 16) (irq : Bool) (a : Word) : Statement (.refsFull c q irq a) := fun cfg _ => tag cfg _ _ _ _ _
theorem callFull (c : Chan) (q : BitVec 16) (irq : Bool) (a : Word) : Statement (.callFull c q irq a) := fun cfg _ => tag cfg _ _ _ _ _
theorem retFull (c : Chan) (q : BitVec 16) (irq : Bool) (a : Word) : Statement (.retFull c q irq a) := fun cfg _ => tag cfg _ _ _ _ _
theorem endFull (c : Chan) (q : BitVec 16) (irq : Bool) (a : Word) : Statement (.endFull c q irq a) := fun cfg _ => tag cfg _ _ _ _ _
theorem refeSimple (c : Chan) (q : BitVec 16) (irq : Bool) (a : Word) : Statement (.refeSimple c q irq a) := fun cfg _ => tag cfg _ _ _ _ _
theorem cntSimple (c : Chan) (q : BitVec 16) (irq : Bool) (a : Word) : Statement (.cntSimple c q irq a) := fun cfg _ => tag cfg _ _ _ _ _
theorem nextSimple (c : Chan) (q : BitVec 16) (irq : Bool) (a : Word) : Statement (.nextSimple c q irq a) := fun cfg _ => tag cfg _ _ _ _ _
theorem refSimple (c : Chan) (q : BitVec 16) (irq : Bool) (a : Word) : Statement (.refSimple c q irq a) := fun cfg _ => tag cfg _ _ _ _ _
theorem refsSimple (c : Chan) (q : BitVec 16) (irq : Bool) (a : Word) : Statement (.refsSimple c q irq a) := fun cfg _ => tag cfg _ _ _ _ _
theorem callSimple (c : Chan) (q : BitVec 16) (irq : Bool) (a : Word) : Statement (.callSimple c q irq a) := fun cfg _ => tag cfg _ _ _ _ _
theorem retSimple (c : Chan) (q : BitVec 16) (irq : Bool) (a : Word) : Statement (.retSimple c q irq a) := fun cfg _ => tag cfg _ _ _ _ _
theorem endSimple (c : Chan) (q : BitVec 16) (irq : Bool) (a : Word) : Statement (.endSimple c q irq a) := fun cfg _ => tag cfg _ _ _ _ _
theorem wChcr (c : Chan) (v : Word) : Statement (.wChcr c v) := fun cfg _ => write cfg _ _
theorem rChcr (c : Chan) : Statement (.rChcr c) := fun cfg _ => read cfg _
theorem wMadr (c : Chan) (v : Word) : Statement (.wMadr c v) := fun cfg _ => write cfg _ _
theorem rMadr (c : Chan) : Statement (.rMadr c) := fun cfg _ => read cfg _
theorem wQwc (c : Chan) (v : Word) : Statement (.wQwc c v) := fun cfg _ => write cfg _ _
theorem rQwc (c : Chan) : Statement (.rQwc c) := fun cfg _ => read cfg _
theorem wTadr (c : Chan) (v : Word) : Statement (.wTadr c v) := fun cfg _ => write cfg _ _
theorem rTadr (c : Chan) : Statement (.rTadr c) := fun cfg _ => read cfg _
theorem wAsr0 (c : Chan) (v : Word) : Statement (.wAsr0 c v) := fun cfg _ => write cfg _ _
theorem rAsr0 (c : Chan) : Statement (.rAsr0 c) := fun cfg _ => read cfg _
theorem wAsr1 (c : Chan) (v : Word) : Statement (.wAsr1 c v) := fun cfg _ => write cfg _ _
theorem rAsr1 (c : Chan) : Statement (.rAsr1 c) := fun cfg _ => read cfg _
theorem wCtrl (v : Word) : Statement (.wCtrl v) := fun cfg _ => write cfg _ _
theorem rCtrl : Statement (.rCtrl) := fun cfg _ => read cfg _
theorem wStat (v : Word) : Statement (.wStat v) := fun cfg _ => write cfg _ _
theorem rStat : Statement (.rStat) := fun cfg _ => read cfg _
theorem wStadrS (v : Word) : Statement (.wStadrS v) := fun cfg _ => write cfg _ _
theorem rStadrS : Statement (.rStadrS) := fun cfg _ => read cfg _
theorem wStadrD (v : Word) : Statement (.wStadrD v) := fun cfg _ => write cfg _ _
theorem rStadrD : Statement (.rStadrD) := fun cfg _ => read cfg _
theorem rFstatGpath : Statement (.rFstatGpath) := fun cfg _ => read cfg _
theorem wFstatGpath (v : Word) : Statement (.wFstatGpath v) := fun cfg _ => write cfg _ _
theorem rFstatBridge : Statement (.rFstatBridge) := fun cfg _ => read cfg _
theorem wFstatBridge (v : Word) : Statement (.wFstatBridge v) := fun cfg _ => write cfg _ _
theorem rEnabler : Statement (.rEnabler) := fun cfg _ => read cfg _
theorem wEnablew (v : Word) : Statement (.wEnablew v) := fun cfg _ => write cfg _ _
theorem wIoIstat (v : Word) : Statement (.wIoIstat v) := fun cfg _ => write cfg _ _
theorem rIoIstat : Statement (.rIoIstat) := fun cfg _ => read cfg _
theorem wIoImask (v : Word) : Statement (.wIoImask v) := fun cfg _ => write cfg _ _
theorem rIoImask : Statement (.rIoImask) := fun cfg _ => read cfg _
theorem wUnmapped (p : Domain) (a : Word) (v : Word) : Statement (.wUnmapped p a v) := fun _ h => unmapped h
theorem rUnmapped (p : Domain) (a : Word) : Statement (.rUnmapped p a) := fun _ h => unmapped h
theorem eventDmaContMain (c : Chan) (w : Word) : Statement (.eventDmaContMain c w) := fun _ _ => trivial
theorem eventDmaContIo (k : Fin 10) (w : Word) : Statement (.eventDmaContIo k w) := fun _ _ => trivial
theorem eventIntTest (p : Domain) (w : Word) : Statement (.eventIntTest p w) := fun _ _ => trivial
theorem eventBridgeStepIo (w : Word) : Statement (.eventBridgeStepIo w) := fun _ _ => trivial
theorem eventBridgeStepMain (w : Word) : Statement (.eventBridgeStepMain w) := fun _ _ => trivial
theorem eventTimer (p : Domain) (j : Fin 4) (w : Word) : Statement (.eventTimer p j w) := fun _ _ => trivial

end Sys2Proof.Laws.EncodedShape
end

