-- ==== Sys2Proof/Tests/Slice0.lean ====
section
/-! SUPPORT. Tests: the well-formedness checks, one written-out input for every constructor, small tests of
one operation each with results from the spec's vectors, and one state for each statement that has
hypotheses. -/

namespace Sys2Proof.Machine

set_option Elab.async false

/-! ## Helpers -/

/-- The test configuration of the spec's vectors: step delta `m + 2`, re-test delay 8. -/
def t0 : Config := { Config.default with
  retestDelta := some 8
  intLatencyMax := some 32
  stepDeltas := (List.finRange 10).flatMap fun c => (List.range 5).map fun m =>
    { chan := c, moved := m, cycles := m + 2 } }

/-- Answers that mask nothing, accept everything and supply four units. -/
def ans : Answers where
  masked := 0#10
  acceptGpath := [true, true]
  acceptBridge := [true]
  sink := 0x10000
  source := [0x501#128, 0x502#128, 0x503#128, 0x504#128]
  handler := []
  turn := .main

/-- After reset under `t0`, enabled, with the memory map of the vectors. -/
def base : State := { State.reset with
  cfg := t0
  map := some [{ base := 0, size := 0x02000000, readable := true, writable := true, sideEffects := false }]
  script := [ans]
  dmae := true }

/-- The operation answers a next state with the property. -/
def chk (r : Result) (p : State → Bool) : Bool :=
  match r with
  | .next t => p t
  | _ => false

/-- The operation answers a next state. -/
def goes (r : Result) : Bool := chk r fun _ => true

theorem next_of_goes {r : Result} (h : goes r = true) : ∃ t, r = .next t := by
  cases r with
  | next t => exact ⟨t, rfl⟩
  | fault e => cases h
  | refused e => cases h

theorem some_of_isSome {α : Type} {o : Option (Nat × α)} (h : o.isSome = true) :
    ∃ m t, o = some (m, t) := by
  cases o with
  | none => cases h
  | some x => exact ⟨x.1, x.2, rfl⟩

/-- The state with channel `c` as given. -/
def withCh (c : Chan) (x : Channel) : State := base.setCh c x

/-- A Running channel in the given mode. -/
def run (dir : Bool) (m : BitVec 2) (madr : Word) (qwc : Nat) : Channel :=
  { Channel.reset with str := true, dir := dir, mod := m, madr := madr, qwc := qwc }

/-- A Running chain channel that waits for the tag at `tadr`. -/
def chain (tadr : Word) (asp : BitVec 2) (a0 a1 : Word) : Channel :=
  { Channel.reset with str := true, dir := true, mod := 1#2, tadr := tadr, asp := asp, asr0 := a0, asr1 := a1 }

/-- `base` with an operation to perform. -/
def offer (o : Op) (s : State) : State := { s with agenda := [o] }

/-- The input decodes to the instruction under the default configuration. -/
def reads (x : Encoded × Instr) : Bool :=
  match decode Config.default x.1 with
  | .ok i => decide (i = x.2) && WellFormed Config.default i
  | .error _ => false

/-! ## Well-formedness: each check refuses a term that breaks it -/

/-- A table in which the value 6 names no opcode. -/
def noRet : Config := { t0 with
  tagCode := #v[some .refe, some .cnt, some .next, some .ref, some .refs, some .call, none, some .end_] }

theorem test_wf_tag_on_its_walker : WellFormed t0 (.callFull 1 1#16 false 0x3000#32) = true := by decide +kernel
theorem test_wf_tag_refuses_other_walker :
    WellFormed t0 (.callFull 3 1#16 false 0x3000#32) = false ∧
      WellFormed t0 (.callSimple 1 1#16 false 0x3000#32) = false := by decide +kernel
theorem test_wf_tag_refuses_opcode_without_code :
    WellFormed t0 (.retFull 0 0#16 false 0#32) = true ∧
      WellFormed noRet (.retFull 0 0#16 false 0#32) = false := by decide +kernel
theorem test_wf_tag_refuses_low_address_bits :
    WellFormed t0 (.refSimple 3 1#16 false 0x3008#32) = false := by decide +kernel
theorem test_wf_access_refuses_misaligned :
    WellFormed t0 (.wUnmapped .main 0x10008002#32 0#32) = false := by decide +kernel
theorem test_wf_access_refuses_mapped :
    WellFormed t0 (.rUnmapped .main 0x1000E010#32) = false ∧
      WellFormed t0 (.rUnmapped .io 0x1000E010#32) = true ∧
      WellFormed t0 (.wUnmapped .main 0x1000F520#32 0#32) = true ∧
      WellFormed t0 (.rUnmapped .main 0x1000F520#32) = false := by decide +kernel

/-! ## The configuration: layouts and numbers that may change, and those that may not -/

/-- Another layout, in which no field stands where the spec puts it. -/
def moved : Layout where
  chcrSTR := 7
  chcrDIR := 31
  chcrMOD := 29
  chcrSTM := 0
  chcrCHOP := 11
  chcrTIE := 3
  chcrASP := 20
  ctrlDMAE := 9
  enableCPND := 2
  statCIS := 3
  statSIS := 0
  statBEIS := 31
  statCIM := 18
  statSIM := 15
  ioCH := 22
  fstatCOUNT := 5
  fstatEMPTY := 0
  fstatFULL := 31
  tagQWC := 100
  tagID := 1
  tagIRQ := 0
  tagADDR := 60

theorem test_valid_layouts :
    let x := Literals.written
    moved.valid x = true ∧ { moved with chcrDIR := 7 }.valid x = false ∧ { moved with statSIM := 16 }.valid x = false ∧
      { moved with fstatFULL := 12 }.valid x = false ∧ { moved with tagQWC := 113 }.valid x = false ∧
      { moved with ioCH := 23 }.valid x = false := by decide +kernel
theorem test_valid_numbers :
    let ok (x : Literals) : Bool := Config.valid { t0 with literals := x }
    ok { Literals.written with nch := 9 } = true ∧ ok { Literals.written with nch := 11 } = false ∧
      ok { Literals.written with unitBits := 64 } = true ∧ ok { Literals.written with unitBits := 32 } = false ∧
      ok { Literals.written with tagOpcodeBits := 2 } = false ∧ ok { Literals.written with aspMax := 3 } = false ∧
      ok { Literals.written with qwcZeroEffective := 2 } = true ∧
      Config.valid { t0 with cycleBits := 64 } = false := by decide +kernel
/-- Other numbers: nine channels, a unit of eight bytes, and an opcode field of two bits, which names four
opcodes. -/
def small : Config := { t0 with
  literals := { Literals.written with nch := 9, unitBits := 64, tagOpcodeBits := 2 }
  tagCode := #v[some .refe, some .cnt, some .next, some .ref, none, none, none, none] }

theorem test_small_decodes :
    Config.valid small = true ∧
      decode small (.access .main .write 32 0x1000D000#32 1#32) = .ok (.wChcr 8 1#32) ∧
      decode small (.access .main .write 32 0x1000D400#32 1#32) = .ok (.wUnmapped .main 0x1000D400#32 1#32) ∧
      decode small (.tag 0 [0x02#8, 0x00#8, 0x00#8, 0xF0#8, 0x0F#8, 0x20#8, 0x00#8, 0x00#8]) =
        .ok (.refFull 0 2#16 true 0x2008#32) ∧
      WellFormed small (.rMadr 9) = false := by decide +kernel
/-- A channel of that block fetches a tag of eight bytes and moves units of eight bytes. -/
theorem test_small_step :
    let s := { withCh 1 (chain 0x1000#32 0#2 0#32 0#32) with
      cfg := small
      mem := writeUnit 8 (writeUnit 8 [] 0x1000#32 0x10000002#128) 0x1008#32 0x1122334455667788#128
      script := [{ ans with sink := 1 }] }
    chk (exec (.eventDmaContMain 1 1#32) s) (fun t =>
      decide ((t.ch 1).madr = 0x1010#32 ∧ (t.ch 1).tadr = 0x1010#32 ∧ (t.ch 1).qwc = 1) &&
        decide (t.out = [.unit 1 [0x1122334455667788#128]])) = true ∧
      chk (exec (.wIoImask 0xFFFFFFFF#32) s) (fun t => decide (t.ioImask = 0x1FF#32)) = true := by decide +kernel
/-- A layout moves the fields that a tag, a register write and a register read use. -/
theorem test_moved_layout :
    let cfg := { t0 with layout := moved }
    let s := { base with cfg := cfg, dmae := false }
    (match decode cfg (.tag 0 (qwordBytes 16 (tagBits moved 3#3 5#16 true 0x2000#32))) with
      | .ok i => decide (i = .refFull 0 5#16 true 0x2000#32)
      | .error _ => false) = true ∧
      chk (exec (.wChcr 0 0x80000001#32) s) (fun t => (t.ch 0).dir && !(t.ch 0).str &&
        chk (exec (.rChcr 0) t) fun u => decide (u.readMain = 0x80000001#32)) = true ∧
      chk (exec (.wStat 0x00008000#32) { s with stat := 1#32 }) (fun t => t.excMain) = true := by decide +kernel

/-! ## Decoding: one written-out input for every constructor -/

/-- A tag written as its first eight bytes, the other eight zero. -/
def tag8 (c : Chan) (l : List Byte) : Encoded := .tag c (l ++ List.replicate 8 0#8)

/-- Vectors V-E1 to V-E8 and V-E10 on channel 2. -/
def fullTags : List (Encoded × Instr) :=
  [(tag8 2 [0x02#8, 0x00#8, 0x00#8, 0x00#8, 0x00#8, 0x20#8, 0x00#8, 0x00#8], .refeFull 2 2#16 false 0x2000#32),
   (tag8 2 [0x01#8, 0x00#8, 0x00#8, 0x10#8, 0x00#8, 0x00#8, 0x00#8, 0x00#8], .cntFull 2 1#16 false 0#32),
   (tag8 2 [0x01#8, 0x00#8, 0x00#8, 0x20#8, 0x00#8, 0x30#8, 0x00#8, 0x00#8], .nextFull 2 1#16 false 0x3000#32),
   (tag8 2 [0x02#8, 0x00#8, 0x00#8, 0x30#8, 0x00#8, 0x20#8, 0x00#8, 0x00#8], .refFull 2 2#16 false 0x2000#32),
   (tag8 2 [0x04#8, 0x00#8, 0x00#8, 0x40#8, 0x00#8, 0x40#8, 0x00#8, 0x00#8], .refsFull 2 4#16 false 0x4000#32),
   (tag8 2 [0x01#8, 0x00#8, 0x00#8, 0x50#8, 0x00#8, 0x30#8, 0x00#8, 0x00#8], .callFull 2 1#16 false 0x3000#32),
   (tag8 2 [0x00#8, 0x00#8, 0x00#8, 0x60#8, 0x00#8, 0x00#8, 0x00#8, 0x00#8], .retFull 2 0#16 false 0#32),
   (tag8 2 [0xFF#8, 0xFF#8, 0x00#8, 0x70#8, 0x00#8, 0x00#8, 0x00#8, 0x00#8], .endFull 2 0xFFFF#16 false 0#32)]

theorem test_decode_full_tags : fullTags.all reads = true := by decide +kernel

/-- Vectors V-E1 to V-E8 and V-E10 on channel 3. -/
def simpleTags : List (Encoded × Instr) :=
  [(tag8 3 [0x02#8, 0x00#8, 0x00#8, 0x00#8, 0x00#8, 0x20#8, 0x00#8, 0x00#8], .refeSimple 3 2#16 false 0x2000#32),
   (tag8 3 [0x01#8, 0x00#8, 0x00#8, 0x10#8, 0x00#8, 0x00#8, 0x00#8, 0x00#8], .cntSimple 3 1#16 false 0#32),
   (tag8 3 [0x01#8, 0x00#8, 0x00#8, 0x20#8, 0x00#8, 0x30#8, 0x00#8, 0x00#8], .nextSimple 3 1#16 false 0x3000#32),
   (tag8 3 [0x02#8, 0x00#8, 0x00#8, 0x30#8, 0x00#8, 0x20#8, 0x00#8, 0x00#8], .refSimple 3 2#16 false 0x2000#32),
   (tag8 3 [0x04#8, 0x00#8, 0x00#8, 0x40#8, 0x00#8, 0x40#8, 0x00#8, 0x00#8], .refsSimple 3 4#16 false 0x4000#32),
   (tag8 3 [0x01#8, 0x00#8, 0x00#8, 0x50#8, 0x00#8, 0x30#8, 0x00#8, 0x00#8], .callSimple 3 1#16 false 0x3000#32),
   (tag8 3 [0x00#8, 0x00#8, 0x00#8, 0x60#8, 0x00#8, 0x00#8, 0x00#8, 0x00#8], .retSimple 3 0#16 false 0#32),
   (tag8 3 [0xFF#8, 0xFF#8, 0x00#8, 0x70#8, 0x00#8, 0x00#8, 0x00#8, 0x00#8], .endSimple 3 0xFFFF#16 false 0#32)]

theorem test_decode_simple_tags : simpleTags.all reads = true := by decide +kernel

/-- Vectors V-E9 (interrupt bit), V-E11 and V-E12 (ignored bits set). -/
theorem test_decode_irq_and_ignored_bits :
    [(tag8 0 [0x01#8, 0x00#8, 0x00#8, 0x90#8, 0x00#8, 0x00#8, 0x00#8, 0x00#8], Instr.cntFull 0 1#16 true 0#32),
     (.tag 0 ([0x02#8, 0x00#8, 0xBC#8, 0x3A#8, 0x0F#8, 0x20#8, 0x00#8, 0x00#8] ++
       [0x0D#8, 0xF0#8, 0xFE#8, 0xCA#8, 0xEF#8, 0xBE#8, 0xAD#8, 0xDE#8]), .refFull 0 2#16 false 0x2000#32),
     (.tag 0 ([0x02#8, 0x00#8, 0xBC#8, 0xBA#8, 0x0F#8, 0x20#8, 0x00#8, 0x00#8] ++
       [0x0D#8, 0xF0#8, 0xFE#8, 0xCA#8, 0xEF#8, 0xBE#8, 0xAD#8, 0xDE#8]), .refFull 0 2#16 true 0x2000#32)].all
      reads = true := by decide +kernel
/-- The decoder refuses, for this reason. -/
def rejects (r : Except Reject Instr) (e : Reject) : Bool :=
  match r with
  | .ok _ => false
  | .error x => decide (x = e)

theorem test_decode_rejects_by_name :
    rejects (decode noRet (.tag 0 (qwordBytes 16 0x60000000#128))) (.undefinedOpcode 6#3) = true ∧
      decode t0 (.tag 0 []) = .error .tagLength ∧
      decode t0 (.access .main .write 16 0x10008000#32 0#32) = .error .accessWidth ∧
      decode t0 (.access .main .read 32 0x10008002#32 0#32) = .error .accessMisaligned := ⟨by decide +kernel, rfl, rfl, rfl⟩

/-- MAIN and IO accesses at the addresses of the default map. -/
def mr (a : Word) : Encoded := .access .main .read 32 a 0#32
def mw (a v : Word) : Encoded := .access .main .write 32 a v
def ir (a : Word) : Encoded := .access .io .read 32 a 0#32
def iw (a v : Word) : Encoded := .access .io .write 32 a v

/-- The channel registers, each on another channel. -/
def channelAccesses : List (Encoded × Instr) :=
  [(mw 0x10008000#32 7#32, .wChcr 0 7#32), (mr 0x10009000#32, .rChcr 1),
   (mw 0x1000A010#32 7#32, .wMadr 2 7#32), (mr 0x1000B010#32, .rMadr 3),
   (mw 0x1000B420#32 7#32, .wQwc 4 7#32), (mr 0x1000C020#32, .rQwc 5),
   (mw 0x1000C430#32 7#32, .wTadr 6 7#32), (mr 0x1000C830#32, .rTadr 7),
   (mw 0x1000D040#32 7#32, .wAsr0 8 7#32), (mr 0x1000D440#32, .rAsr0 9),
   (mw 0x10008050#32 7#32, .wAsr1 0 7#32), (mr 0x10009050#32, .rAsr1 1)]

theorem test_decode_channel_accesses : channelAccesses.all reads = true := by decide +kernel

/-- The global registers of both processors and unmapped addresses. -/
def globalAccesses : List (Encoded × Instr) :=
  [(mw 0x1000E000#32 1#32, .wCtrl 1#32), (mr 0x1000E000#32, .rCtrl),
   (mw 0x1000E010#32 1#32, .wStat 1#32), (mr 0x1000E010#32, .rStat),
   (mw 0x1000E060#32 1#32, .wStadrS 1#32), (mr 0x1000E060#32, .rStadrS),
   (mw 0x1000E070#32 1#32, .wStadrD 1#32), (mr 0x1000E070#32, .rStadrD),
   (mw 0x1000E080#32 1#32, .wFstatGpath 1#32), (mr 0x1000E080#32, .rFstatGpath),
   (mw 0x1000E090#32 1#32, .wFstatBridge 1#32), (mr 0x1000E090#32, .rFstatBridge),
   (mr 0x1000F520#32, .rEnabler), (mw 0x1000F590#32 1#32, .wEnablew 1#32),
   (iw 0x1F801070#32 1#32, .wIoIstat 1#32), (ir 0x1F801070#32, .rIoIstat),
   (iw 0x1F801074#32 1#32, .wIoImask 1#32), (ir 0x1F801074#32, .rIoImask)] ++
  [(mr 0x10008004#32, .rUnmapped .main 0x10008004#32), (mr 0x1F801070#32, .rUnmapped .main 0x1F801070#32),
   (ir 0x1000E010#32, .rUnmapped .io 0x1000E010#32), (iw 0x10008000#32 1#32, .wUnmapped .io 0x10008000#32 1#32),
   (mw 0x1000F520#32 1#32, .wUnmapped .main 0x1000F520#32 1#32), (mr 0x1000F590#32, .rUnmapped .main 0x1000F590#32)]

theorem test_decode_global_accesses : globalAccesses.all reads = true := by decide +kernel

/-- Event kinds of both schedulers. -/
def eventWords : List (Encoded × Instr) :=
  [(.event .main 0b1001#4 9#32, .eventDmaContMain 9 9#32), (.event .io 0b0011#4 1#32, .eventDmaContIo 3 1#32),
   (.event .main 0b1010#4 0#32, .eventIntTest .main 0#32), (.event .io 0b1010#4 0#32, .eventIntTest .io 0#32),
   (.event .io 0b1011#4 5#32, .eventBridgeStepIo 5#32), (.event .main 0b1011#4 5#32, .eventBridgeStepMain 5#32),
   (.event .main 0b1100#4 0#32, .eventTimer .main 0 0#32), (.event .io 0b1111#4 2#32, .eventTimer .io 3 2#32)]

theorem test_decode_events : eventWords.all reads = true := by decide +kernel

theorem test_table_words :
    decodeTableWord 128 0x50000001 = some (.callFull 0 1#16 false 0#32) ∧
      decodeTableWord 32 0x1000E010 = some (.wStat 0#32) ∧
      decodeTableWord 8 12 = some (.eventTimer .main 0 0#32) := ⟨rfl, rfl, rfl⟩

/-! ## The walker: vectors V-W1 to V-W21 -/

/-- After the tag: where the block and the next tag are, the stack, and whether the chain ends. -/
def walks (c : Chan) (x : Channel) (i : Instr) (madr tadr : Word) (asp : BitVec 2) (a0 a1 : Word) (stop : Bool) :
    Bool :=
  chk (exec i (withCh c x)) fun t =>
    let y := t.ch c
    decide (y.madr = madr) && decide (y.tadr = tadr) && decide (y.asp = asp) && decide (y.asr0 = a0) &&
      decide (y.asr1 = a1) && y.done == stop && y.str

theorem test_w1_refe_full :
    walks 0 (chain 0x1000#32 0#2 0#32 0#32) (.refeFull 0 2#16 false 0x2000#32) 0x2000#32 0x1010#32 0#2 0#32 0#32 true = true := by decide +kernel
theorem test_w2_cnt_full :
    walks 0 (chain 0x1000#32 0#2 0#32 0#32) (.cntFull 0 1#16 false 0#32) 0x1010#32 0x1010#32 0#2 0#32 0#32 false = true := by decide +kernel
theorem test_w4_next_full :
    walks 0 (chain 0x1000#32 0#2 0#32 0#32) (.nextFull 0 1#16 false 0x3000#32) 0x1010#32 0x3000#32 0#2 0#32 0#32 false = true := by decide +kernel
theorem test_w6_ref_full :
    walks 0 (chain 0x1000#32 0#2 0#32 0#32) (.refFull 0 2#16 false 0x2000#32) 0x2000#32 0x1010#32 0#2 0#32 0#32 false = true := by decide +kernel
theorem test_w7_refs_full :
    walks 0 (chain 0x1000#32 0#2 0#32 0#32) (.refsFull 0 4#16 false 0x4000#32) 0x4000#32 0x1010#32 0#2 0#32 0#32 false = true := by decide +kernel
theorem test_w9_call_full_second :
    walks 0 (chain 0x3100#32 1#2 0x2020#32 0#32) (.callFull 0 0#16 false 0x3200#32) 0x3110#32 0x3200#32 2#2 0x2020#32 0x3110#32 false = true := by decide +kernel
theorem test_w10_call_full_overflow :
    walks 0 (chain 0x3200#32 2#2 0x2020#32 0x3110#32) (.callFull 0 3#16 false 0x3300#32) 0x3210#32 0x3200#32 2#2 0x2020#32 0x3110#32 true = true := by decide +kernel
theorem test_w12_ret_full :
    walks 0 (chain 0x3300#32 2#2 0x2020#32 0x3110#32) (.retFull 0 0#16 false 0#32) 0x3310#32 0x3110#32 1#2 0x2020#32 0x3110#32 false = true := by decide +kernel
theorem test_w13_ret_full_empty :
    walks 0 (chain 0x3000#32 0#2 0#32 0#32) (.retFull 0 2#16 false 0#32) 0x3010#32 0x3000#32 0#2 0#32 0#32 true = true := by decide +kernel
theorem test_w14_end_full :
    walks 0 (chain 0x1040#32 1#2 0x2020#32 0#32) (.endFull 0 0#16 false 0#32) 0x1050#32 0x1040#32 1#2 0x2020#32 0#32 true = true := by decide +kernel
theorem test_w15_cnt_wraps :
    walks 3 (chain 0xFFFFFFF0#32 0#2 0#32 0#32) (.cntSimple 3 1#16 false 0#32) 0#32 0#32 0#2 0#32 0#32 false = true := by decide +kernel
theorem test_w16_call_full_wide :
    walks 0 (chain 0x2000#32 0#2 0#32 0#32) (.callFull 0 0xFFFF#16 false 0x3000#32) 0x2010#32 0x3000#32 1#2 0x00102000#32 0#32 false = true := by decide +kernel
theorem test_w17_call_simple :
    walks 3 (chain 0x2000#32 0#2 0#32 0#32) (.callSimple 3 1#16 false 0x3000#32) 0x2010#32 0x2000#32 0#2 0#32 0#32 true = true := by decide +kernel
theorem test_w18_ret_simple :
    walks 3 (chain 0x3000#32 1#2 0x2020#32 0#32) (.retSimple 3 0#16 false 0#32) 0x3010#32 0x3000#32 1#2 0x2020#32 0#32 true = true := by decide +kernel
theorem test_w19_ref_simple :
    walks 3 (chain 0x1000#32 0#2 0#32 0#32) (.refSimple 3 2#16 false 0x2000#32) 0x2000#32 0x1010#32 0#2 0#32 0#32 false = true := by decide +kernel
theorem test_refe_simple :
    walks 3 (chain 0x1000#32 0#2 0#32 0#32) (.refeSimple 3 2#16 false 0x2000#32) 0x2000#32 0x1010#32 0#2 0#32 0#32 true = true := by decide +kernel
theorem test_next_simple :
    walks 3 (chain 0x1000#32 0#2 0#32 0#32) (.nextSimple 3 1#16 false 0x3000#32) 0x1010#32 0x3000#32 0#2 0#32 0#32 false = true := by decide +kernel
theorem test_refs_simple :
    walks 3 (chain 0x1000#32 0#2 0#32 0#32) (.refsSimple 3 4#16 false 0x4000#32) 0x4000#32 0x1010#32 0#2 0#32 0#32 false = true := by decide +kernel
theorem test_end_simple :
    walks 3 (chain 0x1040#32 0#2 0#32 0#32) (.endSimple 3 0#16 false 0#32) 0x1050#32 0x1040#32 0#2 0#32 0#32 true = true := by decide +kernel

/-- Vectors V-C11 and V-C12: the tag interrupt ends the chain only with `TIE`. -/
theorem test_tag_interrupt :
    walks 0 { chain 0x1000#32 0#2 0#32 0#32 with tie := true } (.cntFull 0 1#16 true 0#32)
        0x1010#32 0x1010#32 0#2 0#32 0#32 true = true ∧
      walks 0 (chain 0x1000#32 0#2 0#32 0#32) (.cntFull 0 1#16 true 0#32)
        0x1010#32 0x1010#32 0#2 0#32 0#32 false = true := by decide +kernel

/-- Channel `c` after a tag with `ID` 6 under `noRet`. -/
def undefinedAt (c : Chan) : Channel :=
  (undefinedTag c { id := 6#3, q := 0#16, irq := false, a := 0#32 }
    { withCh c (chain 0x1000#32 0#2 0#32 0#32) with cfg := noRet }).ch c

/-- Vectors V-W20 and V-W21: a value that names no opcode, on both walkers. -/
theorem test_w20_w21_undefined_opcode :
    (undefinedAt 0).tadr = 0x1010#32 ∧ (undefinedAt 0).done = true ∧
      (undefinedAt 3).tadr = 0x1000#32 ∧ (undefinedAt 3).madr = 0x1010#32 := by decide +kernel

/-! ## The channels: vectors V-C1 to V-C20 -/

theorem test_c1_wchcr_start :
    chk (exec (.wChcr 3 3#32) (withCh 3 { Channel.reset with madr := 0x8000#32, qwc := 4 })) (fun t =>
      let y := t.ch 3
      y.str && decide (y.madr = 0x8040#32) && decide (y.qwc = 0) && decide (Channel.chcr t0.layout y = 3#32) &&
        t.schedMain.slots[3].armed && decide (t.schedMain.slots[3].delta = 6#32)) = true := by decide +kernel
theorem test_c5_wchcr_mode3_is_chain :
    chk (exec (.wChcr 0 0xF#32)
      { withCh 0 { Channel.reset with tadr := 0x1040#32 } with mem := writeUnit 16 [] 0x1040#32 0x70000000#128 }) (fun t =>
      let y := t.ch 0
      decide (y.madr = 0x1050#32) && decide (y.tadr = 0x1040#32) && y.done && decide (y.qwc = 0) &&
        decide (Channel.chcr t0.layout y = 0xF#32)) = true := by decide +kernel
theorem test_c9_continuation_disabled :
    chk (exec (.eventDmaContMain 2 2#32) { withCh 2 (run true 0#2 0x8000#32 4) with dmae := false }) (fun t =>
      (t.ch 2).queued && (t.ch 2).str && decide (t.schedMain = base.schedMain)) = true := by decide +kernel
theorem test_c19_continuation_bus_error :
    chk (exec (.eventDmaContMain 3 3#32) (withCh 3 (run true 0#2 0x02000000#32 2))) (fun t =>
      decide (t.stat = 0x00008008#32) && !(t.ch 3).str && decide ((t.ch 3).madr = 0x02000000#32) &&
        decide ((t.ch 3).qwc = 2)) = true := by decide +kernel
theorem test_c3_zero_qwc :
    (startChannel t0 (run true 0#2 0x00100000#32 0)).qwc = 0x10000 ∧
      (startChannel t0 (run true 3#2 0x00100000#32 0)).qwc = 0 := by decide +kernel
theorem test_c14_c16_stall_check :
    let s (src : Word) : State := { withCh 1 { run true 1#2 0x4000#32 5 with stm := 2#2, curOp := some 4#3 } with
      stadrS := src }
    (stallLimit 1 5 (s 0x4020#32)).1 = 2 ∧ (stallLimit 1 5 (s 0x4020#32)).2.stadrD = 0x4000#32 ∧
      (stallLimit 1 5 (s 0x4020#32)).2.stat = 0#32 ∧ (stallLimit 1 5 (s 0x4000#32)).1 = 0 ∧
      (stallLimit 1 5 (s 0x4000#32)).2.stat = 0x2000#32 ∧ (stallLimit 1 5 (s 0x3FF0#32)).1 = 0 := by
  decide +kernel

/-! ## Registers: vectors V-REG1 to V-REG20 -/

theorem test_reg1_wchcr_fields :
    chk (exec (.wChcr 0 0xFFFFFFFE#32) { base with dmae := false }) (fun t =>
      decide ((t.ch 0).asp = 2#2) && !(t.ch 0).str &&
        chk (exec (.rChcr 0) t) fun u => decide (u.readMain = 0x020003FE#32)) = true := by decide +kernel
theorem test_reg2_wmadr :
    chk (exec (.wMadr 2 0x00100008#32) base) (fun t => decide ((t.ch 2).madr = 0x00100000#32)) = true := by
  decide +kernel
theorem test_reg3_wqwc :
    chk (exec (.wQwc 0 0x00050004#32) base) (fun t => decide ((t.ch 0).qwc = 4)) = true := by decide +kernel
theorem test_reg4_wtadr :
    chk (exec (.wTadr 0 0x0000100C#32) base) (fun t => decide ((t.ch 0).tadr = 0x00001000#32)) = true := by
  decide +kernel
theorem test_reg5_running_ignores :
    let s := withCh 2 (run true 0#2 0x8000#32 4)
    [Instr.wQwc 2 7#32, .wMadr 2 0x9000#32, .wTadr 2 0x9000#32, .wAsr0 2 0x9000#32, .wAsr1 2 0x9000#32,
      .wChcr 2 0x207#32].all (fun i => chk (exec i s) fun t => decide (t = s)) = true := by decide +kernel
theorem test_wasr :
    chk (exec (.wAsr0 1 0x201F#32) base) (fun t => decide ((t.ch 1).asr0 = 0x2010#32)) = true ∧
      chk (exec (.wAsr1 1 0x201F#32) base) (fun t => decide ((t.ch 1).asr1 = 0x2010#32)) = true := by
  decide +kernel
theorem test_channel_reads :
    let s := withCh 4 { run true 0#2 0x8000#32 0x10000 with tadr := 0x20#32, asr0 := 0x30#32, asr1 := 0x40#32 }
    [(Instr.rMadr 4, 0x8000#32), (.rQwc 4, 0x10000#32), (.rTadr 4, 0x20#32), (.rAsr0 4, 0x30#32),
      (.rAsr1 4, 0x40#32), (.rChcr 4, 3#32)].all (fun x => chk (exec x.1 s) fun t => decide (t.readMain = x.2)) =
      true := by decide +kernel
theorem test_reg6_enabler :
    chk (exec (.wEnablew 0x00010000#32) base) (fun t => t.cpnd && !t.globalEnable &&
      chk (exec .rEnabler t) (fun u => decide (u.readMain = 0x00010000#32)) &&
      chk (exec (.wEnablew 0xFFFEFFFF#32) t) (fun u => u.globalEnable)) = true := by decide +kernel
theorem test_reg7_ctrl :
    chk (exec (.wCtrl 0xFFFFFFFF#32) base) (fun t =>
      chk (exec .rCtrl t) (fun u => decide (u.readMain = 1#32))) = true := by decide +kernel
theorem test_reg8_to_13_wstat :
    [(0x00010001#32, 1#32, 0x00010000#32), (0x00010000#32, 1#32, 0x00010000#32),
      (0x0000A023#32, 0x00008002#32, 0x00002021#32), (0#32, 0xFFFFFFFF#32, 0x23FF0000#32),
      (0x00010001#32, 0x00010001#32, 0#32)].all (fun x =>
        chk (exec (.wStat x.2.1) { base with stat := x.1 }) fun t => decide (t.stat = x.2.2)) = true := by
  decide +kernel
theorem test_reg14_wstat_unmask_raises :
    chk (exec (.wStat 0x20000000#32) { base with stat := 0x2000#32 }) (fun t =>
      decide (t.stat = 0x20002000#32) && t.excMain) = true := by decide +kernel
theorem test_reg15_wio_istat :
    [(0x60#32, 0xFFFFFFDF#32, 0x40#32), (0x40#32, 0xFFFFFFFF#32, 0x40#32), (0x40#32, 0#32, 0#32)].all (fun x =>
      chk (exec (.wIoIstat x.2.1) { base with ioIstat := x.1 }) fun t => decide (t.ioIstat = x.2.2)) = true := by
  decide +kernel
theorem test_reg16_wio_imask :
    chk (exec (.wIoImask 0xFFFFFFFF#32) { base with ioIstat := 0x20#32 }) (fun t =>
      decide (t.ioImask = 0x3FF#32) && t.excIo) = true := by decide +kernel
theorem test_reg17_18_fstat :
    chk (exec .rFstatGpath base) (fun t => decide (t.readMain = 0x100#32)) = true ∧
      chk (exec .rFstatBridge { base with bridge := { base.bridge with fstat := 0x220#32 } })
        (fun t => decide (t.readMain = 0x220#32)) = true ∧
      chk (exec (.wFstatGpath 0xFFFFFFFF#32) base) (fun t => decide (t = base)) = true ∧
      chk (exec (.wFstatBridge 0xFFFFFFFF#32) base) (fun t => decide (t = base)) = true := by decide +kernel
theorem test_reg19_unmapped :
    chk (exec (.rUnmapped .io 0x1000E010#32) { base with readIo := 5#32 }) (fun t => decide (t.readIo = 0#32)) = true ∧
      chk (exec (.wUnmapped .main 0x10008004#32 9#32) base) (fun t => decide (t = base)) = true := by decide +kernel
theorem test_reg20_stadr :
    chk (exec (.wStadrS 0x0000402C#32) base) (fun t =>
      chk (exec .rStadrS t) fun u => decide (u.readMain = 0x4020#32)) = true ∧
      chk (exec (.wStadrD 0x0000402C#32) base) (fun t =>
        chk (exec .rStadrD t) fun u => decide (u.readMain = 0x4020#32)) = true := by decide +kernel
theorem test_status_reads :
    let s := { base with stat := 0x23FF0001#32, ioIstat := 0x20#32, ioImask := 0x3FF#32 }
    chk (exec .rStat s) (fun t => decide (t.readMain = 0x23FF0001#32)) = true ∧
      chk (exec .rIoIstat s) (fun t => decide (t.readIo = 0x20#32)) = true ∧
      chk (exec .rIoImask s) (fun t => decide (t.readIo = 0x3FF#32)) = true := by decide +kernel

/-! ## Events, clocks, FIFOs -/

theorem test_int_test :
    chk (exec (.eventIntTest .main 0#32) { base with stat := 0x00010001#32 }) (fun t => t.excMain) = true ∧
      chk (exec (.eventIntTest .io 0#32) { base with ioIstat := 1#32, excIo := true }) (fun t => !t.excIo) = true := by
  decide +kernel
theorem test_bridge_step_main : exec (.eventBridgeStepMain 5#32) base = .next base := rfl
/-- The environment's handler arms an event of its own domain; another domain's is not its to arm. -/
theorem test_external_handlers :
    let s := { base with script := [{ ans with handler := [.arm .io 13 4 0#32, .arm .main 13 4 0#32] }] }
    [Instr.eventTimer .io 1 0#32, .eventDmaContIo 4 0#32, .eventBridgeStepIo 5#32].all (fun i =>
      chk (exec i s) fun t => t.schedIo.slots[13].armed && !t.schedMain.slots[13].armed) = true := by
  decide +kernel
theorem test_s3_arm_later :
    let x := { Sched.reset with cycle := 1000#32 }.arm 3 10 3#32
    let y := { x with cycle := 1005#32 }.arm 3 20 3#32
    y.due 3 = 1025#32 ∧ y.nextEvent = 1010#32 ∧ ({ y with cycle := 1010#32 }.recompute).nextEvent = 1025#32 ∧
      ({ x with cycle := 1005#32 }.arm 3 2 3#32).nextEvent = 1007#32 ∧ (x.cancel 3).nextEvent = 1010#32 := by
  decide +kernel
theorem test_b3_b4_correspondence :
    let s := { base with schedMain := { base.schedMain with cycle := 1004#32 } }
    ioEq s 1000#32 = 125#32 ∧ ioEq s 1007#32 = 125#32 ∧ ioEq s 1008#32 = 126#32 ∧
      (reanchor s).ioAnchor = 125#32 ∧ (reanchor s).residue = 4 ∧ ioEq (reanchor s) 1008#32 = 126#32 ∧
      mainEq (reanchor s) 126#32 = 1008#32 ∧ mainEq (reanchor s) 625#32 = 5000#32 := by decide +kernel
theorem test_b5_b6_deltas :
    toIODelta t0 4 = 1 ∧ toIODelta t0 6 = 1 ∧ toIODelta t0 64 = 8 ∧ toMain t0 3 = 24 := by decide +kernel

/-- A GPATH ring of `n` units. -/
def ring (n : Nat) : Fifo := ((Fifo.reset t0.layout 16 3).write t0.layout 16 16 (List.replicate n 7#128)).2

theorem test_f1_f3_ring :
    ((ring 14).write t0.layout 16 16 (List.replicate 5 1#128)).1 = 2 ∧
      ((ring 14).write t0.layout 16 16 (List.replicate 5 1#128)).2.fstat = 0x210#32 ∧
      ((ring 3).read t0.layout 16 16 4).1 = List.replicate 3 7#128 ∧ ((ring 3).read t0.layout 16 16 4).2.fstat = 0x100#32 := by
  decide +kernel
theorem test_f10_f11_direct :
    let s (r : List Bool) (a : List Bool) : State := { base with
      gpath := { base.gpath with req := r }
      script := [{ ans with acceptGpath := a }] }
    (arbWriteDirect .gpath 1 [1#128] (s [true, true, false] [true, true])).1 = 0 ∧
      (arbWriteDirect .gpath 1 [1#128] (s [true, true, false] [false, true])).1 = 1 ∧
      (arbWriteDirect .gpath 1 [1#128] (s [false, false, false] [true, true])).1 = 0 ∧
      (arbWriteDma .gpath 2 [1#128] (s [true, false, false] [true, true])).1 = 0 ∧
      (arbWriteDma .gpath 2 [1#128] (s [false, false, false] [true, true])).1 = 1 := by decide +kernel
theorem test_unit_is_little_endian :
    let m := writeUnit 16 [] 0x1000#32 0x0F0E0D0C0B0A09080706050403020100#128
    memGet m 0x1001 = 1#8 ∧ memGet m 0x100F = 0x0F#8 ∧ readUnit 16 m 0x1000#32 =
      0x0F0E0D0C0B0A09080706050403020100#128 := by decide +kernel

/-! ## A word of the opcode table runs as the next step -/

theorem test_fetch_word_access :
    chk (step (State.reset.withFetchWord 32 0x1000E000)) (fun t => !t.dmae && t.agenda.isEmpty) = true := by
  decide +kernel
theorem test_fetch_word_tag :
    chk (step (State.reset.withFetchWord 128 0x70000000)) (fun t =>
      (t.ch 0).done && decide ((t.ch 0).madr = 0x10#32) && (t.ch 0).str) = true := by decide +kernel

/-! ## A state for the hypotheses of each statement -/

/-- Nothing is armed, nothing is held back, one MAIN access is next. -/
def accessState (width : Nat) (a : Word) : State := offer (.access .main .write width a 1#32) base

theorem witness_DecodeEncode :
    Config.valid t0 = true ∧ WellFormed t0 (.refFull 2 3#16 true 0x1230#32) = true ∧
      WellFormed t0 (.rUnmapped .io 0xFFFFFFFC#32) = true := by decide +kernel
theorem witness_DecodedIsWellFormed :
    decode t0 (.event .io 0b1011#4 5#32) = .ok (.eventBridgeStepIo 5#32) := rfl
theorem witness_IgnoredTagBits :
    t0.layout = Layout.default ∧ t0.literals = Literals.written ∧
      0xDEADBEEFCAFEF00D0000200F3ABC0002#128 &&& tagBits t0.layout 7#3 0xFFFF#16 true 0xFFFFFFF0#32 =
        0x00000000000000000000200030000002#128 &&& tagBits t0.layout 7#3 0xFFFF#16 true 0xFFFFFFF0#32 := by
  decide +kernel
theorem witness_EnablerHalves : Config.valid State.reset.cfg = true := by decide +kernel
theorem witness_StepRunsAccess :
    let s := accessState 32 0x1000E010#32
    Config.valid s.cfg = true ∧ sideEffectWindow s = false ∧
      s.agenda = [.access .main .write 32 0x1000E010#32 1#32] ∧ mayAct .main s = true ∧
      decode s.cfg (.access .main .write 32 0x1000E010#32 1#32) = .ok (.wStat 1#32) :=
  ⟨by decide +kernel, rfl, rfl, by decide +kernel, rfl⟩
theorem witness_StepRunsAccess_shape :
    (let s := accessState 16 0x10008000#32
     Config.valid s.cfg = true ∧ sideEffectWindow s = false ∧
       s.agenda = [.access .main .write 16 0x10008000#32 1#32] ∧ mayAct .main s = true ∧ (16 : Nat) ≠ 32) ∧
    (let s := accessState 32 0x10008002#32
     Config.valid s.cfg = true ∧ sideEffectWindow s = false ∧
       s.agenda = [.access .main .write 32 0x10008002#32 1#32] ∧ mayAct .main s = true ∧
       (0x10008002#32).toNat % 4 ≠ 0) := by decide +kernel

/-- The continuation of channel 3 is due and its pass is next. -/
def dueState : State := offer (.pass .main) (arm .main 3 0 3#32 (withCh 3 (run true 0#2 0x8000#32 4)))

theorem witness_StepRunsEvent :
    Config.valid dueState.cfg = true ∧ sideEffectWindow dueState = false ∧ dueState.agenda = [.pass .main] ∧
      passReady .main dueState = true ∧
      dueKinds dueState.schedMain = [3] ∧
      decode dueState.cfg (.event .main 3#4 dueState.schedMain.slots[3].payload) =
        .ok (.eventDmaContMain 3 3#32) :=
  ⟨by decide +kernel, rfl, rfl, by decide +kernel, by decide +kernel, rfl⟩
/-- A pass with nothing due: the event that made it due was cancelled. -/
theorem witness_StepRunsEvent_none :
    let s := cancel .main 3 dueState
    passReady .main s = true ∧ dueKinds s.schedMain = [] ∧
      chk (step s) (fun t => !t.schedMain.nextValid && decide ((t.ch 3).qwc = 4)) = true := by decide +kernel

/-- The continuation of channel 3 is due since 5 cycles and `k` since 5 minus `d`. -/
def twoDue (k : Kind) (d : Nat) (s : State) : State :=
  let t := arm .main k d 0#32 (arm .main 3 0 3#32 s)
  offer (.pass .main) { t with
    schedMain := { t.schedMain with cycle := 5#32 }
    schedIo := { t.schedIo with cycle := 5#32 } }

/-- Two are due; the handler of the first, TIMER[1], cancels the second, which then does not fire (rule
R162). -/
theorem witness_StepRunsEvent_cancelled :
    let s := { withCh 3 (run true 0#2 0x8000#32 4) with
      script := [{ ans with handler := [.cancel .main 3] }] }
    let s := { twoDue 3 2 (arm .main 13 0 0#32 s) with agenda := [.pass .main] }
    passReady .main s = true ∧ dueKinds s.schedMain = [3, 13] ∧
      firstToFire s.schedMain 3 [13] = 13 ∧
      chk (step s) (fun t => decide ((t.ch 3).qwc = 4) && !t.schedMain.nextValid) = true := by decide +kernel
/-- The members left while a pass runs, for the clauses over `S`. -/
theorem witness_StepRunsEvent_members :
    let u := dueState.setSched .main dueState.schedMain.snapshot
    (u.sched .main).passSet = [3] ∧ (u.sched .main).slots[3].armed = true ∧
      ((arm .main 3 0 0#32 u).sched .main).passSet = [] ∧
      (State.reset.sched .main).passSet = [] ∧ (State.reset.sched .main).slots[3].armed = false := by
  decide +kernel
/-- Log entry 29: channel 3 completes and re-arms INT_TEST, which is in the snapshot; it does not fire in this
pass and stays armed for its new due time, cycle 9. -/
theorem test_pass_rearmed_member_waits :
    let s := twoDue 10 1 { withCh 3 (run true 0#2 0x8000#32 0) with stat := 0x00080000#32 }
    dueKinds s.schedMain = [3, 10] ∧
      chk (step s) (fun t => t.schedMain.slots[10].armed && t.schedMain.nextValid &&
        decide (t.schedMain.nextEvent = 9#32) && t.schedMain.passSet.isEmpty) = true := by
  decide +kernel

/-- A full-walker channel in front of `CNT qwc=2`, whose ring is empty. -/
def tagState : State := { withCh 2 (chain 0x1000#32 0#2 0#32 0#32) with
  mem := writeUnit 16 [] 0x1000#32 0x10000002#128 }

theorem witness_ChannelRunsTag :
    tagState.canRun 2 = true ∧ effMode (tagState.ch 2).mod = .chain ∧ (tagState.ch 2).qwc = 0 ∧
      (tagState.ch 2).done = false ∧ translate tagState (tagState.ch 2).tadr .read = true ∧
      reads (.tag 2 (readBytes tagState.mem (tagState.ch 2).tadr 16), .cntFull 2 2#16 false 0#32) = true := by
  decide +kernel
/-- A store of one byte by another agent is seen by the next fetch (rule R73): `CNT` becomes `REF`. -/
theorem test_store_to_tag_is_seen :
    chk (step (offer (.store 0x1003#32 [0x30#8]) tagState)) (fun t =>
      reads (.tag 2 (readBytes t.mem (t.ch 2).tadr 16), .refFull 2 2#16 false 0#32)) = true := by decide +kernel
/-- The same with a tag whose `ID` the table leaves undefined. -/
theorem witness_ChannelRunsTag_undefined :
    let s := { tagState with cfg := noRet, mem := writeUnit 16 [] 0x1000#32 0x60000002#128 }
    s.canRun 2 = true ∧ effMode (s.ch 2).mod = .chain ∧ (s.ch 2).qwc = 0 ∧ (s.ch 2).done = false ∧
      translate s (s.ch 2).tadr .read = true ∧
      rejects (decode s.cfg (.tag 2 (readBytes s.mem (s.ch 2).tadr 16))) (.undefinedOpcode 6#3) = true := by
  decide +kernel
theorem witness_WalkerLaws :
    Config.valid base.cfg = true ∧ ChannelWf base.cfg ((withCh 0 (chain 0x3100#32 1#2 0x2020#32 0#32)).ch 0) := by
  decide +kernel

/-- `ChainOf` as a computation. -/
def chainIs (s : State) (c : Chan) : Nat → Word → List Word → Bool
  | 0, _, _ => false
  | n + 1, t, st =>
    let w := tagFields s.cfg (readUnit s.cfg.unit s.mem t)
    translate s t .read &&
      match chainNext s.cfg s.cfg.walker[c.val] t st w.q.toNat w.a (s.cfg.tagOp w.id) with
      | none => n == 0
      | some (t', st') => if w.irq && (s.ch c).tie then n == 0 else chainIs s c n t' st'

theorem chainOf_of_chainIs {s : State} {c : Chan} {n : Nat} {t : Word} {st : List Word}
    (h : chainIs s c n t st = true) : ChainOf s c n t st := by
  induction n generalizing t st with
  | zero => cases h
  | succ n ih =>
    simp only [chainIs, Bool.and_eq_true] at h
    refine ⟨h.1, ?_⟩
    have h2 := h.2
    revert h2
    cases chainNext s.cfg s.cfg.walker[c.val] t st
        (tagFields s.cfg (readUnit s.cfg.unit s.mem t)).q.toNat (tagFields s.cfg (readUnit s.cfg.unit s.mem t)).a
        (s.cfg.tagOp (tagFields s.cfg (readUnit s.cfg.unit s.mem t)).id) with
    | none => simp
    | some x =>
      intro h3
      by_cases hb : (tagFields s.cfg (readUnit s.cfg.unit s.mem t)).irq = true ∧ (s.ch c).tie = true
      · simpa [hb] using h3
      · simp only [hb, Bool.and_eq_true, if_false] at h3 ⊢
        exact ih h3

/-- `CALL qwc=1 addr=0x2000`, there `RET`, and behind the call's block `END`. -/
def callChain : State := { withCh 2 (chain 0x1000#32 0#2 0#32 0#32) with
  mem := writeUnit 16 (writeUnit 16 (writeUnit 16 [] 0x1000#32 0x0000200050000001#128) 0x2000#32 0x60000000#128)
    0x1020#32 0x70000003#128 }

theorem witness_ChainTerminates :
    Config.valid callChain.cfg = true ∧ ChannelWf callChain.cfg (callChain.ch 2) ∧
      ChainOf callChain 2 3 (callChain.ch 2).tadr (callChain.ch 2).stack :=
  ⟨by decide +kernel, by decide +kernel, chainOf_of_chainIs (by decide +kernel)⟩
theorem witness_ThirdCallStops :
    ∃ t u x : State, base.cfg.literals.aspMax = 2 ∧
      ((withCh 0 (chain 0x1000#32 0#2 0#32 0#32)).ch 0).asp = 0#2 ∧
      exec (.callFull 0 1#16 false 0x2000#32) (withCh 0 (chain 0x1000#32 0#2 0#32 0#32)) = .next t ∧
      exec (.callFull 0 2#16 false 0x3000#32) t = .next u ∧
      exec (.callFull 0 3#16 false 0x4000#32) u = .next x := ⟨_, _, _, rfl, rfl, rfl, rfl, rfl⟩
theorem witness_ChcrReadsBack :
    (base.ch 9).str = false ∧
      (0xFFFFFFFE#32).getLsbD base.cfg.layout.chcrSTR = false ∧ base.cfg.layout = Layout.default ∧
      base.cfg.literals = Literals.written := by decide +kernel
theorem witness_ForceStop : ((withCh 2 (run true 0#2 0x8000#32 4)).ch 2).str = true := by decide +kernel
theorem witness_CannotRun :
    { base with dmae := false }.canRun 4 = false ∧
      { base with script := [{ ans with masked := 0x010#10 }] }.canRun 4 = false ∧
      (base.ch 4).str = false ∧ (3#32).getLsbD base.cfg.layout.chcrSTR = true := by decide +kernel
theorem witness_StartRuns :
    (base.ch 3).str = false ∧ (0xF#32).getLsbD base.cfg.layout.chcrSTR = true ∧ base.canRun 3 = true ∧
      (0xF#32).extractLsb' base.cfg.layout.chcrMOD 2 ≠ 2#2 := by decide +kernel
theorem witness_InterleaveRefused :
    base.canRun 0 = true ∧ (base.ch 0).str = false ∧ (0xB#32).getLsbD base.cfg.layout.chcrSTR = true ∧
      (0xB#32).extractLsb' base.cfg.layout.chcrMOD 2 = 2#2 ∧
      (let s := withCh 0 (run true 2#2 0x8000#32 4)
       s.canRun 0 = true ∧ (s.ch 0).mod = 2#2) := by decide +kernel
theorem witness_ContinuationRuns :
    tagState.canRun 2 = true ∧ effMode (tagState.ch 2).mod ≠ .interleave := by decide +kernel

/-- A channel without a FIFO that stores units. -/
def storeState : State := withCh 3 (run false 0#2 0x01FFFFE0#32 3)

theorem witness_StepMemoryFrame :
    (∃ t, exec (.eventDmaContMain 3 3#32) storeState = .next t) ∧
      ¬ InUnits 16 ((blockStart 3 storeState).ch 3).madr 2 0x02000000 ∧
      InUnits 16 ((blockStart 3 storeState).ch 3).madr 2 0x01FFFFFF ∧
      (base.ch 3).str = false ∧ (1#32).getLsbD base.cfg.layout.chcrSTR = true ∧
      ∃ t, exec (.wChcr 3 1#32) (withCh 3 { run false 0#2 0x01FFFFE0#32 3 with str := false }) = .next t :=
  ⟨next_of_goes (by decide +kernel), by decide +kernel, by decide +kernel, by decide +kernel,
    by decide +kernel, next_of_goes (by decide +kernel)⟩
theorem witness_Completion :
    (∀ c, base.cfg.hasChan c = true) ∧
    (let s := withCh 5 (run true 0#2 0x8000#32 0)
     s.canRun 5 = true ∧ (s.ch 5).qwc = 0 ∧ effMode (s.ch 5).mod = .normal) ∧
    (let s := withCh 5 { run true 3#2 0x8000#32 0 with done := true }
     s.canRun 5 = true ∧ (s.ch 5).qwc = 0 ∧ effMode (s.ch 5).mod = .chain ∧ (s.ch 5).done = true) := by
  decide +kernel
theorem witness_BusError :
    (let s := withCh 0 (chain 0x02000000#32 0#2 0#32 0#32)
     s.canRun 0 = true ∧ effMode (s.ch 0).mod = .chain ∧ (s.ch 0).qwc = 0 ∧ (s.ch 0).done = false ∧
       translate s (s.ch 0).tadr .read = false) ∧
    (let s := withCh 3 (run false 0#2 0x01FFFFF8#32 1)
     let u := blockStart 3 s
     s.canRun 3 = true ∧ effMode (s.ch 3).mod ≠ .interleave ∧ 0 < (u.ch 3).qwc ∧
       0 < (stallLimit 3 (u.ch 3).qwc u).1 ∧ translate s (u.ch 3).madr (transferDir (u.ch 3)) = false) := by
  decide +kernel
/-- The same for the block of a tag just fetched, and for one in its middle. -/
theorem witness_BusError_chain :
    (let s := { withCh 3 (chain 0x1000#32 0#2 0#32 0#32) with
       mem := writeUnit 16 [] 0x1000#32 0x0200000030000002#128 }
     let u := blockStart 3 s
     s.canRun 3 = true ∧ effMode (s.ch 3).mod ≠ .interleave ∧ (s.ch 3).qwc = 0 ∧ (u.ch 3).qwc = 2 ∧
       0 < (stallLimit 3 (u.ch 3).qwc u).1 ∧ translate s (u.ch 3).madr (transferDir (u.ch 3)) = false) ∧
    (let s := withCh 1 { run true 1#2 0x02000000#32 1 with curOp := some 4#3, done := true }
     let u := blockStart 1 s
     s.canRun 1 = true ∧ effMode (s.ch 1).mod ≠ .interleave ∧ (u.ch 1).qwc = 1 ∧
       0 < (stallLimit 1 (u.ch 1).qwc u).1 ∧ translate s (u.ch 1).madr (transferDir (u.ch 1)) = false) := by
  decide +kernel
theorem witness_NormalStepToUnit :
    let s := withCh 3 (run true 0#2 0x01FFFFF0#32 4)
    s.canRun 3 = true ∧ effMode (s.ch 3).mod = .normal ∧ 0 < (s.ch 3).qwc ∧ (s.ch 3).dir = true ∧
      fifoOf s.cfg 3 = none ∧ (s.ch 3).curOp = none ∧ (s.ch 3).stm ≠ 1#2 ∧
      translate s (s.ch 3).madr .read = true := by decide +kernel
theorem witness_NormalStepToMemory :
    let s := storeState
    Config.valid s.cfg = true ∧
      s.canRun 3 = true ∧ effMode (s.ch 3).mod = .normal ∧ 0 < (s.ch 3).qwc ∧ (s.ch 3).qwc ≤ 0x10000 ∧
      (s.ch 3).dir = false ∧ fifoOf s.cfg 3 = none ∧ (s.ch 3).curOp = none ∧ (s.ch 3).stm ≠ 1#2 ∧
      MemoryWf s ∧ translate s (s.ch 3).madr .write = true := by decide +kernel
theorem witness_TransferAdvances :
    (∃ m t, transfer 3 3 storeState = some (m, t)) ∧ ∃ m t, transfer 2 4
      (withCh 2 { run true 1#2 0x8000#32 4 with curOp := some 1#3, stm := 1#2 }) = some (m, t) :=
  ⟨some_of_isSome (by decide +kernel), some_of_isSome (by decide +kernel)⟩
theorem witness_StallCheck : (1 : Nat) ≤ 1 ∧ (storeState.ch 3).madr &&& BitVec.ofNat 32 (storeState.cfg.unit - 1) = 0#32 := by decide +kernel
theorem witness_StalledDrain :
    let s := { withCh 1 { run true 1#2 0x4000#32 5 with stm := 2#2, curOp := some 4#3 } with stadrS := 0x400F#32 }
    s.canRun 1 = true ∧ effMode (s.ch 1).mod = .chain ∧ 0 < (s.ch 1).qwc ∧ (s.ch 1).stm = 2#2 ∧
      s.curTagOp 1 = some .refs ∧ (s.ch 1).madr &&& BitVec.ofNat 32 (storeState.cfg.unit - 1) = 0#32 ∧
      s.stadrS.toNat < (s.ch 1).madr.toNat + s.cfg.unit := by decide +kernel
theorem witness_EnableWriteWithoutRestart :
    base.globalEnable = true ∧ (0#32).getLsbD base.cfg.layout.ctrlDMAE = false ∧ { base with cpnd := true }.cpnd = true ∧
      (0x10000#32).getLsbD base.cfg.layout.enableCPND = true ∧ State.reset.dmae = false := by decide +kernel

/-- Disabled, with channel 2 in the queue. -/
def queuedState : State := { withCh 2 { run true 0#2 0x8000#32 4 with queued := true } with dmae := false }

theorem witness_EnableWriteRestarts :
    (queuedState.globalEnable = false ∧ NoInterleaveQueued queuedState ∧ queuedState.cpnd = false ∧
      (1#32).getLsbD queuedState.cfg.layout.ctrlDMAE = true) ∧
    (let s := { queuedState with dmae := true, cpnd := true }
     s.globalEnable = false ∧ NoInterleaveQueued s ∧ s.dmae = true ∧ (0#32).getLsbD s.cfg.layout.enableCPND = false) := by
  decide +kernel
theorem witness_RestartStepsInsideTheWrite :
    (queuedState.globalEnable = false ∧ queuedState.cpnd = false ∧
      (1#32).getLsbD queuedState.cfg.layout.ctrlDMAE = true ∧ (queuedState.ch 2).queued = true ∧ queuedState.cfg.hasChan 2 = true ∧
      (∀ d, d ≠ 2 → (queuedState.ch d).queued = false) ∧ queuedState.chanMasked 2 = false) ∧
    (let s := { queuedState with
       dmae := true
       cpnd := true
       script := [{ ans with masked := 0x004#10 }] }
     s.globalEnable = false ∧ s.dmae = true ∧ (0#32).getLsbD s.cfg.layout.enableCPND = false ∧
       (s.ch 2).queued = true ∧ (∀ d, d ≠ 2 → (s.ch d).queued = false) ∧ s.chanMasked 2 = true) := by
  decide +kernel
/-- Three queued channels, the middle one masked: the first and the last step in that order, the middle one
stays queued (rule R122). -/
theorem test_restart_in_order :
    let q (m : Word) : Channel := { run true 0#2 m 4 with queued := true }
    let a := { ans with masked := 0x008#10, sink := 1 }
    let s := { ((base.setCh 1 (q 0x8000#32)).setCh 3 (q 0x9000#32)).setCh 8 (q 0xA000#32) with
      dmae := false
      mem := []
      script := [a, a, a] }
    chk (exec (.wCtrl 1#32) s) (fun t =>
      (List.finRange 10).all (fun c => (t.ch c).queued == (c == 3)) && decide ((t.ch 3).qwc = 4) &&
        decide (t.out = [.unit 8 [0#128], .unit 1 [0#128]])) = true := by decide +kernel
theorem witness_ExternalEventsComplete :
    NoInterleaveQueued queuedState ∧ queuedState.answers.handler = [] := by decide +kernel
theorem witness_EndpointFrame :
    let s := { base with script := [{ ans with handler := [.arm .io 13 4 0#32, .fifoDrain .bridge 4] }] }
    (∃ t, exec (.eventBridgeStepIo 5#32) s = .next t) ∧ (∃ t, exec (.eventDmaContIo 0 5#32) s = .next t) ∧
      ∃ t, exec (.eventTimer .io 3 5#32) s = .next t :=
  ⟨next_of_goes (by decide +kernel), next_of_goes (by decide +kernel), next_of_goes (by decide +kernel)⟩
/-- The endpoint drains a unit, and a later handler notifies MAIN for a Running bridge channel (rule R204). -/
theorem witness_EndpointFrame_notify :
    let s := { withCh 5 (run true 0#2 0xA000#32 4) with
      bridge := ((Fifo.reset t0.layout 32 4).write t0.layout 32 32 [1#128]).2
      script := [{ ans with handler := [.notify 5 3, .fifoDrain .bridge 1] }, { ans with handler := [.notify 5 3] }] }
    chk (exec (.eventBridgeStepIo 5#32) s) (fun t => !t.schedMain.slots[5].armed && t.endpointMoved &&
      chk (exec (.eventTimer .io 0 0#32) t) fun u => u.schedMain.slots[5].armed &&
        decide (u.schedMain.slots[5].delta = 24#32 ∧ u.schedMain.slots[5].payload = 5#32)) = true := by decide +kernel
/-- For StatWrite and PendingTest. -/
theorem witness_StatWrite : Config.valid base.cfg = true ∧ base.cfg.hasChan 9 = true := by decide +kernel
theorem witness_ReanchorKeepsCorrespondence :
    (let s := { base with schedMain := { base.schedMain with cycle := 1004#32 } }
     1 ≤ s.cfg.ratio ∧ 0 ≤ sdiff32 s.schedMain.cycle s.mainAnchor ∧ 0 ≤ sdiff32 1004#32 s.schedMain.cycle ∧
       sdiff32 s.schedMain.cycle s.mainAnchor + sdiff32 0x7FFFFFFF#32 s.schedMain.cycle < 2147483648) ∧
    0 ≤ sdiff32 base.schedMain.cycle base.mainAnchor := by decide +kernel
theorem witness_MainEqInverse :
    let s := { base with ioAnchor := 125#32, mainAnchor := 1004#32, residue := 4 }
    1 ≤ s.cfg.ratio ∧ s.residue < s.cfg.ratio ∧ s.residue < 2147483648 ∧ 1 ≤ sdiff32 126#32 s.ioAnchor ∧
      0 ≤ sdiff32 125#32 s.ioAnchor ∧ sdiff32 126#32 s.ioAnchor * s.cfg.ratio < 2147483648 ∧
      ioEq s (mainEq s 125#32) = 125#32 := by decide +kernel

/-- Vectors V-BR1 and V-BR4: MAIN at 1000, IO at 125. -/
def bridgeState : State := { base with
  schedMain := { base.schedMain with cycle := 1000#32 }
  schedIo := { base.schedIo with cycle := 125#32 } }

theorem witness_BreakEarly :
    bridgeState.cfg.ioRelevant[(intTest).val] = true ∧
      advanceOk .io 5 (arm .main intTest 40 0#32 bridgeState) = true ∧
      (arm .main intTest 40 0#32 bridgeState).schedMain.slots[(intTest).val].armed = true := by decide +kernel
theorem witness_BreakEarly_advance :
    Config.valid bridgeState.cfg = true ∧ sideEffectWindow bridgeState = false ∧
      advanceOk .io 5 (offer (.advance .io 5) bridgeState) = true ∧
      advanceOk .main 1073741823 (offer (.advance .main 1073741823) bridgeState) = true := by decide +kernel

/-- The state after `n` steps. -/
def after : Nat → State → State
  | 0, s => s
  | n + 1, s =>
    match step s with
    | .next t => after n t
    | _ => s

/-- `RATIO` = 1, both clocks at 1, the next IO event 2^31 - 1 cycles away, 2^31 past the anchor. -/
def farState : State := arm .io 13 2147483647 0#32 { base with
  cfg := { t0 with ratio := 1 }
  schedMain := { base.schedMain with cycle := 1#32 }
  schedIo := { base.schedIo with cycle := 1#32 } }

/-- MAIN may advance as far as K2 admits; and with IO at that event its pass waits for MAIN, which catches up. -/
theorem test_far_event_lets_main_advance :
    chk (step (offer (.advance .main 1000) farState)) (fun t => decide (t.schedMain.cycle = 1001#32)) = true ∧
      chk (step (offer (.advance .main 2000000000) farState)) (fun t => decide (t.schedMain.cycle = 1073741824#32)) = true ∧
      (let s := offer (.pass .io) { farState with schedIo := { farState.schedIo with cycle := 0x80000000#32 } }
       decide ((after 3 s).schedMain.cycle = 0x80000000#32) && (after 3 s).schedIo.slots[13].armed &&
         !(after 4 s).schedIo.slots[13].armed) = true := by decide +kernel
/-- Rule R154: IO at 10 has an event 2^31 past MAIN's clock, MAIN a timer at 5; a held IO access lets MAIN advance to
its timer, the timer fires, and the access proceeds once MAIN has caught up. -/
theorem test_held_access_lets_main_run :
    (let s := offer (.access .io .read 32 0x1F8010F0#32 0#32) (arm .main 12 5 0#32 (arm .io 11 2147483638 0#32 { base with
        cfg := { t0 with ratio := 1 }
        schedIo := { base.schedIo with cycle := 10#32 } }))
     decide ((after 1 s).schedMain.cycle = 5#32) && !(after 2 s).schedMain.slots[12].armed &&
       decide ((after 3 s).schedMain.cycle = 10#32) && (after 4 s).agenda.isEmpty) = true := by decide +kernel
/-- A due time 2^31 past the anchor does not hold IO back: the bridge re-anchors first (rule R172). -/
theorem test_far_break_lets_io_advance :
    let s := arm .main intTest 2147483647 0#32 { base with
      schedMain := { base.schedMain with cycle := 80#32 } }
    advanceOk .io 10 s = false ∧
      chk (step (offer (.advance .io 10) s)) (fun t => decide (t.schedIo.cycle = 10#32)) = true := by decide +kernel
theorem test_br4_break_is_exact :
    advanceOk .io 6 (arm .main intTest 40 0#32 bridgeState) = false ∧
      advanceOk .io 6 (arm .main 3 40 0#32 bridgeState) = true := by decide +kernel
theorem witness_BridgeNotifiesEndpoint :
    fifoOf base.cfg 5 = some .bridge ∧
      (∃ m t, transfer 5 4 (withCh 5 (run true 0#2 0xA000#32 4)) = some (m, t)) ∧
      (transfer 5 4 (withCh 5 (run true 0#2 0xA000#32 4))).map Prod.fst = some 4 ∧
      (transfer 5 4 (withCh 5 (run false 0#2 0xA000#32 4))).map Prod.fst = some 0 :=
  ⟨by decide +kernel, some_of_isSome (by decide +kernel), by decide +kernel, by decide +kernel⟩
theorem witness_FifoIsAQueue : FifoWf t0.layout 16 16 3 (ring 14) ∧ FifoWf t0.layout 16 16 3 (ring 16) := by decide +kernel
theorem witness_Arbitration :
    let s (r m : List Bool) : State := { base with gpath := { base.gpath with req := r, pmask := m } }
    grantable (s [false, true, false] [false, false, false]) .gpath 1 = true ∧
      grantable (s [false, true, false] [false, false, false]) .gpath 0 = false ∧
      (s [] [false, false, true]).gpath.pmask.getD (producerIndex t0 .gpath 2) false = true ∧
      (∀ j, j < 2 → grantable (s [] [false, false, false]) .gpath j = false) := by decide +kernel
theorem witness_MailboxTake :
    base.wk.finish = false ∧ base.wk.label = false ∧ base.wk.signal = false := by decide +kernel
theorem witness_UnitReadsBack :
    Literals.written.valid = true ∧ small.literals.valid = true ∧ small.unit = 8 ∧
      Memory.wf tagState.mem = true ∧ ¬ InUnits 16 0xFFFFFFF8#32 1 0x8 ∧ InUnits 16 0xFFFFFFF8#32 1 0x7 := by
  decide +kernel
/-- For StepKeepsQueue, StepKeepsChannels, StepKeepsFifos, NoEventIsLate and StepKeepsRegisters. -/
theorem witness_invariants :
    (QueueWf dueState ∧ ChannelsWf dueState ∧ FifosWf dueState ∧ SchedsTimely dueState ∧ MemoryWf dueState ∧
      RegistersWf dueState ∧ BridgeWf dueState) ∧ ∃ t, step dueState = .next t :=
  ⟨by decide +kernel, next_of_goes (by decide +kernel)⟩
/-- A start write in Normal mode with `QWC` = 0 while all DMA is held loads 0x10000. -/
theorem witness_StepKeepsChannels :
    let s := { accessState 32 0x10008000#32 with dmae := false }
    ChannelsWf s ∧ (s.ch 0).qwc ≤ 0xFFFF ∧
      chk (step s) (fun t => decide (0xFFFF < (t.ch 0).qwc)) = true := by decide +kernel
/-- With such a count left by a force-stop, a `CHCR` write selects the Chain mode (log entry 23). -/
theorem witness_StepKeepsChannels_idle :
    let s := offer (.access .main .write 32 0x10008000#32 4#32)
      (withCh 0 { run true 0#2 0x8000#32 0x10000 with str := false })
    ChannelsWf s ∧ 0xFFFF < (s.ch 0).qwc ∧ CountWf (s.ch 0) ∧
      chk (step s) (fun t => decide (0xFFFF < (t.ch 0).qwc) && decide ((t.ch 0).mod ≠ (s.ch 0).mod) &&
        !decide (CountWf (t.ch 0))) = true := by
  decide +kernel

/-- Three `CHCR` writes from `QWC` = 0 with all DMA held: a Normal start loads 0x10000 (R103), a force-stop keeps it
(R118, R294), and a write with `MOD` = 1 stores the mode alone (R221). So the literal law 3 of R126 contradicts these
rules (log entry 23). -/
theorem test_rules_against_law3 :
    let w (v : Word) : Op := .access .main .write 32 0x10008000#32 v
    let s := { base with dmae := false, agenda := [w 1#32, w 0#32, w 4#32] }
    ((s.ch 0).qwc = 0 ∧ (s.ch 0).str = false) ∧
      (((after 1 s).ch 0).qwc = 0x10000 ∧ ((after 1 s).ch 0).queued = true ∧ CountWf ((after 1 s).ch 0)) ∧
      (((after 2 s).ch 0).qwc = 0x10000 ∧ ((after 2 s).ch 0).str = false ∧ CountWf ((after 2 s).ch 0)) ∧
      (((after 3 s).ch 0).qwc = 0x10000 ∧ effMode ((after 3 s).ch 0).mod = .chain) := by decide +kernel
/-- A blocked Normal start with `QWC` = 0 holds the count 0x10000, in Normal mode (law 3 over a transfer). -/
theorem witness_TransferLaws_count :
    let s := { accessState 32 0x10008000#32 with dmae := false }
    s.cfg.hasChan 0 = true ∧ QueueWf s ∧ mayAct .main s = true ∧ s.cfg.addr (.chan 0 .chcr) = 0x10008000#32 ∧
      (s.ch 0).str = false ∧ (1#32).getLsbD s.cfg.layout.chcrSTR = true ∧ (s.ch 0).qwc ≤ 0xFFFF ∧
      chk (step s) (fun t => decide (0xFFFF < (t.ch 0).qwc) && decide (CountWf (t.ch 0))) = true := by decide +kernel

/-- A Normal start of channel 3 from memory with `QWC` = 0, under a configuration in which that means 2 units,
and then the cycles and the pass until it completes. -/
def zeroRun : State :=
  { base with
    cfg := { t0 with literals := { Literals.written with qwcZeroEffective := 2 } }
    script := [ans, ans, ans]
    agenda := [.access .main .write 32 0x1000B000#32 3#32, .advance .io 4, .advance .main 4, .pass .main] }

theorem witness_TransferLaws :
    zeroRun.cfg.hasChan 3 = true ∧ QueueWf zeroRun ∧ mayAct .main zeroRun = true ∧ zeroRun.cfg.addr (.chan 3 .chcr) = 0x1000B000#32 ∧
      (zeroRun.ch 3).str = false ∧ (3#32).getLsbD zeroRun.cfg.layout.chcrSTR = true ∧
      effMode ((3#32).extractLsb' zeroRun.cfg.layout.chcrMOD 2) = .normal ∧ (zeroRun.ch 3).qwc = 0 ∧
      fifoOf zeroRun.cfg 3 = none := by decide +kernel
/-- The steps exist; `STR` is 1 after each but the last, which completes. -/
theorem witness_TransferLaws_run :
    goes (step zeroRun) = true ∧ goes (step (after 1 zeroRun)) = true ∧
      goes (step (after 2 zeroRun)) = true ∧ goes (step (after 3 zeroRun)) = true ∧
      ((after 1 zeroRun).ch 3).str = true ∧ ((after 2 zeroRun).ch 3).str = true ∧
      ((after 3 zeroRun).ch 3).str = true ∧ ((after 4 zeroRun).ch 3).str = false ∧
      ((after 4 zeroRun).ch 3).qwc = 0 ∧ unitsOut 3 (after 4 zeroRun).out = 2 := by decide +kernel
theorem after_succ {n : Nat} {s : State} (h : goes (step (after n s)) = true) :
    step (after n s) = .next (after (n + 1) s) := by
  have hstep : ∀ (n : Nat) (s : State), goes (step (after n s)) = true →
      ∃ t, step (after n s) = .next t ∧ after (n + 1) s = t := by
    intro n
    induction n with
    | zero =>
      intro s h
      obtain ⟨t, ht⟩ := next_of_goes h
      exact ⟨t, ht, by simp only [after] at ht ⊢; rw [ht]⟩
    | succ n ih =>
      intro s h
      rw [after] at h ⊢
      cases hs : step s with
      | next u =>
        rw [hs] at h
        obtain ⟨t, ht, ha⟩ := ih u h
        exact ⟨t, ht, by rw [after, hs]; exact ha⟩
      | fault e => cases e
      | refused e =>
        rw [hs] at h
        simp only [hs] at h
        cases h
  obtain ⟨t, ht, ha⟩ := hstep n s h
  rw [ht, ha]
theorem witness_TransferLaws_undisturbed : TransferRun 3 (after 1 zeroRun) (after 4 zeroRun) := by
  obtain ⟨-, h1, h2, h3, b1, b2, b3, -⟩ := witness_TransferLaws_run
  have a1 : (after 1 zeroRun).agenda = [.advance .io 4, .advance .main 4, .pass .main] := by decide +kernel
  have a2 : (after 2 zeroRun).agenda = [.advance .main 4, .pass .main] := by decide +kernel
  have a3 : (after 3 zeroRun).agenda = [.pass .main] := by decide +kernel
  have r2 := TransferRun.more (TransferRun.here (c := 3) (s := after 1 zeroRun)) b1
    (by rw [Undisturbed, a1]; trivial) (after_succ h1)
  have r3 := TransferRun.more r2 b2 (by rw [Undisturbed, a2]; trivial) (after_succ h2)
  exact TransferRun.more r3 b3 (by rw [Undisturbed, a3]; trivial) (after_succ h3)
theorem witness_ResetStep :
    Config.valid (offer .reset dueState).cfg = true ∧ sideEffectWindow (offer .reset dueState) = false ∧
      (offer .reset dueState).agenda = [.reset] := ⟨by decide +kernel, rfl, rfl⟩
theorem witness_SettingsOnlyBySoftware :
    (∃ t, step dueState = .next t) ∧
      (∀ p d n a v, dueState.agenda.head? ≠ some (.access p d n a v)) ∧ dueState.agenda.head? ≠ some .reset := by
  refine ⟨next_of_goes (by decide +kernel), ?_, ?_⟩
  · intro p d n a v h
    cases h
  · intro h
    cases h
theorem witness_StepIsTotal :
    Config.valid dueState.cfg = true ∧ sideEffectWindow dueState = false ∧ NoInterleaveWaiting dueState ∧
      ∀ p d n a v rest, dueState.agenda ≠ .access p d n a v :: rest := by
  refine ⟨by decide +kernel, rfl, by decide +kernel, ?_⟩
  intro p d n a v rest h
  cases h
/-- The same for a start write in Normal mode, beside an idle channel that holds the Interleave mode. -/
theorem witness_StepIsTotal_access :
    let s := (accessState 32 0x10008000#32).setCh 5 { Channel.reset with mod := 2#2 }
    Config.valid s.cfg = true ∧ sideEffectWindow s = false ∧ NoInterleaveWaiting s ∧
      s.agenda = [.access .main .write 32 0x10008000#32 1#32] ∧ mayAct .main s = true ∧
      (0x10008000#32).toNat % 4 = 0 ∧
      ∀ c x, decode s.cfg (.access .main .write 32 0x10008000#32 1#32) = .ok (.wChcr c x) →
        ¬ (x.getLsbD s.cfg.layout.chcrSTR = true ∧ (s.ch c).str = false ∧ s.canRun c = true ∧
          x.extractLsb' s.cfg.layout.chcrMOD 2 = 2#2) := by
  refine ⟨by decide +kernel, rfl, by decide +kernel, rfl, by decide +kernel, by decide +kernel, ?_⟩
  intro c x h
  have e : decode t0 (.access .main .write 32 0x10008000#32 1#32) = .ok (.wChcr 0 1#32) := rfl
  have h' := e.symm.trans h
  cases h'
  decide +kernel

end Sys2Proof.Machine
end

section
/-! PROOFS. Decoding inverts encoding, the words of the spec, and the writes of an idle channel's registers. -/

namespace Sys2Proof.Machine

/-! ## Registers and their addresses (rules R65, R86) -/

/-- The list of the registers has each of them at its slot of `MMIO_MAP` (rule R10). -/
theorem all_getElem?_index (r : RegName) : RegName.all[r.index.val]? = some r := by
  cases r with
  | chan c r =>
    revert c
    cases r <;> decide
  | fstat f => cases f <;> rfl
  | _ => rfl

theorem mem_all_registers (r : RegName) : r ∈ RegName.all :=
  List.mem_of_getElem? (all_getElem?_index r)

/-- No two registers share a slot. -/
theorem register_index_injective {r r' : RegName} (h : r.index.val = r'.index.val) : r = r' :=
  Option.some.inj (by rw [← all_getElem?_index r, h, all_getElem?_index r'])

/-- The executable test for distinct addresses says that none occurs twice. -/
theorem nodup_of_distinct {l : List Nat} (h : distinct l = true) : l.Nodup := by
  induction l with
  | nil => exact List.nodup_nil
  | cons a l ih =>
    simp only [distinct, Bool.and_eq_true, Bool.not_eq_true', List.any_eq_false] at h
    exact List.nodup_cons.2 ⟨fun ha => h.1 a ha (Nat.beq_refl a), ih h.2⟩

/-- What a valid configuration says of the registers' addresses (rules R64, R65). -/
theorem mmio_of_valid {cfg : Config} (h : Config.valid cfg = true) :
    (∀ a ∈ cfg.mmio.toList, a.toNat % 4 = 0) ∧ (cfg.mmio.toList.map BitVec.toNat).Nodup := by
  simp only [Config.valid, Bool.and_eq_true, List.all_eq_true, beq_iff_eq] at h
  obtain ⟨⟨⟨⟨-, haligned⟩, hdistinct⟩, -⟩, -⟩ := h
  exact ⟨haligned, nodup_of_distinct hdistinct⟩

/-- Every register stands at a multiple of 4 (rule R64). -/
theorem addr_aligned {cfg : Config} (h : Config.valid cfg = true) (r : RegName) :
    (cfg.addr r).toNat % 4 = 0 :=
  (mmio_of_valid h).1 _ (by simp [Config.addr])

/-- No two registers stand at one address. -/
theorem addr_injective {cfg : Config} (h : Config.valid cfg = true) {r r' : RegName}
    (hr : cfg.addr r = cfg.addr r') : r = r' := by
  have hnd := (mmio_of_valid h).2
  apply register_index_injective
  refine (hnd.getElem_inj_iff (hi := by simp) (hj := by simp)).1 ?_
  simpa [Config.addr] using congrArg BitVec.toNat hr

/-- A register of the block is what its own processor reaches at its address, in each direction that it
answers (rule R86). -/
theorem regAt_addr {cfg : Config} (h : Config.valid cfg = true) {r : RegName} {d : Dir}
    (hr : cfg.hasReg r = true) (hd : r.answers d = true) : cfg.regAt r.cpu d (cfg.addr r) = some r := by
  cases hf : cfg.regAt r.cpu d (cfg.addr r) with
  | none =>
    have := List.find?_eq_none.1 hf r (mem_all_registers r)
    simp [hr, hd] at this
  | some r' =>
    have := List.find?_some hf
    simp only [Bool.and_eq_true, beq_iff_eq] at this
    rw [addr_injective h this.2]

/-- At an unmapped address there is no register (rule R245). -/
theorem regAt_of_unmapped {cfg : Config} {p : Domain} {d : Dir} {a : Word}
    (h : WellFormed.unmapped cfg p d a = true) : cfg.regAt p d a = none := by
  refine List.find?_eq_none.2 fun r hr => ?_
  have := List.all_eq_true.1 h r hr
  simp only [Bool.not_eq_true'] at this
  exact Bool.eq_false_iff.1 this

/-- A 32-bit write of a register decodes to the write of that register. -/
theorem decode_encodeWrite {cfg : Config} (h : Config.valid cfg = true) {r : RegName}
    (hr : cfg.hasReg r = true) (hd : r.answers .write = true) (v : Word) :
    decode cfg (encodeWrite cfg r v) = .ok (writeInstr (cfg.addr r) v r) := by
  simp [decode, encodeWrite, decodeAccess, addr_aligned h, regAt_addr h hr hd]

/-- A 32-bit read of a register decodes to the read of that register. -/
theorem decode_encodeRead {cfg : Config} (h : Config.valid cfg = true) {r : RegName}
    (hr : cfg.hasReg r = true) (hd : r.answers .read = true) :
    decode cfg (encodeRead cfg r) = .ok (readInstr (cfg.addr r) r) := by
  simp [decode, encodeRead, decodeAccess, addr_aligned h, regAt_addr h hr hd]

/-- An aligned access at an unmapped address decodes to the unmapped access of its direction (rule R245). -/
theorem decode_unmapped {cfg : Config} {p : Domain} {d : Dir} {a v : Word}
    (h : WellFormed.access cfg p d a = true) :
    decode cfg (.access p d 32 a v) =
      .ok (match d with | .write => .wUnmapped p a v | .read => .rUnmapped p a) := by
  simp only [WellFormed.access, Bool.and_eq_true, beq_iff_eq] at h
  obtain ⟨halign, hmap⟩ := h
  cases d <;> simp [decode, decodeAccess, halign, regAt_of_unmapped hmap]

/-! ## Tags (rules R81 to R83) -/

/-- What a valid configuration says of its layouts, its numbers and its opcode table. -/
theorem encoding_of_valid {cfg : Config} (h : Config.valid cfg = true) :
    cfg.layout.valid cfg.literals = true ∧ cfg.literals.valid = true ∧
      ∀ o ∈ cfg.tagCode.toList.drop (2 ^ cfg.literals.tagOpcodeBits), o = none := by
  simp only [Config.valid, Bool.and_eq_true, List.all_eq_true, Option.isNone_iff_eq_none] at h
  tauto

/-- The code of an opcode that the table names: the table gives it that opcode back (rule R82). -/
theorem tagOp_codeOf {cfg : Config} {op : TagOp} (h : cfg.tagCode.toList.contains (some op) = true) :
    cfg.tagOp (cfg.codeOf op) = some op := by
  unfold Config.codeOf
  cases hf : (List.finRange 8).find? (fun i => cfg.tagCode[i.val] == some op) with
  | some i => simpa [Config.tagOp] using List.find?_some hf
  | none =>
    simp only [List.contains_eq_mem, decide_eq_true_eq, List.mem_iff_getElem, Vector.length_toList] at h
    obtain ⟨i, hi, he⟩ := h
    have := List.find?_eq_none.1 hf ⟨i, hi⟩ (List.mem_finRange _)
    simp_all

/-- A value that names an opcode fits the opcode field. -/
theorem toNat_lt_of_tagOp {cfg : Config} (h : Config.valid cfg = true) {id : TagId} {op : TagOp}
    (hid : cfg.tagOp id = some op) : id.toNat < 2 ^ cfg.literals.tagOpcodeBits := by
  by_contra hle
  have hmem : cfg.tagOp id ∈ cfg.tagCode.toList.drop (2 ^ cfg.literals.tagOpcodeBits) := by
    refine List.mem_drop_iff_getElem.2 ⟨id.toNat - 2 ^ cfg.literals.tagOpcodeBits, ?_, ?_⟩
    · have := id.isLt
      simp
      omega
    · simp [Config.tagOp, show 2 ^ cfg.literals.tagOpcodeBits + (id.toNat - 2 ^ cfg.literals.tagOpcodeBits) =
        id.toNat by omega]
  have hnone := (encoding_of_valid h).2.2 _ hmem
  simp [hid] at hnone

/-- A well-formed tag decodes to its instruction on the walker of its channel. -/
theorem decode_encodeTag {cfg : Config} (h : Config.valid cfg = true) {v : Variant} {op : TagOp} {c : Chan}
    {a : Word} (hw : WellFormed.tag cfg v op c a = true) (q : BitVec 16) (irq : Bool) :
    decode cfg (encodeTag cfg op c q irq a) = .ok (tagInstr v op c q irq a) := by
  simp only [WellFormed.tag, Bool.and_eq_true, beq_iff_eq] at hw
  obtain ⟨⟨hwalker, hcode⟩, hlow⟩ := hw
  obtain ⟨hlayout, hliterals, -⟩ := encoding_of_valid h
  have hop := tagOp_codeOf hcode
  have hwidth : cfg.literals.unitBits ≤ 128 := by
    have := Literals.unitBits_of_valid hliterals
    omega
  have hfields : tagFields cfg (qwordOfBytes (qwordBytes cfg.unit (tagBits cfg.layout (cfg.codeOf op) q irq a))) =
      { id := cfg.codeOf op, q := q, irq := irq, a := a } := by
    rw [Config.qwordOfBytes_qwordBytes hliterals,
      tagFields_tagBits hlayout hwidth _ (toNat_lt_of_tagOp h hop), Config.align_of_low hlow]
  have hlength : (qwordBytes cfg.unit (tagBits cfg.layout (cfg.codeOf op) q irq a)).length = cfg.unit := by
    simp [qwordBytes]
  simp [decode, encodeTag, decodeTag, hlength, hfields, hop, hwalker]

/-! ## Events (rules R40, R88) -/

/-- The kind number of an event survives its four bits. -/
theorem decode_event (cfg : Config) (p : Domain) (k : Kind) (w : Word) :
    decode cfg (.event p (BitVec.ofNat 4 k.val) w) = .ok (decodeEvent p k w) := by
  have hk : (BitVec.ofNat 4 k.val).toFin = k := Fin.ext (Nat.mod_eq_of_lt k.isLt)
  rw [decode, hk]

/-- The first ten kinds are the continuations (rule R40). -/
theorem decodeEvent_continuation (p : Domain) (c : Fin 10) (w : Word) :
    decodeEvent p (dmaCont c) w =
      match p with
      | .main => .eventDmaContMain c w
      | .io => .eventDmaContIo c w := by
  cases p <;> simp [decodeEvent, dmaCont]

/-- The last four kinds are the timers (rule R40). -/
theorem decodeEvent_timer (p : Domain) (j : Fin 4) (w : Word) :
    decodeEvent p (timer j) w = .eventTimer p j w := by
  simp [decodeEvent, timer, show ¬ 12 + j.val < 10 by omega, show 12 + j.val ≠ 10 by omega,
    show 12 + j.val ≠ 11 by omega]

/-! ## Decoding inverts encoding -/

/-- Settles O1: each family of instructions by the lemma of its decoder. -/
theorem decodeEncode : Obligations.DecodeEncode := by
  intro cfg i h hw
  cases i with
  | refeFull | cntFull | nextFull | refFull | refsFull | callFull | retFull | endFull
  | refeSimple | cntSimple | nextSimple | refSimple | refsSimple | callSimple | retSimple | endSimple =>
    exact decode_encodeTag h hw _ _
  | wChcr | wMadr | wQwc | wTadr | wAsr0 | wAsr1 => exact decode_encodeWrite (r := .chan _ _) h hw rfl _
  | rChcr | rMadr | rQwc | rTadr | rAsr0 | rAsr1 => exact decode_encodeRead (r := .chan _ _) h hw rfl
  | wCtrl | wStat | wStadrS | wStadrD | wFstatGpath | wFstatBridge | wEnablew | wIoIstat | wIoImask =>
    exact decode_encodeWrite h rfl rfl _
  | rCtrl | rStat | rStadrS | rStadrD | rFstatGpath | rFstatBridge | rEnabler | rIoIstat | rIoImask =>
    exact decode_encodeRead h rfl rfl
  | wUnmapped | rUnmapped => exact decode_unmapped hw
  | eventDmaContMain c w =>
    exact (decode_event cfg .main (dmaCont c) w).trans (congrArg _ (decodeEvent_continuation .main c w))
  | eventDmaContIo c w =>
    exact (decode_event cfg .io (dmaCont c) w).trans (congrArg _ (decodeEvent_continuation .io c w))
  | eventTimer p j w =>
    exact (decode_event cfg p (timer j) w).trans (congrArg _ (decodeEvent_timer p j w))
  | eventIntTest | eventBridgeStepIo | eventBridgeStepMain => rfl

/-- Settles O4: every clause speaks of fixed words and the default configuration, and is evaluated. -/
theorem specWords : Obligations.SpecWords := by
  refine ⟨rfl, rfl, rfl, ?_⟩
  decide +kernel

/-! ## Writes of the idle channel's registers (rule R28) -/

/-- Settles O16: each of the five is a `writeIdle`, whose load is the record update stated. -/
theorem channelRegisterWrites : Obligations.ChannelRegisterWrites := by
  intro c v s down put
  have idle (load : Channel → Channel) :
      (.next (writeIdle c load s) : Result) = .next (put (load (s.ch c))) := rfl
  have written : s.cfg.literals = Literals.written →
      s.cfg.literals.qwcBits = 16 ∧ down v = v &&& 0xFFFFFFF0#32 := by
    intro h
    have hunit : s.cfg.unit = 16 := by simp [Config.unit, h, Literals.written]
    exact ⟨by rw [h]; rfl, by simp [down, hunit]⟩
  exact ⟨idle (·.withMadr s.cfg v), idle (Channel.withQwc s.cfg.literals.qwcBits · v), idle (·.withTadr s.cfg v),
    idle (·.withAsr0 s.cfg v), idle (·.withAsr1 s.cfg v), written⟩

end Sys2Proof.Machine
end

section
/-! PROOFS. The machine is total: outside the named refusals every step answers a next state. The invariant of a
pass is that no channel in Interleave mode is pending; every operation inside it lets nothing new wait. -/

namespace Sys2Proof.Machine

/-! ## Channels that wait (rules R30, R40, R120) -/

/-- Nothing new waits in `t`: the modes are those of `s`, a channel that is queued was queued, and a kind that
the running pass of MAIN still holds it held before. -/
structure NoNewWaiting (s t : State) : Prop where
  mod : ∀ c, (t.ch c).mod = (s.ch c).mod
  queued : ∀ c, (t.ch c).queued = true → (s.ch c).queued = true
  members : ∀ k, k ∈ t.schedMain.passSet → k ∈ s.schedMain.passSet

/-- While domain `p` runs its pass, no channel in Interleave mode waits in the queue or, in MAIN, for the pass to
fire its continuation. Unlike `NoInterleaveWaiting` this survives an outside agent that arms a continuation. -/
structure NoInterleavePending (p : Domain) (s : State) : Prop where
  queued : NoInterleaveQueued s
  members : p = .main → ∀ c, dmaCont c ∈ s.schedMain.passSet → effMode (s.ch c).mod ≠ .interleave

theorem NoNewWaiting.refl (s : State) : NoNewWaiting s s := ⟨fun _ => rfl, fun _ => id, fun _ => id⟩

theorem NoNewWaiting.trans {s t u : State} (h : NoNewWaiting s t) (h' : NoNewWaiting t u) : NoNewWaiting s u :=
  ⟨fun c => (h'.mod c).trans (h.mod c), fun c => h.queued c ∘ h'.queued c, fun k => h.members k ∘ h'.members k⟩

theorem NoNewWaiting.noInterleaveQueued {s t : State} (h : NoNewWaiting s t) (hs : NoInterleaveQueued s) :
    NoInterleaveQueued t := by
  intro c hc
  rw [h.mod c]
  exact hs c (h.queued c hc)

theorem NoNewWaiting.noInterleavePending {p : Domain} {s t : State} (h : NoNewWaiting s t)
    (hs : NoInterleavePending p s) : NoInterleavePending p t := by
  refine ⟨h.noInterleaveQueued hs.queued, fun hp c hc => ?_⟩
  rw [h.mod c]
  exact hs.members hp c (h.members _ hc)

/-- An update that leaves the channels alone and adds no member to the pass of MAIN. -/
theorem NoNewWaiting.of_chans {s t : State} (hc : t.chans = s.chans)
    (hm : ∀ k, k ∈ t.schedMain.passSet → k ∈ s.schedMain.passSet) : NoNewWaiting s t := by
  have hch : ∀ c, t.ch c = s.ch c := fun c => by simp only [State.ch, hc]
  exact ⟨fun c => by rw [hch], fun c => by rw [hch]; exact id, hm⟩

/-- An update that leaves the channels and the scheduler of MAIN alone. -/
theorem NoNewWaiting.of_eq {s t : State} (hc : t.chans = s.chans) (hm : t.schedMain = s.schedMain) :
    NoNewWaiting s t :=
  .of_chans hc fun k => by rw [hm]; exact id

theorem noNewWaiting_setCh {s : State} {c : Chan} {x : Channel} (hmod : x.mod = (s.ch c).mod)
    (hqueued : x.queued = true → (s.ch c).queued = true) : NoNewWaiting s (s.setCh c x) := by
  refine ⟨fun d => ?_, fun d => ?_, fun k => id⟩ <;> rw [State.ch_setCh] <;> split
  · next h => rw [hmod, h]
  · rfl
  · next h => rw [h]; exact hqueued
  · exact id

theorem noNewWaiting_setSched {s : State} {p : Domain} {x : Sched}
    (h : ∀ k, k ∈ x.passSet → k ∈ (s.sched p).passSet) : NoNewWaiting s (s.setSched p x) := by
  cases p
  · exact .of_chans rfl h
  · exact .of_eq rfl rfl

theorem noNewWaiting_setFifo (s : State) (f : FifoId) (x : Fifo) : NoNewWaiting s (s.setFifo f x) :=
  .of_eq (by simp) (by simp)

theorem noNewWaiting_setExc (s : State) (p : Domain) (b : Bool) : NoNewWaiting s (s.setExc p b) :=
  .of_eq (by simp) (by simp)

theorem noNewWaiting_tick (s : State) : NoNewWaiting s s.tick := .of_eq rfl rfl

/-- An event armed during a pass is no member of it (rule R155). -/
theorem noNewWaiting_arm (p : Domain) (k : Kind) (d : Nat) (w : Word) (s : State) :
    NoNewWaiting s (arm p k d w s) :=
  noNewWaiting_setSched fun _ hj => ((Sched.mem_arm_passSet _ _ _ _ _).1 hj).1

theorem noNewWaiting_cancel (p : Domain) (k : Kind) (s : State) : NoNewWaiting s (cancel p k s) :=
  noNewWaiting_setSched fun _ => id

theorem noNewWaiting_leavePass (p : Domain) (k : Kind) (s : State) :
    NoNewWaiting s (s.setSched p ((s.sched p).leavePass k)) :=
  noNewWaiting_setSched fun _ hj => List.mem_of_mem_filter hj

/-! ### The operations of a channel -/

/-- The interrupt test adds no member to a running pass. -/
theorem mem_testedSched_passSet {s : State} {p : Domain} {w : Word} {k : Kind}
    (h : k ∈ (testedSched s p w).passSet) : k ∈ (s.sched p).passSet := by
  unfold testedSched at h
  split at h
  · exact ((Sched.mem_arm_passSet ..).1 h).1
  · exact h

theorem noNewWaiting_raiseChannel (c : Chan) (s : State) : NoNewWaiting s (raiseChannel c s) := by
  rw [raiseChannel_eq]
  exact .of_chans rfl fun _ => mem_testedSched_passSet

theorem noNewWaiting_raiseStall (s : State) : NoNewWaiting s (raiseStall s) := by
  rw [raiseStall_eq]
  exact .of_chans rfl fun _ => mem_testedSched_passSet

theorem noNewWaiting_complete (c : Chan) (s : State) : NoNewWaiting s (complete c s) := by
  have hidle : NoNewWaiting s (s.setCh c { s.ch c with str := false }) := noNewWaiting_setCh rfl id
  exact hidle.trans (noNewWaiting_raiseChannel c _)

theorem noNewWaiting_haltChannel (c : Chan) (s : State) : NoNewWaiting s (haltChannel c s) := by
  have hidle : NoNewWaiting s (s.setCh c { s.ch c with str := false, queued := false }) :=
    noNewWaiting_setCh rfl (by simp)
  exact hidle.trans (noNewWaiting_cancel .main (dmaCont c) _)

theorem noNewWaiting_busError (c : Chan) (s : State) : NoNewWaiting s (busError c s) := by
  have hlatch : NoNewWaiting s { s with stat := setBeis s.cfg.layout s.stat } := .of_eq rfl rfl
  exact (hlatch.trans (noNewWaiting_haltChannel c _)).trans (noNewWaiting_raiseChannel c _)

theorem noNewWaiting_moveUnits (c : Chan) (n : Nat) (s : State) : NoNewWaiting s (moveUnits c n s).2 := by
  obtain ⟨x, g, b, o, m, h⟩ := moveUnits_frame c n s
  rw [h]
  exact .of_eq rfl rfl

theorem noNewWaiting_advanceChannel (c : Chan) (m : Nat) (s : State) : NoNewWaiting s (advanceChannel c m s) := by
  have stored (x : Channel) (hm : x.mod = (s.ch c).mod) (hq : x.queued = (s.ch c).queued) :
      NoNewWaiting s (s.setCh c x) := noNewWaiting_setCh hm fun h => hq.symm.trans h
  unfold advanceChannel
  dsimp only
  split
  · refine .trans (stored _ ?_ ?_) (.of_eq rfl rfl) <;> split <;> rfl
  · refine stored _ ?_ ?_ <;> split <;> rfl

theorem noNewWaiting_rearm (c : Chan) (wanted m : Nat) (s : State) : NoNewWaiting s (rearm c wanted m s) :=
  noNewWaiting_arm ..

theorem noNewWaiting_transferStep (c : Chan) (wanted n : Nat) (s : State) :
    NoNewWaiting s (transferStep c wanted n s) := by
  rcases transferStep_cases c wanted n s with ⟨-, h⟩ | ⟨m, t, ht, h⟩
  · rw [h]
    exact noNewWaiting_busError c s
  · rw [h]
    refine .trans ?_ (noNewWaiting_rearm ..)
    rcases transfer_cases c n s with ⟨-, hn⟩ | ⟨-, k, -, hk⟩
    · rw [hn] at ht
      cases ht
    · rw [hk] at ht
      cases ht
      exact (noNewWaiting_moveUnits c k s).trans (noNewWaiting_advanceChannel ..)

theorem noNewWaiting_stallLimit (c : Chan) (wanted : Nat) (s : State) :
    NoNewWaiting s (stallLimit c wanted s).2 := by
  have hpublish : NoNewWaiting s { s with stadrD := s.cfg.align (s.ch c).madr } := .of_eq rfl rfl
  unfold stallLimit
  dsimp only
  split
  · dsimp only
    generalize min wanted _ = allowed
    split
    · exact hpublish.trans (noNewWaiting_raiseStall _)
    · exact hpublish
  · exact .refl s

theorem noNewWaiting_blockStep (c : Chan) (s : State) : NoNewWaiting s (blockStep c s) := by
  rcases blockStep_cases c s with ⟨-, h⟩ | ⟨-, -, h⟩ | ⟨-, -, h⟩ <;> rw [h]
  · exact noNewWaiting_rearm ..
  · exact (noNewWaiting_stallLimit ..).trans (noNewWaiting_rearm ..)
  · exact (noNewWaiting_stallLimit ..).trans (noNewWaiting_transferStep ..)

/-! ### Tags -/

/-- A walker function writes neither the mode of its channel nor its queue bit (rules R131 to R144). -/
def KeepsModeAndQueue (walk : Channel → Channel × Bool) : Prop :=
  ∀ ch, (walk ch).1.mod = ch.mod ∧ (walk ch).1.queued = ch.queued

theorem noNewWaiting_loadTag {walk : Channel → Channel × Bool} (h : KeepsModeAndQueue walk) (c : Chan) (id : TagId)
    (q : BitVec 16) (irq : Bool) (s : State) : NoNewWaiting s (loadTag c id q irq walk s) := by
  obtain ⟨hmod, hqueued⟩ := h { s.ch c with qwc := q.toNat, curOp := some id }
  exact noNewWaiting_setCh hmod fun hq => hqueued.symm.trans hq

theorem keepsModeAndQueue_walkCall (cfg : Config) (q : Nat) (a : Word) : KeepsModeAndQueue (walkCall cfg q a) := by
  intro ch
  unfold walkCall Channel.pushAsr
  split
  · exact ⟨rfl, rfl⟩
  · dsimp only
    split <;> exact ⟨rfl, rfl⟩

theorem keepsModeAndQueue_walkRet (cfg : Config) : KeepsModeAndQueue (walkRet cfg) := by
  intro ch
  unfold walkRet
  dsimp only
  split <;> exact ⟨rfl, rfl⟩

theorem keepsModeAndQueue_walkEnd (cfg : Config) : KeepsModeAndQueue (walkEnd cfg) := fun _ => ⟨rfl, rfl⟩

/-- Every tag answers a next state in which nothing new waits. -/
theorem runTag_next (v : Variant) (op : TagOp) (c : Chan) (q : BitVec 16) (irq : Bool) (a : Word) (s : State) :
    ∃ t, runTag v op c q irq a s = .next t ∧ NoNewWaiting s t := by
  cases v <;> cases op
  case full.call => exact ⟨_, rfl, noNewWaiting_loadTag (keepsModeAndQueue_walkCall _ _ _) ..⟩
  case full.ret => exact ⟨_, rfl, noNewWaiting_loadTag (keepsModeAndQueue_walkRet _) ..⟩
  case full.end_ | simple.call | simple.ret | simple.end_ =>
    exact ⟨_, rfl, noNewWaiting_loadTag (keepsModeAndQueue_walkEnd _) ..⟩
  all_goals exact ⟨_, rfl, noNewWaiting_loadTag (fun _ => ⟨rfl, rfl⟩) ..⟩

/-- A fetch fails, or answers a next state in which nothing new waits. -/
theorem fetchTag_next (c : Chan) (s : State) :
    fetchTag c s = none ∨ ∃ t, fetchTag c s = some (.next t) ∧ NoNewWaiting s t := by
  unfold fetchTag
  split
  · right
    dsimp only
    split
    · obtain ⟨t, ht, hw⟩ := runTag_next s.cfg.walker[c.val] _ c _ _ _ s
      exact ⟨t, congrArg some ht, hw⟩
    · refine ⟨_, rfl, ?_⟩
      unfold undefinedTag
      split
      · exact noNewWaiting_loadTag (fun _ => ⟨rfl, rfl⟩) ..
      · exact noNewWaiting_loadTag (keepsModeAndQueue_walkEnd _) ..
  · exact .inl rfl

/-! ### Continuation, start and restart -/

/-- Outside the Interleave mode a continuation answers a next state in which nothing new waits. -/
theorem continueChan_next {c : Chan} {s : State} (h : effMode (s.ch c).mod ≠ .interleave) :
    ∃ t, continueChan c s = .next t ∧ NoNewWaiting s t := by
  unfold continueChan
  split
  · refine ⟨_, rfl, ?_⟩
    split
    · exact noNewWaiting_complete c s
    · exact noNewWaiting_transferStep ..
  · split
    · exact ⟨_, rfl, noNewWaiting_complete c s⟩
    · unfold stepChain
      split
      · rcases fetchTag_next c s with hf | ⟨t, hf, ht⟩ <;> rw [hf]
        · exact ⟨_, rfl, noNewWaiting_busError c s⟩
        · exact ⟨_, rfl, ht.trans (noNewWaiting_blockStep c t)⟩
      · exact ⟨_, rfl, noNewWaiting_blockStep c s⟩
  · next hi => exact absurd hi h

/-- A channel that is told to run answers a next state, unless it can run and is in Interleave mode. -/
theorem runOrQueue_next {c : Chan} {s : State} (h : s.canRun c = true → effMode (s.ch c).mod ≠ .interleave) :
    ∃ t, runOrQueue c s = .next t := by
  rcases runOrQueue_cases c s with ⟨hrun, he⟩ | ⟨-, he⟩ <;> rw [he]
  · obtain ⟨t, ht, -⟩ := continueChan_next (h hrun)
    rw [ht]
    exact ⟨_, rfl⟩
  · exact ⟨_, rfl⟩

/-- Only the channel itself joins the queue. -/
theorem noInterleavePending_enqueue {p : Domain} {c : Chan} {s : State} (hs : NoInterleavePending p s)
    (h : effMode (s.ch c).mod ≠ .interleave) : NoInterleavePending p (enqueue c s) := by
  have hmod : ∀ d, ((enqueue c s).ch d).mod = (s.ch d).mod := fun d => by
    rw [enqueue, State.ch_setCh]
    split
    · next hd => rw [hd]
    · rfl
  refine ⟨fun d hd => ?_, fun hp d hd => ?_⟩ <;> rw [hmod d]
  · by_cases hdc : d = c
    · exact hdc ▸ h
    · exact hs.queued d (by simpa [enqueue, hdc] using hd)
  · exact hs.members hp d hd

/-- The continuation of a channel outside the Interleave mode leaves no channel of that mode pending. -/
theorem onDmaCont_next {p : Domain} {c : Chan} {s : State} (hs : NoInterleavePending p s)
    (h : effMode (s.ch c).mod ≠ .interleave) : ∃ t, onDmaCont c s = .next t ∧ NoInterleavePending p t := by
  unfold onDmaCont
  rcases runOrQueue_cases c s with ⟨-, he⟩ | ⟨-, he⟩ <;> rw [he]
  · obtain ⟨t, ht, hw⟩ := continueChan_next h
    rw [ht]
    exact ⟨_, rfl, (hw.trans (noNewWaiting_tick t)).noInterleavePending hs⟩
  · exact ⟨_, rfl, (noNewWaiting_tick _).noInterleavePending (noInterleavePending_enqueue hs h)⟩

/-- A queued channel resumes. -/
theorem resume_next {c : Chan} {s : State} (h : effMode (s.ch c).mod ≠ .interleave) :
    ∃ t, resume c s = .next t ∧ NoNewWaiting s t := by
  have hq : NoNewWaiting s (s.setCh c { s.ch c with queued := false }) := noNewWaiting_setCh rfl fun h => nomatch h
  have hmode : effMode ((s.setCh c { s.ch c with queued := false }).ch c).mod ≠ .interleave := by simpa using h
  obtain ⟨t, ht, hw⟩ := continueChan_next hmode
  refine ⟨t.tick, ?_, hq.trans (hw.trans (noNewWaiting_tick t))⟩
  unfold resume
  rw [ht]
  rfl

theorem restartFrom_next (l : List Chan) {s : State} (hs : NoInterleaveQueued s) :
    ∃ t, restartFrom l s = .next t := by
  induction l generalizing s with
  | nil => exact ⟨s, rfl⟩
  | cons c l ih =>
    rcases restartFrom_cons c l s with ⟨-, h⟩ | ⟨-, -, h⟩ | ⟨hq, -, h⟩ <;> rw [h]
    · exact ih hs
    · exact ih ((noNewWaiting_tick s).noInterleaveQueued hs)
    · obtain ⟨t, ht, hw⟩ := resume_next (hs c hq)
      rw [ht]
      exact ih (hw.noInterleaveQueued hs)

theorem chanUnmasked_next (c : Chan) {s : State} (hs : NoInterleaveQueued s) :
    ∃ t, chanUnmasked c s = .next t ∧ NoNewWaiting s t := by
  unfold chanUnmasked
  split
  · next hq =>
    split
    · exact resume_next (hs c hq)
    · exact ⟨_, rfl, noNewWaiting_tick s⟩
  · exact ⟨s, rfl, .refl s⟩

/-! ### Outside agents -/

theorem setPathMask_next (f : FifoId) (i : Nat) (b : Bool) {s : State} (hs : NoInterleaveQueued s) :
    ∃ t, setPathMask f i b s = .next t ∧ NoNewWaiting s t := by
  have hw : NoNewWaiting s (s.setFifo f { s.fifo f with pmask := (s.fifo f).pmask.set i b }) :=
    noNewWaiting_setFifo ..
  unfold setPathMask
  dsimp only
  split
  · split
    · exact ⟨_, rfl, hw⟩
    · obtain ⟨t, ht, hw'⟩ := chanUnmasked_next _ (hw.noInterleaveQueued hs)
      exact ⟨t, ht, hw.trans hw'⟩
  · exact ⟨_, rfl, hw⟩

theorem noNewWaiting_workerPost (g : Signal) (w : DWord) (s : State) : NoNewWaiting s (workerPost g w s) := by
  cases g <;> exact .of_eq rfl rfl

theorem noNewWaiting_afterMove (f : FifoId) (n : Nat) (s : State) : NoNewWaiting s (afterMove f n s) := by
  rw [afterMove_eq]
  exact .of_eq rfl rfl

theorem noNewWaiting_arbWriteDirect (f : FifoId) (i : Nat) (d : List Qword) (s : State) :
    NoNewWaiting s (arbWriteDirect f i d s).2 := by
  rcases arbWriteDirect_cases f i d s with h | ⟨-, h⟩ <;> rw [h]
  · exact .refl s
  · exact noNewWaiting_setFifo ..

/-- An outside operation answers a next state in which nothing new waits. -/
theorem performExt_next (p : Domain) (e : ExtOp) {s : State} (hs : NoInterleaveQueued s) :
    ∃ t, performExt p e s = .next t ∧ NoNewWaiting s t := by
  have emitted (o : Output) (t : State) : NoNewWaiting t (t.emit o) := .of_eq rfl rfl
  cases hp : permitted p s e with
  | false => exact ⟨s, performExt_not_permitted hp, .refl s⟩
  | true =>
    unfold performExt
    rw [if_pos hp]
    cases e with
    | arm q k d w => exact ⟨_, rfl, noNewWaiting_arm ..⟩
    | cancel q k => exact ⟨_, rfl, noNewWaiting_cancel ..⟩
    | pathRequest f i b => exact ⟨_, rfl, noNewWaiting_setFifo ..⟩
    | arbWriteDirect f i d =>
      exact ⟨_, rfl, (noNewWaiting_arbWriteDirect ..).trans
        ((emitted _ _).trans ((noNewWaiting_afterMove ..).trans (noNewWaiting_tick _)))⟩
    | setPathMask f i b => exact setPathMask_next f i b hs
    | fifoDrain f k =>
      exact ⟨_, rfl, (noNewWaiting_setFifo ..).trans ((emitted _ _).trans (noNewWaiting_afterMove ..))⟩
    | notify c d => exact ⟨_, rfl, noNewWaiting_arm ..⟩
    | chanUnmasked c => exact chanUnmasked_next c hs
    | workerPost g w => exact ⟨_, rfl, noNewWaiting_workerPost ..⟩

theorem performExts_next (p : Domain) (l : List ExtOp) {s : State} (hs : NoInterleaveQueued s) :
    ∃ t, performExts p l s = .next t ∧ NoNewWaiting s t := by
  induction l generalizing s with
  | nil => exact ⟨s, rfl, .refl s⟩
  | cons e l ih =>
    obtain ⟨t, ht, hw⟩ := performExt_next p e hs
    obtain ⟨u, hu, hw'⟩ := ih (hw.noInterleaveQueued hs)
    rw [performExts_cons, ht]
    exact ⟨u, hu, hw.trans hw'⟩

theorem extHandler_next (p : Domain) {q : Domain} {s : State} (hs : NoInterleavePending q s) :
    ∃ t, extHandler p s = .next t ∧ NoInterleavePending q t := by
  have htick := noNewWaiting_tick s
  obtain ⟨t, ht, hw⟩ := performExts_next p s.answers.handler (htick.noInterleaveQueued hs.queued)
  exact ⟨t, ht, (htick.trans hw).noInterleavePending hs⟩

/-! ### Passes -/

/-- The handler of a kind answers a next state and leaves no channel in Interleave mode pending, if the kind is
not the MAIN continuation of such a channel (rule R157). -/
theorem runHandler_next {p : Domain} {k : Kind} (w : Word) {s : State} (hs : NoInterleavePending p s)
    (hk : p = .main → ∀ c, k = dmaCont c → effMode (s.ch c).mod ≠ .interleave) :
    ∃ t, runHandler p k w s = .next t ∧ NoInterleavePending p t := by
  unfold runHandler decodeEvent
  split
  · next hlt =>
    cases p with
    | main => exact onDmaCont_next hs (hk rfl ⟨k.val, hlt⟩ rfl)
    | io => exact extHandler_next .io hs
  · split
    · exact ⟨_, rfl, (noNewWaiting_setExc ..).noInterleavePending hs⟩
    · split
      · cases p with
        | main => exact ⟨s, rfl, hs⟩
        | io => exact extHandler_next .io hs
      · exact extHandler_next p hs

/-- A member of the snapshot fires, and still no channel in Interleave mode is pending. -/
theorem fire_next {p : Domain} {k : Kind} {s : State} (hs : NoInterleavePending p s)
    (hk : k ∈ (s.sched p).passSet) : ∃ t, fire p k s = .next t ∧ NoInterleavePending p t := by
  have hleave := noNewWaiting_leavePass p k s
  cases ha : (s.sched p).slots[k.val].armed with
  | false => exact ⟨_, fire_not_armed ha, hleave.noInterleavePending hs⟩
  | true =>
    rw [fire_armed ha]
    have hcancel := hleave.trans (noNewWaiting_cancel p k _)
    refine runHandler_next _ (hcancel.noInterleavePending hs) fun hp c hc => ?_
    subst hp hc
    rw [hcancel.mod c]
    exact hs.members rfl c hk

/-- The kind that fires next is a member of the snapshot (rule R156). -/
theorem firstToFire_mem (x : Sched) (k : Kind) (l : List Kind) : firstToFire x k l ∈ k :: l := by
  induction l generalizing k with
  | nil => exact List.mem_cons_self
  | cons j l ih =>
    rw [firstToFire]
    split
    · exact List.mem_cons_of_mem _ (ih j)
    · exact List.cons_subset_cons k (List.subset_cons_self j l) (ih k)

theorem fireAll_next (p : Domain) (n : Nat) {s : State} (hs : NoInterleavePending p s) :
    ∃ t, fireAll p n s = .next t := by
  induction n generalizing s with
  | zero => exact ⟨s, rfl⟩
  | succ n ih =>
    cases hp : (s.sched p).passSet with
    | nil => exact ⟨s, fireAll_nil hp⟩
    | cons j l =>
      obtain ⟨t, ht, hw⟩ := fire_next hs (hp ▸ firstToFire_mem (s.sched p) j l)
      rw [fireAll_cons hp, ht]
      exact ih hw

/-- The start of a pass leaves the channels alone. -/
theorem passStart_chans (p : Domain) (s : State) : (passStart p s).chans = s.chans := by
  cases p with
  | main =>
    obtain ⟨o, h⟩ := workerTake_eq (reanchor s)
    simp only [passStart, h]
    rfl
  | io => rfl

/-- At the start of a pass the snapshot is armed, so none of its members is pending in Interleave mode. -/
theorem noInterleavePending_snapshot (p : Domain) {s : State} (hs : NoInterleaveWaiting s) :
    NoInterleavePending p ((passStart p s).setSched p (s.sched p).snapshot) := by
  have hch : ∀ c, ((passStart p s).setSched p (s.sched p).snapshot).ch c = s.ch c := fun c => by
    rw [State.ch_setSched, State.ch, passStart_chans, State.ch]
  refine ⟨fun c hc => ?_, fun hp c hc => ?_⟩
  · rw [hch] at hc ⊢
    exact hs c (.inl hc)
  · subst hp
    rw [hch]
    have hdue : s.schedMain.isDue (dmaCont c) = true := (List.mem_filter.1 hc).2
    exact hs c (.inr (Bool.and_eq_true_iff.1 hdue).1)

theorem pass_next (p : Domain) {s : State} (hs : NoInterleaveWaiting s) : ∃ t, pass p s = .next t := by
  unfold pass
  dsimp only
  rw [passStart_sched]
  obtain ⟨t, ht⟩ := fireAll_next p _ (noInterleavePending_snapshot p hs)
  rw [ht]
  exact ⟨_, rfl⟩

/-- What happens while an operation is held answers a next state. -/
theorem release_next (p : Domain) {s : State} (hs : NoInterleaveWaiting s) : ∃ t, release p s = .next t := by
  rcases release_cases p s with ⟨q, -, h⟩ | ⟨-, -, -, t, -, h⟩ | h
  · rw [h]
    exact pass_next q hs
  · exact ⟨t, h⟩
  · exact ⟨s, h⟩

theorem ticked_next {r : Result} (h : ∃ t, r = .next t) : ∃ t, ticked r = .next t := by
  obtain ⟨t, rfl⟩ := h
  exact ⟨t.tick, rfl⟩

/-- With no operation offered the machine answers a next state. -/
theorem idle_next {s : State} (hs : NoInterleaveWaiting s) : ∃ t, idle s = .next t := by
  unfold idle idleTurn
  dsimp only
  split
  · split
    · exact ticked_next (release_next _ hs)
    · split
      · exact ticked_next (release_next _ hs)
      · split
        · exact ⟨_, rfl⟩
        · split <;> exact ⟨_, rfl⟩
  · exact ⟨s, rfl⟩

/-! ## Register accesses -/

theorem effMode_eq_interleave {m : BitVec 2} : effMode m = .interleave ↔ m = 2#2 := by
  revert m
  decide

/-- A write of `CHCR` answers a next state, unless it starts an Interleave transfer that can run (rule R120). -/
theorem exec_wChcr_next {c : Chan} {x : Word} {s : State}
    (h : ¬ (x.getLsbD s.cfg.layout.chcrSTR = true ∧ (s.ch c).str = false ∧ s.canRun c = true ∧
      x.extractLsb' s.cfg.layout.chcrMOD 2 = 2#2)) : ∃ t, exec (.wChcr c x) s = .next t := by
  change ∃ t, execWChcr c x s = .next t
  unfold execWChcr
  cases hstr : (s.ch c).str with
  | true => cases hx : x.getLsbD s.cfg.layout.chcrSTR <;> exact ⟨_, rfl⟩
  | false =>
    cases hx : x.getLsbD s.cfg.layout.chcrSTR with
    | false => exact ⟨_, rfl⟩
    | true =>
      refine runOrQueue_next fun hrun => ?_
      rw [ne_eq, effMode_eq_interleave, State.ch_setCh_self, State.ch_setCh_self]
      exact fun hmod => h ⟨hx, hstr, hrun, hmod⟩

theorem afterEnableWrite_next (was : Bool) {s : State} (hs : NoInterleaveQueued s) :
    ∃ t, afterEnableWrite was s = .next t := by
  unfold afterEnableWrite
  split
  · exact restartFrom_next _ hs
  · exact ⟨s, rfl⟩

/-- The write of a register answers a next state, `CHCR` under the condition of its rule. -/
theorem exec_writeInstr_next (a v : Word) (r : RegName) {s : State} (hs : NoInterleaveQueued s)
    (h : ∀ c x, writeInstr a v r = .wChcr c x → ∃ t, exec (.wChcr c x) s = .next t) :
    ∃ t, exec (writeInstr a v r) s = .next t := by
  cases r with
  | chan c r =>
    cases r with
    | chcr => exact h c v rfl
    | _ => exact ⟨_, rfl⟩
  | fstat f => cases f <;> exact ⟨_, rfl⟩
  | ctrl => exact afterEnableWrite_next (s := { s with dmae := _ }) _ hs
  | enablew => exact afterEnableWrite_next (s := { s with cpnd := _ }) _ hs
  | _ => exact ⟨_, rfl⟩

theorem exec_readInstr_next (a : Word) (r : RegName) (s : State) : ∃ t, exec (readInstr a r) s = .next t := by
  cases r with
  | chan c r => cases r <;> exact ⟨_, rfl⟩
  | fstat f => cases f <;> exact ⟨_, rfl⟩
  | _ => exact ⟨_, rfl⟩

/-- An aligned access of 32 bits decodes to the write or the read of a register, or to an unmapped access (rules
R86, R245). -/
theorem decode_access_cases (cfg : Config) (p : Domain) (d : Dir) {a : Word} (v : Word) (ha : a.toNat % 4 = 0) :
    ∃ i, decode cfg (.access p d 32 a v) = .ok i ∧
      ((∃ r, i = writeInstr a v r) ∨ (∃ r, i = readInstr a r) ∨ i = .wUnmapped p a v ∨
        i = .rUnmapped p a) := by
  simp only [decode, decodeAccess, ha, ne_eq, not_true_eq_false, if_false]
  cases d with
  | write =>
    cases cfg.regAt p .write a with
    | some r => exact ⟨_, rfl, .inl ⟨r, rfl⟩⟩
    | none => exact ⟨_, rfl, .inr (.inr (.inl rfl))⟩
  | read =>
    cases cfg.regAt p .read a with
    | some r => exact ⟨_, rfl, .inr (.inl ⟨r, rfl⟩)⟩
    | none => exact ⟨_, rfl, .inr (.inr (.inr rfl))⟩

/-- An aligned access of 32 bits answers a next state, a write of `CHCR` under the condition of its rule. -/
theorem runAccess_next {p : Domain} {d : Dir} {a v : Word} {s : State} (hs : NoInterleaveQueued s)
    (ha : a.toNat % 4 = 0)
    (h : ∀ c x, decode s.cfg (.access p d 32 a v) = .ok (.wChcr c x) → ∃ t, exec (.wChcr c x) s = .next t) :
    ∃ t, runAccess p d 32 a v s = .next t := by
  obtain ⟨i, hd, hi⟩ := decode_access_cases s.cfg p d v ha
  have hrun : runAccess p d 32 a v s = exec i s := by rw [runAccess, hd]
  rw [hrun]
  rcases hi with ⟨r, rfl⟩ | ⟨r, rfl⟩ | rfl | rfl
  · exact exec_writeInstr_next a v r hs fun c x hx => h c x (hx ▸ hd)
  · exact exec_readInstr_next a r s
  · exact ⟨_, rfl⟩
  · exact ⟨_, rfl⟩

/-! ## One step -/

/-- An operation other than a register access that may act now answers a next state. -/
theorem perform_next {op : Op} {held s : State} (hheld : NoInterleaveWaiting held) (hs : NoInterleaveWaiting s)
    (haccess : ∀ p d n a v, op = .access p d n a v → mayAct p s = true → ∃ t, runAccess p d n a v s = .next t) :
    ∃ t, perform op held s = .next t := by
  have hqueued : NoInterleaveQueued s := fun c hc => hs c (.inl hc)
  cases op with
  | access p d n a v =>
    unfold perform
    dsimp only
    split
    · next hact => exact haccess p d n a v rfl hact
    · exact release_next p hheld
  | advance p n =>
    unfold perform
    dsimp only
    split
    · exact ⟨s, rfl⟩
    · split
      · exact ⟨_, rfl⟩
      · exact release_next p hheld
  | pass p =>
    unfold perform
    dsimp only
    split
    · exact pass_next p hs
    · split
      · exact release_next p hheld
      · exact ⟨s, rfl⟩
  | ext p e =>
    unfold perform
    dsimp only
    split
    · obtain ⟨t, ht, -⟩ := performExt_next p e hqueued
      exact ⟨t, ht⟩
    · exact release_next p hheld
  | reanchor | store | remap | reset => exact ⟨_, rfl⟩

/-- Settles O60: the operation at the head of the agenda, or the idle machine, answers a next state; taking it off
and counting it changes nothing that waits. -/
theorem stepIsTotal : Obligations.StepIsTotal := by
  intro s hvalid hwindow hwait hshape
  have hcounted : NoInterleaveWaiting { s with opCount := s.opCount + 1 } := hwait
  unfold step runStep
  split
  · rw [admitted_eq hvalid hwindow]
    exact idle_next hcounted
  · next op rest hagenda =>
    rw [admitted_eq hvalid hwindow]
    have htaken : NoInterleaveWaiting { s with opCount := s.opCount + 1, agenda := rest } := hwait
    refine perform_next hcounted htaken fun p d n a v hop hact => ?_
    subst hop
    obtain ⟨rfl, haligned, hstart⟩ := hshape p d n a v rest hagenda hact
    exact runAccess_next (fun c hc => htaken c (.inl hc)) haligned fun c x hx => exec_wChcr_next (hstart c x hx)

end Sys2Proof.Machine
end

section
/-! PROOFS. The FIFO rings: a ring stands for a queue, and keeps its form under every operation. -/

namespace Sys2Proof.Machine

/-! ## One unit enters, one unit leaves (rules R191, R192) -/

/-- What holds of a ring also while its status mirror waits to be updated. -/
structure RingWf (cap : Nat) (q : Fifo) : Prop where
  length : q.data.length = cap
  size_le : q.size ≤ cap
  readPos_lt : q.readPos < cap
  writePos_eq : q.writePos = (q.readPos + q.size) % cap

/-- Different distances below the length of a ring lead to different positions. -/
theorem add_mod_ne {cap r i j : Nat} (hij : i < j) (hj : j < cap) : (r + i) % cap ≠ (r + j) % cap := by
  intro h
  have hmod : i ≡ j [MOD cap] := Nat.ModEq.add_left_cancel' r h
  rw [Nat.ModEq, Nat.mod_eq_of_lt (hij.trans hj), Nat.mod_eq_of_lt hj] at hmod
  omega

theorem RingWf.push {cap : Nat} {q : Fifo} (h : RingWf cap q) (hroom : q.size < cap) (x : Qword) :
    RingWf cap (q.push cap x) where
  length := by simpa [Fifo.push] using h.length
  size_le := hroom
  readPos_lt := h.readPos_lt
  writePos_eq := by simp [Fifo.push, h.writePos_eq, Nat.add_assoc]

/-- A unit that enters is the youngest. -/
theorem contents_push {cap : Nat} {q : Fifo} (h : RingWf cap q) (hroom : q.size < cap) (x : Qword) :
    (q.push cap x).contents cap = q.contents cap ++ [x] := by
  have hpos : 0 < cap := by omega
  have hlast : (q.readPos + q.size) % cap < q.data.length := by rw [h.length]; exact Nat.mod_lt _ hpos
  simp only [Fifo.contents, Fifo.push, List.range_succ, List.map_append, List.map_cons, List.map_nil,
    h.writePos_eq]
  congr 1
  · refine List.map_congr_left fun i hi => ?_
    have hne := add_mod_ne (r := q.readPos) (List.mem_range.1 hi) hroom
    simp [List.getD_eq_getElem?_getD, List.getElem?_set_ne hne.symm]
  · simp [List.getD_eq_getElem?_getD, hlast]

/-- The ring without its oldest unit. -/
def Fifo.dropOldest (cap : Nat) (q : Fifo) : Fifo := { q with readPos := (q.readPos + 1) % cap, size := q.size - 1 }

theorem pops_succ (cap n : Nat) (q : Fifo) :
    Fifo.pops cap (n + 1) q =
      (q.data.getD q.readPos 0#128 :: (Fifo.pops cap n (q.dropOldest cap)).1, (Fifo.pops cap n (q.dropOldest cap)).2) :=
  rfl

theorem RingWf.dropOldest {cap : Nat} {q : Fifo} (h : RingWf cap q) (hsome : 0 < q.size) :
    RingWf cap (q.dropOldest cap) where
  length := h.length
  size_le := (Nat.sub_le _ _).trans h.size_le
  readPos_lt := Nat.mod_lt _ (Nat.zero_lt_of_lt h.readPos_lt)
  writePos_eq := by
    simp only [Fifo.dropOldest, h.writePos_eq, Nat.mod_add_mod]
    congr 1
    omega

/-- The unit that leaves is the oldest. -/
theorem contents_dropOldest {cap : Nat} {q : Fifo} (h : RingWf cap q) (hsome : 0 < q.size) :
    q.contents cap = q.data.getD q.readPos 0#128 :: (q.dropOldest cap).contents cap := by
  obtain ⟨n, hn⟩ : ∃ n, q.size = n + 1 := ⟨q.size - 1, by omega⟩
  simp only [Fifo.contents, Fifo.dropOldest, hn, List.range_succ_eq_map, List.map_cons, List.map_map,
    Nat.add_zero, Nat.mod_eq_of_lt h.readPos_lt, Nat.add_sub_cancel]
  congr 1
  refine List.map_congr_left fun i _ => ?_
  simp only [Function.comp_apply, Nat.mod_add_mod]
  congr 2
  omega

/-! ## Several units -/

/-- Units enter as long as there is room for them. -/
theorem foldl_push {cap : Nat} (d : List Qword) {q : Fifo} (h : RingWf cap q) (hroom : q.size + d.length ≤ cap) :
    RingWf cap (d.foldl (Fifo.push cap) q) ∧ (d.foldl (Fifo.push cap) q).contents cap = q.contents cap ++ d := by
  induction d generalizing q with
  | nil => exact ⟨h, by simp⟩
  | cons x d ih =>
    have hlt : q.size < cap := by simp only [List.length_cons] at hroom; omega
    have hroom' : (q.push cap x).size + d.length ≤ cap := by
      simp only [List.length_cons, Fifo.push] at hroom ⊢
      omega
    obtain ⟨hwf, hc⟩ := ih (h.push hlt x) hroom'
    exact ⟨hwf, by rw [List.foldl_cons, hc, contents_push h hlt]; simp⟩

/-- Units leave as long as there are any. -/
theorem pops_ring {cap : Nat} (n : Nat) {q : Fifo} (h : RingWf cap q) (hn : n ≤ q.size) :
    RingWf cap (Fifo.pops cap n q).2 ∧
      q.contents cap = (Fifo.pops cap n q).1 ++ (Fifo.pops cap n q).2.contents cap := by
  induction n generalizing q with
  | zero => exact ⟨h, by simp [Fifo.pops]⟩
  | succ n ih =>
    have hsome : 0 < q.size := by omega
    obtain ⟨hwf, hc⟩ := ih (h.dropOldest hsome) (by simp only [Fifo.dropOldest]; omega)
    rw [pops_succ]
    exact ⟨hwf, by rw [contents_dropOldest h hsome, hc]; rfl⟩

/-- Entering units change neither the requests nor the masks. -/
theorem foldl_push_producers (cap : Nat) (d : List Qword) (q : Fifo) :
    (d.foldl (Fifo.push cap) q).req = q.req ∧ (d.foldl (Fifo.push cap) q).pmask = q.pmask := by
  induction d generalizing q with
  | nil => exact ⟨rfl, rfl⟩
  | cons x d ih => exact ih (q.push cap x)

/-- Leaving units change neither the requests nor the masks. -/
theorem pops_producers (cap n : Nat) (q : Fifo) :
    (Fifo.pops cap n q).2.req = q.req ∧ (Fifo.pops cap n q).2.pmask = q.pmask := by
  induction n generalizing q with
  | zero => exact ⟨rfl, rfl⟩
  | succ n ih => exact ih (q.dropOldest cap)

/-! ## The operations with their mirror (rule R194) -/

theorem FifoWf.ring {l : Layout} {cap threshold np : Nat} {q : Fifo} (h : FifoWf l cap threshold np q) :
    RingWf cap q := by
  obtain ⟨hlength, hsize, hread, hwrite, -⟩ := h
  exact ⟨hlength, hsize, hread, hwrite⟩

/-- Updating the mirror of a ring makes it well formed. -/
theorem RingWf.updateFstat {cap np : Nat} {q : Fifo} (h : RingWf cap q) (l : Layout) (threshold : Nat)
    (hreq : q.req.length = np) (hpmask : q.pmask.length = np) :
    FifoWf l cap threshold np (q.updateFstat l threshold) :=
  ⟨h.length, h.size_le, h.readPos_lt, h.writePos_eq, rfl, hreq, hpmask⟩

/-- A write keeps the ring well formed. -/
theorem FifoWf.write {l : Layout} {cap threshold np : Nat} {q : Fifo} (h : FifoWf l cap threshold np q)
    (d : List Qword) : FifoWf l cap threshold np (q.write l cap threshold d).2 := by
  obtain ⟨hring, -⟩ := foldl_push (d.take (min d.length (cap - q.size))) h.ring
    (by have := h.ring.size_le; simp only [List.length_take]; omega)
  obtain ⟨-, -, -, -, -, hreq, hpmask⟩ := h
  obtain ⟨hreq', hpmask'⟩ := foldl_push_producers cap (d.take (min d.length (cap - q.size))) q
  exact hring.updateFstat l threshold (hreq' ▸ hreq) (hpmask' ▸ hpmask)

/-- A read keeps the ring well formed. -/
theorem FifoWf.read {l : Layout} {cap threshold np : Nat} {q : Fifo} (h : FifoWf l cap threshold np q)
    (k : Nat) : FifoWf l cap threshold np (q.read l cap threshold k).2 := by
  obtain ⟨hring, -⟩ := pops_ring (min k q.size) h.ring (Nat.min_le_right ..)
  obtain ⟨-, -, -, -, -, hreq, hpmask⟩ := h
  obtain ⟨hreq', hpmask'⟩ := pops_producers cap (min k q.size) q
  exact hring.updateFstat l threshold (hreq' ▸ hreq) (hpmask' ▸ hpmask)

/-- Settles O47: a write is a fold of pushes, a read a run of pops, and each of them is the queue operation on the
contents. -/
theorem fifoIsAQueue : Obligations.FifoIsAQueue := by
  intro l cap threshold np q d k h
  have hroom : q.size + (d.take (min d.length (cap - q.size))).length ≤ cap := by
    have := h.ring.size_le
    simp only [List.length_take]
    omega
  obtain ⟨-, hwritten⟩ := foldl_push _ h.ring hroom
  obtain ⟨-, hleft⟩ := pops_ring (min k q.size) h.ring (Nat.min_le_right ..)
  exact ⟨⟨rfl, h.write d, hwritten⟩, Fifo.pops_length .., h.read k, hleft⟩

end Sys2Proof.Machine
end

section
/-! PROOFS. What one step of the machine is made of. A `Passive` change leaves every channel alone; a `ChanMove` is one
change in the midst of a step of one channel, an `Atom` one change of it at any point; an `Act` is one thing that
happens inside an operation that is neither a register access nor a reset. `step_cases` takes a step apart into
them, so an invariant of every step is proved once for each kind of change. -/

namespace Sys2Proof.Machine

/-! ## The kinds of change -/

/-- A change that leaves every channel, every setting, the completion bits and the continuations of MAIN that are not
armed alone. -/
inductive Passive (s : State) : State → Prop
  /-- The environment, the lines to the CPUs, the values that reads return, the mailbox, the count of operations. -/
  | surroundings (excMain excIo : Bool) (wk : Mailbox) (map : Option (List Region)) (script : List Answers)
      (ticks opCount : Nat) (endpointMoved : Bool) (agenda : List Op) (readMain readIo : Word) :
      Passive s { s with
        excMain := excMain, excIo := excIo, wk := wk, map := map, script := script, ticks := ticks,
        opCount := opCount, endpointMoved := endpointMoved, agenda := agenda, readMain := readMain,
        readIo := readIo }
  | emitted (o : Output) (h : ∀ c d, o ≠ .unit c d) : Passive s (s.emit o)
  | reanchored : Passive s (reanchor s)
  /-- A scheduler changes, its slots do not. -/
  | clock (p : Domain) (x : Sched) (h : x.slots = (s.sched p).slots) : Passive s (s.setSched p x)
  | cancelled (p : Domain) (k : Kind) : Passive s (cancel p k s)
  | armed (p : Domain) (k : Kind) (d : Nat) (w : Word) (h : p = .main → ∀ c, k ≠ dmaCont c) :
      Passive s (arm p k d w s)
  | ring (f : FifoId) (x : Fifo)
      (h : ∀ np, FifoWf s.cfg.layout (cap s.cfg f) (fullThreshold s.cfg f) np (s.fifo f) →
        FifoWf s.cfg.layout (cap s.cfg f) (fullThreshold s.cfg f) np x) : Passive s (s.setFifo f x)
  | memory (m : List Host.Cell) (h : Memory.wf s.mem = true → Memory.wf m = true) : Passive s { s with mem := m }
  | stalled : Passive s { s with stat := setSis s.cfg.layout s.stat }
  | failed : Passive s { s with stat := setBeis s.cfg.layout s.stat }
  | source (v : Word) : Passive s { s with stadrS := s.cfg.align v }
  | drain (v : Word) : Passive s { s with stadrD := s.cfg.align v }

/-- The fields of `CHCR` that only software writes, beside `ASP` (rule R22). -/
def Channel.settings (ch : Channel) : Bool × BitVec 2 × BitVec 2 × BitVec 3 × Bool :=
  (ch.dir, ch.mod, ch.stm, ch.chop, ch.tie)

/-- What a step of a channel may make of its registers: it starts nothing, and a count above 0xFFFF is no new one. -/
structure Channel.Steps (cfg : Config) (ch x : Channel) : Prop where
  settings : x.settings = ch.settings
  str : x.str = true → ch.str = true
  wf : ChannelWf cfg ch → ChannelWf cfg x
  count : x.qwc ≤ 0xFFFF ∨ x.qwc ≤ ch.qwc

/-- A step of the registers in whose midst the channel stays busy, and in or out of the queue, as it was. -/
structure Channel.Follows (cfg : Config) (ch x : Channel) : Prop where
  steps : Channel.Steps cfg ch x
  str : x.str = ch.str
  queued : x.queued = ch.queued

/-- One change in the midst of a step of channel `c`. -/
inductive ChanMove (c : Chan) (s : State) : State → Prop
  | passive {t : State} (h : Passive s t) : ChanMove c s t
  | registers (x : Channel) (h : Channel.Follows s.cfg (s.ch c) x) : ChanMove c s (s.setCh c x)
  | units (d : List Qword) : ChanMove c s (s.emit (.unit c d))

/-- One change by channel `c`. -/
inductive Atom (c : Chan) (s : State) : State → Prop
  | passive {t : State} (h : Passive s t) : Atom c s t
  | registers (x : Channel) (h : Channel.Steps s.cfg (s.ch c) x) : Atom c s (s.setCh c x)
  | units (d : List Qword) : Atom c s (s.emit (.unit c d))
  | armed (d : Nat) (w : Word) : Atom c s (arm .main (dmaCont c) d w s)
  | completed : Atom c s { s with stat := setCis s.cfg s.stat c }
  | raised : Atom c s { s with ioIstat := setIoIstat s.cfg s.ioIstat c }

/-- One thing that happens inside an operation: a passive change, the continuation of an armed channel, the step of
a queued one, or a continuation armed for a Running one (rules R105, R122, R123, R204). -/
inductive Act (s : State) : State → Prop
  | passive {t : State} (h : Passive s t) : Act s t
  | fired (c : Chan) {t : State} (harmed : s.schedMain.slots[(dmaCont c).val].armed = true)
      (h : onDmaCont c (cancel .main (dmaCont c) s) = .next t) : Act s t
  | resumed (c : Chan) {t : State} (hqueued : (s.ch c).queued = true) (h : resume c s = .next t) : Act s t
  | armed (c : Chan) (d : Nat) (w : Word) (hrunning : s.running c = true) : Act s (arm .main (dmaCont c) d w s)

/-- Any number of passive changes. -/
abbrev Passives : State → State → Prop := Relation.ReflTransGen Passive

/-- Any number of changes in the midst of a step of a channel. -/
abbrev ChanMoves (c : Chan) : State → State → Prop := Relation.ReflTransGen (ChanMove c)

/-- Any number of changes by a channel. -/
abbrev Atoms (c : Chan) : State → State → Prop := Relation.ReflTransGen (Atom c)

/-- Any number of things that happen inside an operation. -/
abbrev Acts : State → State → Prop := Relation.ReflTransGen Act

/-- Weaker changes, one by one. -/
theorem many_mono {r r' : State → State → Prop} (h : ∀ s t, r s t → r' s t) {s t : State}
    (hst : Relation.ReflTransGen r s t) : Relation.ReflTransGen r' s t :=
  Relation.ReflTransGen.mono h s t hst

/-- A reflexive and transitive relation that holds of each change holds of any number of them. -/
theorem many_keep {r r' : State → State → Prop} (hrefl : ∀ s, r' s s) (htrans : ∀ {s t u}, r' s t → r' t u → r' s u)
    (h : ∀ {s t}, r s t → r' s t) {s t : State} (hst : Relation.ReflTransGen r s t) : r' s t := by
  induction hst with
  | refl => exact hrefl _
  | tail _ hlast ih => exact htrans ih (h hlast)

theorem Passives.chanMoves {s t : State} (h : Passives s t) (c : Chan) : ChanMoves c s t :=
  many_mono (fun _ _ => .passive) h

theorem Passives.atoms {s t : State} (h : Passives s t) (c : Chan) : Atoms c s t :=
  many_mono (fun _ _ => .passive) h

theorem Passives.acts {s t : State} (h : Passives s t) : Acts s t :=
  many_mono (fun _ _ => .passive) h

theorem ChanMoves.atoms {c : Chan} {s t : State} (h : ChanMoves c s t) : Atoms c s t :=
  many_mono (fun _ _ h => match h with
    | .passive h => .passive h
    | .registers x h => .registers x h.steps
    | .units d => .units d) h

/-! ## Passive changes -/

theorem passive_surroundings {s t : State} (h : t = { s with
    excMain := t.excMain, excIo := t.excIo, wk := t.wk, map := t.map, script := t.script, ticks := t.ticks,
    opCount := t.opCount, endpointMoved := t.endpointMoved, agenda := t.agenda, readMain := t.readMain,
    readIo := t.readIo }) : Passive s t := by
  rw [h]
  exact .surroundings ..

theorem passive_tick (s : State) : Passive s s.tick := passive_surroundings rfl

theorem passive_setExc (p : Domain) (b : Bool) (s : State) : Passive s (s.setExc p b) :=
  passive_surroundings (by cases p <;> rfl)

theorem passive_setRead (p : Domain) (v : Word) (s : State) : Passive s (s.setRead p v) :=
  passive_surroundings (by cases p <;> rfl)

theorem intTest_ne_dmaCont (c : Chan) : intTest ≠ dmaCont c := (dmaCont_ne_intTest c).symm

/-- The interrupt test of a domain (rule R268). -/
theorem passives_schedTest (p : Domain) (s : State) : Passives s (schedTest p s) := by
  unfold schedTest
  split
  · exact .single (.armed p intTest _ _ fun _ => intTest_ne_dmaCont)
  · exact .refl

theorem passives_raiseStall (s : State) : Passives s (raiseStall s) :=
  .head .stalled (passives_schedTest .main _)

theorem passive_fifoWrite (f : FifoId) (d : List Qword) (s : State) : Passive s (fifoWrite f d s).2 :=
  .ring f _ fun _ h => h.write d

theorem passive_fifoRead (f : FifoId) (k : Nat) (s : State) : Passive s (fifoRead f k s).2 :=
  .ring f _ fun _ h => h.read k

theorem passives_arbWriteDma (f : FifoId) (c : Chan) (d : List Qword) (s : State) :
    Passives s (arbWriteDma f c d s).2 := by
  rcases arbWriteDma_cases f c d s with h | ⟨-, h⟩
  · rw [h]
  · rw [h]
    exact .single (passive_fifoWrite f d s)

theorem passives_arbWriteDirect (f : FifoId) (i : Nat) (d : List Qword) (s : State) :
    Passives s (arbWriteDirect f i d s).2 := by
  rcases arbWriteDirect_cases f i d s with h | ⟨-, h⟩
  · rw [h]
  · rw [h]
    exact .single (passive_fifoWrite f d s)

theorem passives_notifyEndpoint (c : Chan) (m : Nat) (s : State) : Passives s (notifyEndpoint c m s) := by
  unfold notifyEndpoint
  split
  · exact .refl
  · exact .single (.armed .io bridgeStep _ _ fun h => nomatch h)

theorem passives_source (c : Chan) (n : Nat) (s : State) : Passives s (source c n s).2 := by
  unfold source
  split
  · exact .single (passive_fifoRead .gpath n s)
  · exact .head (passive_fifoRead .bridge n s) (passives_notifyEndpoint ..)
  · exact .refl

theorem passives_stallLimit (c : Chan) (wanted : Nat) (s : State) : Passives s (stallLimit c wanted s).2 := by
  have hpublish : Passive s { s with stadrD := s.cfg.align (s.ch c).madr } := .drain _
  unfold stallLimit
  dsimp only
  split
  · dsimp only
    generalize min wanted _ = allowed
    split
    · exact .head hpublish (passives_raiseStall _)
    · exact .single hpublish
  · exact .refl

theorem passive_pathRequest (f : FifoId) (i : Nat) (b : Bool) (s : State) : Passive s (pathRequest f i b s) :=
  .ring f _ fun _ ⟨hdata, hsize, hread, hwrite, hfstat, hreq, hpmask⟩ =>
    ⟨hdata, hsize, hread, hwrite, hfstat, by simpa using hreq, hpmask⟩

theorem passive_pmask (f : FifoId) (i : Nat) (b : Bool) (s : State) :
    Passive s (s.setFifo f { s.fifo f with pmask := (s.fifo f).pmask.set i b }) :=
  .ring f _ fun _ ⟨hdata, hsize, hread, hwrite, hfstat, hreq, hpmask⟩ =>
    ⟨hdata, hsize, hread, hwrite, hfstat, hreq, by simpa using hpmask⟩

theorem passive_workerPost (g : Signal) (w : DWord) (s : State) : Passive s (workerPost g w s) := by
  cases g <;> exact passive_surroundings rfl

theorem passive_afterMove (f : FifoId) (n : Nat) (s : State) : Passive s (afterMove f n s) := by
  rw [afterMove_eq]
  exact passive_surroundings rfl

theorem passives_takeSignal (g : Signal) (w : Option DWord) (b : Bool) (s : State) :
    Passives s (takeSignal g w b s) := by
  unfold takeSignal
  split
  · exact .single (.emitted _ fun _ _ h => nomatch h)
  · exact .refl

theorem passives_workerTake (s : State) : Passives s (workerTake s) :=
  (((passives_takeSignal ..).trans (passives_takeSignal ..)).trans (passives_takeSignal ..)).tail
    (passive_surroundings rfl)

theorem passives_passStart (p : Domain) (s : State) : Passives s (passStart p s) := by
  cases p
  · exact .head .reanchored (passives_workerTake _)
  · exact .refl

theorem recompute_slots (x : Sched) : x.recompute.slots = x.slots := by
  unfold Sched.recompute
  split <;> rfl

theorem passives_passEnd (p : Domain) (s : State) : Passives s (passEnd p s) :=
  .head (.clock p _ (recompute_slots _)) (.single (passive_setExc ..))

theorem passives_advance (p : Domain) (n : Nat) (s : State) : Passives s (advance p n s) := by
  cases p <;> unfold advance <;> dsimp only
  · split
    · exact .head .reanchored (.single (.clock _ _ rfl))
    · exact .single (.clock _ _ rfl)
  · exact .single (.clock _ _ rfl)

theorem passives_tryAdvance {p : Domain} {n a : Nat} {s t : State} (h : tryAdvance p n s = some (a, t)) :
    Passives s t := by
  obtain ⟨-, u, rfl | rfl, -, rfl⟩ := tryAdvance_eq_some h
  · exact passives_advance p a _
  · exact .head .reanchored (passives_advance p a _)

theorem passives_runCycles {p : Domain} {n : Nat} {s t : State} (h : runCycles p n s = some t) : Passives s t := by
  obtain ⟨x, hx, rfl⟩ := Option.map_eq_some_iff.1 h
  exact passives_tryAdvance hx

/-! ## The registers of a channel in a step -/

theorem Channel.Steps.trans {cfg : Config} {ch x y : Channel} (h : Channel.Steps cfg ch x)
    (h' : Channel.Steps cfg x y) : Channel.Steps cfg ch y where
  settings := h'.settings.trans h.settings
  str := h.str ∘ h'.str
  wf := h'.wf ∘ h.wf
  count := by
    rcases h'.count with hy | hy
    · exact .inl hy
    · exact h.count.imp hy.trans hy.trans

theorem Channel.Follows.refl (cfg : Config) (ch : Channel) : Channel.Follows cfg ch ch where
  steps := ⟨rfl, id, id, .inr le_rfl⟩
  str := rfl
  queued := rfl

theorem Channel.Follows.trans {cfg : Config} {ch x y : Channel} (h : Channel.Follows cfg ch x)
    (h' : Channel.Follows cfg x y) : Channel.Follows cfg ch y where
  steps := h.steps.trans h'.steps
  str := h'.str.trans h.str
  queued := h'.queued.trans h.queued

/-- A change of other registers than the settings and `STR` that keeps the form of the channel. -/
theorem Channel.follows_of_wf {cfg : Config} {ch x : Channel} (hsettings : x.settings = ch.settings)
    (hstr : x.str = ch.str) (hqueued : x.queued = ch.queued) (hwf : ChannelWf cfg ch → ChannelWf cfg x)
    (hcount : x.qwc ≤ 0xFFFF ∨ x.qwc ≤ ch.qwc) : Channel.Follows cfg ch x :=
  ⟨⟨hsettings, fun h => hstr.symm.trans h, hwf, hcount⟩, hstr, hqueued⟩

theorem Channel.follows_withMadr (cfg : Config) (ch : Channel) (v : Word) :
    Channel.Follows cfg ch (ch.withMadr cfg v) :=
  follows_of_wf rfl rfl rfl (fun ⟨_, h⟩ => ⟨Config.align_align .., h⟩) (.inr le_rfl)

theorem Channel.follows_withTadr (cfg : Config) (ch : Channel) (v : Word) :
    Channel.Follows cfg ch (ch.withTadr cfg v) :=
  follows_of_wf rfl rfl rfl (fun ⟨hmadr, _, h⟩ => ⟨hmadr, Config.align_align .., h⟩) (.inr le_rfl)

theorem Channel.follows_withAsr0 (cfg : Config) (ch : Channel) (v : Word) :
    Channel.Follows cfg ch (ch.withAsr0 cfg v) :=
  follows_of_wf rfl rfl rfl (fun ⟨hmadr, htadr, _, h⟩ => ⟨hmadr, htadr, Config.align_align .., h⟩) (.inr le_rfl)

theorem Channel.follows_withAsr1 (cfg : Config) (ch : Channel) (v : Word) :
    Channel.Follows cfg ch (ch.withAsr1 cfg v) :=
  follows_of_wf rfl rfl rfl (fun ⟨hmadr, htadr, hasr0, _, h⟩ => ⟨hmadr, htadr, hasr0, Config.align_align .., h⟩)
    (.inr le_rfl)

/-- A new stack depth within the bound. -/
theorem Channel.follows_asp {cfg : Config} {ch : Channel} {n : BitVec 2}
    (h : ch.asp.toNat ≤ cfg.literals.aspMax → n.toNat ≤ cfg.literals.aspMax) :
    Channel.Follows cfg ch { ch with asp := n } :=
  follows_of_wf rfl rfl rfl (fun ⟨hmadr, htadr, hasr0, hasr1, hasp, hqwc⟩ =>
    ⟨hmadr, htadr, hasr0, hasr1, h hasp, hqwc⟩) (.inr le_rfl)

/-- A new count, of those that a tag can hold or no greater than the count before. -/
theorem Channel.follows_qwc {cfg : Config} {ch : Channel} {n : Nat} (h : n ≤ 0xFFFF ∨ n ≤ ch.qwc) :
    Channel.Follows cfg ch { ch with qwc := n } :=
  follows_of_wf rfl rfl rfl (fun ⟨hmadr, htadr, hasr0, hasr1, hasp, hqwc⟩ =>
    ⟨hmadr, htadr, hasr0, hasr1, hasp, by dsimp only; omega⟩) h

/-- The hidden state of a channel is none of its registers (rule R29). -/
theorem Channel.follows_hidden (cfg : Config) (ch : Channel) (d : Bool) (o : Option TagId) :
    Channel.Follows cfg ch { ch with done := d, curOp := o } :=
  follows_of_wf rfl rfl rfl id (.inr le_rfl)

/-! ## Tags (rules R131 to R144) -/

/-- A walker function whose channel follows it. -/
def WalkFollows (cfg : Config) (walk : Channel → Channel × Bool) : Prop :=
  ∀ ch, Channel.Follows cfg ch (walk ch).1

/-- Every walker function that loads `MADR` and `TADR` only. -/
theorem walkFollows_pointers (cfg : Config) (madr tadr : Channel → Word) (stop : Bool) :
    WalkFollows cfg fun ch => ((ch.withMadr cfg (madr ch)).withTadr cfg (tadr ch), stop) :=
  fun ch => (ch.follows_withMadr cfg _).trans (Channel.follows_withTadr ..)

theorem walkFollows_walkEnd (cfg : Config) : WalkFollows cfg (walkEnd cfg) :=
  fun ch => ch.follows_withMadr cfg _

theorem Channel.follows_pushAsr {cfg : Config} {ch : Channel} (h : ch.asp.toNat < cfg.literals.aspMax) (v : Word) :
    Channel.Follows cfg ch (ch.pushAsr cfg v) := by
  have hdepth : (ch.asp + 1#2).toNat ≤ cfg.literals.aspMax := by
    rw [BitVec.toNat_add]
    exact (Nat.mod_le _ _).trans h
  have hslot : Channel.Follows cfg ch (if ch.asp = 0#2 then ch.withAsr0 cfg v else ch.withAsr1 cfg v) := by
    split
    · exact ch.follows_withAsr0 cfg v
    · exact ch.follows_withAsr1 cfg v
  exact hslot.trans (follows_asp fun _ => hdepth)

theorem walkFollows_walkCall (cfg : Config) (q : Nat) (a : Word) : WalkFollows cfg (walkCall cfg q a) := by
  intro ch
  unfold walkCall
  split
  · exact ch.follows_withMadr cfg _
  · next h =>
    exact (Channel.follows_pushAsr (Nat.lt_of_not_le h) _).trans
      ((Channel.follows_withMadr ..).trans (Channel.follows_withTadr ..))

theorem walkFollows_walkRet (cfg : Config) : WalkFollows cfg (walkRet cfg) := by
  intro ch
  have hmadr := ch.follows_withMadr cfg (postTag cfg ch.tadr)
  unfold walkRet
  dsimp only
  split
  · exact hmadr
  · next h =>
    have hdepth : (ch.asp - 1#2).toNat ≤ ch.asp.toNat := by
      revert h
      generalize ch.asp = asp
      revert asp
      decide
    exact (hmadr.trans (Channel.follows_asp hdepth.trans)).trans (Channel.follows_withTadr ..)

/-- A tag loads its channel by a walker function that follows it, and does nothing else. -/
theorem runTag_follows (v : Variant) (op : TagOp) (c : Chan) (q : BitVec 16) (irq : Bool) (a : Word) (s : State) :
    ∃ id walk, WalkFollows s.cfg walk ∧ runTag v op c q irq a s = .next (loadTag c id q irq walk s) := by
  have pointers := walkFollows_pointers s.cfg
  cases v <;> cases op
  case full.call => exact ⟨_, _, walkFollows_walkCall s.cfg q.toNat a, rfl⟩
  case full.ret => exact ⟨_, _, walkFollows_walkRet s.cfg, rfl⟩
  case full.end_ | simple.call | simple.ret | simple.end_ => exact ⟨_, _, walkFollows_walkEnd s.cfg, rfl⟩
  case full.refe | simple.refe => exact ⟨_, walkRefe s.cfg a, pointers _ _ _, rfl⟩
  case full.cnt | simple.cnt => exact ⟨_, walkCnt s.cfg, pointers _ _ _, rfl⟩
  case full.next | simple.next => exact ⟨_, walkNext s.cfg a, pointers _ (fun _ => a) _, rfl⟩
  case full.ref | simple.ref => exact ⟨_, walkRef s.cfg a, pointers _ _ _, rfl⟩
  case full.refs | simple.refs => exact ⟨_, walkRefs s.cfg a, pointers _ _ _, rfl⟩

theorem chanMove_loadTag {walk : Channel → Channel × Bool} {s : State} (h : WalkFollows s.cfg walk) (c : Chan)
    (id : TagId) (q : BitVec 16) (irq : Bool) : ChanMove c s (loadTag c id q irq walk s) := by
  have hcount : q.toNat ≤ 0xFFFF := by have := q.isLt; omega
  have hloaded : Channel.Follows s.cfg (s.ch c) { s.ch c with qwc := q.toNat, curOp := some id } :=
    (Channel.follows_qwc (.inl hcount)).trans (Channel.follows_hidden ..)
  exact .registers _ ((hloaded.trans (h _)).trans (Channel.follows_hidden ..))

/-- A fetch fails, or is a move of its channel (rule R108). -/
theorem fetchTag_chanMove (c : Chan) (s : State) :
    fetchTag c s = none ∨ ∃ t, fetchTag c s = some (.next t) ∧ ChanMove c s t := by
  unfold fetchTag
  split
  · right
    dsimp only
    split
    · obtain ⟨id, walk, hwalk, h⟩ := runTag_follows s.cfg.walker[c.val] _ c _ _ _ s
      exact ⟨_, congrArg some h, chanMove_loadTag hwalk ..⟩
    · refine ⟨_, rfl, ?_⟩
      unfold undefinedTag
      split
      · exact chanMove_loadTag (walkFollows_pointers s.cfg _ _ _) ..
      · exact chanMove_loadTag (walkFollows_walkEnd s.cfg) ..
  · exact .inl rfl

/-! ## Steps of a channel (rules R104 to R119) -/

theorem chanMoves_sink (c : Chan) (d : List Qword) (s : State) : ChanMoves c s (sink c d s).2 := by
  unfold sink
  split
  · exact (passives_arbWriteDma ..).chanMoves c
  · exact Passives.chanMoves ((passives_arbWriteDma ..).trans (passives_notifyEndpoint ..)) c
  · dsimp only
    split
    · exact .refl
    · exact .single (.units _)

theorem chanMoves_moveUnits (c : Chan) (n : Nat) (s : State) : ChanMoves c s (moveUnits c n s).2 := by
  unfold moveUnits
  dsimp only
  split
  · exact chanMoves_sink ..
  · exact Passives.chanMoves ((passives_source c n s).tail (.memory _ (Memory.wf_writeUnits _ _ _))) c

/-- The registers that a transfer of `m` units leaves. -/
def Channel.advanced (cfg : Config) (cnt : Bool) (m : Nat) (ch : Channel) : Channel :=
  let x := { ch.withMadr cfg (ch.madr + unitBytes cfg m) with qwc := ch.qwc - m }
  if cnt then x.withTadr cfg (ch.tadr + unitBytes cfg m) else x

theorem Channel.follows_advanced (cfg : Config) (cnt : Bool) (m : Nat) (ch : Channel) :
    Channel.Follows cfg ch (ch.advanced cfg cnt m) := by
  have hcount : Channel.Follows cfg ch { ch.withMadr cfg (ch.madr + unitBytes cfg m) with qwc := ch.qwc - m } :=
    (ch.follows_withMadr cfg _).trans (follows_qwc (.inr (Nat.sub_le ..)))
  unfold Channel.advanced
  cases cnt
  · exact hcount
  · exact hcount.trans (follows_withTadr ..)

/-- The registers follow a transfer, and a stall source publishes the address it has reached (rule R115). -/
theorem advanceChannel_eq (c : Chan) (m : Nat) (s : State) :
    advanceChannel c m s =
      { s.setCh c ((s.ch c).advanced s.cfg (decide (s.curTagOp c = some .cnt)) m) with
        stadrS := if (s.ch c).stm = 1#2 then s.cfg.align ((s.ch c).madr + unitBytes s.cfg m) else s.stadrS } := by
  unfold advanceChannel Channel.advanced
  by_cases hcnt : s.curTagOp c = some .cnt <;> by_cases hstm : (s.ch c).stm = 1#2 <;> simp [hcnt, hstm] <;> rfl

theorem chanMoves_advanceChannel (c : Chan) (m : Nat) (s : State) : ChanMoves c s (advanceChannel c m s) := by
  have hregisters : ChanMove c s (s.setCh c ((s.ch c).advanced s.cfg (decide (s.curTagOp c = some .cnt)) m)) :=
    .registers _ (Channel.follows_advanced ..)
  rw [advanceChannel_eq]
  split
  · exact .head hregisters (.single (.passive (.source _)))
  · exact .single hregisters

/-- How a step of a channel ends: it re-arms its continuation, completes, or meets a bus error (rules R116, R117,
R119). -/
inductive StepEnd (c : Chan) (s : State) : State → Prop
  | rearmed (wanted m : Nat) : StepEnd c s (rearm c wanted m s)
  | completed : StepEnd c s (complete c s)
  | failed : StepEnd c s (busError c s)

theorem transferStep_end (c : Chan) (wanted n : Nat) (s : State) :
    ∃ u, ChanMoves c s u ∧ StepEnd c u (transferStep c wanted n s) := by
  rcases transferStep_cases c wanted n s with ⟨-, h⟩ | ⟨m, t, ht, h⟩ <;> rw [h]
  · exact ⟨s, .refl, .failed⟩
  · rcases transfer_cases c n s with ⟨-, hn⟩ | ⟨-, k, -, hk⟩
    · rw [hn] at ht
      cases ht
    · rw [hk] at ht
      cases ht
      exact ⟨_, (chanMoves_moveUnits c k s).trans (chanMoves_advanceChannel ..), .rearmed ..⟩

theorem blockStep_end (c : Chan) (s : State) : ∃ u, ChanMoves c s u ∧ StepEnd c u (blockStep c s) := by
  have hlimit := (passives_stallLimit c (s.ch c).qwc s).chanMoves c
  rcases blockStep_cases c s with ⟨-, h⟩ | ⟨-, -, h⟩ | ⟨-, -, h⟩ <;> rw [h]
  · exact ⟨s, .refl, .rearmed ..⟩
  · exact ⟨_, hlimit, .rearmed ..⟩
  · obtain ⟨u, hu, hend⟩ := transferStep_end c (s.ch c).qwc (stallLimit c (s.ch c).qwc s).1
      (stallLimit c (s.ch c).qwc s).2
    exact ⟨u, hlimit.trans hu, hend⟩

/-- A step of a channel: moves in which the channel stays as busy as it was, and then an end (rule R104). -/
theorem continueChan_end {c : Chan} {s t : State} (h : continueChan c s = .next t) :
    ∃ u, ChanMoves c s u ∧ StepEnd c u t := by
  unfold continueChan at h
  split at h
  · cases h
    split
    · exact ⟨s, .refl, .completed⟩
    · exact transferStep_end ..
  · split at h
    · cases h
      exact ⟨s, .refl, .completed⟩
    · unfold stepChain at h
      split at h
      · rcases fetchTag_chanMove c s with hf | ⟨u, hf, hu⟩ <;> rw [hf] at h <;> cases h
        · exact ⟨s, .refl, .failed⟩
        · obtain ⟨v, hv, hend⟩ := blockStep_end c u
          exact ⟨v, .head hu hv, hend⟩
      · cases h
        exact blockStep_end c s
  · cases h

/-- A channel that is told to run takes a step, or joins the queue. -/
theorem runOrQueue_next_cases {c : Chan} {s t : State} (h : runOrQueue c s = .next t) :
    (∃ u, continueChan c s = .next u ∧ t = u.tick) ∨ t = (enqueue c s).tick := by
  rcases runOrQueue_cases c s with ⟨-, he⟩ | ⟨-, he⟩ <;> rw [he] at h
  · exact .inl (ticked_eq_next h)
  · cases h
    exact .inr rfl

theorem resume_next_cases {c : Chan} {s t : State} (h : resume c s = .next t) :
    ∃ u, continueChan c (s.setCh c { s.ch c with queued := false }) = .next u ∧ t = u.tick :=
  ticked_eq_next h

/-! ## A step of a channel, change by change -/

/-- Other hidden state, and `STR` at most cleared. -/
theorem Channel.steps_state {cfg : Config} {ch : Channel} {b : Bool} (h : b = true → ch.str = true) (q : Bool) :
    Channel.Steps cfg ch { ch with str := b, queued := q } :=
  ⟨rfl, h, id, .inr le_rfl⟩

theorem atoms_raiseChannel (c : Chan) (s : State) : Atoms c s (raiseChannel c s) := by
  have hmain := (passives_schedTest .main { s with stat := setCis s.cfg s.stat c }).atoms c
  refine .head .completed (hmain.trans ?_)
  unfold raiseChannel raiseIo
  split
  · exact .head .raised ((passives_schedTest .io _).atoms c)
  · exact .refl

theorem atoms_complete (c : Chan) (s : State) : Atoms c s (complete c s) :=
  .head (.registers _ (Channel.steps_state (b := false) (fun h => nomatch h) (s.ch c).queued)) (atoms_raiseChannel ..)

theorem atoms_haltChannel (c : Chan) (s : State) : Atoms c s (haltChannel c s) :=
  .head (.registers _ (Channel.steps_state (b := false) (fun h => nomatch h) false))
    (.single (.passive (.cancelled ..)))

theorem atoms_busError (c : Chan) (s : State) : Atoms c s (busError c s) :=
  .head (.passive .failed) ((atoms_haltChannel ..).trans (atoms_raiseChannel ..))

theorem StepEnd.atoms {c : Chan} {s t : State} (h : StepEnd c s t) : Atoms c s t := by
  cases h with
  | rearmed wanted m => exact .single (.armed ..)
  | completed => exact atoms_complete c s
  | failed => exact atoms_busError c s

theorem atoms_continueChan {c : Chan} {s t : State} (h : continueChan c s = .next t) : Atoms c s t := by
  obtain ⟨u, hu, hend⟩ := continueChan_end h
  exact hu.atoms.trans hend.atoms

theorem atoms_enqueue (c : Chan) (s : State) : Atoms c s (enqueue c s) :=
  .single (.registers _ (Channel.steps_state (b := (s.ch c).str) id true))

theorem atoms_runOrQueue {c : Chan} {s t : State} (h : runOrQueue c s = .next t) : Atoms c s t := by
  rcases runOrQueue_next_cases h with ⟨u, hu, rfl⟩ | rfl
  · exact (atoms_continueChan hu).tail (.passive (passive_tick u))
  · exact (atoms_enqueue c s).tail (.passive (passive_tick _))

theorem atoms_resume {c : Chan} {s t : State} (h : resume c s = .next t) : Atoms c s t := by
  obtain ⟨u, hu, rfl⟩ := resume_next_cases h
  have hleave : Atom c s (s.setCh c { s.ch c with queued := false }) :=
    .registers _ (Channel.steps_state (b := (s.ch c).str) id false)
  exact .head hleave ((atoms_continueChan hu).tail (.passive (passive_tick u)))

/-- Whatever happens inside an operation is a number of changes by one channel. -/
theorem Act.atoms {s t : State} (h : Act s t) : ∃ c, Atoms c s t := by
  cases h with
  | passive h => exact ⟨0, .single (.passive h)⟩
  | fired c _ h => exact ⟨c, .head (.passive (.cancelled ..)) (atoms_runOrQueue h)⟩
  | resumed c _ h => exact ⟨c, atoms_resume h⟩
  | armed c d w _ => exact ⟨c, .single (.armed d w)⟩

/-- An invariant that each change by a channel keeps is kept by whatever happens inside an operation. -/
theorem Acts.keep {r : State → State → Prop} (hrefl : ∀ s, r s s) (htrans : ∀ {s t u}, r s t → r t u → r s u)
    (hatom : ∀ {c s t}, Atom c s t → r s t) {s t : State} (h : Acts s t) : r s t := by
  refine many_keep hrefl htrans (fun h => ?_) h
  obtain ⟨c, h⟩ := h.atoms
  exact many_keep hrefl htrans hatom h

end Sys2Proof.Machine
end

section
/-! PROOFS. The operations as things that happen inside them, and a step taken apart. -/

namespace Sys2Proof.Machine

/-! ## Restart, outside agents, passes -/

theorem acts_restartFrom (l : List Chan) {s t : State} (h : restartFrom l s = .next t) : Acts s t := by
  induction l generalizing s with
  | nil => cases h; exact .refl
  | cons c l ih =>
    rcases restartFrom_cons c l s with ⟨-, he⟩ | ⟨-, -, he⟩ | ⟨hq, -, he⟩ <;> rw [he] at h
    · exact ih h
    · exact .head (.passive (passive_tick s)) (ih h)
    · obtain ⟨u, hu, h⟩ := andThen_eq_next h
      exact .head (.resumed c hq hu) (ih h)

theorem acts_chanUnmasked {c : Chan} {s t : State} (h : chanUnmasked c s = .next t) : Acts s t := by
  unfold chanUnmasked at h
  split at h
  · next hq =>
    split at h
    · exact .single (.resumed c hq h)
    · cases h
      exact .single (.passive (passive_tick s))
  · cases h
    exact .refl

theorem acts_setPathMask {f : FifoId} {i : Nat} {b : Bool} {s t : State} (h : setPathMask f i b s = .next t) :
    Acts s t := by
  have hmask : Act s _ := .passive (passive_pmask f i b s)
  unfold setPathMask at h
  dsimp only at h
  split at h
  · split at h
    · cases h
      exact .single hmask
    · exact .head hmask (acts_chanUnmasked h)
  · cases h
    exact .single hmask

/-- A kind is the continuation of a channel, or of none. -/
theorem kind_cases (k : Kind) : (∃ c, k = dmaCont c) ∨ ∀ c, k ≠ dmaCont c := by
  by_cases h : k.val < 10
  · exact .inl ⟨⟨k.val, h⟩, rfl⟩
  · exact .inr fun c hc => h (hc ▸ c.isLt)

/-- What an outside agent arms: in MAIN the continuation of a Running channel only. -/
theorem acts_arm_of_mayArm {p q : Domain} {k : Kind} (d : Nat) (w : Word) {s : State} (h : mayArm s p q k = true) :
    Acts s (arm q k d w s) := by
  rcases kind_cases k with ⟨c, rfl⟩ | hk
  · cases q with
    | main =>
      have hrunning : s.cfg.hasChan c = true ∧ s.running c = true := by
        simp only [mayArm, Bool.and_eq_true] at h
        simpa [dmaCont] using h.2
      exact .single (.armed c d w hrunning.2)
    | io => exact .single (.passive (.armed .io _ d w fun h => nomatch h))
  · exact .single (.passive (.armed q k d w fun _ => hk))

theorem passive_accepted (f : FifoId) (i n : Nat) (s : State) : Passive s (s.emit (.accepted f i n)) :=
  .emitted _ fun _ _ h => nomatch h

theorem passive_drained (f : FifoId) (d : List Qword) (s : State) : Passive s (s.emit (.drained f d)) :=
  .emitted _ fun _ _ h => nomatch h

theorem acts_performExt {p : Domain} {e : ExtOp} {s t : State} (h : performExt p e s = .next t) : Acts s t := by
  cases hp : permitted p s e with
  | false =>
    rw [performExt_not_permitted hp] at h
    cases h
    exact .refl
  | true =>
    unfold performExt at h
    rw [if_pos hp] at h
    cases e with
    | arm q k d w =>
      cases h
      exact acts_arm_of_mayArm _ w (Bool.and_eq_true_iff.1 hp).1
    | cancel q k => cases h; exact .single (.passive (.cancelled q k))
    | pathRequest f i b => cases h; exact .single (.passive (passive_pathRequest f i b s))
    | arbWriteDirect f i d =>
      cases h
      exact Passives.acts (((passives_arbWriteDirect f i (d.map s.cfg.cut) s).tail (passive_accepted ..)).tail
        (passive_afterMove ..) |>.tail (passive_tick _))
    | setPathMask f i b => exact acts_setPathMask h
    | fifoDrain f k =>
      cases h
      exact Passives.acts (.head (passive_fifoRead f k s) (.head (passive_drained ..) (.single (passive_afterMove ..))))
    | notify c d =>
      cases h
      obtain ⟨-, -, hrunning, -⟩ := (mayNotify_iff s c d).1 (Bool.and_eq_true_iff.1 hp).2
      exact .single (.armed c _ _ hrunning)
    | chanUnmasked c => exact acts_chanUnmasked h
    | workerPost g w => cases h; exact .single (.passive (passive_workerPost g w s))

theorem acts_performExts {p : Domain} (l : List ExtOp) {s t : State} (h : performExts p l s = .next t) : Acts s t := by
  induction l generalizing s with
  | nil => cases h; exact .refl
  | cons e l ih =>
    rw [performExts_cons] at h
    obtain ⟨u, hu, h⟩ := andThen_eq_next h
    exact (acts_performExt hu).trans (ih h)

theorem acts_extHandler {p : Domain} {s t : State} (h : extHandler p s = .next t) : Acts s t :=
  .head (.passive (passive_tick s)) (acts_performExts _ h)

/-- A handler of a kind that is no continuation of MAIN (rule R157). -/
theorem acts_decodeEvent {p : Domain} {k : Kind} {w : Word} (hk : p = .main → ∀ c, k ≠ dmaCont c) {s t : State}
    (h : exec (decodeEvent p k w) s = .next t) : Acts s t := by
  unfold decodeEvent at h
  split at h
  · next hlt =>
    cases p with
    | main => exact absurd rfl (hk rfl ⟨k.val, hlt⟩)
    | io => exact acts_extHandler h
  · split at h
    · cases h
      exact .single (.passive (passive_setExc ..))
    · split at h
      · cases p with
        | main => cases h; exact .refl
        | io => exact acts_extHandler h
      · exact acts_extHandler h

theorem acts_fire {p : Domain} {k : Kind} {s t : State} (h : fire p k s = .next t) : Acts s t := by
  have hleave : Act s (s.setSched p ((s.sched p).leavePass k)) := .passive (.clock p _ rfl)
  cases harmed : (s.sched p).slots[k.val].armed with
  | false =>
    rw [fire_not_armed harmed] at h
    cases h
    exact .single hleave
  | true =>
    rw [fire_armed harmed] at h
    by_cases hk : p = .main → ∀ c, k ≠ dmaCont c
    · exact .head hleave (.head (.passive (.cancelled p k)) (acts_decodeEvent hk h))
    · push Not at hk
      obtain ⟨rfl, c, rfl⟩ := hk
      rw [decodeEvent_continuation] at h
      exact .head hleave (.single (.fired c harmed h))

theorem acts_fireAll {p : Domain} (n : Nat) {s t : State} (h : fireAll p n s = .next t) : Acts s t := by
  induction n generalizing s with
  | zero => cases h; exact .refl
  | succ n ih =>
    cases hp : (s.sched p).passSet with
    | nil =>
      rw [fireAll_nil hp] at h
      cases h
      exact .refl
    | cons j l =>
      rw [fireAll_cons hp] at h
      obtain ⟨u, hu, h⟩ := andThen_eq_next h
      exact (acts_fire hu).trans (ih h)

theorem acts_pass {p : Domain} {s t : State} (h : pass p s = .next t) : Acts s t := by
  obtain ⟨u, hu, rfl⟩ := pass_eq_next h
  exact ((passives_passStart p s).acts.tail (.passive (.clock p ((passStart p s).sched p).snapshot rfl))).trans
    ((acts_fireAll _ hu).trans (passives_passEnd p u).acts)

theorem acts_release {p : Domain} {s t : State} (h : release p s = .next t) : Acts s t := by
  rcases release_cases p s with ⟨q, -, he⟩ | ⟨q, n, a, u, hu, he⟩ | he <;> rw [he] at h
  · exact acts_pass h
  · cases h
    exact (passives_tryAdvance hu).acts
  · cases h
    exact .refl

theorem acts_ticked {r : Result} {s t : State} (h : ticked r = .next t) (hr : ∀ u, r = .next u → Acts s u) :
    Acts s t := by
  obtain ⟨u, hu, rfl⟩ := ticked_eq_next h
  exact (hr u hu).tail (.passive (passive_tick u))

theorem acts_jump {p : Domain} {s t : State} (h : jump p s = some t) : Acts s t := by
  unfold jump at h
  split at h
  · exact (passives_runCycles h).acts
  · cases h

theorem acts_idle {s t : State} (h : idle s = .next t) : Acts s t := by
  unfold idle idleTurn at h
  dsimp only at h
  split at h
  · split at h
    · exact acts_ticked h fun _ => acts_release
    · split at h
      · exact acts_ticked h fun _ => acts_release
      · split at h
        · next u hu =>
          cases h
          exact (acts_jump hu).tail (.passive (passive_tick u))
        · split at h
          · next u hu =>
            cases h
            exact (acts_jump hu).tail (.passive (passive_tick u))
          · cases h
            exact .refl
  · cases h
    exact .refl

/-! ## Register accesses other than to `CHCR` -/

/-- What a register access other than a write of `CHCR` does (rules R223 to R245). -/
inductive Written (s : State) : State → Prop
  | passive {t : State} (h : Passive s t) : Written s t
  /-- A register of an idle channel. -/
  | loaded (c : Chan) (x : Channel) (hidle : (s.ch c).str = false) (h : Channel.Follows s.cfg (s.ch c) x) :
      Written s (s.setCh c x)
  /-- The global enable, and what its change starts. -/
  | enabled (dmae cpnd : Bool) {t : State} (h : Acts { s with dmae := dmae, cpnd := cpnd } t) : Written s t
  | stat (v : Word) (b : Bool) : Written s { s with stat := writeStat s.cfg s.stat v, excMain := b }
  | ioIstat (v : Word) (b : Bool) : Written s { s with ioIstat := writeIoIstat s.cfg s.ioIstat v, excIo := b }
  | ioImask (v : Word) (b : Bool) : Written s { s with ioImask := writeIoImask s.cfg v, excIo := b }

theorem acts_afterEnableWrite {was : Bool} {s t : State} (h : afterEnableWrite was s = .next t) : Acts s t := by
  unfold afterEnableWrite at h
  split at h
  · exact acts_restartFrom _ h
  · cases h
    exact .refl

theorem written_unchanged (s : State) : Written s s := .passive (passive_surroundings rfl)

theorem written_writeIdle (c : Chan) (load : Channel → Channel) (s : State)
    (h : Channel.Follows s.cfg (s.ch c) (load (s.ch c))) : Written s (writeIdle c load s) := by
  unfold writeIdle
  cases hstr : (s.ch c).str with
  | true => exact written_unchanged s
  | false => exact .loaded c _ hstr h

theorem qwcBits_of_valid {x : Literals} (h : x.valid = true) : x.qwcBits ≤ 16 := by
  simp only [Literals.valid, Bool.and_eq_true, decide_eq_true_eq] at h
  tauto

/-- A written count fits in sixteen bits (rule R25). -/
theorem Channel.follows_withQwc {cfg : Config} (h : cfg.literals.valid = true) (ch : Channel) (v : Word) :
    Channel.Follows cfg ch (ch.withQwc cfg.literals.qwcBits v) := by
  have hlt : v.toNat % 2 ^ cfg.literals.qwcBits < 2 ^ cfg.literals.qwcBits := Nat.mod_lt _ (by positivity)
  have hle : 2 ^ cfg.literals.qwcBits ≤ 2 ^ 16 := Nat.pow_le_pow_right (by decide) (qwcBits_of_valid h)
  exact follows_qwc (.inl (by omega))

/-- A register write is a write of `CHCR`, or one of the others. -/
theorem exec_writeInstr_cases {a v : Word} {r : RegName} {s t : State} (hv : s.cfg.literals.valid = true)
    (h : exec (writeInstr a v r) s = .next t) : (∃ c, r = .chan c .chcr) ∨ Written s t := by
  cases r with
  | chan c r =>
    cases r with
    | chcr => exact .inl ⟨c, rfl⟩
    | madr => cases h; exact .inr (written_writeIdle c _ s (Channel.follows_withMadr ..))
    | qwc => cases h; exact .inr (written_writeIdle c _ s (Channel.follows_withQwc hv ..))
    | tadr => cases h; exact .inr (written_writeIdle c _ s (Channel.follows_withTadr ..))
    | asr0 => cases h; exact .inr (written_writeIdle c _ s (Channel.follows_withAsr0 ..))
    | asr1 => cases h; exact .inr (written_writeIdle c _ s (Channel.follows_withAsr1 ..))
  | fstat f => cases f <;> cases h <;> exact .inr (written_unchanged s)
  | ctrl => exact .inr (.enabled _ s.cpnd (acts_afterEnableWrite h))
  | enablew => exact .inr (.enabled s.dmae _ (acts_afterEnableWrite h))
  | stat => cases h; exact .inr (.stat v _)
  | stadrS => cases h; exact .inr (.passive (.source v))
  | stadrD => cases h; exact .inr (.passive (.drain v))
  | enabler => cases h; exact .inr (written_unchanged s)
  | ioIstat => cases h; exact .inr (.ioIstat v _)
  | ioImask => cases h; exact .inr (.ioImask v _)

theorem exec_readInstr_written {a : Word} {r : RegName} {s t : State} (h : exec (readInstr a r) s = .next t) :
    Written s t := by
  have hread : ∃ p v, t = s.setRead p v := by
    cases r with
    | chan c r => cases r <;> cases h <;> exact ⟨.main, _, rfl⟩
    | fstat f => cases f <;> cases h <;> exact ⟨.main, _, rfl⟩
    | ioIstat | ioImask => cases h; exact ⟨.io, _, rfl⟩
    | _ => cases h; exact ⟨.main, _, rfl⟩
  obtain ⟨p, v, rfl⟩ := hread
  exact .passive (passive_setRead p v s)

/-- An access that answers a next state is a write of `CHCR`, or one of the others. -/
theorem runAccess_cases {p : Domain} {d : Dir} {n : Nat} {a v : Word} {s t : State}
    (hv : s.cfg.literals.valid = true) (h : runAccess p d n a v s = .next t) :
    (∃ c x, decode s.cfg (.access p d n a v) = .ok (.wChcr c x) ∧ execWChcr c x s = .next t) ∨ Written s t := by
  unfold runAccess at h
  cases hd : decode s.cfg (.access p d n a v) with
  | error e =>
    rw [hd] at h
    cases h
  | ok i =>
    rw [hd] at h
    obtain ⟨rfl, ha⟩ : n = 32 ∧ a.toNat % 4 = 0 := by
      simp only [decode, decodeAccess] at hd
      split at hd
      · cases hd
      · split at hd
        · cases hd
        · exact ⟨by omega, by omega⟩
    obtain ⟨j, hj, hi⟩ := decode_access_cases s.cfg p d v ha
    obtain rfl : i = j := Except.ok.inj (hd.symm.trans hj)
    rcases hi with ⟨r, rfl⟩ | ⟨r, rfl⟩ | rfl | rfl
    · rcases exec_writeInstr_cases hv h with ⟨c, rfl⟩ | hw
      · exact .inl ⟨c, v, rfl, h⟩
      · exact .inr hw
    · exact .inr (exec_readInstr_written h)
    · cases h
      exact .inr (written_unchanged s)
    · cases h
      exact .inr (.passive (passive_setRead p 0#32 s))

/-! ## A write of `CHCR` (rule R221) -/

/-- What a write of `CHCR` does: it is ignored, stops a busy channel, stores the fields of an idle one, or starts
it. -/
theorem execWChcr_cases {c : Chan} {v : Word} {s t : State} (h : execWChcr c v s = .next t) :
    ((s.ch c).str = true ∧ (v.getLsbD s.cfg.layout.chcrSTR = true ∧ t = s ∨
      v.getLsbD s.cfg.layout.chcrSTR = false ∧ t = haltChannel c s)) ∨
      ((s.ch c).str = false ∧ (v.getLsbD s.cfg.layout.chcrSTR = false ∧
          t = s.setCh c (Channel.storeFields s.cfg (s.ch c) v) ∨
        v.getLsbD s.cfg.layout.chcrSTR = true ∧ runOrQueue c (startState c v s) = .next t)) := by
  unfold execWChcr at h
  cases hstr : (s.ch c).str with
  | true =>
    cases hv : v.getLsbD s.cfg.layout.chcrSTR with
    | true => simp [hstr, hv] at h; exact .inl ⟨rfl, .inl ⟨rfl, h.symm⟩⟩
    | false => simp [hstr, hv] at h; exact .inl ⟨rfl, .inr ⟨rfl, h.symm⟩⟩
  | false =>
    cases hv : v.getLsbD s.cfg.layout.chcrSTR with
    | true => simp [hstr, hv, startRequest] at h; exact .inr ⟨rfl, .inr ⟨rfl, h⟩⟩
    | false => simp [hstr, hv] at h; exact .inr ⟨rfl, .inl ⟨rfl, h.symm⟩⟩

/-! ## A step -/

/-- The state in which the operation at the head of the agenda is performed: counted, and taken off. -/
def State.taken (s : State) (rest : List Op) : State :=
  { s with
    opCount := s.opCount + 1
    agenda := rest }

theorem passive_taken (s : State) (rest : List Op) : Passive s (s.taken rest) := passive_surroundings rfl

theorem passive_counted (s : State) : Passive s { s with opCount := s.opCount + 1 } := passive_surroundings rfl

/-- What an operation other than a register access that may act and a reset does. -/
theorem acts_perform {op : Op} {held s t : State} (hheld : Acts held s)
    (haccess : ∀ p d n a v, op = .access p d n a v → mayAct p s = false) (hreset : op ≠ .reset)
    (h : perform op held s = .next t) : Acts held t := by
  cases op with
  | access p d n a v =>
    simp only [perform, haccess p d n a v rfl, Bool.false_eq_true, if_false] at h
    exact acts_release h
  | advance p n =>
    unfold perform at h
    dsimp only at h
    split at h
    · cases h
      exact hheld
    · split at h
      · next a u hu =>
        cases h
        refine (hheld.trans (passives_tryAdvance hu).acts).tail (.passive ?_)
        split <;> exact passive_surroundings rfl
      · exact acts_release h
  | pass p =>
    unfold perform at h
    dsimp only at h
    split at h
    · exact hheld.trans (acts_pass h)
    · split at h
      · exact acts_release h
      · cases h
        exact hheld
  | ext p e =>
    unfold perform at h
    dsimp only at h
    split at h
    · exact hheld.trans (acts_performExt h)
    · exact acts_release h
  | reanchor => cases h; exact hheld.tail (.passive .reanchored)
  | store a d => cases h; exact hheld.tail (.passive (.memory _ (Memory.wf_writeBytes a d)))
  | remap rs => cases h; exact hheld.tail (.passive (passive_surroundings rfl))
  | reset => exact absurd rfl hreset

/-- A step that answers a next state, taken apart: a write of `CHCR`, another register access, a reset, or a number
of things that happen inside an operation. -/
inductive Stepped (s t : State) : Prop
  | chcr (c : Chan) (v : Word) (rest : List Op) (hwrites : WritesChcr c v s)
      (h : execWChcr c v (s.taken rest) = .next t)
  | written (p : Domain) (d : Dir) (n : Nat) (a v : Word) (rest : List Op)
      (hagenda : s.agenda = .access p d n a v :: rest) (h : Written (s.taken rest) t)
  | reset (rest : List Op) (hagenda : s.agenda = .reset :: rest) (h : t = performReset (s.taken rest))
  | acts (h : Acts s t)

theorem step_cases {s t : State} (h : step s = .next t) : Config.valid s.cfg = true ∧ Stepped s t := by
  obtain ⟨hvalid, -, ⟨-, hidle⟩ | ⟨op, rest, hagenda, hop⟩⟩ := step_eq_next h
  · exact ⟨hvalid, .acts (.head (.passive (passive_counted s)) (acts_idle hidle))⟩
  · refine ⟨hvalid, ?_⟩
    by_cases haccess : ∀ p d n a v, op = .access p d n a v → mayAct p s = false
    · by_cases hreset : op = .reset
      · subst hreset
        cases hop
        exact .reset rest hagenda rfl
      · exact .acts (.head (.passive (passive_counted s))
          (acts_perform (s := s.taken rest) (.single (.passive (passive_surroundings rfl))) haccess hreset hop))
    · push Not at haccess
      obtain ⟨p, d, n, a, v, rfl, hact⟩ := haccess
      have hmay : mayAct p s = true := by simpa using hact
      have hmay' : mayAct p (s.taken rest) = true := hmay
      have hrun : runAccess p d n a v (s.taken rest) = .next t := by
        unfold perform at hop
        exact (if_pos hmay').symm.trans hop
      rcases runAccess_cases (s := s.taken rest) (encoding_of_valid hvalid).2.1 hrun with ⟨c, x, hd, hx⟩ | hw
      · exact .chcr c x rest ⟨p, d, n, a, v, rest, hagenda, hmay, hd⟩ hx
      · exact .written p d n a v rest hagenda hw

end Sys2Proof.Machine
end

section
/-! PROOFS. What every step keeps: the channels, the rings, the registers and memory, and the settings of software. -/

namespace Sys2Proof.Machine

/-! ## What the changes leave alone -/

/-- The pieces that no passive change touches. -/
structure PassiveFrame (s t : State) : Prop where
  chans : t.chans = s.chans
  cfg : t.cfg = s.cfg
  dmae : t.dmae = s.dmae
  cpnd : t.cpnd = s.cpnd
  ioImask : t.ioImask = s.ioImask

theorem Passive.frame {s t : State} (h : Passive s t) : PassiveFrame s t := by
  cases h with
  | clock p x hx => cases p <;> exact ⟨rfl, rfl, rfl, rfl, rfl⟩
  | cancelled p k => cases p <;> exact ⟨rfl, rfl, rfl, rfl, rfl⟩
  | armed p k d w hk => cases p <;> exact ⟨rfl, rfl, rfl, rfl, rfl⟩
  | ring f x hx => cases f <;> exact ⟨rfl, rfl, rfl, rfl, rfl⟩
  | _ => exact ⟨rfl, rfl, rfl, rfl, rfl⟩

theorem Passive.ch {s t : State} (h : Passive s t) (c : Chan) : t.ch c = s.ch c := by
  simp only [State.ch, h.frame.chans]

/-- The status word takes at most the stall bit or the bus-error bit. -/
theorem Passive.stat_cases {s t : State} (h : Passive s t) :
    t.stat = s.stat ∨ t.stat = setSis s.cfg.layout s.stat ∨ t.stat = setBeis s.cfg.layout s.stat := by
  cases h with
  | clock p x hx => cases p <;> exact .inl rfl
  | cancelled p k => cases p <;> exact .inl rfl
  | armed p k d w hk => cases p <;> exact .inl rfl
  | ring f x hx => cases f <;> exact .inl rfl
  | stalled => exact .inr (.inl rfl)
  | failed => exact .inr (.inr rfl)
  | _ => exact .inl rfl

theorem Atom.cfg {c : Chan} {s t : State} (h : Atom c s t) : t.cfg = s.cfg := by
  cases h with
  | passive h => exact h.frame.cfg
  | _ => rfl

theorem Atoms.cfg {c : Chan} {s t : State} (h : Atoms c s t) : t.cfg = s.cfg :=
  many_keep (r' := fun s t => t.cfg = s.cfg) (fun _ => rfl) (fun h h' => h'.trans h) Atom.cfg h

/-- Beside the registers of its channel a write of `CHCR` does what a step of that channel does. -/
theorem execWChcr_atoms {c : Chan} {v : Word} {s t : State} (h : execWChcr c v s = .next t) :
    ∃ x, Atoms c (s.setCh c x) t := by
  rcases execWChcr_cases h with ⟨-, ⟨-, rfl⟩ | ⟨-, rfl⟩⟩ | ⟨-, ⟨-, rfl⟩ | ⟨-, h⟩⟩
  · exact ⟨t.ch c, by rw [State.setCh_ch]⟩
  · exact ⟨s.ch c, by rw [State.setCh_ch]; exact atoms_haltChannel c s⟩
  · exact ⟨_, .refl⟩
  · exact ⟨_, atoms_runOrQueue h⟩

/-! ## An invariant of every step -/

/-- A relation that every kind of change keeps and that does not speak of the registers of the channels. -/
structure StepInvariant (r : State → State → Prop) : Prop where
  refl : ∀ s, r s s
  trans : ∀ {s t u}, r s t → r t u → r s u
  atom : ∀ {c s t}, Atom c s t → r s t
  channel : ∀ s c x, r s (s.setCh c x)
  enable : ∀ (s : State) a b, r s { s with dmae := a, cpnd := b }
  stat : ∀ (s : State) v b, r s { s with stat := writeStat s.cfg s.stat v, excMain := b }
  ioIstat : ∀ (s : State) v b, r s { s with ioIstat := writeIoIstat s.cfg s.ioIstat v, excIo := b }
  ioImask : ∀ (s : State) v b, r s { s with ioImask := writeIoImask s.cfg v, excIo := b }
  reset : ∀ s, Config.valid s.cfg = true → r s (performReset s)

theorem StepInvariant.acts {r : State → State → Prop} (hr : StepInvariant r) {s t : State} (h : Acts s t) : r s t :=
  h.keep hr.refl hr.trans hr.atom

theorem StepInvariant.written {r : State → State → Prop} (hr : StepInvariant r) {s t : State} (h : Written s t) :
    r s t := by
  cases h with
  | passive h => exact hr.atom (c := 0) (.passive h)
  | loaded c x _ _ => exact hr.channel s c x
  | enabled a b h => exact hr.trans (hr.enable s a b) (hr.acts h)
  | stat v b => exact hr.stat s v b
  | ioIstat v b => exact hr.ioIstat s v b
  | ioImask v b => exact hr.ioImask s v b

/-- Every step keeps such a relation. -/
theorem StepInvariant.step {r : State → State → Prop} (hr : StepInvariant r) {s t : State} (h : step s = .next t) :
    r s t := by
  have htaken (rest : List Op) : r s (s.taken rest) := hr.atom (c := 0) (.passive (passive_taken s rest))
  obtain ⟨hvalid, hstep⟩ := step_cases h
  cases hstep with
  | chcr c v rest _ h =>
    obtain ⟨x, hx⟩ := execWChcr_atoms h
    exact hr.trans (htaken rest) (hr.trans (hr.channel _ c x) (many_keep hr.refl hr.trans hr.atom hx))
  | written p d n a v rest hagenda h => exact hr.trans (htaken rest) (hr.written h)
  | reset rest hagenda h =>
    subst h
    exact hr.trans (htaken rest) (hr.reset _ hvalid)
  | acts h => exact hr.acts h

/-! ## The rings (rules R43, R194) -/

/-- The configuration stays, and well-formed rings stay well formed. -/
structure KeepsFifos (s t : State) : Prop where
  cfg : t.cfg = s.cfg
  fifos : FifosWf s → FifosWf t

theorem KeepsFifos.of_eq {s t : State} (hcfg : t.cfg = s.cfg) (hg : t.gpath = s.gpath) (hb : t.bridge = s.bridge) :
    KeepsFifos s t := ⟨hcfg, by unfold FifosWf; rw [hcfg, hg, hb]; exact id⟩

theorem Atom.keepsFifos {c : Chan} {s t : State} (h : Atom c s t) : KeepsFifos s t := by
  cases h with
  | passive h =>
    cases h with
    | clock p x hx => cases p <;> exact .of_eq rfl rfl rfl
    | cancelled p k => cases p <;> exact .of_eq rfl rfl rfl
    | armed p k d w hk => cases p <;> exact .of_eq rfl rfl rfl
    | ring f x hx =>
      cases f
      · exact ⟨rfl, fun ⟨hg, hb⟩ => ⟨hx _ hg, hb⟩⟩
      · exact ⟨rfl, fun ⟨hg, hb⟩ => ⟨hg, hx _ hb⟩⟩
    | _ => exact .of_eq rfl rfl rfl
  | _ => exact .of_eq rfl rfl rfl

/-- What a valid configuration says of the rings: some capacity, and no ring is full when it is empty. -/
theorem fifos_of_valid {cfg : Config} (h : Config.valid cfg = true) (f : FifoId) :
    1 ≤ cap cfg f ∧ 1 ≤ fullThreshold cfg f := by
  simp only [Config.valid, Bool.and_eq_true, decide_eq_true_eq] at h
  cases f <;> simp only [cap, fullThreshold] <;> tauto

/-- The mirror of an empty ring has `EMPTY` alone set (rule R48). -/
theorem fstatWord_empty (l : Layout) {threshold : Nat} (h : 1 ≤ threshold) :
    fstatWord l 0 threshold = 1#32 <<< l.fstatEMPTY := by
  simp [fstatWord, bitAt, show ¬ threshold ≤ 0 by omega]

theorem fifoWf_reset (l : Layout) {cap threshold np : Nat} (hcap : 1 ≤ cap) (hthreshold : 1 ≤ threshold) :
    FifoWf l cap threshold np (Fifo.reset l cap np) :=
  ⟨List.length_replicate, Nat.zero_le _, hcap, (Nat.zero_mod _).symm, (fstatWord_empty l hthreshold).symm,
    List.length_replicate, List.length_replicate⟩

theorem keepsFifos_reset (s : State) (h : Config.valid s.cfg = true) : KeepsFifos s (performReset s) := by
  obtain ⟨hcg, htg⟩ := fifos_of_valid h .gpath
  obtain ⟨hcb, htb⟩ := fifos_of_valid h .bridge
  exact ⟨rfl, fun _ => ⟨fifoWf_reset _ hcg htg, fifoWf_reset _ hcb htb⟩⟩

theorem stepInvariant_keepsFifos : StepInvariant KeepsFifos where
  refl _ := ⟨rfl, id⟩
  trans h h' := ⟨h'.cfg.trans h.cfg, h'.fifos ∘ h.fifos⟩
  atom := Atom.keepsFifos
  channel _ _ _ := .of_eq rfl rfl rfl
  enable _ _ _ := .of_eq rfl rfl rfl
  stat _ _ _ := .of_eq rfl rfl rfl
  ioIstat _ _ _ := .of_eq rfl rfl rfl
  ioImask _ _ _ := .of_eq rfl rfl rfl
  reset := keepsFifos_reset

/-- Settles O54: beside a reset, only the two ring operations and the producers' bits change a ring. -/
theorem stepKeepsFifos : Obligations.StepKeepsFifos :=
  fun _ _ hwf h => (stepInvariant_keepsFifos.step h).fifos hwf

/-! ## Registers and memory (rules R35 to R37, R42, R62) -/

/-- The configuration stays, and memory, the registers and the residue keep their form. -/
structure KeepsRegisters (s t : State) : Prop where
  cfg : t.cfg = s.cfg
  memory : MemoryWf s → MemoryWf t
  registers : RegistersWf s → RegistersWf t
  bridge : BridgeWf s → BridgeWf t

theorem KeepsRegisters.of_eq {s t : State} (hcfg : t.cfg = s.cfg) (hmem : t.mem = s.mem) (hstat : t.stat = s.stat)
    (hioIstat : t.ioIstat = s.ioIstat) (hioImask : t.ioImask = s.ioImask) (hsource : t.stadrS = s.stadrS)
    (hdrain : t.stadrD = s.stadrD) (hresidue : t.residue = s.residue) : KeepsRegisters s t := by
  refine ⟨hcfg, ?_, ?_, ?_⟩
  · rw [MemoryWf, MemoryWf, hmem]; exact id
  · rw [RegistersWf, RegistersWf, hcfg, hstat, hioIstat, hioImask, hsource, hdrain]; exact id
  · rw [BridgeWf, BridgeWf, hcfg, hresidue]; exact id

/-- Bits of a mask set in a word leave the bits outside the mask alone. -/
theorem or_and_not_eq_zero {st b m : Word} (hst : st &&& ~~~m = 0#32) (hb : b &&& ~~~m = 0#32) :
    (st ||| b) &&& ~~~m = 0#32 := by
  rw [BitVec.and_comm, BitVec.and_or_distrib_left, BitVec.and_comm _ st, BitVec.and_comm _ b, hst, hb]
  rfl

/-- One bit that a mask has. -/
theorem oneBit_and_not_eq_zero {m : Word} {p : Nat} (h : p < 32 → m.getLsbD p = true) :
    (1#32 <<< p) &&& ~~~m = 0#32 := by
  ext i hi
  rw [← BitVec.getLsbD_eq_getElem, BitVec.getLsbD_and, getLsbD_oneBit hi, BitVec.getLsbD_not]
  by_cases hip : i = p
  · subst hip
    simp [h hi]
  · simp [hip]

/-- The words that a change of the status word may keep within its named bits (rule R35). -/
theorem reserved_setCis {cfg : Config} {st : Word} (c : Chan)
    (h : st &&& ~~~(cfg.statStatusMask ||| cfg.statMaskMask) = 0#32) :
    setCis cfg st c &&& ~~~(cfg.statStatusMask ||| cfg.statMaskMask) = 0#32 := by
  unfold setCis
  split
  · next hc =>
    have hlt : c.val < cfg.literals.nch := of_decide_eq_true hc
    refine or_and_not_eq_zero h (oneBit_and_not_eq_zero fun hp => ?_)
    simp [statStatusMask_getLsbD cfg hp, hlt]
  · exact h

theorem reserved_setSis {cfg : Config} {st : Word} (h : st &&& ~~~(cfg.statStatusMask ||| cfg.statMaskMask) = 0#32) :
    setSis cfg.layout st &&& ~~~(cfg.statStatusMask ||| cfg.statMaskMask) = 0#32 :=
  or_and_not_eq_zero h (oneBit_and_not_eq_zero fun hp => by simp [statStatusMask_getLsbD cfg hp])

theorem reserved_setBeis {cfg : Config} {st : Word} (h : st &&& ~~~(cfg.statStatusMask ||| cfg.statMaskMask) = 0#32) :
    setBeis cfg.layout st &&& ~~~(cfg.statStatusMask ||| cfg.statMaskMask) = 0#32 :=
  or_and_not_eq_zero h (oneBit_and_not_eq_zero fun hp => by simp [statStatusMask_getLsbD cfg hp])

/-- What a mask leaves has no bit outside it. -/
theorem and_mask_and_not_eq_zero (x m : Word) : x &&& m &&& ~~~m = 0#32 := by
  simp [BitVec.and_assoc]

theorem reserved_writeStat {cfg : Config} {st : Word} (v : Word)
    (h : st &&& ~~~(cfg.statStatusMask ||| cfg.statMaskMask) = 0#32) :
    writeStat cfg st v &&& ~~~(cfg.statStatusMask ||| cfg.statMaskMask) = 0#32 := by
  have hstatus : st &&& ~~~(v &&& cfg.statStatusMask) &&& ~~~(cfg.statStatusMask ||| cfg.statMaskMask) = 0#32 := by
    rw [BitVec.and_assoc, BitVec.and_comm (~~~_), ← BitVec.and_assoc, h, BitVec.zero_and]
  have hmask : v &&& cfg.statMaskMask &&& ~~~(cfg.statStatusMask ||| cfg.statMaskMask) = 0#32 := by
    rw [BitVec.not_or, BitVec.and_comm (~~~_), ← BitVec.and_assoc, and_mask_and_not_eq_zero, BitVec.zero_and]
  rw [writeStat]
  ext i hi
  rw [BitVec.getElem_and, BitVec.getElem_xor, Bool.and_xor_distrib_right, ← BitVec.getElem_and, ← BitVec.getElem_and,
    hstatus, hmask]
  simp

theorem reserved_setIoIstat {cfg : Config} {st : Word} (c : Chan) (h : st &&& ~~~cfg.ioMask = 0#32) :
    setIoIstat cfg st c &&& ~~~cfg.ioMask = 0#32 := by
  unfold setIoIstat
  split
  · next hc =>
    have hlt : c.val < cfg.literals.nch := of_decide_eq_true hc
    refine or_and_not_eq_zero h (oneBit_and_not_eq_zero fun hp => ?_)
    simp [Config.ioMask, getLsbD_chanBits cfg hp, hlt]
  · exact h

theorem tmod_toNat_lt (e : Int) {n : Nat} (h : 0 < n) : (e.tmod n).toNat < n := by
  have := Int.tmod_lt_of_pos e (show (0 : Int) < n by omega)
  omega

theorem Atom.keepsRegisters {c : Chan} {s t : State} (h : Atom c s t) : KeepsRegisters s t := by
  have unchanged {t : State} := KeepsRegisters.of_eq (s := s) (t := t)
  cases h with
  | passive h =>
    cases h with
    | clock p x hx => cases p <;> exact unchanged rfl rfl rfl rfl rfl rfl rfl rfl
    | cancelled p k => cases p <;> exact unchanged rfl rfl rfl rfl rfl rfl rfl rfl
    | armed p k d w hk => cases p <;> exact unchanged rfl rfl rfl rfl rfl rfl rfl rfl
    | ring f x hx => cases f <;> exact unchanged rfl rfl rfl rfl rfl rfl rfl rfl
    | reanchored => exact ⟨rfl, id, id, fun h => tmod_toNat_lt _ (Nat.zero_lt_of_lt h)⟩
    | memory m hm => exact ⟨rfl, hm, id, id⟩
    | stalled => exact ⟨rfl, id, fun ⟨hstat, h⟩ => ⟨reserved_setSis hstat, h⟩, id⟩
    | failed => exact ⟨rfl, id, fun ⟨hstat, h⟩ => ⟨reserved_setBeis hstat, h⟩, id⟩
    | source v =>
      exact ⟨rfl, id, fun ⟨hstat, hist, himask, _, hd⟩ => ⟨hstat, hist, himask, Config.align_align .., hd⟩, id⟩
    | drain v =>
      exact ⟨rfl, id, fun ⟨hstat, hist, himask, hs, _⟩ => ⟨hstat, hist, himask, hs, Config.align_align ..⟩, id⟩
    | _ => exact unchanged rfl rfl rfl rfl rfl rfl rfl rfl
  | completed => exact ⟨rfl, id, fun ⟨hstat, h⟩ => ⟨reserved_setCis c hstat, h⟩, id⟩
  | raised => exact ⟨rfl, id, fun ⟨hstat, hist, h⟩ => ⟨hstat, reserved_setIoIstat c hist, h⟩, id⟩
  | _ => exact unchanged rfl rfl rfl rfl rfl rfl rfl rfl

theorem stepInvariant_keepsRegisters : StepInvariant KeepsRegisters where
  refl _ := ⟨rfl, id, id, id⟩
  trans h h' := ⟨h'.cfg.trans h.cfg, h'.memory ∘ h.memory, h'.registers ∘ h.registers, h'.bridge ∘ h.bridge⟩
  atom := Atom.keepsRegisters
  channel _ _ _ := .of_eq rfl rfl rfl rfl rfl rfl rfl rfl
  enable _ _ _ := .of_eq rfl rfl rfl rfl rfl rfl rfl rfl
  stat _ v _ := ⟨rfl, id, fun ⟨hstat, h⟩ => ⟨reserved_writeStat v hstat, h⟩, id⟩
  ioIstat _ _ _ := ⟨rfl, id, fun ⟨hstat, _, h⟩ => ⟨hstat, and_mask_and_not_eq_zero .., h⟩, id⟩
  ioImask _ _ _ := ⟨rfl, id, fun ⟨hstat, hist, _, h⟩ => ⟨hstat, hist, and_mask_and_not_eq_zero .., h⟩, id⟩
  reset _ _ :=
    have hzero (m : Word) : 0#32 &&& m = 0#32 := BitVec.zero_and
    ⟨rfl, id, fun _ => ⟨hzero _, hzero _, hzero _, hzero _, hzero _⟩, fun h => Nat.zero_lt_of_lt h⟩

/-- Settles O56: each change of a register keeps its form by its own law of bits. -/
theorem stepKeepsRegisters : Obligations.StepKeepsRegisters := by
  intro s t hmem hregisters hbridge h
  have hkeep := stepInvariant_keepsRegisters.step h
  exact ⟨hkeep.memory hmem, hkeep.registers hregisters, hkeep.bridge hbridge⟩

end Sys2Proof.Machine
end

section
/-! PROOFS. The channels over a step, and the settings that only software changes. -/

namespace Sys2Proof.Machine

/-! ## Channels -/

theorem Channel.Steps.refl (cfg : Config) (ch : Channel) : Channel.Steps cfg ch ch := (Follows.refl cfg ch).steps

/-- The configuration stays, and each channel at most takes a step. -/
structure ChannelsStep (s t : State) : Prop where
  cfg : t.cfg = s.cfg
  channels : ∀ c, Channel.Steps s.cfg (s.ch c) (t.ch c)

theorem ChannelsStep.of_eq {s t : State} (hcfg : t.cfg = s.cfg) (h : t.chans = s.chans) : ChannelsStep s t := by
  have hch : ∀ c, t.ch c = s.ch c := fun c => by simp only [State.ch, h]
  exact ⟨hcfg, fun c => by rw [hch]; exact .refl ..⟩

theorem ChannelsStep.refl (s : State) : ChannelsStep s s := .of_eq rfl rfl

theorem ChannelsStep.trans {s t u : State} (h : ChannelsStep s t) (h' : ChannelsStep t u) : ChannelsStep s u :=
  ⟨h'.cfg.trans h.cfg, fun c => (h.channels c).trans (h.cfg ▸ h'.channels c)⟩

theorem channelsStep_setCh {s : State} {c : Chan} {x : Channel} (h : Channel.Steps s.cfg (s.ch c) x) :
    ChannelsStep s (s.setCh c x) := by
  refine ⟨rfl, fun d => ?_⟩
  rw [State.ch_setCh]
  split
  · next hd => exact hd ▸ h
  · exact .refl ..

theorem Atom.channelsStep {c : Chan} {s t : State} (h : Atom c s t) : ChannelsStep s t := by
  cases h with
  | passive h => exact .of_eq h.frame.cfg h.frame.chans
  | registers x h => exact channelsStep_setCh h
  | _ => exact .of_eq rfl rfl

theorem Atoms.channelsStep {c : Chan} {s t : State} (h : Atoms c s t) : ChannelsStep s t :=
  many_keep (r' := ChannelsStep) .refl .trans Atom.channelsStep h

theorem Acts.channelsStep {s t : State} (h : Acts s t) : ChannelsStep s t :=
  h.keep (r := ChannelsStep) .refl .trans Atom.channelsStep

/-- A register access other than a write of `CHCR` leaves the modes alone and stores no count above 0xFFFF. -/
theorem Written.channelsStep {s t : State} (h : Written s t) : ChannelsStep s t := by
  cases h with
  | passive h => exact .of_eq h.frame.cfg h.frame.chans
  | loaded c x _ h => exact channelsStep_setCh h.steps
  | enabled a b h => exact .trans (t := { s with dmae := a, cpnd := b }) (.of_eq rfl rfl) h.channelsStep
  | _ => exact .of_eq rfl rfl

/-- A change by one channel leaves every other channel alone (rule R126). -/
theorem Atom.ch_ne {c d : Chan} {s t : State} (hd : d ≠ c) (h : Atom c s t) : t.ch d = s.ch d := by
  cases h with
  | passive h => exact h.ch d
  | registers x h => exact State.ch_setCh_ne s x hd
  | _ => rfl

theorem Atoms.ch_ne {c d : Chan} {s t : State} (hd : d ≠ c) (h : Atoms c s t) : t.ch d = s.ch d :=
  many_keep (r' := fun s t => t.ch d = s.ch d) (fun _ => rfl) (fun h h' => h'.trans h) (Atom.ch_ne hd) h

theorem execWChcr_ch_ne {c d : Chan} (hd : d ≠ c) {v : Word} {s t : State} (h : execWChcr c v s = .next t) :
    t.ch d = s.ch d := by
  obtain ⟨x, hx⟩ := execWChcr_atoms h
  exact (Atoms.ch_ne hd hx).trans (State.ch_setCh_ne s x hd)

/-! ## What a write of `CHCR` makes of its channel -/

theorem clampAsp_le (m : Nat) (v : BitVec 2) : (clampAsp m v).toNat ≤ m := by
  unfold clampAsp
  split
  · rw [BitVec.toNat_ofNat]
    exact Nat.mod_le ..
  · omega

/-- The fields that a write of `CHCR` stores keep the form of the channel (rule R22). -/
theorem channelWf_storeFields {cfg : Config} {ch : Channel} (h : ChannelWf cfg ch) (v : Word) :
    ChannelWf cfg (Channel.storeFields cfg ch v) := by
  obtain ⟨hmadr, htadr, hasr0, hasr1, -, hqwc⟩ := h
  exact ⟨hmadr, htadr, hasr0, hasr1, clampAsp_le .., hqwc⟩

theorem qwcZeroEffective_of_valid {x : Literals} (h : x.valid = true) :
    1 ≤ x.qwcZeroEffective ∧ x.qwcZeroEffective ≤ 0x10000 := by
  simp only [Literals.valid, Bool.and_eq_true, decide_eq_true_eq] at h
  tauto

/-- A start keeps the form of the channel (rule R103). -/
theorem channelWf_startChannel {cfg : Config} (hv : cfg.literals.valid = true) {ch : Channel} (h : ChannelWf cfg ch) :
    ChannelWf cfg (startChannel cfg ch) := by
  obtain ⟨hmadr, htadr, hasr0, hasr1, hasp, hqwc⟩ := h
  refine ⟨hmadr, htadr, hasr0, hasr1, hasp, ?_⟩
  unfold startChannel
  dsimp only
  split
  · exact (qwcZeroEffective_of_valid hv).2
  · exact hqwc

/-- A channel that a write of `CHCR` leaves: it took a step; or it was idle and the fields are stored, with a count
that is no greater than before unless it is a new one of a Normal start (rules R103, R221). -/
theorem execWChcr_channel {c : Chan} {v : Word} {s t : State} (hv : s.cfg.literals.valid = true)
    (h : execWChcr c v s = .next t) :
    Channel.Steps s.cfg (s.ch c) (t.ch c) ∨
      ((s.ch c).str = false ∧ (t.ch c).mod = v.extractLsb' s.cfg.layout.chcrMOD 2 ∧
        (ChannelWf s.cfg (s.ch c) → ChannelWf s.cfg (t.ch c)) ∧
        ((t.ch c).qwc ≤ 0xFFFF ∨ (t.ch c).qwc ≤ (s.ch c).qwc ∨
          (s.ch c).qwc = 0 ∧ v.getLsbD s.cfg.layout.chcrSTR = true ∧
            effMode (v.extractLsb' s.cfg.layout.chcrMOD 2) = .normal)) := by
  rcases execWChcr_cases h with ⟨-, ⟨-, rfl⟩ | ⟨-, rfl⟩⟩ | ⟨hstr, ⟨-, rfl⟩ | ⟨hstart, h⟩⟩
  · exact .inl (.refl ..)
  · exact .inl ((atoms_haltChannel c s).channelsStep.channels c)
  · refine .inr ⟨hstr, ?_⟩
    rw [State.ch_setCh_self]
    exact ⟨rfl, fun hwf => channelWf_storeFields hwf v, .inr (.inl le_rfl)⟩
  · have hsteps := (atoms_runOrQueue h).channelsStep.channels c
    rw [startState, State.ch_setCh_self, State.setCh_cfg] at hsteps
    have hmod : (t.ch c).mod = v.extractLsb' s.cfg.layout.chcrMOD 2 :=
      congrArg (fun x => x.2.1) hsteps.settings
    refine .inr ⟨hstr, hmod, fun hwf => hsteps.wf (channelWf_startChannel hv (channelWf_storeFields hwf v)), ?_⟩
    refine hsteps.count.imp_right fun hcount => ?_
    unfold startChannel at hcount
    dsimp only at hcount
    split at hcount
    · next hnormal => exact .inr ⟨hnormal.2, hstart, hnormal.1⟩
    · exact .inl hcount

theorem performReset_ch (s : State) (c : Chan) : (performReset s).ch c = Channel.reset := by
  simp [performReset, State.ch, State.reset]

theorem channelWf_reset (cfg : Config) : ChannelWf cfg Channel.reset := by
  have hzero : cfg.align 0#32 = 0#32 := BitVec.zero_and
  exact ⟨hzero, hzero, hzero, hzero, Nat.zero_le _, Nat.zero_le _⟩

/-! ## The invariant of the channels -/

/-- What O52 says of one channel over one step. -/
def CountOrigin (c : Chan) (s t : State) : Prop :=
  0xFFFF < (t.ch c).qwc →
    ((s.ch c).qwc ≤ 0xFFFF →
      (s.ch c).qwc = 0 ∧ (s.ch c).str = false ∧ effMode (t.ch c).mod = .normal ∧
        ∃ v, WritesChcr c v s ∧ v.getLsbD s.cfg.layout.chcrSTR = true ∧
          effMode (v.extractLsb' s.cfg.layout.chcrMOD 2) = .normal) ∧
    (0xFFFF < (s.ch c).qwc → (t.ch c).mod ≠ (s.ch c).mod → (s.ch c).str = false ∧ ∃ v, WritesChcr c v s) ∧
    (CountWf (s.ch c) → CountWf (t.ch c) ∨
      (s.ch c).str = false ∧ 0xFFFF < (s.ch c).qwc ∧
        ∃ v, WritesChcr c v s ∧ effMode (v.extractLsb' s.cfg.layout.chcrMOD 2) ≠ .normal)

theorem Channel.Steps.mod {cfg : Config} {ch x : Channel} (h : Channel.Steps cfg ch x) : x.mod = ch.mod :=
  congrArg (fun x => x.2.1) h.settings

/-- A step of a channel makes no new count above 0xFFFF and leaves the mode alone. -/
theorem Channel.Steps.countOrigin {cfg : Config} {c : Chan} {s t : State}
    (h : Channel.Steps cfg (s.ch c) (t.ch c)) : CountOrigin c s t := by
  intro hqwc
  have hle : (t.ch c).qwc ≤ (s.ch c).qwc := h.count.resolve_left (by omega)
  refine ⟨fun hs => absurd hqwc (by omega), fun _ hmod => absurd h.mod hmod, fun hwf => .inl fun _ => ?_⟩
  rw [h.mod]
  exact hwf (by omega)

/-- A write of `CHCR` makes a count above 0xFFFF by a Normal start only, and may give one another mode. -/
theorem countOrigin_chcr {c : Chan} {v : Word} {s t : State} (hwrites : WritesChcr c v s)
    (hstr : (s.ch c).str = false) (hmod : (t.ch c).mod = v.extractLsb' s.cfg.layout.chcrMOD 2)
    (hcount : (t.ch c).qwc ≤ 0xFFFF ∨ (t.ch c).qwc ≤ (s.ch c).qwc ∨
      (s.ch c).qwc = 0 ∧ v.getLsbD s.cfg.layout.chcrSTR = true ∧
        effMode (v.extractLsb' s.cfg.layout.chcrMOD 2) = .normal) : CountOrigin c s t := by
  intro hqwc
  have horigin := hcount.resolve_left (by omega)
  refine ⟨fun hs => ?_, fun _ _ => ⟨hstr, v, hwrites⟩, fun _ => ?_⟩
  · obtain ⟨hzero, hstart, hnormal⟩ := horigin.resolve_left (by omega)
    exact ⟨hzero, hstr, hmod ▸ hnormal, v, hwrites, hstart, hnormal⟩
  · by_cases hnormal : effMode (v.extractLsb' s.cfg.layout.chcrMOD 2) = .normal
    · exact .inl fun _ => hmod ▸ hnormal
    · have hle : (t.ch c).qwc ≤ (s.ch c).qwc := horigin.resolve_right fun h => hnormal h.2.2
      exact .inr ⟨hstr, by omega, v, hwrites, hnormal⟩

/-- Settles O52: a step of a channel makes no new count above 0xFFFF and no new mode; only a write of `CHCR` to the
idle channel is no such step. -/
theorem stepKeepsChannels : Obligations.StepKeepsChannels := by
  intro s t hwf h
  have of_steps (h : ChannelsStep s t) : ChannelsWf t ∧ ∀ c, CountOrigin c s t :=
    ⟨fun c => h.cfg ▸ (h.channels c).wf (hwf c), fun c => (h.channels c).countOrigin⟩
  obtain ⟨hvalid, hstep⟩ := step_cases h
  cases hstep with
  | chcr c v rest hwrites h =>
    have hcfg : t.cfg = s.cfg := by
      obtain ⟨x, hx⟩ := execWChcr_atoms h
      exact hx.cfg
    have hc : (ChannelWf s.cfg (s.ch c) → ChannelWf s.cfg (t.ch c)) ∧ CountOrigin c s t := by
      rcases execWChcr_channel (s := s.taken rest) (encoding_of_valid hvalid).2.1 h with
        hsteps | ⟨hstr, hmod, hkeep, hcount⟩
      · exact ⟨hsteps.wf, Channel.Steps.countOrigin (s := s) hsteps⟩
      · exact ⟨hkeep, countOrigin_chcr hwrites hstr hmod hcount⟩
    have hd (d : Chan) (hne : d ≠ c) : Channel.Steps s.cfg (s.ch d) (t.ch d) := by
      rw [execWChcr_ch_ne hne h]
      exact .refl ..
    refine ⟨fun d => ?_, fun d => ?_⟩ <;> by_cases hne : d = c
    · subst hne
      rw [hcfg]
      exact hc.1 (hwf d)
    · rw [hcfg]
      exact (hd d hne).wf (hwf d)
    · exact hne ▸ hc.2
    · exact (hd d hne).countOrigin
  | written p d n a v rest hagenda h => exact of_steps (.trans (t := s.taken rest) (.of_eq rfl rfl) h.channelsStep)
  | reset rest hagenda h =>
    subst h
    refine ⟨fun c => ?_, fun c hqwc => ?_⟩ <;> rw [performReset_ch] at *
    · exact channelWf_reset _
    · exact absurd hqwc (by decide)
  | acts h => exact of_steps h.channelsStep

/-! ## Settings of software (rules R22, R32, R33, R35, R37, R47) -/

/-- Where the named bits of `STAT` stand under a valid configuration (rule R35). -/
theorem status_apart {cfg : Config} (h : Config.valid cfg = true) {i : Nat}
    (hi : cfg.layout.statCIS ≤ i ∧ i < cfg.layout.statCIS + cfg.literals.nch ∨ i = cfg.layout.statSIS ∨
      i = cfg.layout.statBEIS) :
    i < 32 ∧ ¬ (cfg.layout.statCIM ≤ i ∧ i < cfg.layout.statCIM + cfg.literals.nch ∨ i = cfg.layout.statSIM) := by
  obtain ⟨hapart, -⟩ := Layout.valid_stat (encoding_of_valid h).1
  simp only [fieldsApart, Bool.and_eq_true, Bool.or_eq_true, decide_eq_true_eq, List.all_cons, List.all_nil,
    and_true] at hapart
  omega

/-- A status bit that is set is no mask bit. -/
theorem or_status_and_mask {cfg : Config} (h : Config.valid cfg = true) (st : Word) {i : Nat}
    (hi : cfg.layout.statCIS ≤ i ∧ i < cfg.layout.statCIS + cfg.literals.nch ∨ i = cfg.layout.statSIS ∨
      i = cfg.layout.statBEIS) :
    (st ||| (1#32 <<< i)) &&& cfg.statMaskMask = st &&& cfg.statMaskMask := by
  obtain ⟨hlt, hmask⟩ := status_apart h hi
  have hbit : (1#32 <<< i) &&& cfg.statMaskMask = 0#32 := by
    ext j hj
    rw [← BitVec.getLsbD_eq_getElem, BitVec.getLsbD_and, getLsbD_oneBit hj, statMaskMask_getLsbD cfg hj]
    by_cases hji : j = i
    · subst hji
      simp [hmask]
    · simp [hji]
  rw [BitVec.and_comm, BitVec.and_or_distrib_left, BitVec.and_comm _ (1#32 <<< i), hbit, BitVec.and_comm]
  exact BitVec.or_zero

/-- Each channel at most takes a step, and every setting of software stays, the mask bits of `STAT` under a valid
configuration. -/
structure KeepsSettings (s t : State) : Prop extends ChannelsStep s t where
  dmae : t.dmae = s.dmae
  cpnd : t.cpnd = s.cpnd
  ioImask : t.ioImask = s.ioImask
  mask : Config.valid s.cfg = true → t.stat &&& s.cfg.statMaskMask = s.stat &&& s.cfg.statMaskMask

theorem KeepsSettings.refl (s : State) : KeepsSettings s s := ⟨.refl s, rfl, rfl, rfl, fun _ => rfl⟩

theorem KeepsSettings.trans {s t u : State} (h : KeepsSettings s t) (h' : KeepsSettings t u) : KeepsSettings s u where
  toChannelsStep := h.toChannelsStep.trans h'.toChannelsStep
  dmae := h'.dmae.trans h.dmae
  cpnd := h'.cpnd.trans h.cpnd
  ioImask := h'.ioImask.trans h.ioImask
  mask hv := by
    have hmask := h'.mask (h.cfg.symm ▸ hv)
    rw [h.cfg] at hmask
    exact hmask.trans (h.mask hv)

theorem Passive.keepsSettings {s t : State} (h : Passive s t) : KeepsSettings s t := by
  have hframe := h.frame
  refine ⟨.of_eq hframe.cfg hframe.chans, hframe.dmae, hframe.cpnd, hframe.ioImask, fun hv => ?_⟩
  rcases h.stat_cases with hst | hst | hst <;> rw [hst]
  · exact or_status_and_mask hv _ (.inr (.inl rfl))
  · exact or_status_and_mask hv _ (.inr (.inr rfl))

theorem setCis_and_mask {cfg : Config} (h : Config.valid cfg = true) (st : Word) (c : Chan) :
    setCis cfg st c &&& cfg.statMaskMask = st &&& cfg.statMaskMask := by
  unfold setCis
  split
  · next hc =>
    have hlt : c.val < cfg.literals.nch := of_decide_eq_true hc
    exact or_status_and_mask h st (.inl (by omega))
  · rfl

theorem Atom.keepsSettings {c : Chan} {s t : State} (h : Atom c s t) : KeepsSettings s t := by
  cases h with
  | passive h => exact h.keepsSettings
  | registers x h => exact ⟨channelsStep_setCh h, rfl, rfl, rfl, fun _ => rfl⟩
  | completed => exact ⟨.of_eq rfl rfl, rfl, rfl, rfl, fun hv => setCis_and_mask hv ..⟩
  | _ => exact ⟨.of_eq rfl rfl, rfl, rfl, rfl, fun _ => rfl⟩

/-- No step changes the configuration (rule R47). -/
theorem stepInvariant_cfg : StepInvariant fun s t => t.cfg = s.cfg where
  refl _ := rfl
  trans h h' := h'.trans h
  atom := Atom.cfg
  channel _ _ _ := rfl
  enable _ _ _ := rfl
  stat _ _ _ := rfl
  ioIstat _ _ _ := rfl
  ioImask _ _ _ := rfl
  reset _ _ := rfl

/-- Settles O59: an operation that is neither a register access nor a reset is a number of changes by channels, and
each of them keeps the settings. -/
theorem settingsOnlyBySoftware : Obligations.SettingsOnlyBySoftware := by
  intro s t h
  refine ⟨stepInvariant_cfg.step h, fun haccess hreset => ?_⟩
  obtain ⟨hvalid, hstep⟩ := step_cases h
  cases hstep with
  | chcr c v rest hwrites h =>
    obtain ⟨p, d, n, a, x, r, hagenda, -⟩ := hwrites
    exact absurd (by rw [hagenda]; rfl) (haccess p d n a x)
  | written p d n a v rest hagenda h => exact absurd (by rw [hagenda]; rfl) (haccess p d n a v)
  | reset rest hagenda h => exact absurd (by rw [hagenda]; rfl) hreset
  | acts h =>
    have hkeep : KeepsSettings s t := h.keep .refl .trans Atom.keepsSettings
    refine ⟨hkeep.dmae, hkeep.cpnd, hkeep.ioImask, hkeep.mask hvalid, fun c => ?_⟩
    have hsteps := hkeep.channels c
    have hsettings := hsteps.settings
    simp only [Channel.settings, Prod.mk.injEq] at hsettings
    obtain ⟨hdir, hmod, hstm, hchop, htie⟩ := hsettings
    exact ⟨hdir, hmod, hstm, hchop, htie, hsteps.str⟩

end Sys2Proof.Machine
end

section
/-! PROOFS. Register accesses, the interrupt test, outside agents, the mailbox and reset. -/

namespace Sys2Proof.Machine

/-! ## The enabler pair (rules R33, R234) -/

/-- In a direction that a register does not answer, no register stands at its address (rule R86). -/
theorem regAt_of_not_answers {cfg : Config} (h : Config.valid cfg = true) {r : RegName} {d : Dir}
    (hd : r.answers d = false) (p : Domain) : cfg.regAt p d (cfg.addr r) = none := by
  refine List.find?_eq_none.2 fun r' _ hr' => ?_
  simp only [Bool.and_eq_true, beq_iff_eq] at hr'
  obtain ⟨⟨-, hanswers⟩, haddr⟩ := hr'
  rw [addr_injective h haddr, hd] at hanswers
  cases hanswers

/-- A flag at its position. -/
theorem bitAt_eq (b : Bool) (i : Nat) : bitAt b i = if b then 1#32 <<< i else 0#32 := by
  cases b
  · simp [bitAt]
  · rfl

/-- Settles O5: neither half answers the direction in question, so nothing is mapped there. -/
theorem enablerHalves : Obligations.EnablerHalves := by
  intro cfg v s hv
  refine ⟨?_, ?_, rfl, rfl, ?_⟩
  · simp [decode, decodeAccess, addr_aligned hv, regAt_of_not_answers hv (r := .enabler) (d := .write) rfl]
  · simp [decode, decodeAccess, addr_aligned hv, regAt_of_not_answers hv (r := .enablew) (d := .read) rfl]
  · rw [← bitAt_eq]
    rfl

/-! ## `CHCR` (rules R22, R221, R222) -/

/-- A field of a word, put back in its place, is the word under the mask of the field. -/
theorem field_in_place (v : Word) {p w : Nat} {m : Word}
    (hm : ∀ i < 32, m.getLsbD i = decide (p ≤ i ∧ i < p + w)) :
    (v.extractLsb' p w).setWidth 32 <<< p = v &&& m := by
  ext i hi
  simp only [← BitVec.getLsbD_eq_getElem, BitVec.getLsbD_shiftLeft, BitVec.getLsbD_setWidth,
    BitVec.getLsbD_extractLsb', BitVec.getLsbD_and, hm i hi]
  by_cases hp : p ≤ i
  · simp [hi, show ¬ i < p by omega, show i - p < 32 by omega, show p + (i - p) = i by omega, hp,
      show i - p < w ↔ i < p + w by omega, Bool.and_comm]
  · simp [show i < p by omega, hp]

/-- A flag of a word, put back in its place. -/
theorem bitAt_in_place (v : Word) {p : Nat} {m : Word} (hm : ∀ i < 32, m.getLsbD i = decide (p ≤ i ∧ i < p + 1)) :
    bitAt (v.getLsbD p) p = v &&& m := by
  rw [← field_in_place v hm, bitAt]
  congr 2
  ext i hi
  obtain rfl : i = 0 := by omega
  simp

/-- The depth that a written depth of more than two is stored as, in its place (rule R22). -/
theorem clampAsp_in_place (v : Word) :
    (clampAsp 2 (v.extractLsb' 24 2)).setWidth 32 <<< 24 =
      if v &&& 0x03000000#32 = 0x03000000#32 then 0x02000000#32 else v &&& 0x03000000#32 := by
  rw [← field_in_place v (p := 24) (w := 2) (m := 0x03000000#32) (by decide)]
  generalize v.extractLsb' 24 2 = asp
  revert asp
  decide

/-- The fields that a write stores, read back under the written layout (rule R222). -/
theorem chcr_storeFields {cfg : Config} {ch : Channel} (hl : cfg.layout = Layout.default)
    (hx : cfg.literals = Literals.written) (hstr : ch.str = false) (v : Word) :
    Channel.chcr cfg.layout (Channel.storeFields cfg ch v) = (v &&& 0x000003FE#32) |||
      (if v &&& 0x03000000#32 = 0x03000000#32 then 0x02000000#32 else v &&& 0x03000000#32) := by
  simp only [Channel.chcr, Channel.storeFields, hl, hx, hstr, Layout.default, Literals.written]
  rw [clampAsp_in_place, bitAt_in_place v (p := 1) (m := 0x2#32) (by decide),
    field_in_place v (p := 2) (w := 2) (m := 0xC#32) (by decide),
    field_in_place v (p := 4) (w := 2) (m := 0x30#32) (by decide),
    field_in_place v (p := 6) (w := 3) (m := 0x1C0#32) (by decide),
    bitAt_in_place v (p := 9) (m := 0x200#32) (by decide)]
  simp only [← BitVec.and_or_distrib_left, BitVec.or_assoc]
  simp [bitAt, ← BitVec.or_assoc]

/-- Settles O18: the write stores the fields of an idle channel, and each of them reads back in its place. -/
theorem chcrReadsBack : Obligations.ChcrReadsBack := by
  intro c v s hstr hstart l asp t
  have hwrite : exec (.wChcr c v) s = .next (s.setCh c (Channel.storeFields s.cfg (s.ch c) v)) := by
    change execWChcr c v s = _
    simp [execWChcr, hstr, hstart]
  refine ⟨hwrite, fun hl hx => ?_⟩
  rw [← chcr_storeFields hl hx hstr v]
  change execRChcr c (s.setCh c (Channel.storeFields s.cfg (s.ch c) v)) = _
  rw [execRChcr, State.ch_setCh_self]
  rfl

/-! ## The interrupt test (rules R38, R267, R268) -/

/-- A completion bit with its mask bit, or the stall bit with its own (rule R38). -/
theorem pendingMain_getLsbD (cfg : Config) (st : Word) {i : Nat} (hi : i < 32) :
    (pendingMain cfg st).getLsbD i =
      (st.getLsbD i && st.getLsbD (cfg.layout.statCIM - cfg.layout.statCIS + i) &&
        decide (cfg.layout.statCIS ≤ i ∧ i < cfg.layout.statCIS + cfg.literals.nch ∨ i = cfg.layout.statSIS)) := by
  simp [pendingMain, Config.statPendingMask, BitVec.getLsbD_ushiftRight, getLsbD_chanBits cfg hi, getLsbD_oneBit hi]

/-- An IO status bit with its mask bit (rule R38). -/
theorem pendingIo_getLsbD (cfg : Config) (st mask : Word) (i : Nat) :
    (pendingIo cfg st mask).getLsbD i =
      (decide (cfg.layout.ioCH ≤ i ∧ i < cfg.layout.ioCH + cfg.literals.nch) && st.getLsbD i && mask.getLsbD i) := by
  by_cases hi : i < 32
  · simp only [pendingIo, Config.ioMask, BitVec.getLsbD_and, getLsbD_chanBits cfg hi]
    rw [Bool.and_comm, Bool.and_assoc]
  · simp [BitVec.getLsbD_of_ge _ i (Nat.le_of_not_lt hi)]

/-- The interrupt test sets the line of its domain to the pending test. -/
theorem evaluatePending_eq (p : Domain) (s : State) :
    evaluatePending p s = s.setExc p (decide (s.pending p ≠ 0#32)) := by
  have hbne : (s.pending p != 0#32) = decide (s.pending p ≠ 0#32) := by simp [bne, beq_eq_decide]
  rw [evaluatePending, hbne]

/-- Settles O37: the bits by the laws of the pending masks; a mask bit stands as far above its status bit for the
stall as for the channels. -/
theorem pendingTest : Obligations.PendingTest := by
  intro s i w hv l n
  obtain ⟨-, hbelow, hdistance⟩ : _ ∧ l.statCIS < l.statCIM ∧ l.statSIM + l.statCIS = l.statSIS + l.statCIM :=
    Layout.valid_stat (encoding_of_valid hv).1
  refine ⟨fun c hc => ?_, ?_, fun hi => ?_, pendingIo_getLsbD .., ?_, ?_, rfl⟩
  · have hlt : c.val < n := of_decide_eq_true hc
    obtain ⟨hword, -⟩ := status_apart hv (i := l.statCIS + c.val)
      (.inl ⟨Nat.le_add_right .., Nat.add_lt_add_left hlt _⟩)
    have hmask : l.statCIM - l.statCIS + (l.statCIS + c.val) = l.statCIM + c.val := by omega
    rw [State.pending, pendingMain_getLsbD _ _ hword, hmask,
      decide_eq_true (.inl ⟨Nat.le_add_right .., Nat.add_lt_add_left hlt _⟩), Bool.and_true]
  · obtain ⟨hword, -⟩ := status_apart hv (i := l.statSIS) (.inr (.inl rfl))
    have hmask : l.statCIM - l.statCIS + l.statSIS = l.statSIM := by omega
    rw [State.pending, pendingMain_getLsbD _ _ hword, hmask, decide_eq_true (.inr rfl), Bool.and_true]
  · by_cases hword : i < 32
    · rw [State.pending, pendingMain_getLsbD _ _ hword, decide_eq_false hi, Bool.and_false]
    · exact BitVec.getLsbD_of_ge _ _ (Nat.le_of_not_lt hword)
  · exact congrArg _ (evaluatePending_eq .main s)
  · exact congrArg _ (evaluatePending_eq .io s)

/-! ## Outside agents (rules R40, R157, R204) -/

/-- An external handler that the environment answers with nothing (rule U6). -/
theorem extHandler_nil {s : State} (h : s.answers.handler = []) (p : Domain) : extHandler p s = .next s.tick := by
  rw [extHandler, h]
  rfl

/-- Settles O38: each of the events is an external handler. -/
theorem externalEventsComplete : Obligations.ExternalEventsComplete := by
  intro p j k w s
  refine ⟨fun hs => ?_, fun h => ⟨extHandler_nil h p, extHandler_nil h .io, extHandler_nil h .io⟩⟩
  have hpending : NoInterleavePending .io s := ⟨hs, fun h => nomatch h⟩
  have complete (p : Domain) : ∃ t, extHandler p s = .next t := by
    obtain ⟨t, ht, -⟩ := extHandler_next p hpending
    exact ⟨t, ht⟩
  exact ⟨complete p, complete .io, complete .io⟩

/-- What an external handler of IO may change (rule R204). -/
structure EndpointStep (s t : State) : Prop where
  fields : t = { s with
    schedMain := t.schedMain, schedIo := t.schedIo, bridge := t.bridge, endpointMoved := t.endpointMoved,
    wk := t.wk, script := t.script, ticks := t.ticks, out := t.out }
  cycleMain : t.schedMain.cycle = s.schedMain.cycle
  cycleIo : t.schedIo.cycle = s.schedIo.cycle
  moved : s.endpointMoved = true → t.endpointMoved = true
  notified : ∀ k : Kind, k ≠ bridgeStep → t.schedMain.slots[k.val] ≠ s.schedMain.slots[k.val] →
    t.endpointMoved = true ∧ ∃ c, k = dmaCont c ∧ s.running c = true ∧ fifoOf s.cfg c = some .bridge

/-- A change that leaves the scheduler of MAIN alone. -/
theorem EndpointStep.of_eq {s t : State} (h : t = { s with
    schedIo := t.schedIo, bridge := t.bridge, endpointMoved := t.endpointMoved,
    wk := t.wk, script := t.script, ticks := t.ticks, out := t.out })
    (hcycle : t.schedIo.cycle = s.schedIo.cycle) (hmoved : s.endpointMoved = true → t.endpointMoved = true) :
    EndpointStep s t := by
  have hmain : t.schedMain = s.schedMain := by rw [h]
  refine ⟨?_, by rw [hmain], hcycle, hmoved, fun k _ hk => absurd (by rw [hmain]) hk⟩
  rw [h]

theorem EndpointStep.refl (s : State) : EndpointStep s s := .of_eq rfl rfl id

theorem EndpointStep.trans {s t u : State} (h : EndpointStep s t) (h' : EndpointStep t u) : EndpointStep s u where
  fields := h'.fields.trans (by rw [h.fields])
  cycleMain := h'.cycleMain.trans h.cycleMain
  cycleIo := h'.cycleIo.trans h.cycleIo
  moved := h'.moved ∘ h.moved
  notified k hk hne := by
    by_cases hu : u.schedMain.slots[k.val] = t.schedMain.slots[k.val]
    · obtain ⟨hmoved, hc⟩ := h.notified k hk (hu ▸ hne)
      exact ⟨h'.moved hmoved, hc⟩
    · have hrunning (c : Chan) : t.running c = s.running c := by rw [h.fields]; rfl
      have hcfg : t.cfg = s.cfg := by rw [h.fields]
      obtain ⟨hmoved, c, hc, hr, hf⟩ := h'.notified k hk hu
      exact ⟨hmoved, c, hc, hrunning c ▸ hr, hcfg ▸ hf⟩

theorem endpointStep_tick (s : State) : EndpointStep s s.tick := .of_eq rfl rfl id

theorem endpointStep_emit (o : Output) (s : State) : EndpointStep s (s.emit o) := .of_eq rfl rfl id

theorem endpointStep_setFifo (x : Fifo) (s : State) : EndpointStep s (s.setFifo .bridge x) := .of_eq rfl rfl id

theorem endpointStep_afterMove (f : FifoId) (n : Nat) (s : State) : EndpointStep s (afterMove f n s) := by
  rw [afterMove_eq]
  exact .of_eq rfl rfl fun h => by simp [h]

theorem endpointStep_armIo (k : Kind) (d : Nat) (w : Word) (s : State) : EndpointStep s (arm .io k d w s) :=
  .of_eq rfl rfl id

/-- What the endpoint arms in MAIN: the bridge step, or the continuation of a channel that it may notify. -/
theorem endpointStep_armMain {k : Kind} (d : Nat) (w : Word) {s : State}
    (h : k = bridgeStep ∨ s.endpointMoved = true ∧
      ∃ c, k = dmaCont c ∧ s.running c = true ∧ fifoOf s.cfg c = some .bridge) :
    EndpointStep s (arm .main k d w s) := by
  refine ⟨rfl, rfl, rfl, id, fun j hj hne => ?_⟩
  by_cases hjk : j = k
  · subst hjk
    exact h.resolve_left hj
  · exact absurd (Sched.arm_slot_ne _ d w hjk) hne

theorem endpointStep_workerPost (g : Signal) (w : DWord) (s : State) : EndpointStep s (workerPost g w s) := by
  cases g <;> exact .of_eq rfl rfl id

theorem endpointStep_arbWriteDirect (i : Nat) (d : List Qword) (s : State) :
    EndpointStep s (arbWriteDirect .bridge i d s).2 := by
  rcases arbWriteDirect_cases .bridge i d s with h | ⟨-, h⟩
  · rw [h]
    exact .refl s
  · rw [h]
    exact endpointStep_setFifo _ s

/-- The FIFO whose direct paths and consumer act in IO (rule R204). -/
theorem fifoSide_io {f : FifoId} (h : (Domain.io == fifoSide f) = true) : f = .bridge := by
  cases f
  · cases h
  · rfl

/-- An operation of an agent of IO. -/
theorem performExt_endpointStep {e : ExtOp} {s t : State} (h : performExt .io e s = .next t) : EndpointStep s t := by
  cases hp : permitted .io s e with
  | false =>
    rw [performExt_not_permitted hp] at h
    cases h
    exact .refl s
  | true =>
    unfold performExt at h
    rw [if_pos hp] at h
    cases e with
    | arm q k d w =>
      cases h
      cases q with
      | io => exact endpointStep_armIo ..
      | main =>
        have hk : k = bridgeStep := by
          simp only [permitted, mayArm, Bool.and_eq_true] at hp
          simpa using hp.1.1
        exact endpointStep_armMain _ w (.inl hk)
    | cancel q k =>
      cases h
      cases q with
      | io => exact .of_eq rfl rfl id
      | main => cases hp
    | pathRequest f i b =>
      cases h
      obtain rfl := fifoSide_io (Bool.and_eq_true_iff.1 hp).1
      exact endpointStep_setFifo _ s
    | arbWriteDirect f i d =>
      cases h
      obtain rfl := fifoSide_io (Bool.and_eq_true_iff.1 (Bool.and_eq_true_iff.1 hp).1).1
      exact (endpointStep_arbWriteDirect ..).trans ((endpointStep_emit ..).trans
        ((endpointStep_afterMove ..).trans (endpointStep_tick _)))
    | setPathMask f i b => cases hp
    | fifoDrain f k =>
      cases h
      obtain rfl := fifoSide_io (Bool.and_eq_true_iff.1 hp).1
      exact (endpointStep_setFifo ..).trans ((endpointStep_emit ..).trans (endpointStep_afterMove ..))
    | notify c d =>
      cases h
      obtain ⟨hmoved, -, hrunning, hfifo, -⟩ := (mayNotify_iff s c d).1 hp
      exact endpointStep_armMain _ _ (.inr ⟨hmoved, c, rfl, hrunning, hfifo⟩)
    | chanUnmasked c => cases hp
    | workerPost g w => cases h; exact endpointStep_workerPost g w s

theorem performExts_endpointStep (l : List ExtOp) {s t : State} (h : performExts .io l s = .next t) :
    EndpointStep s t := by
  induction l generalizing s with
  | nil => cases h; exact .refl _
  | cons e l ih =>
    rw [performExts_cons] at h
    obtain ⟨u, hu, h⟩ := andThen_eq_next h
    exact (performExt_endpointStep hu).trans (ih h)

/-- Settles O39: each of the three events is an external handler of IO, a sequence of operations of its agents. -/
theorem endpointFrame : Obligations.EndpointFrame := by
  intro k j w s t h
  have hhandler : extHandler .io s = .next t := by
    rcases h with h | h | h <;> exact h
  have hstep := (endpointStep_tick s).trans (performExts_endpointStep _ hhandler)
  exact ⟨hstep.fields, hstep.cycleMain, hstep.cycleIo, hstep.moved, hstep.notified⟩

/-! ## The global enable (rules R32 to R34) -/

/-- A write that does not turn the enable on starts nothing. -/
theorem afterEnableWrite_of_not_turned_on {was : Bool} {s : State} (h : was = true ∨ s.globalEnable = false) :
    afterEnableWrite was s = .next s := by
  unfold afterEnableWrite
  rcases h with h | h <;> simp [h]

/-- Settles O32: in each of the three cases the enable was on before or is off after. -/
theorem enableWriteWithoutRestart : Obligations.EnableWriteWithoutRestart := by
  intro v s dmae cpnd
  refine ⟨fun h => afterEnableWrite_of_not_turned_on (h.imp_right fun h => ?_),
    fun h => afterEnableWrite_of_not_turned_on (h.imp_right fun h => ?_)⟩
  · change (dmae && !s.cpnd) = false
    rcases h with h | h <;> simp [h]
  · change (s.dmae && !cpnd) = false
    rcases h with h | h <;> simp [h]

/-! ## The mailbox (rule R46) -/

/-- A mailbox in which no flag is set has none to clear. -/
theorem Mailbox.clear_eq_self {m : Mailbox} (hfinish : m.finish = false) (hlabel : m.label = false)
    (hsignal : m.signal = false) : { m with finish := false, label := false, signal := false } = m := by
  cases m
  subst hfinish hlabel hsignal
  rfl

/-- Settles O49: of the three flags one is set, and its signal is handed on. -/
theorem mailboxTake : Obligations.MailboxTake := by
  intro w s hfinish hlabel hsignal
  refine ⟨?_, ?_, ?_⟩ <;>
    simp [workerTake, workerPost, takeSignal, State.emit, hfinish, hlabel, hsignal,
      Mailbox.clear_eq_self hfinish hlabel hsignal]

/-! ## Reset (rules R48, R290) -/

/-- No event is armed in a scheduler after reset. -/
theorem reset_slots_armed (k : Kind) : Sched.reset.slots[k.val].armed = false := by
  simp [Sched.reset, Slot.reset]

theorem reset_ch (c : Chan) : State.reset.ch c = Channel.reset := by simp [State.reset, State.ch]

theorem schedTimely_reset : SchedTimely Sched.reset :=
  ⟨fun h => (nomatch h), fun k hk => by rw [reset_slots_armed] at hk; cases hk⟩

/-- Settles O57: every piece of the reset state meets its invariant. -/
theorem resetMeetsInvariants : Obligations.ResetMeetsInvariants := by
  refine ⟨fun c => ⟨fun h => ?_, fun h => ?_⟩, fun c => ?_, ⟨?_, ?_⟩, ⟨schedTimely_reset, schedTimely_reset⟩,
    Memory.wf_reset, by decide, by decide⟩
  · rw [reset_ch] at h
    cases h
  · exact absurd ((reset_slots_armed (dmaCont c)).symm.trans h) Bool.false_ne_true
  · rw [reset_ch]
    exact channelWf_reset _
  · exact fifoWf_reset _ (by decide) (by decide)
  · exact fifoWf_reset _ (by decide) (by decide)

/-- Settles O58: nothing holds a reset back, and every piece is the one that reset gives. -/
theorem resetStep : Obligations.ResetStep := by
  intro s rest hvalid hwindow hagenda
  have hstep : step s = .next (performReset (s.taken rest)) := by
    unfold step runStep
    rw [hagenda]
    exact admitted_eq hvalid hwindow
  refine ⟨_, hstep, performReset_ch _, rfl, rfl, rfl, rfl, rfl, rfl, rfl, rfl, rfl, fun p => ?_, rfl, rfl, rfl,
    fun f => ?_, rfl, rfl, rfl, rfl, rfl, rfl⟩
  · cases p <;> exact ⟨rfl, rfl, reset_slots_armed⟩
  · cases f <;> exact ⟨rfl, rfl, rfl, rfl, rfl, rfl⟩

end Sys2Proof.Machine
end

section
/-! PROOFS. The queue and the continuations inside an operation: laws 1 and 2 of rule R126, change by change. -/

namespace Sys2Proof.Machine

/-! ## What keeps the queue well formed -/

/-- The continuation of channel `c` is armed in MAIN (rule R40). -/
abbrev State.armedCont (s : State) (c : Chan) : Prop := s.schedMain.slots[(dmaCont c).val].armed = true

/-- A change that leaves `STR` and the queue bit of each channel alone and arms no continuation. -/
theorem queueWf_of_eq {s t : State} (hstr : ∀ c, (t.ch c).str = (s.ch c).str)
    (hqueued : ∀ c, (t.ch c).queued = (s.ch c).queued) (harmed : ∀ c, t.armedCont c → s.armedCont c)
    (h : QueueWf s) : QueueWf t := by
  intro c
  have hrunning : t.running c = s.running c := by rw [State.running, State.running, hstr, hqueued]
  obtain ⟨hq, ha⟩ := h c
  rw [hqueued, hstr, hrunning]
  exact ⟨hq, ha ∘ harmed c⟩

theorem Passive.armedCont {s t : State} (h : Passive s t) (c : Chan) (ht : t.armedCont c) : s.armedCont c := by
  cases h with
  | clock p x hx =>
    cases p with
    | main =>
      have hslots : x.slots = s.schedMain.slots := hx
      unfold State.armedCont
      rw [← hslots]
      exact ht
    | io => exact ht
  | cancelled p k =>
    cases p with
    | main =>
      by_cases hk : dmaCont c = k
      · subst hk
        have hclear := congrArg Slot.armed (Sched.cancel_slot_self s.schedMain (dmaCont c))
        exact absurd (hclear.symm.trans ht) Bool.false_ne_true
      · exact (congrArg Slot.armed (Sched.cancel_slot_ne s.schedMain hk)).symm.trans ht
    | io => exact ht
  | armed p k d w hk =>
    cases p with
    | main => exact (congrArg Slot.armed (Sched.arm_slot_ne s.schedMain d w (hk rfl c).symm)).symm.trans ht
    | io => exact ht
  | ring f x hx => cases f <;> exact ht
  | _ => exact ht

theorem Passive.queueWf {s t : State} (h : Passive s t) : QueueWf s → QueueWf t :=
  queueWf_of_eq (fun c => by rw [h.ch]) (fun c => by rw [h.ch]) h.armedCont

/-- A continuation armed for a Running channel. -/
theorem queueWf_arm {c : Chan} {s : State} (hrunning : s.running c = true) (d : Nat) (w : Word) (h : QueueWf s) :
    QueueWf (arm .main (dmaCont c) d w s) := by
  intro e
  refine ⟨(h e).1, fun harmed => ?_⟩
  by_cases he : e = c
  · exact he ▸ hrunning
  · have hslot := Sched.arm_slot_ne s.schedMain d w fun h => he (dmaCont_injective h)
    exact (h e).2 ((congrArg Slot.armed hslot).symm.trans harmed)

theorem queueWf_setCh {c : Chan} {x : Channel} {s : State} (hqueued : x.queued = true → x.str = true)
    (harmed : s.armedCont c → (x.str && !x.queued) = true) (h : QueueWf s) : QueueWf (s.setCh c x) := by
  intro d
  rw [State.running, State.ch_setCh]
  split
  · next hd => exact ⟨hqueued, hd ▸ harmed⟩
  · exact h d

/-- A channel that is neither busy nor queued is so after a force-stop, with no continuation (rule R118). -/
theorem queueWf_haltChannel (c : Chan) {s : State} (h : QueueWf s) : QueueWf (haltChannel c s) := by
  intro d
  by_cases hd : d = c
  · subst hd
    rw [State.running, haltChannel_ch_self]
    refine ⟨fun h => (nomatch h), fun harmed => ?_⟩
    rw [haltChannel_eq] at harmed
    have hclear := congrArg Slot.armed (Sched.cancel_slot_self s.schedMain (dmaCont d))
    exact absurd (hclear.symm.trans harmed) Bool.false_ne_true
  · rw [State.running, haltChannel_ch_ne s hd]
    refine ⟨(h d).1, fun harmed => (h d).2 ?_⟩
    rw [haltChannel_eq] at harmed
    have hslot := Sched.cancel_slot_ne s.schedMain fun h => hd (dmaCont_injective h)
    exact (congrArg Slot.armed hslot).symm.trans harmed

theorem queueWf_raiseChannel (c : Chan) {s : State} (h : QueueWf s) : QueueWf (raiseChannel c s) := by
  rw [raiseChannel_eq]
  refine queueWf_of_eq (s := s) (fun _ => rfl) (fun _ => rfl) (fun d hd => ?_) h
  exact (congrArg Slot.armed (testedSched_slot s .main _ (dmaCont_ne_intTest d))).symm.trans hd

/-! ## A channel in the midst of a step -/

/-- Channel `c` is in the midst of a step: Running, with no continuation armed. -/
structure Stepping (c : Chan) (s : State) : Prop where
  queue : QueueWf s
  running : s.running c = true
  unarmed : ¬ s.armedCont c

theorem Stepping.str {c : Chan} {s : State} (h : Stepping c s) : (s.ch c).str = true :=
  (Bool.and_eq_true_iff.1 h.running).1

theorem Stepping.queued {c : Chan} {s : State} (h : Stepping c s) : (s.ch c).queued = false :=
  by simpa using (Bool.and_eq_true_iff.1 h.running).2

theorem Stepping.of_eq {c : Chan} {s t : State} (h : Stepping c s) (hstr : ∀ c, (t.ch c).str = (s.ch c).str)
    (hqueued : ∀ c, (t.ch c).queued = (s.ch c).queued) (harmed : ∀ c, t.armedCont c → s.armedCont c) :
    Stepping c t where
  queue := queueWf_of_eq hstr hqueued harmed h.queue
  running := by rw [State.running, hstr, hqueued]; exact h.running
  unarmed := h.unarmed ∘ harmed c

theorem ChanMove.stepping {c : Chan} {s t : State} (h : ChanMove c s t) (hs : Stepping c s) : Stepping c t := by
  cases h with
  | passive h => exact hs.of_eq (fun c => by rw [h.ch]) (fun c => by rw [h.ch]) h.armedCont
  | registers x h =>
    refine hs.of_eq (fun d => ?_) (fun d => ?_) (fun _ => id) <;> rw [State.ch_setCh] <;> split
    · next hd => rw [hd, h.str]
    · rfl
    · next hd => rw [hd, h.queued]
    · rfl
  | units d => exact hs.of_eq (fun _ => rfl) (fun _ => rfl) fun _ => id

theorem ChanMoves.stepping {c : Chan} {s t : State} (h : ChanMoves c s t) : Stepping c s → Stepping c t :=
  many_keep (r' := fun s t => Stepping c s → Stepping c t) (fun _ => id) (fun h h' => h' ∘ h) ChanMove.stepping h

theorem StepEnd.queueWf {c : Chan} {s t : State} (h : StepEnd c s t) (hs : Stepping c s) : QueueWf t := by
  cases h with
  | rearmed wanted m => exact queueWf_arm hs.running _ _ hs.queue
  | completed =>
    refine queueWf_raiseChannel c (queueWf_setCh (fun hq => ?_) (fun ha => absurd ha hs.unarmed) hs.queue)
    exact absurd (hs.queued.symm.trans hq) Bool.false_ne_true
  | failed =>
    have hlatched : QueueWf { s with stat := setBeis s.cfg.layout s.stat } := hs.queue
    exact queueWf_raiseChannel c (queueWf_haltChannel c hlatched)

theorem Stepping.continueChan {c : Chan} {s t : State} (hs : Stepping c s) (h : continueChan c s = .next t) :
    QueueWf t := by
  obtain ⟨u, hu, hend⟩ := continueChan_end h
  exact hend.queueWf (hu.stepping hs)

theorem Stepping.enqueue {c : Chan} {s : State} (hs : Stepping c s) : QueueWf (enqueue c s) :=
  queueWf_setCh (fun _ => hs.str) (fun ha => absurd ha hs.unarmed) hs.queue

theorem Stepping.runOrQueue {c : Chan} {s t : State} (hs : Stepping c s) (h : runOrQueue c s = .next t) :
    QueueWf t := by
  rcases runOrQueue_next_cases h with ⟨u, hu, rfl⟩ | rfl
  · exact (passive_tick u).queueWf (hs.continueChan hu)
  · exact (passive_tick _).queueWf hs.enqueue

/-- An armed continuation has fired: its channel steps. -/
theorem stepping_fired {c : Chan} {s : State} (hs : QueueWf s) (harmed : s.armedCont c) :
    Stepping c (cancel .main (dmaCont c) s) where
  queue := (Passive.cancelled .main (dmaCont c)).queueWf hs
  running := (hs c).2 harmed
  unarmed h := by
    have hclear := congrArg Slot.armed (Sched.cancel_slot_self s.schedMain (dmaCont c))
    exact Bool.false_ne_true (hclear.symm.trans h)

/-- A queued channel has left the queue: it steps. -/
theorem stepping_resumed {c : Chan} {s : State} (hs : QueueWf s) (hqueued : (s.ch c).queued = true) :
    Stepping c (s.setCh c { s.ch c with queued := false }) := by
  have hstr := (hs c).1 hqueued
  have hunarmed : ¬ s.armedCont c := fun ha => by
    have := (hs c).2 ha
    simp [State.running, hqueued] at this
  refine ⟨queueWf_setCh (fun h => nomatch h) (fun ha => absurd ha hunarmed) hs, ?_, hunarmed⟩
  rw [State.running, State.ch_setCh_self, hstr]
  rfl

/-- An idle channel is neither queued nor armed. -/
theorem idle_of_queueWf {c : Chan} {s : State} (hs : QueueWf s) (hstr : (s.ch c).str = false) :
    (s.ch c).queued = false ∧ ¬ s.armedCont c := by
  obtain ⟨hq, ha⟩ := hs c
  rw [State.running, hstr] at ha
  rw [hstr] at hq
  exact ⟨Bool.eq_false_iff.2 fun h => Bool.false_ne_true (hq h), fun h => Bool.false_ne_true (ha h)⟩

/-- A channel that a write of `CHCR` starts steps (rule R102). -/
theorem stepping_started {c : Chan} {s : State} (hs : QueueWf s) (hstr : (s.ch c).str = false) (v : Word) :
    Stepping c (startState c v s) := by
  obtain ⟨hqueued, hunarmed⟩ := idle_of_queueWf hs hstr
  refine ⟨queueWf_setCh (fun _ => rfl) (fun ha => absurd ha hunarmed) hs, ?_, hunarmed⟩
  rw [State.running, startState, State.ch_setCh_self]
  change (true && !(s.ch c).queued) = true
  rw [hqueued]
  rfl

/-! ## Whatever happens inside an operation, and register accesses -/

theorem Act.queueWf {s t : State} (h : Act s t) (hs : QueueWf s) : QueueWf t := by
  cases h with
  | passive h => exact h.queueWf hs
  | fired c harmed h => exact (stepping_fired hs harmed).runOrQueue h
  | resumed c hqueued h =>
    obtain ⟨u, hu, rfl⟩ := resume_next_cases h
    exact (passive_tick u).queueWf ((stepping_resumed hs hqueued).continueChan hu)
  | armed c d w hrunning => exact queueWf_arm hrunning d w hs

theorem Acts.queueWf {s t : State} (h : Acts s t) : QueueWf s → QueueWf t :=
  many_keep (r' := fun s t => QueueWf s → QueueWf t) (fun _ => id) (fun h h' => h' ∘ h) Act.queueWf h

theorem execWChcr_queueWf {c : Chan} {v : Word} {s t : State} (h : execWChcr c v s = .next t) (hs : QueueWf s) :
    QueueWf t := by
  rcases execWChcr_cases h with ⟨-, ⟨-, rfl⟩ | ⟨-, rfl⟩⟩ | ⟨hstr, ⟨-, rfl⟩ | ⟨-, h⟩⟩
  · exact hs
  · exact queueWf_haltChannel c hs
  · exact queueWf_setCh (hs c).1 (hs c).2 hs
  · exact (stepping_started hs hstr v).runOrQueue h

theorem Written.queueWf {s t : State} (h : Written s t) (hs : QueueWf s) : QueueWf t := by
  cases h with
  | passive h => exact h.queueWf hs
  | loaded c x _ h =>
    refine queueWf_setCh ?_ ?_ hs <;> rw [h.str, h.queued]
    · exact (hs c).1
    · exact (hs c).2
  | enabled a b h =>
    have hs' : QueueWf { s with dmae := a, cpnd := b } := hs
    exact h.queueWf hs'
  | _ => exact hs

end Sys2Proof.Machine
end

section
/-! PROOFS. What the run of one transfer rests on: addresses that follow it, what happens elsewhere, and what one step
moves (rules R104 to R116). -/

namespace Sys2Proof.Machine

/-! ## Addresses that follow a transfer -/

/-- The bits of an address below one unit. -/
def lowBits (cfg : Config) (a : Word) : Word := a &&& BitVec.ofNat 32 (cfg.unit - 1)

/-- An aligned address and low bits stand apart. -/
theorem align_and_low (cfg : Config) (b a : Word) : cfg.align b &&& lowBits cfg a = 0#32 := by
  ext i hi
  simp only [Config.align, lowBits, BitVec.getElem_and, BitVec.getElem_not, BitVec.getElem_zero]
  cases (BitVec.ofNat 32 (cfg.unit - 1))[i] <;> simp

/-- An address is its aligned part and its low bits. -/
theorem align_add_low (cfg : Config) (a : Word) : cfg.align a + lowBits cfg a = a := by
  rw [BitVec.add_eq_or_of_and_eq_zero _ _ (align_and_low cfg a a)]
  ext i hi
  simp only [Config.align, lowBits, BitVec.getElem_or, BitVec.getElem_and, BitVec.getElem_not]
  cases (BitVec.ofNat 32 (cfg.unit - 1))[i] <;> simp

/-- Low bits beside an aligned address are dropped. -/
theorem align_align_add_low (cfg : Config) (b a : Word) : cfg.align (cfg.align b + lowBits cfg a) = cfg.align b := by
  rw [BitVec.add_eq_or_of_and_eq_zero _ _ (align_and_low cfg b a)]
  ext i hi
  simp only [Config.align, lowBits, BitVec.getElem_or, BitVec.getElem_and, BitVec.getElem_not]
  cases (BitVec.ofNat 32 (cfg.unit - 1))[i] <;> simp

/-- Forcing the low bits to zero and adding a whole number of units commute (rules R24, R63). -/
theorem align_add_units {cfg : Config} (hv : cfg.literals.valid = true) (a : Word) (m : Nat) :
    cfg.align (a + unitBytes cfg m) = cfg.align a + unitBytes cfg m := by
  have haligned : cfg.align (cfg.align a + unitBytes cfg m) = cfg.align a + unitBytes cfg m :=
    Config.align_add hv (Config.align_align cfg a) m
  calc cfg.align (a + unitBytes cfg m)
      = cfg.align (cfg.align a + unitBytes cfg m + lowBits cfg a) := by
        rw [add_right_comm, align_add_low]
    _ = cfg.align (cfg.align (cfg.align a + unitBytes cfg m) + lowBits cfg a) := by rw [haligned]
    _ = cfg.align a + unitBytes cfg m := by rw [align_align_add_low, haligned]

theorem unitBytes_add (cfg : Config) (m k : Nat) : unitBytes cfg (m + k) = unitBytes cfg m + unitBytes cfg k := by
  rw [unitBytes, Nat.mul_add, BitVec.ofNat_add]
  rfl

/-! ## What other activity leaves of a channel -/

/-- What happens elsewhere: channel `c`, its completion bit and the units that it has sent stay, and a bus error that
is latched stays latched. -/
structure Elsewhere (c : Chan) (s t : State) : Prop where
  cfg : t.cfg = s.cfg
  ch : t.ch c = s.ch c
  cis : Config.valid s.cfg = true → s.cfg.hasChan c = true →
    t.stat.getLsbD (s.cfg.layout.statCIS + c.val) = s.stat.getLsbD (s.cfg.layout.statCIS + c.val)
  beis : s.stat.getLsbD s.cfg.layout.statBEIS = true → t.stat.getLsbD s.cfg.layout.statBEIS = true
  units : unitsOut c t.out = unitsOut c s.out

theorem Elsewhere.of_eq {c : Chan} {s t : State} (hcfg : t.cfg = s.cfg) (hch : t.ch c = s.ch c)
    (hstat : t.stat = s.stat) (hout : t.out = s.out) : Elsewhere c s t :=
  ⟨hcfg, hch, fun _ _ => by rw [hstat], fun h => by rw [hstat]; exact h, by rw [hout]⟩

theorem Elsewhere.refl (c : Chan) (s : State) : Elsewhere c s s := .of_eq rfl rfl rfl rfl

theorem Elsewhere.trans {c : Chan} {s t u : State} (h : Elsewhere c s t) (h' : Elsewhere c t u) : Elsewhere c s u where
  cfg := h'.cfg.trans h.cfg
  ch := h'.ch.trans h.ch
  cis hv hc := by
    have hcis := h'.cis (h.cfg.symm ▸ hv) (h.cfg.symm ▸ hc)
    rw [h.cfg] at hcis
    exact hcis.trans (h.cis hv hc)
  beis hb := by
    have hbeis := h'.beis
    rw [h.cfg] at hbeis
    exact hbeis (h.beis hb)
  units := h'.units.trans h.units

/-- The completion bit of a channel of the block is in the word, and neither the stall bit nor the bus-error bit. -/
theorem statCIS_apart {cfg : Config} (hv : Config.valid cfg = true) {c : Chan} (hc : cfg.hasChan c = true) :
    cfg.layout.statCIS + c.val < 32 ∧ cfg.layout.statCIS + c.val ≠ cfg.layout.statSIS ∧
      cfg.layout.statCIS + c.val ≠ cfg.layout.statBEIS ∧ cfg.layout.statBEIS < 32 := by
  have hlt : c.val < cfg.literals.nch := of_decide_eq_true hc
  obtain ⟨hapart, -⟩ := Layout.valid_stat (encoding_of_valid hv).1
  simp only [fieldsApart, Bool.and_eq_true, Bool.or_eq_true, decide_eq_true_eq, List.all_cons, List.all_nil,
    and_true] at hapart
  omega

/-- Setting bits of the status word clears none. -/
theorem getLsbD_or_of_left {st b : Word} {i : Nat} (h : st.getLsbD i = true) : (st ||| b).getLsbD i = true := by
  rw [BitVec.getLsbD_or, h, Bool.true_or]

theorem Passive.out {s t : State} (h : Passive s t) (c : Chan) : unitsOut c t.out = unitsOut c s.out := by
  cases h with
  | emitted o h =>
    cases o with
    | unit d l => exact absurd rfl (h d l)
    | _ => rfl
  | clock p x hx => cases p <;> rfl
  | cancelled p k => cases p <;> rfl
  | armed p k d w hk => cases p <;> rfl
  | ring f x hx => cases f <;> rfl
  | _ => rfl

theorem Passive.elsewhere {s t : State} (h : Passive s t) (c : Chan) : Elsewhere c s t where
  cfg := h.frame.cfg
  ch := h.ch c
  cis hv hc := by
    obtain ⟨hword, hsis, hbeis, -⟩ := statCIS_apart hv hc
    rcases h.stat_cases with hst | hst | hst <;> rw [hst]
    · rw [setSis_getLsbD _ _ hword, decide_eq_false hsis, Bool.or_false]
    · rw [setBeis_getLsbD _ _ hword, decide_eq_false hbeis, Bool.or_false]
  beis hb := by
    rcases h.stat_cases with hst | hst | hst <;> rw [hst]
    · exact hb
    · exact getLsbD_or_of_left hb
    · exact getLsbD_or_of_left hb
  units := h.out c

/-- Completing a channel leaves the completion bit of every other channel alone. -/
theorem setCis_getLsbD_ne {cfg : Config} (hv : Config.valid cfg = true) {c d : Chan} (hc : cfg.hasChan c = true)
    (hd : c ≠ d) (st : Word) :
    (setCis cfg st d).getLsbD (cfg.layout.statCIS + c.val) = st.getLsbD (cfg.layout.statCIS + c.val) := by
  obtain ⟨hword, -⟩ := statCIS_apart hv hc
  have hne : cfg.layout.statCIS + c.val ≠ cfg.layout.statCIS + d.val := fun h => hd (Fin.ext (by omega))
  rw [setCis_getLsbD _ _ _ hword, decide_eq_false hne, Bool.and_false, Bool.or_false]

theorem setCis_getLsbD_of_set (cfg : Config) (d : Chan) {st : Word} {i : Nat} (h : st.getLsbD i = true) :
    (setCis cfg st d).getLsbD i = true := by
  unfold setCis
  split
  · exact getLsbD_or_of_left h
  · exact h

/-- A change by one channel happens elsewhere for every other channel. -/
theorem Atom.elsewhere {c d : Chan} (hd : c ≠ d) {s t : State} (h : Atom d s t) : Elsewhere c s t := by
  cases h with
  | passive h => exact h.elsewhere c
  | registers x h => exact .of_eq rfl (State.ch_setCh_ne s x hd) rfl rfl
  | units l =>
    refine ⟨rfl, rfl, fun _ _ => rfl, id, ?_⟩
    rw [State.emit_out, unitsOut, if_neg (Ne.symm hd), Nat.zero_add]
  | completed =>
    exact ⟨rfl, rfl, fun hv hc => setCis_getLsbD_ne hv hc hd s.stat, fun hb => setCis_getLsbD_of_set s.cfg d hb, rfl⟩
  | _ => exact .of_eq rfl rfl rfl rfl

theorem Atoms.elsewhere {c d : Chan} (hd : c ≠ d) {s t : State} (h : Atoms d s t) : Elsewhere c s t :=
  many_keep (r' := Elsewhere c) (.refl c) .trans (Atom.elsewhere hd) h

/-! ## What a step moves (rules R110 to R112) -/

theorem arbWriteDma_le (f : FifoId) (c : Chan) (d : List Qword) (s : State) : (arbWriteDma f c d s).1 ≤ d.length := by
  rcases arbWriteDma_cases f c d s with h | ⟨-, h⟩ <;> rw [h]
  · exact Nat.zero_le _
  · exact Nat.min_le_left ..

theorem sink_le (c : Chan) (d : List Qword) (s : State) : (sink c d s).1 ≤ d.length := by
  unfold sink
  split
  · exact arbWriteDma_le ..
  · exact arbWriteDma_le ..
  · exact Nat.min_le_right ..

theorem fifoRead_length_le (f : FifoId) (n : Nat) (s : State) : (fifoRead f n s).1.length ≤ n :=
  (Fifo.pops_length ..).trans_le (Nat.min_le_left ..)

theorem source_length_le (c : Chan) (n : Nat) (s : State) : (source c n s).1.length ≤ n := by
  unfold source
  split
  · exact fifoRead_length_le ..
  · exact fifoRead_length_le ..
  · simp

theorem readUnits_length (u : Nat) (m : List Host.Cell) (a : Word) (n : Nat) : (readUnits u m a n).length = n := by
  induction n generalizing a with
  | zero => rfl
  | succ n ih => simp [readUnits, ih]

/-- A step moves at most what it was allowed. -/
theorem moveUnits_le (c : Chan) (n : Nat) (s : State) : (moveUnits c n s).1 ≤ n := by
  unfold moveUnits
  dsimp only
  split
  · exact (sink_le ..).trans_eq (readUnits_length ..)
  · exact source_length_le ..

/-- From memory to a unit behind no FIFO the units that are counted are those that leave the block. -/
theorem unitsOut_moveUnits {c : Chan} {s : State} (hdir : (s.ch c).dir = true) (hfifo : fifoOf s.cfg c = none)
    (n : Nat) : unitsOut c (moveUnits c n s).2.out = unitsOut c s.out + (moveUnits c n s).1 := by
  simp only [moveUnits, hdir, if_true, sink, hfifo]
  generalize readUnits s.cfg.unit s.mem (s.ch c).madr n = d
  split
  · next h => rw [h, Nat.add_zero]
  · simp [unitsOut, Nat.add_comm]

theorem leadingUnits_le (s : State) (d : Dir) (a : Word) (n : Nat) : leadingUnits s d a n ≤ n := by
  induction n generalizing a with
  | zero => exact le_rfl
  | succ n ih =>
    unfold leadingUnits
    split
    · exact Nat.succ_le_succ (ih _)
    · exact Nat.zero_le _

/-- A step of a channel in Normal mode: it completes if nothing is left; otherwise it meets a bus error, or moves some
of what is left and re-arms (rules R104, R106). -/
theorem continueChan_normal {c : Chan} {s t : State} (hmode : effMode (s.ch c).mod = .normal)
    (h : continueChan c s = .next t) :
    ((s.ch c).qwc = 0 ∧ t = complete c s) ∨ (0 < (s.ch c).qwc ∧ t = busError c s) ∨
      ∃ n, n ≤ (s.ch c).qwc ∧ t = rearm c (s.ch c).qwc (moveUnits c n s).1
        (advanceChannel c (moveUnits c n s).1 (moveUnits c n s).2) := by
  unfold continueChan at h
  rw [hmode] at h
  dsimp only at h
  cases h
  split
  · next hq => exact .inl ⟨hq, rfl⟩
  · next hq =>
    unfold stepNormal
    rcases transferStep_cases c (s.ch c).qwc (s.ch c).qwc s with ⟨-, h⟩ | ⟨m, u, hu, h⟩ <;> rw [h]
    · exact .inr (.inl ⟨by omega, rfl⟩)
    · rcases transfer_cases c (s.ch c).qwc s with ⟨-, hn⟩ | ⟨-, k, hk, hn⟩
      · rw [hn] at hu
        cases hu
      · rw [hn] at hu
        cases hu
        exact .inr (.inr ⟨k, hk ▸ leadingUnits_le .., rfl⟩)

end Sys2Proof.Machine
end

section
/-! PROOFS. The invariant of a transfer, kept by every step that does not disturb it, and the laws that follow from it
(rule R126). -/

namespace Sys2Proof.Machine

/-! ## What a transfer has done so far -/

/-- Since the start in `s`, channel `c` has moved `m` units: `QWC` and `MADR` say so, and, from memory to a unit behind
no FIFO, what has left the block. -/
structure Moved (c : Chan) (s t : State) (m : Nat) : Prop where
  count : (t.ch c).qwc + m = s.cfg.literals.qwcZeroEffective
  madr : (t.ch c).madr = (s.ch c).madr ∧ m = 0 ∨
    (t.ch c).madr = s.cfg.align ((s.ch c).madr + unitBytes s.cfg m)
  units : (t.ch c).dir = true → fifoOf s.cfg c = none → unitsOut c t.out = unitsOut c s.out + m

/-- What holds of a transfer that a start write of `v` in `s` began, as long as nothing disturbs it: laws 3, 4 and 6 of
rule R126. -/
structure TransferState (c : Chan) (v : Word) (s t : State) : Prop where
  cfg : t.cfg = s.cfg
  mod : (t.ch c).mod = v.extractLsb' s.cfg.layout.chcrMOD 2
  dir : (t.ch c).dir = v.getLsbD s.cfg.layout.chcrDIR
  count : (s.ch c).qwc ≤ 0xFFFF → CountWf (t.ch c)
  busy : (t.ch c).str = true → t.stat.getLsbD (s.cfg.layout.statCIS + c.val) = true →
    s.stat.getLsbD (s.cfg.layout.statCIS + c.val) = true
  ended : (t.ch c).str = false → t.stat.getLsbD (s.cfg.layout.statCIS + c.val) = true
  moving : effMode (v.extractLsb' s.cfg.layout.chcrMOD 2) = .normal → (s.ch c).qwc = 0 → (t.ch c).str = true →
    ∃ m, Moved c s t m
  moved : effMode (v.extractLsb' s.cfg.layout.chcrMOD 2) = .normal → (s.ch c).qwc = 0 → (t.ch c).str = false →
    t.stat.getLsbD s.cfg.layout.statBEIS = true ∧ 0 < (t.ch c).qwc ∨ (t.ch c).qwc = 0 ∧ ∃ m, Moved c s t m

section
variable {c : Chan} {v : Word} {s t u : State}

theorem Moved.of_eq {m : Nat} (h : Moved c s t m) (hqwc : (u.ch c).qwc = (t.ch c).qwc)
    (hmadr : (u.ch c).madr = (t.ch c).madr) (hdir : (u.ch c).dir = (t.ch c).dir)
    (hout : unitsOut c u.out = unitsOut c t.out) : Moved c s u m where
  count := by rw [hqwc]; exact h.count
  madr := by rw [hmadr]; exact h.madr
  units := by rw [hdir, hout]; exact h.units

theorem Moved.elsewhere {m : Nat} (h : Moved c s t m) (he : Elsewhere c t u) : Moved c s u m :=
  h.of_eq (by rw [he.ch]) (by rw [he.ch]) (by rw [he.ch]) he.units

/-- What happens elsewhere leaves a transfer as it is. -/
theorem TransferState.elsewhere (h : TransferState c v s t) (hv : Config.valid s.cfg = true)
    (hc : s.cfg.hasChan c = true) (he : Elsewhere c t u) : TransferState c v s u := by
  have hcis := he.cis (h.cfg.symm ▸ hv) (h.cfg.symm ▸ hc)
  have hbeis := he.beis
  rw [h.cfg] at hcis hbeis
  refine ⟨he.cfg.trans h.cfg, ?_, ?_, ?_, ?_, ?_, ?_, ?_⟩ <;> rw [he.ch]
  · exact h.mod
  · exact h.dir
  · exact h.count
  · rw [hcis]; exact h.busy
  · rw [hcis]; exact h.ended
  · exact fun hn hq hstr => (h.moving hn hq hstr).imp fun m hm => hm.elsewhere he
  · refine fun hn hq hstr => (h.moved hn hq hstr).imp (fun ⟨hb, hlt⟩ => ⟨hbeis hb, hlt⟩) fun ⟨hz, hm⟩ => ⟨hz, ?_⟩
    exact hm.imp fun m hm => hm.elsewhere he

/-- While the channel is busy the completion bit may also be cleared (rule R235). -/
theorem TransferState.of_busy (h : TransferState c v s t) (hstr : (t.ch c).str = true) (hcfg : u.cfg = t.cfg)
    (hch : u.ch c = t.ch c) (hout : u.out = t.out)
    (hcis : u.stat.getLsbD (s.cfg.layout.statCIS + c.val) = true →
      t.stat.getLsbD (s.cfg.layout.statCIS + c.val) = true) : TransferState c v s u := by
  have hbusy (h : (t.ch c).str = false) : False := Bool.false_ne_true (h.symm.trans hstr)
  refine ⟨hcfg.trans h.cfg, ?_, ?_, ?_, ?_, ?_, ?_, ?_⟩ <;> rw [hch]
  · exact h.mod
  · exact h.dir
  · exact h.count
  · exact fun hs hb => h.busy hs (hcis hb)
  · exact fun hs => (hbusy hs).elim
  · refine fun hn hq hs => (h.moving hn hq hs).imp fun m hm => ?_
    exact hm.of_eq (by rw [hch]) (by rw [hch]) (by rw [hch]) (by rw [hout])
  · exact fun _ _ hs => (hbusy hs).elim

/-- A channel joins or leaves the queue. -/
theorem TransferState.setQueued (h : TransferState c v s t) (b : Bool) :
    TransferState c v s (t.setCh c { t.ch c with queued := b }) := by
  have moved {m : Nat} (hm : Moved c s t m) : Moved c s (t.setCh c { t.ch c with queued := b }) m :=
    hm.of_eq (by rw [State.ch_setCh_self]) (by rw [State.ch_setCh_self]) (by rw [State.ch_setCh_self]) rfl
  refine ⟨h.cfg, ?_, ?_, ?_, ?_, ?_, ?_, ?_⟩ <;> rw [State.ch_setCh_self]
  · exact h.mod
  · exact h.dir
  · exact h.count
  · exact h.busy
  · exact h.ended
  · exact fun hn hq hstr => (h.moving hn hq hstr).imp fun m => moved
  · exact fun hn hq hstr => (h.moved hn hq hstr).imp_right fun ⟨hz, m, hm⟩ => ⟨hz, m, moved hm⟩

/-! ## The step of a channel in its transfer -/

/-- In the midst of a step the channel keeps its `STR`, and its completion bit stays. -/
theorem ChanMoves.str_cis (h : ChanMoves c t u) (hv : Config.valid t.cfg = true) (hc : t.cfg.hasChan c = true) :
    (u.ch c).str = (t.ch c).str ∧ u.stat.getLsbD (t.cfg.layout.statCIS + c.val) =
      t.stat.getLsbD (t.cfg.layout.statCIS + c.val) := by
  induction h with
  | refl => exact ⟨rfl, rfl⟩
  | @tail w x hw hx ih =>
    have hcfg : w.cfg = t.cfg := (ChanMoves.atoms hw).cfg
    cases hx with
    | passive hx =>
      have hcis := (hx.elsewhere c).cis (hcfg.symm ▸ hv) (hcfg.symm ▸ hc)
      rw [hcfg] at hcis
      exact ⟨(congrArg Channel.str (hx.ch c)).trans ih.1, hcis.trans ih.2⟩
    | registers y hy =>
      rw [State.ch_setCh_self]
      exact ⟨hy.str.trans ih.1, ih.2⟩
    | units d => exact ih

theorem complete_ch (c : Chan) (t : State) : (complete c t).ch c = { t.ch c with str := false } := by
  rw [complete, raiseChannel_eq]
  exact State.ch_setCh_self ..

theorem busError_ch (c : Chan) (t : State) : (busError c t).ch c = { t.ch c with str := false, queued := false } := by
  rw [busError, raiseChannel_eq]
  exact haltChannel_ch_self c _

theorem raiseChannel_cis (hv : Config.valid t.cfg = true) (hc : t.cfg.hasChan c = true) :
    (raiseChannel c t).stat.getLsbD (t.cfg.layout.statCIS + c.val) = true := by
  obtain ⟨hword, -⟩ := statCIS_apart hv hc
  rw [raiseChannel_eq]
  change (setCis t.cfg t.stat c).getLsbD _ = true
  rw [setCis_getLsbD _ _ _ hword, hc, decide_eq_true rfl, Bool.and_true, Bool.or_true]

/-- When a step ends, the channel is as busy as before and its completion bit as before, or it is idle and the bit is
latched (rules R116, R117, R119). -/
theorem StepEnd.str_cis (h : StepEnd c t u) (hv : Config.valid t.cfg = true) (hc : t.cfg.hasChan c = true) :
    ((u.ch c).str = (t.ch c).str ∧ u.stat = t.stat) ∨
      ((u.ch c).str = false ∧ u.stat.getLsbD (t.cfg.layout.statCIS + c.val) = true) := by
  cases h with
  | rearmed wanted m => exact .inl ⟨rfl, rfl⟩
  | completed =>
    rw [complete_ch]
    exact .inr ⟨rfl, raiseChannel_cis (t := t.setCh c _) hv hc⟩
  | failed =>
    rw [busError_ch]
    exact .inr ⟨rfl, raiseChannel_cis (t := haltChannel c { t with stat := setBeis t.cfg.layout t.stat }) hv hc⟩

/-- A transfer of `k` more units. -/
theorem Moved.add {m k : Nat} (hv : s.cfg.literals.valid = true) (hcfg : t.cfg = s.cfg) (h : Moved c s t m)
    (hk : k ≤ (t.ch c).qwc) (hqwc : (u.ch c).qwc = (t.ch c).qwc - k)
    (hmadr : (u.ch c).madr = t.cfg.align ((t.ch c).madr + unitBytes t.cfg k)) (hdir : (u.ch c).dir = (t.ch c).dir)
    (hout : (t.ch c).dir = true → fifoOf t.cfg c = none → unitsOut c u.out = unitsOut c t.out + k) :
    Moved c s u (m + k) where
  count := by have := h.count; omega
  madr := by
    right
    rw [hmadr, hcfg, unitBytes_add]
    rcases h.madr with ⟨hm, rfl⟩ | hm <;> rw [hm]
    · simp [unitBytes]
    · rw [align_add_units hv, Config.align_align, ← align_add_units hv, BitVec.add_assoc]
  units hd hf := by
    rw [hdir] at hd
    have hprev := h.units hd hf
    rw [hout hd (hcfg.symm ▸ hf), hprev, Nat.add_assoc]

theorem Channel.advanced_qwc (cfg : Config) (cnt : Bool) (m : Nat) (ch : Channel) :
    (ch.advanced cfg cnt m).qwc = ch.qwc - m := by cases cnt <;> rfl

theorem Channel.advanced_madr (cfg : Config) (cnt : Bool) (m : Nat) (ch : Channel) :
    (ch.advanced cfg cnt m).madr = cfg.align (ch.madr + unitBytes cfg m) := by cases cnt <;> rfl

theorem Channel.advanced_dir (cfg : Config) (cnt : Bool) (m : Nat) (ch : Channel) :
    (ch.advanced cfg cnt m).dir = ch.dir := by cases cnt <;> rfl

/-- The state after a transfer of `m` units of at most `n`, with the continuation re-armed (rules R110, R116). -/
def transferred (c : Chan) (wanted n m : Nat) (s : State) : State :=
  rearm c wanted m (advanceChannel c m (moveUnits c n s).2)

theorem transferred_ch (c : Chan) (wanted n m : Nat) (s : State) :
    ∃ cnt, (transferred c wanted n m s).ch c = (s.ch c).advanced s.cfg cnt m := by
  obtain ⟨x, g, b, o, mem, hmove⟩ := moveUnits_frame c n s
  rw [transferred, hmove, advanceChannel_eq, rearm, Sys2Proof.Machine.arm, State.ch_setSched]
  exact ⟨_, State.ch_setCh_self ..⟩

theorem transferred_out (c : Chan) (wanted n m : Nat) (s : State) :
    (transferred c wanted n m s).out = (moveUnits c n s).2.out := by
  rw [transferred, advanceChannel_eq, rearm, Sys2Proof.Machine.arm, State.setSched_out]
  rfl

/-- A transfer of some units, and the re-arming after it. -/
theorem moved_transferred {m n wanted : Nat} (hv : s.cfg.literals.valid = true) (hcfg : t.cfg = s.cfg)
    (h : Moved c s t m) (hn : n ≤ (t.ch c).qwc) :
    Moved c s (transferred c wanted n (moveUnits c n t).1 t) (m + (moveUnits c n t).1) := by
  obtain ⟨cnt, hch⟩ := transferred_ch c wanted n (moveUnits c n t).1 t
  refine h.add hv hcfg ((moveUnits_le c n t).trans hn) ?_ ?_ ?_ fun hd hf => ?_
  · rw [hch, Channel.advanced_qwc]
  · rw [hch, Channel.advanced_madr]
  · rw [hch, Channel.advanced_dir]
  · rw [transferred_out, unitsOut_moveUnits hd hf]

/-- What a step of the channel has moved in Normal mode: more units, or all of them, or it met a bus error. -/
theorem TransferState.continueChan_moved (h : TransferState c v s t) (hv : Config.valid s.cfg = true)
    (hc : s.cfg.hasChan c = true) (hstr : (t.ch c).str = true) (hstep : continueChan c t = .next u)
    (hn : effMode (v.extractLsb' s.cfg.layout.chcrMOD 2) = .normal) (hq : (s.ch c).qwc = 0) :
    ((u.ch c).str = true → ∃ m, Moved c s u m) ∧
      ((u.ch c).str = false →
        u.stat.getLsbD s.cfg.layout.statBEIS = true ∧ 0 < (u.ch c).qwc ∨ (u.ch c).qwc = 0 ∧ ∃ m, Moved c s u m) := by
  obtain ⟨m, hm⟩ := h.moving hn hq hstr
  have hmode : effMode (t.ch c).mod = .normal := by rw [h.mod]; exact hn
  rcases continueChan_normal hmode hstep with ⟨hz, rfl⟩ | ⟨hpos, rfl⟩ | ⟨n, hle, rfl⟩
  · rw [complete_ch]
    have hout : (complete c t).out = t.out := by rw [complete, raiseChannel_eq]; rfl
    refine ⟨fun h => (nomatch h), fun _ => .inr ⟨hz, m, ?_⟩⟩
    exact hm.of_eq (by rw [complete_ch]) (by rw [complete_ch]) (by rw [complete_ch]) (by rw [hout])
  · rw [busError_ch]
    refine ⟨fun h => (nomatch h), fun _ => .inl ⟨?_, hpos⟩⟩
    obtain ⟨-, -, -, hword⟩ := statCIS_apart hv hc
    rw [busError, raiseChannel_eq]
    refine setCis_getLsbD_of_set _ _ ?_
    change (setBeis t.cfg.layout t.stat).getLsbD _ = true
    rw [h.cfg, setBeis_getLsbD _ _ hword, decide_eq_true rfl, Bool.or_true]
  · refine ⟨fun _ => ⟨_, moved_transferred (encoding_of_valid hv).2.1 h.cfg hm hle⟩, fun hidle => ?_⟩
    obtain ⟨cnt, hch⟩ := transferred_ch c (t.ch c).qwc n (moveUnits c n t).1 t
    have hbusy := (Channel.follows_advanced t.cfg cnt (moveUnits c n t).1 (t.ch c)).str.trans hstr
    rw [← hch] at hbusy
    exact absurd (hidle.symm.trans hbusy) Bool.false_ne_true

/-- The step of the channel takes its transfer further, or ends it. -/
theorem TransferState.continueChan (h : TransferState c v s t) (hv : Config.valid s.cfg = true)
    (hc : s.cfg.hasChan c = true) (hstr : (t.ch c).str = true) (hstep : continueChan c t = .next u) :
    TransferState c v s u := by
  have hsteps := (atoms_continueChan hstep).channelsStep
  obtain ⟨w, hw, hend⟩ := continueChan_end hstep
  have hvt : Config.valid t.cfg = true := h.cfg.symm ▸ hv
  have hct : t.cfg.hasChan c = true := h.cfg.symm ▸ hc
  have hwcfg : w.cfg = t.cfg := (ChanMoves.atoms hw).cfg
  obtain ⟨hwstr, hwcis⟩ := ChanMoves.str_cis hw hvt hct
  have hends := hend.str_cis (hwcfg.symm ▸ hvt) (hwcfg.symm ▸ hct)
  rw [hwcfg, h.cfg] at hends
  rw [h.cfg] at hwcis
  have hsettings := (hsteps.channels c).settings
  refine ⟨hsteps.cfg.trans h.cfg, (congrArg (fun x => x.2.1) hsettings).trans h.mod,
    (congrArg (fun x => x.1) hsettings).trans h.dir, fun hs hlarge => ?_, fun hbusy hcis => ?_, fun hidle => ?_,
    fun hn hq => (h.continueChan_moved hv hc hstr hstep hn hq).1,
    fun hn hq => (h.continueChan_moved hv hc hstr hstep hn hq).2⟩
  · rw [(hsteps.channels c).mod]
    have hle := (hsteps.channels c).count
    exact h.count hs (by omega)
  · rcases hends with ⟨-, hstat⟩ | ⟨hidle, -⟩
    · rw [hstat, hwcis] at hcis
      exact h.busy hstr hcis
    · exact absurd (hidle.symm.trans hbusy) Bool.false_ne_true
  · rcases hends with ⟨hbusy, -⟩ | ⟨-, hcis⟩
    · exact absurd (hidle.symm.trans (hbusy.trans (hwstr.trans hstr))) Bool.false_ne_true
    · exact hcis

theorem TransferState.runOrQueue (h : TransferState c v s t) (hv : Config.valid s.cfg = true)
    (hc : s.cfg.hasChan c = true) (hstr : (t.ch c).str = true) (hstep : runOrQueue c t = .next u) :
    TransferState c v s u := by
  have ticked {u : State} (hu : TransferState c v s u) : TransferState c v s u.tick :=
    hu.elsewhere hv hc ((passive_tick u).elsewhere c)
  rcases runOrQueue_next_cases hstep with ⟨w, hw, rfl⟩ | rfl
  · exact ticked (h.continueChan hv hc hstr hw)
  · exact ticked (h.setQueued true)

/-! ## Whatever happens inside an operation -/

theorem TransferState.act (h : TransferState c v s t) (hv : Config.valid s.cfg = true)
    (hc : s.cfg.hasChan c = true) (hqueue : QueueWf t) (hact : Act t u) : TransferState c v s u := by
  cases hact with
  | passive hp => exact h.elsewhere hv hc (hp.elsewhere c)
  | fired d harmed hrun =>
    have hcancel : Passive t _ := .cancelled .main (dmaCont d)
    have ht := h.elsewhere hv hc (hcancel.elsewhere c)
    by_cases hd : c = d
    · subst hd
      exact ht.runOrQueue hv hc (stepping_fired hqueue harmed).str hrun
    · exact ht.elsewhere hv hc ((atoms_runOrQueue hrun).elsewhere hd)
  | resumed d hqueued hrun =>
    by_cases hd : c = d
    · subst hd
      obtain ⟨w, hw, rfl⟩ := resume_next_cases hrun
      have hstepped := (h.setQueued false).continueChan hv hc (stepping_resumed hqueue hqueued).str hw
      exact hstepped.elsewhere hv hc ((passive_tick w).elsewhere c)
    · exact h.elsewhere hv hc ((atoms_resume hrun).elsewhere hd)
  | armed d n w _ => exact h.elsewhere hv hc (.of_eq rfl rfl rfl rfl)

theorem TransferState.acts (h : TransferState c v s t) (hv : Config.valid s.cfg = true)
    (hc : s.cfg.hasChan c = true) (hqueue : QueueWf t) (hacts : Acts t u) : TransferState c v s u ∧ QueueWf u := by
  induction hacts with
  | refl => exact ⟨h, hqueue⟩
  | tail _ hlast ih => exact ⟨ih.1.act hv hc ih.2 hlast, hlast.queueWf ih.2⟩

/-! ## Register accesses while the channel is busy -/

/-- A write of `STAT` sets no status bit (rule R235). -/
theorem getLsbD_of_writeStat {cfg : Config} (hv : Config.valid cfg = true) (hc : cfg.hasChan c = true) {st x : Word}
    (h : (writeStat cfg st x).getLsbD (cfg.layout.statCIS + c.val) = true) :
    st.getLsbD (cfg.layout.statCIS + c.val) = true := by
  have hlt : c.val < cfg.literals.nch := of_decide_eq_true hc
  obtain ⟨hword, hmask⟩ := status_apart hv (i := cfg.layout.statCIS + c.val)
    (.inl ⟨Nat.le_add_right .., Nat.add_lt_add_left hlt _⟩)
  rw [writeStat, BitVec.getLsbD_xor, BitVec.getLsbD_and, BitVec.getLsbD_and, statMaskMask_getLsbD cfg hword,
    decide_eq_false hmask, Bool.and_false, Bool.xor_false] at h
  exact (Bool.and_eq_true_iff.1 h).1

theorem TransferState.written (h : TransferState c v s t) (hv : Config.valid s.cfg = true)
    (hc : s.cfg.hasChan c = true) (hqueue : QueueWf t) (hstr : (t.ch c).str = true) (hw : Written t u) :
    TransferState c v s u := by
  cases hw with
  | passive hp => exact h.elsewhere hv hc (hp.elsewhere c)
  | loaded d x hidle _ =>
    have hd : c ≠ d := fun hd => Bool.false_ne_true (hidle.symm.trans (hd ▸ hstr))
    exact h.elsewhere hv hc (.of_eq rfl (State.ch_setCh_ne t x hd) rfl rfl)
  | enabled a b hacts =>
    have hset : TransferState c v s { t with dmae := a, cpnd := b } := h.elsewhere hv hc (.of_eq rfl rfl rfl rfl)
    exact (hset.acts hv hc hqueue hacts).1
  | stat x b =>
    have hvt : Config.valid t.cfg = true := h.cfg.symm ▸ hv
    have hct : t.cfg.hasChan c = true := h.cfg.symm ▸ hc
    refine h.of_busy hstr rfl rfl rfl ?_
    rw [← h.cfg]
    exact getLsbD_of_writeStat hvt hct
  | ioIstat x b => exact h.elsewhere hv hc (.of_eq rfl rfl rfl rfl)
  | ioImask x b => exact h.elsewhere hv hc (.of_eq rfl rfl rfl rfl)

theorem TransferState.execWChcr {d : Chan} {x : Word} (h : TransferState c v s t) (hv : Config.valid s.cfg = true)
    (hc : s.cfg.hasChan c = true) (hstr : (t.ch c).str = true)
    (hx : d = c → x.getLsbD t.cfg.layout.chcrSTR = true) (hw : execWChcr d x t = .next u) :
    TransferState c v s u := by
  by_cases hd : c = d
  · subst hd
    rcases execWChcr_cases hw with ⟨-, ⟨-, rfl⟩ | ⟨hstop, -⟩⟩ | ⟨hidle, -⟩
    · exact h
    · exact absurd (hstop.symm.trans (hx rfl)) Bool.false_ne_true
    · exact absurd (hidle.symm.trans hstr) Bool.false_ne_true
  · obtain ⟨y, hy⟩ := execWChcr_atoms hw
    have hset : Elsewhere c t (t.setCh d y) := .of_eq rfl (State.ch_setCh_ne t y hd) rfl rfl
    exact h.elsewhere hv hc (hset.trans (hy.elsewhere hd))

/-- A step that does not disturb the busy channel takes its transfer further, or ends it. -/
theorem TransferState.step (h : TransferState c v s t) (hqueue : QueueWf t) (hc : s.cfg.hasChan c = true)
    (hstr : (t.ch c).str = true) (hundisturbed : Undisturbed c t) (hstep : step t = .next u) :
    TransferState c v s u ∧ QueueWf u := by
  obtain ⟨hvt, hcases⟩ := step_cases hstep
  have hv : Config.valid s.cfg = true := h.cfg ▸ hvt
  have htaken (rest : List Op) : TransferState c v s (t.taken rest) :=
    h.elsewhere hv hc ((passive_taken t rest).elsewhere c)
  have hqueue' (rest : List Op) : QueueWf (t.taken rest) := (passive_taken t rest).queueWf hqueue
  cases hcases with
  | chcr d x rest hwrites hw =>
    have hx : d = c → x.getLsbD t.cfg.layout.chcrSTR = true := by
      rintro rfl
      obtain ⟨p, dir, n, a, y, r, hagenda, hmay, hdecode⟩ := hwrites
      unfold Undisturbed at hundisturbed
      rw [hagenda] at hundisturbed
      exact hundisturbed hmay x hdecode
    exact ⟨(htaken rest).execWChcr hv hc hstr hx hw, execWChcr_queueWf hw (hqueue' rest)⟩
  | written p d n a x rest hagenda hw =>
    exact ⟨(htaken rest).written hv hc (hqueue' rest) hstr hw, hw.queueWf (hqueue' rest)⟩
  | reset rest hagenda _ =>
    unfold Undisturbed at hundisturbed
    rw [hagenda] at hundisturbed
    exact hundisturbed.elim
  | acts hacts => exact h.acts hv hc hqueue hacts

/-! ## The start -/

/-- An access that decodes runs the instruction it decodes to (rule R86). -/
theorem runAccess_of_decode {p : Domain} {d : Dir} {n : Nat} {a x : Word} {i : Instr}
    (h : decode s.cfg (.access p d n a x) = .ok i) : runAccess p d n a x s = exec i s := by
  rw [runAccess, h]

/-- A write of `CHCR` that nothing holds back is one step. -/
theorem step_chcr {rest : List Op} (hv : Config.valid s.cfg = true) (hwindow : sideEffectWindow s = false)
    (hc : s.cfg.hasChan c = true) (hmay : mayAct .main s = true)
    (hagenda : s.agenda = .access .main .write 32 (s.cfg.addr (.chan c .chcr)) v :: rest) :
    step s = execWChcr c v (s.taken rest) := by
  have hdecode : decode s.cfg (.access .main .write 32 (s.cfg.addr (.chan c .chcr)) v) = .ok (.wChcr c v) :=
    decode_encodeWrite (r := .chan c .chcr) hv hc rfl v
  have hmay' : mayAct .main (s.taken rest) = true := hmay
  unfold Sys2Proof.Machine.step runStep
  rw [hagenda]
  exact (admitted_eq hv hwindow).trans ((if_pos hmay').trans (runAccess_of_decode (s := s.taken rest) hdecode))

/-- The transfer that a start write prepares. -/
theorem transferState_started : TransferState c v s (startState c v s) := by
  have hidle {b : Bool} (h : b = true) (h' : b = false) : False := Bool.false_ne_true (h'.symm.trans h)
  unfold startState
  refine ⟨rfl, ?_, ?_, ?_, fun _ => id, ?_, fun hn hq _ => ⟨0, ?_, ?_, fun _ _ => rfl⟩, ?_⟩ <;>
    rw [State.ch_setCh_self]
  · rfl
  · rfl
  · intro hs
    unfold startChannel
    dsimp only
    split
    · next hn => exact fun _ => hn.1
    · exact fun hlarge => absurd hlarge (Nat.not_lt_of_le hs)
  · exact fun h => (hidle rfl h).elim
  · exact if_pos ⟨hn, hq⟩
  · exact .inl ⟨rfl, rfl⟩
  · exact fun _ _ h => (hidle rfl h).elim

/-- The transfer after the step that started it. -/
theorem transferState_start {rest : List Op} (hc : s.cfg.hasChan c = true) (hqueue : QueueWf s)
    (hmay : mayAct .main s = true)
    (hagenda : s.agenda = .access .main .write 32 (s.cfg.addr (.chan c .chcr)) v :: rest)
    (hstr : (s.ch c).str = false) (hstart : v.getLsbD s.cfg.layout.chcrSTR = true) (hstep : step s = .next t) :
    TransferState c v s t ∧ QueueWf t := by
  obtain ⟨hv, hwindow, -⟩ := step_eq_next hstep
  rw [step_chcr hv hwindow hc hmay hagenda] at hstep
  have hqueue' : QueueWf (s.taken rest) := (passive_taken s rest).queueWf hqueue
  refine ⟨?_, execWChcr_queueWf hstep hqueue'⟩
  have hprepared : TransferState c v s (startState c v (s.taken rest)) :=
    transferState_started.elsewhere hv hc (.of_eq rfl rfl rfl rfl)
  rcases execWChcr_cases hstep with ⟨hbusy, -⟩ | ⟨-, ⟨hclear, -⟩ | ⟨-, hrun⟩⟩
  · exact absurd (hstr.symm.trans hbusy) Bool.false_ne_true
  · exact absurd (hclear.symm.trans hstart) Bool.false_ne_true
  · exact hprepared.runOrQueue hv hc (stepping_started hqueue' hstr v).str hrun

/-- The whole run keeps it. -/
theorem TransferState.run {s1 : State} (h : TransferState c v s s1) (hqueue : QueueWf s1)
    (hc : s.cfg.hasChan c = true) (hrun : TransferRun c s1 t) : TransferState c v s t ∧ QueueWf t := by
  induction hrun with
  | here => exact ⟨h, hqueue⟩
  | more _ hstr hundisturbed hstep ih => exact ih.1.step ih.2 hc hstr hundisturbed hstep

end

/-- Settles O53: the start prepares the transfer, and every step of the run takes it further or ends it. -/
theorem transferLaws : Obligations.TransferLaws := by
  intro c v rest s s1 t hc hqueue hmay hagenda hstr hstart hstep hrun cis units
  obtain ⟨hstarted, hqueue1⟩ := transferState_start hc hqueue hmay hagenda hstr hstart hstep
  obtain ⟨h, -⟩ := hstarted.run hqueue1 hc hrun
  refine ⟨h.busy, h.ended, fun hn hq hidle => (h.moved hn hq hidle).imp_right fun ⟨hz, m, hm⟩ => ?_, h.mod, h.count⟩
  obtain ⟨hv, -⟩ := step_eq_next hstep
  have hunits := (qwcZeroEffective_of_valid (encoding_of_valid hv).2.1).1
  have hall : m = s.cfg.literals.qwcZeroEffective := by have := hm.count; omega
  rw [hall] at hm
  exact ⟨hz, hm.madr.resolve_left fun hnone => by omega, fun hd hf => hm.units (h.dir.trans hd) hf⟩

end Sys2Proof.Machine
end

section
/-! PROOFS. A register access and a pass of the agenda as one step (rules R68, R155). -/

namespace Sys2Proof.Machine

/-! ## The head of the agenda -/

/-- An admitted step performs the operation at the head of the agenda (rule R70). -/
theorem step_perform {s : State} {op : Op} {rest : List Op} (hv : Config.valid s.cfg = true)
    (hwindow : sideEffectWindow s = false) (hagenda : s.agenda = op :: rest) :
    step s = perform op { s with opCount := s.opCount + 1 } (s.taken rest) := by
  unfold step runStep
  rw [hagenda]
  exact admitted_eq hv hwindow

/-- A register access that nothing holds back is one step (rules R68, R220). -/
theorem step_access {s : State} {p : Domain} {d : Dir} {width : Nat} {a v : Word} {rest : List Op}
    (hv : Config.valid s.cfg = true) (hwindow : sideEffectWindow s = false)
    (hagenda : s.agenda = .access p d width a v :: rest) (hmay : mayAct p s = true) :
    step s = runAccess p d width a v (s.taken rest) := by
  have hmay' : mayAct p (s.taken rest) = true := hmay
  rw [step_perform hv hwindow hagenda]
  exact if_pos hmay'

/-- An access of another width or alignment decodes to nothing (rules R64, R220). -/
theorem decode_access_shape {cfg : Config} {p : Domain} {d : Dir} {width : Nat} {a v : Word}
    (h : width ≠ 32 ∨ a.toNat % 4 ≠ 0) : ∃ e, decode cfg (.access p d width a v) = .error e := by
  by_cases hwidth : width = 32
  · have haligned : a.toNat % 4 ≠ 0 := h.resolve_left (not_not.2 hwidth)
    exact ⟨.accessMisaligned, (if_neg (not_not.2 hwidth)).trans (if_pos haligned)⟩
  · exact ⟨.accessWidth, if_pos hwidth⟩

theorem runAccess_of_error {s : State} {p : Domain} {d : Dir} {width : Nat} {a v : Word} {e : Reject}
    (h : decode s.cfg (.access p d width a v) = .error e) : runAccess p d width a v s = .refused .accessShape := by
  rw [runAccess, h]

/-- Settles O6: the step is the access, which its decoding runs or refuses. -/
theorem stepRunsAccess : Obligations.StepRunsAccess := by
  intro s p d width a v rest hv hwindow hagenda hmay
  rw [step_access hv hwindow hagenda hmay]
  refine ⟨fun i hdecode => runAccess_of_decode (s := s.taken rest) hdecode, fun hshape => ?_⟩
  obtain ⟨e, he⟩ := decode_access_shape (cfg := s.cfg) (p := p) (d := d) (v := v) hshape
  exact runAccess_of_error (s := s.taken rest) he

/-! ## A pass -/

/-- State `s` with the snapshot `l` in the scheduler of domain `p`. -/
def State.withSnapshot (s : State) (p : Domain) (l : List Kind) : State := s.setSched p { s.sched p with passSet := l }

@[simp] theorem sched_withSnapshot (s : State) (p : Domain) (l : List Kind) :
    (s.withSnapshot p l).sched p = { s.sched p with passSet := l } := State.sched_setSched_self ..

@[simp] theorem withSnapshot_withSnapshot (s : State) (p : Domain) (l m : List Kind) :
    (s.withSnapshot p l).withSnapshot p m = s.withSnapshot p m := by
  cases p <;> rfl

/-- The snapshot of a pass (rules R153, R155). -/
theorem mem_dueKinds (x : Sched) (k : Kind) :
    k ∈ dueKinds x ↔
      x.slots[k.val].armed = true ∧ (x.slots[k.val].delta.toNat : Int) ≤ sdiff32 x.cycle x.slots[k.val].start := by
  simp [dueKinds, Sched.isDue]

/-- A pass fires its snapshot between its start and its end (rule R155). -/
theorem pass_eq (p : Domain) (s : State) :
    pass p s = andThen (fireAll p (dueKinds (s.sched p)).length ((passStart p s).withSnapshot p (dueKinds (s.sched p))))
      fun t => .next (passEnd p t) := by
  simp only [pass, State.sched_setSched_self, Sched.snapshot_passSet, passStart_sched]
  simp only [State.withSnapshot, Sched.snapshot, passStart_sched]

/-- A pass that is due and may run is one step (rules R155, R159). -/
theorem step_pass {s : State} {p : Domain} {rest : List Op} (hv : Config.valid s.cfg = true)
    (hwindow : sideEffectWindow s = false) (hagenda : s.agenda = .pass p :: rest) (hready : passReady p s = true) :
    step s = pass p (s.taken rest) := by
  have hready' : passReady p (s.taken rest) = true := hready
  rw [step_perform hv hwindow hagenda]
  exact if_pos hready'

@[simp] theorem sched_taken (s : State) (rest : List Op) (p : Domain) : (s.taken rest).sched p = s.sched p := by
  cases p <;> rfl

/-- An event whose kind decodes runs the instruction it decodes to, its arm bit cleared first (rules R88, R162). -/
theorem fire_of_decode {p : Domain} {k : Kind} {s : State} {cfg : Config} {i : Instr}
    (harmed : (s.sched p).slots[k.val].armed = true)
    (hdecode : decode cfg (.event p (BitVec.ofFin k) (s.sched p).slots[k.val].payload) = .ok i) :
    fire p k s = exec i (cancel p k (s.withSnapshot p ((s.sched p).passSet.filter (· != k)))) := by
  rw [fire_armed harmed]
  cases hdecode
  rfl

/-- A snapshot of one kind: its instruction runs, and nothing else fires. -/
theorem fireAll_single {p : Domain} {k : Kind} {s : State} {cfg : Config} {i : Instr}
    (harmed : (s.sched p).slots[k.val].armed = true)
    (hdecode : decode cfg (.event p (BitVec.ofFin k) (s.sched p).slots[k.val].payload) = .ok i) :
    fireAll p 1 (s.withSnapshot p [k]) = exec i (cancel p k (s.withSnapshot p [])) := by
  have hset : ((s.withSnapshot p [k]).sched p).passSet = [k] := by rw [sched_withSnapshot]
  have hfire : fire p k (s.withSnapshot p [k]) = exec i (cancel p k (s.withSnapshot p [])) := by
    rw [fire_of_decode (cfg := cfg) (i := i) (by rw [sched_withSnapshot]; exact harmed)
      (by rw [sched_withSnapshot]; exact hdecode), hset, withSnapshot_withSnapshot]
    simp
  rw [fireAll_cons hset, firstToFire, hfire]
  cases exec i (cancel p k (s.withSnapshot p [])) <;> rfl

/-- The line to the CPU follows the pending test at the end of a pass (rule R267). -/
theorem passEnd_exc (p : Domain) (s : State) : (passEnd p s).exc p = decide ((passEnd p s).pending p ≠ 0#32) := by
  simp [passEnd, evaluatePending, bne, beq_eq_decide]

/-- Settles O7: the step is the pass, whose members fire one by one by the lemmas about `fireAll` and `fire`. -/
theorem stepRunsEvent : Obligations.StepRunsEvent := by
  intro s p rest hv hwindow hagenda hready withSet s1 due
  have hstep : step s = andThen (fireAll p due.length (withSet due s1)) fun t => .next (passEnd p t) := by
    rw [step_pass hv hwindow hagenda hready, pass_eq, sched_taken]
    rfl
  have hsched : s1.sched p = s.sched p := (passStart_sched ..).trans (sched_taken s rest p)
  refine ⟨mem_dueKinds (s.sched p), hstep, fun n u => fireAll_nil, fun n j l u => fireAll_cons,
    fun k u i => ⟨fire_of_decode, fire_not_armed⟩, fun k j d w u => ?_, fun hnone => ?_, fun k i hone hdecode => ?_,
    fun t ht => ?_⟩
  · rw [arm, State.sched_setSched_self]
    exact Sched.mem_arm_passSet ..
  · rw [hstep, hnone]
    rfl
  · have hdue : k ∈ due := hone ▸ List.mem_singleton_self k
    have harmed : (s1.sched p).slots[k.val].armed = true := by
      rw [hsched]
      exact ((mem_dueKinds (s.sched p) k).1 hdue).1
    rw [← hsched] at hdecode
    rw [hstep, hone]
    exact congrArg (andThen · _) (fireAll_single harmed hdecode)
  · rw [hstep] at ht
    obtain ⟨u, -, hu⟩ := andThen_eq_next ht
    cases hu
    exact passEnd_exc p u

end Sys2Proof.Machine
end

section
/-! PROOFS. Bytes and units of main memory read back after a store (rules R62, R64, R67). -/

namespace Sys2Proof.Machine

/-! ## Addresses -/

theorem add_ofNat_add (a : Word) (i j : Nat) :
    a + BitVec.ofNat 32 i + BitVec.ofNat 32 j = a + BitVec.ofNat 32 (i + j) := by
  rw [BitVec.add_assoc, BitVec.ofNat_add]

theorem add_one_add_ofNat (a : Word) (i : Nat) : a + 1#32 + BitVec.ofNat 32 i = a + BitVec.ofNat 32 (i + 1) := by
  rw [Nat.add_comm i 1, ← add_ofNat_add]

/-- Different distances below the size of the address space lead to different addresses (rule R67). -/
theorem add_ofNat_ne (a : Word) {i j : Nat} (hij : i < j) (hj : j < 4294967296) :
    (a + BitVec.ofNat 32 i).toNat ≠ (a + BitVec.ofNat 32 j).toNat := by
  intro h
  have hofNat := BitVec.add_right_inj a |>.1 (BitVec.eq_of_toNat_eq h)
  have := congrArg BitVec.toNat hofNat
  rw [BitVec.toNat_ofNat, BitVec.toNat_ofNat, Nat.mod_eq_of_lt (by omega), Nat.mod_eq_of_lt (by omega)] at this
  omega

/-- An address outside some units is none of their bytes. -/
theorem ne_of_not_inUnits {u n b : Nat} {a : Word} (h : ¬ InUnits u a n b) :
    ∀ i < u * n, b ≠ (a + BitVec.ofNat 32 i).toNat := by
  rintro i hi rfl
  refine h ⟨?_, (a + BitVec.ofNat 32 i).isLt⟩
  rw [BitVec.ofNat_toNat, BitVec.setWidth_eq, BitVec.add_comm, BitVec.add_sub_cancel]
  exact (Nat.mod_le i _).trans_lt hi

/-! ## Bytes -/

/-- The bytes read, one by one. -/
theorem readBytes_eq (m : List Host.Cell) (a : Word) (n : Nat) :
    readBytes m a n = (List.range n).map fun i => memGet m (a + BitVec.ofNat 32 i).toNat := by
  induction n generalizing a with
  | zero => rfl
  | succ n ih =>
    rw [readBytes, ih, List.range_succ_eq_map, List.map_cons, List.map_map]
    simp [add_one_add_ofNat, Function.comp_def]

/-- A stored byte is read back, and no later byte of the store overwrites it. -/
theorem memGet_writeBytes_in {m : List Host.Cell} (h : Memory.wf m = true) (a : Word) (l : List Byte)
    (hl : l.length ≤ 4294967296) (i : Nat) (hi : i < l.length) :
    memGet (writeBytes m a l) (a + BitVec.ofNat 32 i).toNat = l[i] := by
  induction l generalizing m a i with
  | nil => exact absurd hi (Nat.not_lt_zero i)
  | cons b t ih =>
    have ht : t.length + 1 ≤ 4294967296 := hl
    rw [writeBytes]
    cases i with
    | zero =>
      rw [memGet_writeBytes_out]
      · simpa using memGet_memSet_self a.toNat b ((Memory.wf_iff m).1 h).1
      · intro j hj
        rw [add_one_add_ofNat]
        exact add_ofNat_ne a (by omega) (by omega)
    | succ i =>
      have hi' : i < t.length := Nat.lt_of_succ_lt_succ hi
      rw [← add_one_add_ofNat a i]
      exact ih (Memory.wf_memSet a b h) (a + 1#32) (by omega) i hi'

/-! ## Units -/

/-- Byte `i` of a stored unit (rule R62). -/
theorem memGet_writeUnit_in {m : List Host.Cell} (h : Memory.wf m = true) {u : Nat} (hu : u ≤ 4294967296) (a : Word)
    (q : Qword) {i : Nat} (hi : i < u) :
    memGet (writeUnit u m a q) (a + BitVec.ofNat 32 i).toNat = q.extractLsb' (8 * i) 8 := by
  have hlength : (qwordBytes u q).length = u := qwordBytes_length u q
  rw [writeUnit, memGet_writeBytes_in h a _ (hlength.trans_le hu) i (hlength.symm ▸ hi)]
  simp [qwordBytes]

/-- A unit reads the same where its bytes are the same. -/
theorem readUnit_congr {u : Nat} {m m' : List Host.Cell} {a : Word}
    (h : ∀ i < u, memGet m (a + BitVec.ofNat 32 i).toNat = memGet m' (a + BitVec.ofNat 32 i).toNat) :
    readUnit u m a = readUnit u m' a := by
  rw [readUnit, readUnit, readBytes_eq, readBytes_eq]
  exact congrArg qwordOfBytes (List.map_congr_left fun i hi => h i (List.mem_range.1 hi))

/-- A stored unit reads back (rule R62). -/
theorem readUnit_writeUnit {cfg : Config} (hv : cfg.literals.valid = true) {m : List Host.Cell}
    (h : Memory.wf m = true) (a : Word) (q : Qword) :
    readUnit cfg.unit (writeUnit cfg.unit m a q) a = cfg.cut q := by
  have hu : cfg.unit ≤ 4294967296 := (Config.unit_of_valid hv).2.trans (by decide)
  have hbytes : readBytes (writeUnit cfg.unit m a q) a cfg.unit = qwordBytes cfg.unit q := by
    rw [readBytes_eq, qwordBytes]
    exact List.map_congr_left fun i hi => memGet_writeUnit_in h hu a q (List.mem_range.1 hi)
  rw [readUnit, hbytes, Config.qwordOfBytes_qwordBytes hv]

/-- Stored units read back, as long as they do not reach around the address space (rules R64, R67). -/
theorem readUnits_writeUnits {cfg : Config} (hv : cfg.literals.valid = true) {m : List Host.Cell}
    (h : Memory.wf m = true) (a : Word) (l : List Qword) (hl : cfg.unit * l.length ≤ 4294967296) :
    readUnits cfg.unit (writeUnits cfg.unit m a l) a l.length = l.map cfg.cut := by
  induction l generalizing m a with
  | nil => rfl
  | cons q t ih =>
    have hsum : cfg.unit * (q :: t).length = cfg.unit + cfg.unit * t.length := by
      rw [List.length_cons, Nat.mul_succ, Nat.add_comm]
    have hfirst : readUnit cfg.unit (writeUnits cfg.unit m a (q :: t)) a = cfg.cut q := by
      rw [← readUnit_writeUnit hv h a q]
      refine readUnit_congr fun i hi => memGet_writeUnits_out _ _ _ t _ fun j hj => ?_
      rw [add_ofNat_add]
      exact add_ofNat_ne a (by omega) (by omega)
    rw [List.length_cons, readUnits, hfirst, List.map_cons]
    exact congrArg _ (ih (Memory.wf_writeUnit _ a q h) _ (by omega))

/-- The value of a unit is cut once (rule R5). -/
@[simp] theorem cut_cut (cfg : Config) (q : Qword) : cfg.cut (cfg.cut q) = cfg.cut q := by
  ext i hi
  rw [← BitVec.getLsbD_eq_getElem, ← BitVec.getLsbD_eq_getElem]
  by_cases hw : i < cfg.literals.unitBits <;> simp [Config.cut, hi, hw]

/-- A unit of 128 bits is not cut. -/
theorem cut_written {cfg : Config} (h : cfg.literals = Literals.written) (q : Qword) : cfg.cut q = q := by
  rw [Config.cut, h]
  exact (BitVec.setWidth_eq _).trans (BitVec.setWidth_eq q)

/-- Settles O50: the bytes of the store are those of the unit, and the unit is made of its bytes. -/
theorem unitReadsBack : Obligations.UnitReadsBack := by
  intro cfg m a q hv hwf n
  have hu : n ≤ 4294967296 := (Config.unit_of_valid hv).2.trans (by decide)
  refine ⟨readUnit_writeUnit hv hwf a q, fun i => memGet_writeUnit_in hwf hu a q, fun b hb => ?_,
    fun hwritten => ⟨?_, cut_written hwritten q⟩⟩
  · exact memGet_writeUnit_out n m a q b (by simpa using ne_of_not_inUnits hb)
  · change cfg.literals.unitBits / 8 = 16
    rw [hwritten]
    rfl

end Sys2Proof.Machine
end

section
/-! PROOFS. What a step of a channel leaves alone: its frame, operation by operation (rules R68, R70, R118, R126). -/

namespace Sys2Proof.Machine

/-! ## The frame of a step as a relation -/

theorem StepFrame.cfg {c : Chan} {s t : State} (h : StepFrame c s t) : t.cfg = s.cfg := by
  rw [h.fields]

theorem or_and_refl (x m : Word) : ∃ w, x = x ||| (w &&& m) := ⟨0#32, by simp⟩

/-- A change of none of the status words, which keeps the channels, and the clocks and slots of both schedulers. -/
theorem StepFrame.of_fields {c : Chan} {s t : State}
    (h : t = { s with
      stadrS := t.stadrS, stadrD := t.stadrD, gpath := t.gpath, bridge := t.bridge, mem := t.mem,
      script := t.script, ticks := t.ticks, out := t.out }) : StepFrame c s t := by
  rw [h]
  exact ⟨rfl, fun _ _ => rfl, or_and_refl .., or_and_refl .., rfl, rfl, fun _ _ _ => rfl, fun _ _ _ => rfl⟩

theorem StepFrame.refl (c : Chan) (s : State) : StepFrame c s s := .of_fields rfl

/-- Bits of a mask set twice. -/
theorem or_and_trans {x y z m : Word} (h : ∃ w, y = x ||| (w &&& m)) (h' : ∃ w, z = y ||| (w &&& m)) :
    ∃ w, z = x ||| (w &&& m) := by
  obtain ⟨v, rfl⟩ := h
  obtain ⟨w, rfl⟩ := h'
  refine ⟨v ||| w, ?_⟩
  rw [BitVec.or_assoc, BitVec.and_comm (v ||| w), BitVec.and_or_distrib_left, BitVec.and_comm m, BitVec.and_comm m]

theorem StepFrame.trans {c : Chan} {s t u : State} (h : StepFrame c s t) (h' : StepFrame c t u) : StepFrame c s u where
  fields := h'.fields.trans (by rw [h.fields])
  channels d hd := (h'.channels d hd).trans (h.channels d hd)
  statBits := or_and_trans h.statBits (h.cfg ▸ h'.statBits)
  ioStatBits := or_and_trans h.ioStatBits (h.cfg ▸ h'.ioStatBits)
  cycleMain := h'.cycleMain.trans h.cycleMain
  cycleIo := h'.cycleIo.trans h.cycleIo
  slotsMain k hk hk' := (h'.slotsMain k hk hk').trans (h.slotsMain k hk hk')
  slotsIo k hk hk' := (h'.slotsIo k hk hk').trans (h.slotsIo k hk hk')

/-! ## The pieces that a step may change -/

theorem stepFrame_setCh (c : Chan) (x : Channel) (s : State) : StepFrame c s (s.setCh c x) where
  fields := rfl
  channels _ hd := State.ch_setCh_ne s x hd
  statBits := or_and_refl ..
  ioStatBits := or_and_refl ..
  cycleMain := rfl
  cycleIo := rfl
  slotsMain _ _ _ := rfl
  slotsIo _ _ _ := rfl

/-- The scheduler of MAIN, its clock and all slots but the continuation of the channel and the interrupt test kept. -/
theorem stepFrame_schedMain {c : Chan} {s : State} {x : Sched} (hcycle : x.cycle = s.schedMain.cycle)
    (hslots : ∀ k : Kind, k ≠ dmaCont c → k ≠ intTest → x.slots[k.val] = s.schedMain.slots[k.val]) :
    StepFrame c s { s with schedMain := x } :=
  ⟨rfl, fun _ _ => rfl, or_and_refl .., or_and_refl .., hcycle, rfl, hslots, fun _ _ _ => rfl⟩

/-- The scheduler of IO, its clock and all slots but the interrupt test and the bridge step kept. -/
theorem stepFrame_schedIo (c : Chan) {s : State} {x : Sched} (hcycle : x.cycle = s.schedIo.cycle)
    (hslots : ∀ k : Kind, k ≠ intTest → k ≠ bridgeStep → x.slots[k.val] = s.schedIo.slots[k.val]) :
    StepFrame c s { s with schedIo := x } :=
  ⟨rfl, fun _ _ => rfl, or_and_refl .., or_and_refl .., rfl, hcycle, fun _ _ _ => rfl, hslots⟩

/-- A status bit of `STAT` is set. -/
theorem stepFrame_stat (c : Chan) {s : State} {v : Word} (h : ∃ w, v = s.stat ||| (w &&& s.cfg.statStatusMask)) :
    StepFrame c s { s with stat := v } :=
  ⟨rfl, fun _ _ => rfl, h, or_and_refl .., rfl, rfl, fun _ _ _ => rfl, fun _ _ _ => rfl⟩

/-- A status bit of `IO_ISTAT` is set. -/
theorem stepFrame_ioIstat (c : Chan) {s : State} {v : Word} (h : ∃ w, v = s.ioIstat ||| (w &&& s.cfg.ioMask)) :
    StepFrame c s { s with ioIstat := v } :=
  ⟨rfl, fun _ _ => rfl, or_and_refl .., h, rfl, rfl, fun _ _ _ => rfl, fun _ _ _ => rfl⟩

theorem stepFrame_tick (c : Chan) (s : State) : StepFrame c s s.tick := .of_fields rfl

/-! ## Status bits (rules R35, R37) -/

/-- One bit that a mask has, as a word under that mask. -/
theorem or_oneBit_eq {st m : Word} {p : Nat} (h : p < 32 → m.getLsbD p = true) :
    ∃ w, st ||| (1#32 <<< p) = st ||| (w &&& m) := by
  refine ⟨1#32 <<< p, congrArg (st ||| ·) ?_⟩
  ext i hi
  rw [← BitVec.getLsbD_eq_getElem, ← BitVec.getLsbD_eq_getElem, BitVec.getLsbD_and, getLsbD_oneBit hi]
  by_cases hip : i = p
  · subst hip
    simp [h hi]
  · simp [hip]

theorem setCis_status (cfg : Config) (st : Word) (c : Chan) :
    ∃ w, setCis cfg st c = st ||| (w &&& cfg.statStatusMask) := by
  unfold setCis
  split
  · next hc =>
    have hlt : c.val < cfg.literals.nch := of_decide_eq_true hc
    exact or_oneBit_eq fun hp => by simp [statStatusMask_getLsbD cfg hp, hlt]
  · exact or_and_refl ..

theorem setIoIstat_status (cfg : Config) (st : Word) (c : Chan) :
    ∃ w, setIoIstat cfg st c = st ||| (w &&& cfg.ioMask) := by
  unfold setIoIstat
  split
  · next hc =>
    have hlt : c.val < cfg.literals.nch := of_decide_eq_true hc
    exact or_oneBit_eq fun hp => by simp [Config.ioMask, getLsbD_chanBits cfg hp, hlt]
  · exact or_and_refl ..

theorem setSis_status (cfg : Config) (st : Word) : ∃ w, setSis cfg.layout st = st ||| (w &&& cfg.statStatusMask) :=
  or_oneBit_eq fun hp => by simp [statStatusMask_getLsbD cfg hp]

theorem setBeis_status (cfg : Config) (st : Word) : ∃ w, setBeis cfg.layout st = st ||| (w &&& cfg.statStatusMask) :=
  or_oneBit_eq fun hp => by simp [statStatusMask_getLsbD cfg hp]

/-! ## Ends of a step (rules R116 to R119, R265, R268) -/

theorem stepFrame_schedTest (c : Chan) (p : Domain) (s : State) : StepFrame c s (schedTest p s) := by
  unfold schedTest
  split
  · cases p with
    | main => exact stepFrame_schedMain rfl fun k _ hk => Sched.arm_slot_ne _ _ _ hk
    | io => exact stepFrame_schedIo c rfl fun k hk _ => Sched.arm_slot_ne _ _ _ hk
  · exact .refl c s

theorem stepFrame_raiseChannel (c d : Chan) (s : State) : StepFrame c s (raiseChannel d s) := by
  have hmain : StepFrame c s (schedTest .main { s with stat := setCis s.cfg s.stat d }) :=
    (stepFrame_stat c (setCis_status ..)).trans (stepFrame_schedTest ..)
  unfold raiseChannel raiseIo
  split
  · exact hmain.trans ((stepFrame_ioIstat c (setIoIstat_status ..)).trans (stepFrame_schedTest ..))
  · exact hmain

theorem stepFrame_raiseStall (c : Chan) (s : State) : StepFrame c s (raiseStall s) :=
  (stepFrame_stat c (setSis_status ..)).trans (stepFrame_schedTest ..)

theorem stepFrame_haltChannel (c : Chan) (s : State) : StepFrame c s (haltChannel c s) :=
  (stepFrame_setCh ..).trans (stepFrame_schedMain rfl fun _ hk _ => Sched.cancel_slot_ne _ hk)

theorem stepFrame_rearm (c : Chan) (wanted m : Nat) (s : State) : StepFrame c s (rearm c wanted m s) :=
  stepFrame_schedMain rfl fun _ hk _ => Sched.arm_slot_ne _ _ _ hk

/-- However a step ends, it stays within its frame. -/
theorem StepEnd.frame {c : Chan} {s t : State} (h : StepEnd c s t) : StepFrame c s t := by
  cases h with
  | rearmed wanted m => exact stepFrame_rearm ..
  | completed => exact (stepFrame_setCh ..).trans (stepFrame_raiseChannel ..)
  | failed =>
    exact (stepFrame_stat c (setBeis_status ..)).trans ((stepFrame_haltChannel ..).trans (stepFrame_raiseChannel ..))

/-! ## The midst of a step (rules R108 to R115) -/

theorem stepFrame_setFifo (c : Chan) (f : FifoId) (x : Fifo) (s : State) : StepFrame c s (s.setFifo f x) := by
  cases f <;> exact .of_fields rfl

theorem stepFrame_arbWriteDma (c : Chan) (f : FifoId) (d : List Qword) (s : State) :
    StepFrame c s (arbWriteDma f c d s).2 := by
  obtain ⟨x, h⟩ := arbWriteDma_eq f c d s
  rw [h]
  exact stepFrame_setFifo ..

theorem stepFrame_fifoRead (c : Chan) (f : FifoId) (n : Nat) (s : State) : StepFrame c s (fifoRead f n s).2 :=
  stepFrame_setFifo ..

theorem stepFrame_notifyEndpoint (c : Chan) (m : Nat) (s : State) : StepFrame c s (notifyEndpoint c m s) := by
  unfold notifyEndpoint
  split
  · exact .refl c s
  · exact stepFrame_schedIo c rfl fun k _ hk => Sched.arm_slot_ne _ _ _ hk

theorem stepFrame_sink (c : Chan) (d : List Qword) (s : State) : StepFrame c s (sink c d s).2 := by
  unfold sink
  split
  · exact stepFrame_arbWriteDma ..
  · exact (stepFrame_arbWriteDma ..).trans (stepFrame_notifyEndpoint ..)
  · dsimp only
    split
    · exact .refl c s
    · exact .of_fields rfl

theorem stepFrame_source (c : Chan) (n : Nat) (s : State) : StepFrame c s (source c n s).2 := by
  unfold source
  split
  · exact stepFrame_fifoRead ..
  · exact (stepFrame_fifoRead ..).trans (stepFrame_notifyEndpoint ..)
  · exact .refl c s

theorem stepFrame_moveUnits (c : Chan) (n : Nat) (s : State) : StepFrame c s (moveUnits c n s).2 := by
  unfold moveUnits
  dsimp only
  split
  · exact stepFrame_sink ..
  · exact (stepFrame_source c n s).trans (.of_fields rfl)

theorem stepFrame_advanceChannel (c : Chan) (m : Nat) (s : State) : StepFrame c s (advanceChannel c m s) := by
  rw [advanceChannel_eq]
  exact (stepFrame_setCh ..).trans (.of_fields rfl)

theorem stepFrame_stallLimit (c : Chan) (wanted : Nat) (s : State) : StepFrame c s (stallLimit c wanted s).2 := by
  have hpublish : StepFrame c s { s with stadrD := s.cfg.align (s.ch c).madr } := .of_fields rfl
  unfold stallLimit
  dsimp only
  split
  · dsimp only
    generalize min wanted _ = allowed
    split
    · exact hpublish.trans (stepFrame_raiseStall ..)
    · exact hpublish
  · exact .refl c s

theorem stepFrame_transferStep (c : Chan) (wanted n : Nat) (s : State) : StepFrame c s (transferStep c wanted n s) := by
  rcases transferStep_cases c wanted n s with ⟨-, h⟩ | ⟨m, t, ht, h⟩ <;> rw [h]
  · exact StepEnd.failed.frame
  · rcases transfer_cases c n s with ⟨-, hn⟩ | ⟨-, k, -, hk⟩
    · rw [hn] at ht
      cases ht
    · rw [hk] at ht
      cases ht
      exact ((stepFrame_moveUnits ..).trans (stepFrame_advanceChannel ..)).trans (stepFrame_rearm ..)

theorem stepFrame_blockStep (c : Chan) (s : State) : StepFrame c s (blockStep c s) := by
  have hlimit := stepFrame_stallLimit c (s.ch c).qwc s
  rcases blockStep_cases c s with ⟨-, h⟩ | ⟨-, -, h⟩ | ⟨-, -, h⟩ <;> rw [h]
  · exact stepFrame_rearm ..
  · exact hlimit.trans (stepFrame_rearm ..)
  · exact hlimit.trans (stepFrame_transferStep ..)

/-- A step of a channel stays within its frame (rule R104). -/
theorem stepFrame_continueChan {c : Chan} {s t : State} (h : continueChan c s = .next t) : StepFrame c s t := by
  rcases continueChan_cases h with rfl | rfl | rfl | rfl | ⟨id, q, irq, walk, rfl⟩
  · exact StepEnd.completed.frame
  · exact stepFrame_transferStep ..
  · exact StepEnd.failed.frame
  · exact stepFrame_blockStep ..
  · exact (stepFrame_setCh ..).trans (stepFrame_blockStep ..)

/-- The continuation of a channel that can run is a step of that channel (rule R105). -/
theorem exec_continuation {c : Chan} {s t : State} (w : Word) (hrun : s.canRun c = true)
    (h : continueChan c s = .next t) :
    exec (.eventDmaContMain c w) s = .next t.tick ∧ StepFrame c s t.tick := by
  refine ⟨?_, (stepFrame_continueChan h).trans (stepFrame_tick c t)⟩
  change runOrQueue c s = .next t.tick
  rw [runOrQueue, if_pos hrun, h]
  rfl

end Sys2Proof.Machine
end

section
/-! PROOFS. One step of a channel: a bus error, and a Normal step between memory and a unit behind no FIFO (rules R106,
R110 to R112, R116, R119). -/

namespace Sys2Proof.Machine

/-! ## The block that a step transfers (rule R107) -/

/-- The tag fetch before a block changes the registers of its channel only. -/
theorem blockStart_eq (c : Chan) (s : State) : ∃ x, blockStart c s = s.setCh c x := by
  have hself : ∃ x, s = s.setCh c x := ⟨s.ch c, (State.setCh_ch s c).symm⟩
  unfold blockStart
  split
  · rcases fetchTag_cases c s with ⟨-, hf⟩ | ⟨-, id, q, irq, walk, hf⟩ <;> rw [hf]
    · exact hself
    · exact ⟨_, rfl⟩
  · exact hself

/-- A tag pointer that does not translate fetches nothing, and is a bus error (rule R108). -/
theorem continueChan_untranslated_tag {c : Chan} {s : State} (hmode : effMode (s.ch c).mod = .chain)
    (hqwc : (s.ch c).qwc = 0) (hdone : (s.ch c).done = false) (htag : translate s (s.ch c).tadr .read = false) :
    blockStart c s = s ∧ continueChan c s = .next (busError c s) := by
  have hfetch : fetchTag c s = none := by rw [fetchTag, if_neg (by rw [htag]; exact Bool.false_ne_true)]
  constructor
  · unfold blockStart
    rw [hfetch]
    split <;> rfl
  · simp [continueChan, stepChain, hmode, hqwc, hdone, hfetch]

theorem blockStep_of_allowed {c : Chan} {s : State} (hqwc : 0 < (s.ch c).qwc)
    (hallowed : 0 < (stallLimit c (s.ch c).qwc s).1) :
    blockStep c s =
      transferStep c (s.ch c).qwc (stallLimit c (s.ch c).qwc s).1 (stallLimit c (s.ch c).qwc s).2 := by
  rcases blockStep_cases c s with ⟨h, -⟩ | ⟨-, h, -⟩ | ⟨-, -, h⟩
  · omega
  · omega
  · exact h

/-- Outside a REFS block of a drain channel in Chain mode nothing is limited (rule R114). -/
theorem stallLimit_of_not_chain {c : Chan} {s : State} (wanted : Nat) (h : effMode (s.ch c).mod ≠ .chain) :
    stallLimit c wanted s = (wanted, s) :=
  if_neg fun ⟨_, hchain, _⟩ => h hchain

/-- A step of a channel whose block has units left that the stall check allows transfers them (rules R106, R107). -/
theorem continueChan_of_allowed {c : Chan} {s u : State} (hu : blockStart c s = u) (hrun : s.canRun c = true)
    (hmode : effMode (s.ch c).mod ≠ .interleave) (hqwc : 0 < (u.ch c).qwc)
    (hallowed : 0 < (stallLimit c (u.ch c).qwc u).1) :
    continueChan c s = .next (transferStep c (u.ch c).qwc (stallLimit c (u.ch c).qwc u).1
      (stallLimit c (u.ch c).qwc u).2) := by
  rw [← blockStep_of_allowed hqwc hallowed]
  unfold blockStart at hu
  unfold continueChan
  cases hm : effMode (s.ch c).mod with
  | interleave => exact absurd hm hmode
  | normal =>
    rw [if_neg (by simp [hm])] at hu
    subst hu
    have hnotChain : effMode (s.ch c).mod ≠ .chain := by rw [hm]; decide
    rw [blockStep_of_allowed hqwc hallowed, stallLimit_of_not_chain _ hnotChain]
    exact congrArg _ (if_neg hqwc.ne')
  | chain =>
    by_cases hfetch : (s.ch c).qwc = 0 ∧ (s.ch c).done = false
    · obtain ⟨hzero, hdone⟩ := hfetch
      rw [if_pos ⟨hrun, hm, hzero, hdone⟩] at hu
      rcases fetchTag_cases c s with ⟨-, hf⟩ | ⟨-, id, q, irq, walk, hf⟩ <;>
        (rw [hf] at hu; dsimp only at hu; subst hu)
      · omega
      · simp [hdone, stepChain, hzero, hf]
    · rw [if_neg (fun h => hfetch h.2.2)] at hu
      subst hu
      have hne : (s.ch c).qwc ≠ 0 := hqwc.ne'
      simp [hne, stepChain]

/-! ## Bus errors (rules R76, R119) -/

/-- A stall check that allows some units at most publishes the drain address (rule R114). -/
theorem stallLimit_of_allowed {c : Chan} {wanted : Nat} {s : State} (h : 0 < (stallLimit c wanted s).1) :
    ∃ y, (stallLimit c wanted s).2 = { s with stadrD := y } := by
  unfold stallLimit at h ⊢
  dsimp only at h ⊢
  split
  · next hdrain =>
    rw [if_pos hdrain] at h
    exact ⟨_, if_neg h.ne'⟩
  · exact ⟨s.stadrD, rfl⟩

theorem leadingUnits_pos_iff (s : State) (d : Dir) (a : Word) {n : Nat} (hn : 0 < n) :
    0 < leadingUnits s d a n ↔ translate s a d = true := by
  obtain ⟨k, rfl⟩ := Nat.exists_eq_succ_of_ne_zero hn.ne'
  cases h : translate s a d <;> simp [leadingUnits, h]

theorem transferStep_untranslated {c : Chan} {wanted n : Nat} {s : State} (hn : 0 < n)
    (h : translate s (s.ch c).madr (transferDir (s.ch c)) = false) : transferStep c wanted n s = busError c s := by
  have hnone : leadingUnits s (transferDir (s.ch c)) (s.ch c).madr n = 0 := by
    have := (leadingUnits_pos_iff s (transferDir (s.ch c)) (s.ch c).madr hn).not
    simpa [h] using this
  rcases transfer_cases c n s with ⟨-, ht⟩ | ⟨hpos, -⟩
  · rw [transferStep, ht]
  · omega

/-- What a bus error of channel `c` makes of state `s` (rule R119). -/
structure Failed (c : Chan) (s t : State) : Prop where
  ch : t.ch c = { s.ch c with str := false, queued := false }
  stat : t.stat = s.stat ||| (1#32 <<< s.cfg.layout.statBEIS) ||| (1#32 <<< (s.cfg.layout.statCIS + c.val))
  unarmed : t.schedMain.slots[(dmaCont c).val].armed = false
  mem : t.mem = s.mem
  out : t.out = s.out
  gpath : t.gpath = s.gpath
  bridge : t.bridge = s.bridge

theorem failed_busError {c : Chan} {s : State} (hc : s.cfg.hasChan c = true) : Failed c s (busError c s) := by
  refine ⟨busError_ch c s, ?_, ?_, ?_, ?_, ?_, ?_⟩ <;> rw [busError, raiseChannel_eq, haltChannel_eq]
  · exact if_pos hc
  · dsimp only
    rw [testedSched_slot _ _ _ (dmaCont_ne_intTest c)]
    exact congrArg Slot.armed (Sched.cancel_slot_self s.schedMain (dmaCont c))

/-- A step whose tag pointer or whose block does not translate is a bus error, in the state in which the block would
have been transferred but for the drain address (rules R76, R108, R110, R111). -/
theorem continueChan_busError {c : Chan} {s u : State} (hu : blockStart c s = u) (hrun : s.canRun c = true)
    (h : effMode (s.ch c).mod = .chain ∧ (s.ch c).qwc = 0 ∧ (s.ch c).done = false ∧
        translate s (s.ch c).tadr .read = false ∨
      effMode (s.ch c).mod ≠ .interleave ∧ 0 < (u.ch c).qwc ∧ 0 < (stallLimit c (u.ch c).qwc u).1 ∧
        translate s (u.ch c).madr (transferDir (u.ch c)) = false) :
    ∃ y, continueChan c s = .next (busError c { u with stadrD := y }) := by
  rcases h with ⟨hmode, hqwc, hdone, htag⟩ | ⟨hmode, hqwc, hallowed, hblock⟩
  · obtain ⟨hstart, hstep⟩ := continueChan_untranslated_tag hmode hqwc hdone htag
    rw [← hu, hstart]
    exact ⟨s.stadrD, hstep⟩
  · obtain ⟨y, hy⟩ := stallLimit_of_allowed hallowed
    obtain ⟨x, hx⟩ := blockStart_eq c s
    have htranslate (a : Word) (d : Dir) : translate { u with stadrD := y } a d = translate s a d := by
      rw [← hu, hx]
      rfl
    refine ⟨y, (continueChan_of_allowed hu hrun hmode hqwc hallowed).trans ?_⟩
    rw [hy]
    exact congrArg _ (transferStep_untranslated hallowed ((htranslate ..).trans hblock))

/-- Settles O26: the step is a bus error in the state in which its block begins. -/
theorem busErrorMovesNothing : Obligations.BusError := by
  intro c w s hc hrun u h
  obtain ⟨y, hstep⟩ := continueChan_busError (u := u) rfl hrun h
  obtain ⟨x, hx⟩ := blockStart_eq c s
  have hu : u = s.setCh c x := hx
  clear_value u
  subst hu
  have hfailed := failed_busError (c := c) (s := { s.setCh c x with stadrD := y }) hc
  generalize busError c _ = t at hstep hfailed
  obtain ⟨hexec, hframe⟩ := exec_continuation w hrun hstep
  exact ⟨_, hexec, hfailed.ch, hfailed.stat, hfailed.unarmed, hfailed.mem, hfailed.out, hfailed.gpath, hfailed.bridge,
    hframe⟩

/-! ## Normal steps between memory and a unit behind no FIFO (rules R106, R110 to R112, R116) -/

/-- Re-arming after a transfer outside a chain by a channel that is no stall source (rules R113, R115, R116). -/
theorem rearm_advanceChannel {c : Chan} {wanted : Nat} (m : Nat) {s : State} (hwanted : 0 < wanted)
    (hop : (s.ch c).curOp = none) (hstm : (s.ch c).stm ≠ 1#2) :
    rearm c wanted m (advanceChannel c m s) =
      { s.setCh c { s.ch c with
          madr := s.cfg.align ((s.ch c).madr + unitBytes s.cfg m), qwc := (s.ch c).qwc - m } with
        schedMain := s.schedMain.arm (dmaCont c) (if m = 0 then retestDelta s.cfg else stepDelta s.cfg c m)
          (BitVec.ofNat 32 c.val) } := by
  have hcnt : decide (s.curTagOp c = some .cnt) = false := by simp [State.curTagOp, hop]
  rw [advanceChannel_eq, hcnt, if_neg hstm]
  simp only [rearm, hwanted, true_and]
  rfl

/-- A Normal step whose first unit translates moves some of the units that do, and re-arms (rules R76, R106). -/
theorem continueChan_transferred {c : Chan} {d : Dir} {m : Nat} {s u : State} (hd : transferDir (s.ch c) = d)
    (hmode : effMode (s.ch c).mod = .normal) (hqwc : 0 < (s.ch c).qwc) (hop : (s.ch c).curOp = none)
    (hstm : (s.ch c).stm ≠ 1#2) (htranslate : translate s (s.ch c).madr d = true)
    (hmove : moveUnits c (leadingUnits s d (s.ch c).madr (s.ch c).qwc) s = (m, u)) :
    continueChan c s = .next
      { u.setCh c { s.ch c with
          madr := s.cfg.align ((s.ch c).madr + unitBytes s.cfg m), qwc := (s.ch c).qwc - m } with
        schedMain := s.schedMain.arm (dmaCont c) (if m = 0 then retestDelta s.cfg else stepDelta s.cfg c m)
          (BitVec.ofNat 32 c.val) } := by
  subst hd
  have hpos := (leadingUnits_pos_iff s _ (s.ch c).madr hqwc).2 htranslate
  have hstep : stepNormal c s = rearm c (s.ch c).qwc m (advanceChannel c m u) := by
    rcases transfer_cases c (s.ch c).qwc s with ⟨hzero, -⟩ | ⟨-, k, hk, ht⟩
    · omega
    · rw [hk, hmove] at ht
      rw [stepNormal, transferStep, ht]
  obtain ⟨x, g, b, o, mem, hframe⟩ :=
    moveUnits_frame c (leadingUnits s (transferDir (s.ch c)) (s.ch c).madr (s.ch c).qwc) s
  rw [hmove] at hframe
  dsimp only at hframe
  subst hframe
  rw [continueChan, hmode]
  refine congrArg _ ((if_neg hqwc.ne').trans (hstep.trans ?_))
  exact rearm_advanceChannel m hqwc hop hstm

theorem readUnits_take (u : Nat) (m : List Host.Cell) (a : Word) {k n : Nat} (h : k ≤ n) :
    (readUnits u m a n).take k = readUnits u m a k := by
  induction n generalizing a k with
  | zero => rw [Nat.le_zero.1 h]; rfl
  | succ n ih =>
    cases k with
    | zero => rfl
    | succ k => rw [readUnits, readUnits, List.take_succ_cons, ih _ (Nat.le_of_succ_le_succ h)]

/-- To a unit behind no FIFO the units leave the block in order, as many as it is ready for (rules R7, R110). -/
theorem moveUnits_toUnit {c : Chan} {s : State} (hdir : (s.ch c).dir = true) (hfifo : fifoOf s.cfg c = none)
    {n m : Nat} (hm : min s.answers.sink n = m) :
    moveUnits c n s = (m,
      { s with out := if m = 0 then s.out else .unit c (readUnits s.cfg.unit s.mem (s.ch c).madr m) :: s.out }) := by
  have hle : m ≤ n := hm ▸ Nat.min_le_right ..
  simp only [moveUnits, hdir, if_true, sink, hfifo, readUnits_length, hm, readUnits_take _ _ _ hle]
  split <;> rfl

/-- From a unit behind no FIFO the units supplied stand in memory from `MADR` on (rules R7, R111). -/
theorem moveUnits_toMemory {c : Chan} {s : State} (hdir : (s.ch c).dir = false) (hfifo : fifoOf s.cfg c = none)
    {n : Nat} {d : List Qword} (hd : (s.answers.source.take n).map s.cfg.cut = d) :
    moveUnits c n s = (d.length, { s with mem := writeUnits s.cfg.unit s.mem (s.ch c).madr d }) := by
  simp only [moveUnits, hdir, Bool.false_eq_true, if_false, source, hfifo, hd]

/-- Settles O27: the step moves what the unit takes, and re-arms. -/
theorem normalStepToUnit : Obligations.NormalStepToUnit := by
  intro c w s hrun hmode hqwc hdir hfifo hop hstm htranslate n m down
  have hread : transferDir (s.ch c) = .read := by rw [transferDir, if_pos hdir]
  have hmove := moveUnits_toUnit (n := n) (m := m) hdir hfifo rfl
  have hstep := continueChan_transferred hread hmode hqwc hop hstm htranslate hmove
  obtain ⟨hexec, hframe⟩ := exec_continuation w hrun hstep
  exact ⟨_, hexec, State.ch_setCh_self .., rfl, rfl, rfl, rfl, hframe⟩

/-- Settles O28: the units supplied are stored and read back, and the step re-arms. -/
theorem normalStepToMemory : Obligations.NormalStepToMemory := by
  intro c w s hv hrun hmode hqwc hmax hdir hfifo hop hstm hwf htranslate d down
  have hwrite : transferDir (s.ch c) = .write := by rw [transferDir, hdir]; rfl
  have hmove := moveUnits_toMemory (d := d) hdir hfifo rfl
  have hstep := continueChan_transferred hwrite hmode hqwc hop hstm htranslate hmove
  obtain ⟨hexec, hframe⟩ := exec_continuation w hrun hstep
  have hliterals : s.cfg.literals.valid = true := (encoding_of_valid hv).2.1
  have hcount : d.length ≤ 0x10000 := by
    rw [List.length_map]
    exact ((List.length_take_le ..).trans (leadingUnits_le ..)).trans hmax
  have hbytes : s.cfg.unit * d.length ≤ 4294967296 :=
    (Nat.mul_le_mul (Config.unit_of_valid hliterals).2 hcount).trans (by decide)
  have hcut : d.map s.cfg.cut = d := by simp [d, Function.comp_def]
  refine ⟨_, hexec, ?_, fun b hb => ?_, State.ch_setCh_self .., rfl, rfl, rfl, hframe⟩
  · exact (readUnits_writeUnits hliterals hwf _ d hbytes).trans hcut
  · exact memGet_writeUnits_out _ _ _ d b (ne_of_not_inUnits hb)

end Sys2Proof.Machine
end

section
/-! PROOFS. The encodings (rules R80 to R86, R145): what the decoder answers is well formed, a tag is read through its
four fields only, and a chain channel between blocks runs the tag at its pointer. -/

namespace Sys2Proof.Machine

/-! ## Tags that decode (rules R80 to R83) -/

/-- A tag of one unit whose `ID` the table names decodes to that opcode on the walker of its channel (rule R82). -/
theorem decode_tag_of_tagOp {cfg : Config} {bytes : List Byte} {t : TagWord} {op : TagOp} (c : Chan)
    (hlength : bytes.length = cfg.unit) (ht : tagFields cfg (qwordOfBytes bytes) = t) (hop : cfg.tagOp t.id = some op) :
    decode cfg (.tag c bytes) = .ok (tagInstr cfg.walker[c.val] op c t.q t.irq t.a) := by
  subst ht
  simp [decode, decodeTag, hlength, hop]

/-- A tag of one unit whose `ID` the table leaves undefined is rejected by that name (rule R82). -/
theorem decode_tag_of_undefined {cfg : Config} {bytes : List Byte} {t : TagWord} (c : Chan)
    (hlength : bytes.length = cfg.unit) (ht : tagFields cfg (qwordOfBytes bytes) = t) (hop : cfg.tagOp t.id = none) :
    decode cfg (.tag c bytes) = .error (.undefinedOpcode t.id) := by
  subst ht
  simp [decode, decodeTag, hlength, hop]

/-- Bytes that are no unit are no tag (rule R90). -/
theorem decode_tag_of_length {cfg : Config} {bytes : List Byte} (c : Chan) (hlength : bytes.length ≠ cfg.unit) :
    decode cfg (.tag c bytes) = .error .tagLength := if_neg hlength

/-! ## What the decoder answers -/

theorem wellFormed_tagInstr (cfg : Config) (v : Variant) (op : TagOp) (c : Chan) (q : BitVec 16) (irq : Bool)
    (a : Word) : WellFormed cfg (tagInstr v op c q irq a) = WellFormed.tag cfg v op c a := by
  cases v <;> cases op <;> rfl

/-- An aligned address has no bit below one unit (rule R63). -/
theorem lowBits_align (cfg : Config) (a : Word) : lowBits cfg (cfg.align a) = 0#32 := by
  have h := align_and_low cfg a (cfg.align a)
  rwa [lowBits, ← BitVec.and_assoc, BitVec.and_self] at h

/-- An opcode that a value of `ID` names stands in the opcode table (rule R82). -/
theorem mem_tagCode_of_tagOp {cfg : Config} {id : TagId} {op : TagOp} (h : cfg.tagOp id = some op) :
    some op ∈ cfg.tagCode.toList := by
  rw [← h, Config.tagOp]
  simp

theorem wellFormed_of_decode_tag {cfg : Config} {c : Chan} {bytes : List Byte} {i : Instr}
    (h : decode cfg (.tag c bytes) = .ok i) : WellFormed cfg i = true := by
  by_cases hlength : bytes.length = cfg.unit
  · cases hop : cfg.tagOp (tagFields cfg (qwordOfBytes bytes)).id with
    | none =>
      rw [decode_tag_of_undefined c hlength rfl hop] at h
      cases h
    | some op =>
      rw [decode_tag_of_tagOp c hlength rfl hop] at h
      cases h
      have hlow := lowBits_align cfg ((qwordOfBytes bytes).extractLsb' cfg.layout.tagADDR 32)
      rw [wellFormed_tagInstr]
      simp only [WellFormed.tag, Bool.and_eq_true, beq_iff_eq, List.contains_iff_mem]
      exact ⟨⟨trivial, mem_tagCode_of_tagOp hop⟩, hlow⟩
  · rw [decode_tag_of_length c hlength] at h
    cases h

/-- A register found at an address belongs to the block and answers the access (rule R86). -/
theorem hasReg_answers_of_regAt {cfg : Config} {p : Domain} {d : Dir} {a : Word} {r : RegName}
    (h : cfg.regAt p d a = some r) : cfg.hasReg r = true ∧ r.answers d = true := by
  have hfound := List.find?_some h
  simp only [Bool.and_eq_true] at hfound
  obtain ⟨⟨⟨hreg, -⟩, hanswers⟩, -⟩ := hfound
  exact ⟨hreg, hanswers⟩

/-- An address where no register is found is unmapped (rule R245). -/
theorem unmapped_of_regAt {cfg : Config} {p : Domain} {d : Dir} {a : Word} (h : cfg.regAt p d a = none) :
    WellFormed.unmapped cfg p d a = true := by
  refine List.all_eq_true.2 fun r hr => ?_
  rw [Bool.not_eq_true', Bool.eq_false_iff]
  exact List.find?_eq_none.1 h r hr

theorem wellFormed_writeInstr {cfg : Config} {r : RegName} (a v : Word) (hreg : cfg.hasReg r = true)
    (hanswers : r.answers .write = true) : WellFormed cfg (writeInstr a v r) = true := by
  cases r with
  | chan c r => cases r <;> exact hreg
  | fstat f => cases f <;> rfl
  | enabler => cases hanswers
  | _ => rfl

theorem wellFormed_readInstr {cfg : Config} {r : RegName} (a : Word) (hreg : cfg.hasReg r = true)
    (hanswers : r.answers .read = true) : WellFormed cfg (readInstr a r) = true := by
  cases r with
  | chan c r => cases r <;> exact hreg
  | fstat f => cases f <;> rfl
  | enablew => cases hanswers
  | _ => rfl

/-- An access that decodes is 32 bits wide, at a multiple of 4 (rules R64, R220). -/
theorem shape_of_decode_access {cfg : Config} {p : Domain} {d : Dir} {width : Nat} {a v : Word} {i : Instr}
    (h : decode cfg (.access p d width a v) = .ok i) : width = 32 ∧ a.toNat % 4 = 0 := by
  by_contra hshape
  obtain ⟨e, he⟩ := decode_access_shape (cfg := cfg) (p := p) (d := d) (v := v)
    (Decidable.not_and_iff_or_not.1 hshape)
  rw [he] at h
  cases h

/-- An aligned access at the address of a register decodes to the access of that register (rule R86). -/
theorem decode_access_of_regAt {cfg : Config} {p : Domain} {d : Dir} {a : Word} {r : RegName} (v : Word)
    (halign : a.toNat % 4 = 0) (h : cfg.regAt p d a = some r) :
    decode cfg (.access p d 32 a v) = .ok (match d with | .write => writeInstr a v r | .read => readInstr a r) := by
  cases d <;> simp [decode, decodeAccess, halign, h]

theorem wellFormed_of_decode_access {cfg : Config} {p : Domain} {d : Dir} {width : Nat} {a v : Word} {i : Instr}
    (h : decode cfg (.access p d width a v) = .ok i) : WellFormed cfg i = true := by
  obtain ⟨rfl, halign⟩ := shape_of_decode_access h
  cases hreg : cfg.regAt p d a with
  | none =>
    have haccess : WellFormed.access cfg p d a = true := by
      simp [WellFormed.access, halign, unmapped_of_regAt hreg]
    rw [decode_unmapped haccess] at h
    cases h
    cases d <;> exact haccess
  | some r =>
    obtain ⟨hmember, hanswers⟩ := hasReg_answers_of_regAt hreg
    rw [decode_access_of_regAt v halign hreg] at h
    cases h
    cases d
    case read => exact wellFormed_readInstr a hmember hanswers
    case write => exact wellFormed_writeInstr a v hmember hanswers

/-- Every event is well formed: its operands are what its kind leaves open (rules R40, R88). -/
theorem wellFormed_decodeEvent (cfg : Config) (p : Domain) (k : Kind) (w : Word) :
    WellFormed cfg (decodeEvent p k w) = true := by
  unfold decodeEvent
  split
  · cases p <;> rfl
  · split
    · rfl
    · split
      · cases p <;> rfl
      · rfl

/-- Settles O2: each kind of encoded input by the lemma of its decoder. -/
theorem decodedIsWellFormed : Obligations.DecodedIsWellFormed := by
  intro cfg e i h
  cases e with
  | tag c bytes => exact wellFormed_of_decode_tag h
  | access p d width a v => exact wellFormed_of_decode_access h
  | event p k w =>
    cases h
    exact wellFormed_decodeEvent cfg p k.toFin w

/-! ## Bits of a tag that no field holds (rules R81, R83, R84) -/

/-- Bit `k` of a unit assembled from any number of bytes is a bit of byte `k / 8`. -/
theorem getLsbD_qwordOfBytes (l : List Byte) {k : Nat} (hk : k < 128) :
    (qwordOfBytes l).getLsbD k = (l.getD (k / 8) 0#8).getLsbD (k % 8) := by
  induction l generalizing k with
  | nil => simp [qwordOfBytes]
  | cons b l ih =>
    change ((qwordOfBytes l <<< 8) ||| b.setWidth 128).getLsbD k = _
    by_cases h : k < 8
    · simp [h, hk, Nat.div_eq_of_lt h, Nat.mod_eq_of_lt h]
    · have hdiv : k / 8 = (k - 8) / 8 + 1 := by omega
      have hmod : k % 8 = (k - 8) % 8 := by omega
      rw [hdiv, hmod, List.getD_cons_succ, ← ih (by omega)]
      simp only [BitVec.getLsbD_or, BitVec.getLsbD_shiftLeft, BitVec.getLsbD_setWidth,
        BitVec.getLsbD_of_ge b k (by omega)]
      simp [h, hk]

/-- A unit put together again from its first `n` bytes has the bits that stand in them (rule R62). -/
theorem getLsbD_qwordOfBytes_qwordBytes (n : Nat) (q : Qword) (k : Nat) :
    (qwordOfBytes (qwordBytes n q)).getLsbD k = (decide (k < 8 * n) && q.getLsbD k) := by
  by_cases hk : k < 128
  · rw [getLsbD_qwordOfBytes _ hk, List.getD_eq_getElem?_getD, qwordBytes, List.getElem?_map]
    by_cases hn : k < 8 * n
    · rw [List.getElem?_range (by omega)]
      simp [hn, Nat.mod_lt, Nat.div_add_mod]
    · rw [List.getElem?_eq_none (by simp; omega)]
      simp [hn]
  · rw [BitVec.getLsbD_of_ge _ k (by omega), BitVec.getLsbD_of_ge q k (by omega), Bool.and_false]

/-- Every bit of a tag that one of its fields holds. -/
def tagFieldMask (cfg : Config) : Qword :=
  tagBits cfg.layout (BitVec.ofNat 3 (2 ^ cfg.literals.tagOpcodeBits - 1)) 0xFFFF#16 true
    (~~~BitVec.ofNat 32 (cfg.unit - 1))

/-- Two units have the same bits wherever a third has a one. -/
def AgreeOn (m t u : Qword) : Prop := ∀ k, m.getLsbD k = true → t.getLsbD k = u.getLsbD k

theorem agreeOn_of_and_eq {m t u : Qword} (h : t &&& m = u &&& m) : AgreeOn m t u := by
  intro k hk
  simpa [hk] using congrArg (·.getLsbD k) h

/-- The bytes of two units that agree make up units that agree. -/
theorem AgreeOn.reassembled {m t u : Qword} (h : AgreeOn m t u) (n : Nat) :
    AgreeOn m (qwordOfBytes (qwordBytes n t)) (qwordOfBytes (qwordBytes n u)) := by
  intro k hk
  rw [getLsbD_qwordOfBytes_qwordBytes, getLsbD_qwordOfBytes_qwordBytes, h k hk]

theorem agreeOn_or {m m' t u : Qword} : AgreeOn (m ||| m') t u ↔ AgreeOn m t u ∧ AgreeOn m' t u := by
  simp only [AgreeOn, BitVec.getLsbD_or, Bool.or_eq_true, or_imp, forall_and]

/-- Units that agree on a field at position `p` agree on each of its ones: past bit 127 neither has any. -/
theorem AgreeOn.bit {w p i : Nat} {t u : Qword} {x : BitVec w} (h : AgreeOn (x.setWidth 128 <<< p) t u)
    (hx : x.getLsbD i = true) : t.getLsbD (p + i) = u.getLsbD (p + i) := by
  by_cases hp : p + i < 128
  · exact h _ (by simp [hp, hx])
  · rw [BitVec.getLsbD_of_ge t _ (by omega), BitVec.getLsbD_of_ge u _ (by omega)]

/-- The fields of a tag are read from the bits of its mask (rules R83, R84). -/
theorem tagFields_of_agreeOn {cfg : Config} {t u : Qword} (h : AgreeOn (tagFieldMask cfg) t u) :
    tagFields cfg t = tagFields cfg u := by
  simp only [tagFieldMask, tagBits, agreeOn_or] at h
  obtain ⟨⟨⟨hqwc, hopcode⟩, hirq⟩, haddr⟩ := h
  have hid : (t.extractLsb' cfg.layout.tagID cfg.literals.tagOpcodeBits).setWidth 3 =
      (u.extractLsb' cfg.layout.tagID cfg.literals.tagOpcodeBits).setWidth 3 := by
    ext i hi
    by_cases hw : i < cfg.literals.tagOpcodeBits
    · have hone : (BitVec.ofNat 3 (2 ^ cfg.literals.tagOpcodeBits - 1)).getLsbD i = true := by
        rw [BitVec.getLsbD_ofNat, Nat.testBit_two_pow_sub_one]
        simp [hi, hw]
      simp [hw, hopcode.bit hone]
    · simp [hw]
  have hq : t.extractLsb' cfg.layout.tagQWC 16 = u.extractLsb' cfg.layout.tagQWC 16 := by
    ext i hi
    have hone : (0xFFFF#16).getLsbD i = true := (BitVec.getLsbD_allOnes (v := 16)).trans (decide_eq_true hi)
    simp [hqwc.bit hone]
  have hi : t.getLsbD cfg.layout.tagIRQ = u.getLsbD cfg.layout.tagIRQ := hirq.bit (i := 0) rfl
  have ha : cfg.align (t.extractLsb' cfg.layout.tagADDR 32) = cfg.align (u.extractLsb' cfg.layout.tagADDR 32) := by
    unfold Config.align
    ext i hi
    cases hone : (~~~BitVec.ofNat 32 (cfg.unit - 1)).getLsbD i with
    | false => simp [← BitVec.getLsbD_eq_getElem, hone]
    | true => simp [haddr.bit hone]
  rw [tagFields, tagFields, hid, hq, hi, ha]

/-- A tag is decoded through its fields (rule R83). -/
theorem decode_tag_congr {cfg : Config} {b b' : List Byte} (c : Chan) (hlength : b.length = b'.length)
    (h : tagFields cfg (qwordOfBytes b) = tagFields cfg (qwordOfBytes b')) :
    decode cfg (.tag c b) = decode cfg (.tag c b') := by
  simp only [decode, decodeTag, hlength, h]

/-- Settles O3: the mask of the fields holds every bit that is read. -/
theorem ignoredTagBits : Obligations.IgnoredTagBits := by
  intro cfg c t u id fields
  refine ⟨fun hlayout hliterals => ?_, fun h => ?_⟩
  · have hunit : cfg.unit = 16 := by rw [Config.unit, hliterals]; rfl
    simp only [fields, id, hunit, hlayout, hliterals]
    decide +kernel
  · have hagree : AgreeOn (tagFieldMask cfg) t u := agreeOn_of_and_eq h
    exact decode_tag_congr c (by simp [qwordBytes]) (tagFields_of_agreeOn (hagree.reassembled cfg.unit))

/-! ## The tag at the pointer (rules R107, R108, R139, R144) -/

theorem readBytes_length (m : List Host.Cell) (a : Word) (n : Nat) : (readBytes m a n).length = n := by
  rw [readBytes_eq, List.length_map, List.length_range]

/-- A pointer that translates fetches the tag there, which runs as the instruction it decodes to (rule R108). -/
theorem fetchTag_of_decode {c : Chan} {s : State} {i : Instr} (htranslate : translate s (s.ch c).tadr .read = true)
    (h : decode s.cfg (.tag c (readBytes s.mem (s.ch c).tadr s.cfg.unit)) = .ok i) :
    fetchTag c s = some (exec i s) := by
  have hlength := readBytes_length s.mem (s.ch c).tadr s.cfg.unit
  rw [fetchTag, if_pos htranslate]
  dsimp only [readUnit]
  cases hop : s.cfg.tagOp (tagFields s.cfg (qwordOfBytes (readBytes s.mem (s.ch c).tadr s.cfg.unit))).id with
  | none =>
    rw [decode_tag_of_undefined c hlength rfl hop] at h
    cases h
  | some op =>
    rw [decode_tag_of_tagOp c hlength rfl hop] at h
    cases h
    exact congrArg some (runTag_eq_exec ..)

/-- A tag whose `ID` is undefined is fetched all the same (rules R139, R144). -/
theorem fetchTag_of_undefined {c : Chan} {s : State} {id : TagId} {t : TagWord}
    (htranslate : translate s (s.ch c).tadr .read = true)
    (ht : tagFields s.cfg (readUnit s.cfg.unit s.mem (s.ch c).tadr) = t)
    (h : decode s.cfg (.tag c (readBytes s.mem (s.ch c).tadr s.cfg.unit)) = .error (.undefinedOpcode id)) :
    t.id = id ∧ fetchTag c s = some (.next (undefinedTag c t s)) := by
  have hlength := readBytes_length s.mem (s.ch c).tadr s.cfg.unit
  rw [fetchTag, if_pos htranslate, ht]
  cases hop : s.cfg.tagOp t.id with
  | none =>
    rw [decode_tag_of_undefined c hlength ht hop] at h
    cases h
    exact ⟨rfl, by dsimp only; rw [hop]⟩
  | some op =>
    rw [decode_tag_of_tagOp c hlength ht hop] at h
    cases h

/-- Either walker ends the chain at a tag it has no opcode for, with the block after it; the full walker goes past the
tag, the simple one stays at it (rules R139, R144). -/
theorem undefinedTag_eq (c : Chan) (t : TagWord) (s : State) :
    undefinedTag c t s = s.setCh c { s.ch c with
      madr := s.cfg.align (postTag s.cfg (s.ch c).tadr)
      tadr := if s.cfg.walker[c.val] = .full then s.cfg.align (postTag s.cfg (s.ch c).tadr) else (s.ch c).tadr
      qwc := t.q.toNat
      curOp := some t.id
      done := true } := by
  unfold undefinedTag
  cases s.cfg.walker[c.val] <;> rfl

/-- The step of a chain channel between blocks fetches a tag and transfers its block (rule R107). -/
theorem continueChan_of_fetch {c : Chan} {s : State} {r : Result} (hmode : effMode (s.ch c).mod = .chain)
    (hqwc : (s.ch c).qwc = 0) (hdone : (s.ch c).done = false) (hfetch : fetchTag c s = some r) :
    continueChan c s = andThen r fun t => .next (blockStep c t) := by
  simp [continueChan, stepChain, hmode, hqwc, hdone, hfetch]

/-- The continuation of a channel that can run is a step of that channel, whatever its outcome (rule R105). -/
theorem exec_continuation_eq {c : Chan} {s : State} (w : Word) (hrun : s.canRun c = true) :
    exec (.eventDmaContMain c w) s = ticked (continueChan c s) :=
  if_pos hrun

/-- Settles O8: the fetch answers the instruction that the bytes decode to, or the undefined tag. -/
theorem channelRunsTag : Obligations.ChannelRunsTag := by
  intro s c w hrun hmode hqwc hdone htranslate t u down
  rw [exec_continuation_eq w hrun]
  refine ⟨fun i hdecode => ?_, fun id hdecode => ?_⟩
  · rw [continueChan_of_fetch hmode hqwc hdone (fetchTag_of_decode htranslate hdecode)]
  · obtain ⟨rfl, hfetch⟩ := fetchTag_of_undefined htranslate rfl hdecode
    rw [continueChan_of_fetch hmode hqwc hdone hfetch, undefinedTag_eq]
    rfl

end Sys2Proof.Machine
end

section
/-! PROOFS. The queue and the continuations over a step: laws 1 and 2 of rule R126. -/

namespace Sys2Proof.Machine

/-- After a reset nothing is queued and no continuation is armed (rule R48). -/
theorem queueWf_performReset (s : State) : QueueWf (performReset s) := by
  intro c
  refine ⟨fun hqueued => ?_, fun harmed => ?_⟩
  · rw [performReset_ch] at hqueued
    cases hqueued
  · exact absurd ((reset_slots_armed (dmaCont c)).symm.trans harmed) Bool.false_ne_true

/-- Settles O51: each of the four kinds of step keeps the queue well formed. -/
theorem stepKeepsQueue : Obligations.StepKeepsQueue := by
  intro s t hs hstep
  have htaken (rest : List Op) : QueueWf (s.taken rest) := (passive_taken s rest).queueWf hs
  obtain ⟨-, hcases⟩ := step_cases hstep
  cases hcases with
  | chcr c v rest _ h => exact execWChcr_queueWf h (htaken rest)
  | written p d n a v rest _ h => exact h.queueWf (htaken rest)
  | reset rest _ h => exact h ▸ queueWf_performReset _
  | acts h => exact h.queueWf hs

end Sys2Proof.Machine
end

section
/-! PROOFS. Writes of `CHCR` and continuations: what a channel does when it is told to stop, or to run (rules R101 to
R105, R118, R120, R221). -/

namespace Sys2Proof.Machine

/-! ## Modes (rule R23) -/

theorem effMode_eq_interleave_iff (m : BitVec 2) : effMode m = .interleave ↔ m = 2#2 := by
  revert m
  decide

theorem effMode_eq_normal_iff (m : BitVec 2) : effMode m = .normal ↔ m = 0#2 := by
  revert m
  decide

/-! ## Force-stop (rules R28, R118) -/

/-- Settles O19: the two arms of a write to a busy channel. -/
theorem forceStopTouchesItsChannel : Obligations.ForceStop := by
  intro c v s hbusy
  change execWChcr c v s = _
  rw [execWChcr, if_pos hbusy]
  split
  · rfl
  · exact congrArg Host.Outcome.next (haltChannel_eq c s)

/-! ## Starts and continuations -/

/-- A start write to an idle channel runs it, or queues it, from the state that it prepared (rules R102, R221). -/
theorem exec_start_eq {c : Chan} {v : Word} {s : State} (hidle : (s.ch c).str = false)
    (hstart : v.getLsbD s.cfg.layout.chcrSTR = true) :
    exec (.wChcr c v) s = runOrQueue c (startState c v s) := by
  change execWChcr c v s = _
  simp [execWChcr, hidle, hstart, startRequest, startState]

/-- What a start write prepares changes nothing that decides whether the channel can run (rule R101). -/
@[simp] theorem canRun_startState (c d : Chan) (v : Word) (s : State) :
    (startState c v s).canRun d = s.canRun d := rfl

theorem runOrQueue_of_canRun {c : Chan} {s : State} (h : s.canRun c = true) :
    runOrQueue c s = ticked (continueChan c s) := if_pos h

theorem runOrQueue_of_not_canRun {c : Chan} {s : State} (h : s.canRun c = false) :
    runOrQueue c s = .next (enqueue c s).tick := if_neg (h ▸ Bool.false_ne_true)

/-- A start write of a channel that can run takes its first step inside the write (rule R102). -/
theorem exec_start_of_canRun {c : Chan} {v : Word} {s : State} (hidle : (s.ch c).str = false)
    (hstart : v.getLsbD s.cfg.layout.chcrSTR = true) (hrun : s.canRun c = true) :
    exec (.wChcr c v) s = ticked (continueChan c (startState c v s)) :=
  (exec_start_eq hidle hstart).trans (runOrQueue_of_canRun ((canRun_startState ..).trans hrun))

/-- The mode of a channel that a start write prepared is the one written (rule R221). -/
theorem startState_mod (c : Chan) (v : Word) (s : State) :
    ((startState c v s).ch c).mod = v.extractLsb' s.cfg.layout.chcrMOD 2 := by
  rw [startState, State.ch_setCh_self]
  rfl

/-- Settles O20: the continuation queues its channel, and so does the start write, from the state it prepared. -/
theorem cannotRun : Obligations.CannotRun := by
  intro c v w s hrun
  refine ⟨runOrQueue_of_not_canRun hrun, fun hidle hstart => ?_⟩
  have hblocked : (startState c v s).canRun c = false := (canRun_startState ..).trans hrun
  rw [exec_start_eq hidle hstart, runOrQueue_of_not_canRun hblocked, enqueue, startState, State.ch_setCh_self,
    State.setCh_setCh, startChannel]
  simp only [effMode_eq_normal_iff]
  rfl

/-- A step of a channel outside the Interleave mode completes within its frame (rules R104, R126). -/
theorem continueChan_frame {c : Chan} {s : State} (h : effMode (s.ch c).mod ≠ .interleave) :
    ∃ t, ticked (continueChan c s) = .next t ∧ StepFrame c s t := by
  obtain ⟨t, ht, -⟩ := continueChan_next h
  exact ⟨t.tick, by rw [ht]; rfl, (stepFrame_continueChan ht).trans (stepFrame_tick c t)⟩

/-- A step of a channel in Interleave mode is refused by name (rule R120). -/
theorem continueChan_interleave {c : Chan} {s : State} (h : (s.ch c).mod = 2#2) :
    ticked (continueChan c s) = .refused (.interleaveStep c) := by
  have hmode : effMode (s.ch c).mod = .interleave := (effMode_eq_interleave_iff _).2 h
  rw [continueChan, hmode]
  rfl

/-- Settles O21: the write prepares the channel and takes its step, both within the frame of the channel. -/
theorem startRuns : Obligations.StartRuns := by
  intro c v s hidle hstart hrun
  have hexec := exec_start_of_canRun hidle hstart hrun
  refine ⟨hexec, fun hmod => ?_⟩
  have hmode : effMode ((startState c v s).ch c).mod ≠ .interleave := by
    rw [startState_mod]
    exact mt (effMode_eq_interleave_iff _).1 hmod
  obtain ⟨t, ht, hframe⟩ := continueChan_frame hmode
  exact ⟨t, hexec.trans ht, (stepFrame_setCh c _ s).trans hframe⟩

/-- Settles O22: both take the step of an Interleave channel. -/
theorem interleaveRefused : Obligations.InterleaveRefused := by
  intro c v w s hrun
  refine ⟨fun hidle hstart hmod => ?_, fun hmod => ?_⟩
  · exact (exec_start_of_canRun hidle hstart hrun).trans (continueChan_interleave ((startState_mod c v s).trans hmod))
  · exact (exec_continuation_eq w hrun).trans (continueChan_interleave hmod)

/-- Settles O23: the continuation is a step of the channel. -/
theorem continuationRuns : Obligations.ContinuationRuns := by
  intro c w s hrun hmode
  rw [exec_continuation_eq w hrun]
  exact continueChan_frame hmode

end Sys2Proof.Machine
end

section
/-! PROOFS. The tags on both walkers, one load of the channel each (rules R108, R109, R131 to R143). -/

namespace Sys2Proof.Machine

/-! ## What a tag loads -/

/-- A walker function that loads `MADR` and `TADR` loads them, the count, the opcode and the end of the chain, and no
other register (rules R108, R109). -/
theorem loadTag_pointers (c : Chan) (id : TagId) (q : BitVec 16) (irq stop : Bool) (madr tadr : Channel → Word)
    (s : State) :
    loadTag c id q irq (fun ch => ((ch.withMadr s.cfg (madr ch)).withTadr s.cfg (tadr ch), stop)) s =
      let ch := { s.ch c with qwc := q.toNat, curOp := some id }
      s.setCh c { ch with
        madr := s.cfg.align (madr ch), tadr := s.cfg.align (tadr ch), done := stop || (irq && (s.ch c).tie) } :=
  rfl

/-- END, and what acts as END, loads `MADR` and ends the chain (rule R138). -/
theorem loadTag_walkEnd (c : Chan) (id : TagId) (q : BitVec 16) (irq : Bool) (s : State) :
    loadTag c id q irq (walkEnd s.cfg) s = s.setCh c { s.ch c with
      madr := s.cfg.align (postTag s.cfg (s.ch c).tadr), qwc := q.toNat, curOp := some id, done := true } :=
  rfl

/-- What a tag loads, by what its walker function answers (rules R108, R109). -/
theorem loadTag_of_walk {c : Chan} {id : TagId} {q : BitVec 16} {walk : Channel → Channel × Bool} {s : State}
    {x : Channel} {stop : Bool} (irq : Bool) (h : walk { s.ch c with qwc := q.toNat, curOp := some id } = (x, stop)) :
    loadTag c id q irq walk s = s.setCh c { x with done := stop || (irq && x.tie) } := by
  rw [loadTag, h]

/-- Settles O9: the three tags load the two pointers alike; REFE stops. -/
theorem referenceTags : Obligations.ReferenceTags := by
  intro c q irq a s u down loaded
  have hload (op : TagOp) (stop : Bool) :
      (.next (loadTag c (s.cfg.codeOf op) q irq
          (fun ch => ((ch.withMadr s.cfg a).withTadr s.cfg (postTag s.cfg ch.tadr), stop)) s) : Result) =
        .next (loaded op stop) :=
    congrArg _ (loadTag_pointers c (s.cfg.codeOf op) q irq stop (fun _ => a) (fun ch => postTag s.cfg ch.tadr) s)
  exact ⟨hload .refe true, hload .ref false, hload .refs false, hload .refe true, hload .ref false, hload .refs false⟩

/-- Settles O10: the two tags load the two pointers and do not stop. -/
theorem continueTags : Obligations.ContinueTags := by
  intro c q irq a s u down loaded
  have hload (op : TagOp) (next : Channel → Word) :
      (.next (loadTag c (s.cfg.codeOf op) q irq
          (fun ch => ((ch.withMadr s.cfg (postTag s.cfg ch.tadr)).withTadr s.cfg (next ch), false)) s) : Result) =
        .next (loaded op (next { s.ch c with qwc := q.toNat, curOp := some (s.cfg.codeOf op) })) :=
    congrArg _ (loadTag_pointers c (s.cfg.codeOf op) q irq false (fun ch => postTag s.cfg ch.tadr) next s)
  have hcnt := hload .cnt fun ch => postTag s.cfg ch.tadr
  have hnext := hload .next fun _ => a
  exact ⟨hcnt, hcnt, hnext, hnext⟩

/-- Settles O11: all four are END. -/
theorem endTags : Obligations.EndTags := by
  intro c q irq a s u down ended
  have hload (op : TagOp) :
      (.next (loadTag c (s.cfg.codeOf op) q irq (walkEnd s.cfg) s) : Result) = .next (ended op) :=
    congrArg _ (loadTag_walkEnd c (s.cfg.codeOf op) q irq s)
  exact ⟨hload .end_, hload .end_, hload .call, hload .ret⟩

/-! ## CALL and RET on the full walker (rules R136, R137, R140) -/

/-- CALL with the stack full stops at its tag. -/
theorem walkCall_of_full {cfg : Config} {ch : Channel} (q : Nat) (a : Word) (h : cfg.literals.aspMax ≤ ch.asp.toNat) :
    walkCall cfg q a ch = (ch.withMadr cfg (postTag cfg ch.tadr), true) := if_pos h

/-- CALL with room on the stack saves the address after its block in the next free slot, and jumps. -/
theorem walkCall_of_room {cfg : Config} {ch : Channel} (q : Nat) (a : Word) (h : ch.asp.toNat < cfg.literals.aspMax) :
    walkCall cfg q a ch = ({ ch with
      madr := cfg.align (postTag cfg ch.tadr)
      tadr := cfg.align a
      asr0 := if ch.asp = 0#2 then cfg.align (postBlock cfg ch.tadr q) else ch.asr0
      asr1 := if ch.asp = 0#2 then ch.asr1 else cfg.align (postBlock cfg ch.tadr q)
      asp := ch.asp + 1#2 }, false) := by
  rw [walkCall, if_neg (Nat.not_le_of_lt h), Channel.pushAsr]
  split <;> rfl

/-- RET with the stack empty stops at its tag. -/
theorem walkRet_of_empty {cfg : Config} {ch : Channel} (h : ch.asp = 0#2) :
    walkRet cfg ch = (ch.withMadr cfg (postTag cfg ch.tadr), true) := if_pos h

/-- RET takes the address in the last slot filled. -/
theorem walkRet_of_saved {cfg : Config} {ch : Channel} (h : ch.asp ≠ 0#2) :
    walkRet cfg ch = ({ ch with
      madr := cfg.align (postTag cfg ch.tadr)
      tadr := cfg.align (if ch.asp = 1#2 then ch.asr0 else ch.asr1)
      asp := ch.asp - 1#2 }, false) := by
  have hslot : ch.asp - 1#2 = 0#2 ↔ ch.asp = 1#2 := by
    generalize ch.asp = asp
    revert asp
    decide
  refine (if_neg h).trans ?_
  simp only [Channel.popAsr, Channel.withMadr, Channel.withTadr, hslot]

/-- Settles O12: each arm of the two walker functions. -/
theorem callAndRetFull : Obligations.CallAndRetFull := by
  intro c q irq a s ch u down ret loaded
  refine ⟨congrArg Host.Outcome.next ?_, congrArg Host.Outcome.next ?_⟩
  · split
    · next hfull => exact loadTag_of_walk irq (walkCall_of_full _ _ hfull)
    · next hroom =>
      refine (loadTag_of_walk irq (walkCall_of_room _ _ (Nat.lt_of_not_le hroom))).trans (congrArg (s.setCh c) ?_)
      dsimp only
      split <;> rfl
  · split
    · next hempty => exact loadTag_of_walk irq (walkRet_of_empty hempty)
    · next hsaved => exact loadTag_of_walk irq (walkRet_of_saved hsaved)

end Sys2Proof.Machine
end

section
/-! PROOFS. Chain termination, property P1: the walker goes where the chain goes, and stops where it ends (rules R109,
R131 to R147). -/

namespace Sys2Proof.Machine

/-! ## Addresses of a tag -/

theorem align_postTag {cfg : Config} (hv : cfg.literals.valid = true) {t : Word} (ht : cfg.align t = t) :
    cfg.align (postTag cfg t) = postTag cfg t := by
  have h := Config.align_add hv ht 1
  rwa [Nat.mul_one] at h

theorem align_postBlock {cfg : Config} (hv : cfg.literals.valid = true) {t : Word} (ht : cfg.align t = t) (q : Nat) :
    cfg.align (postBlock cfg t q) = postBlock cfg t q :=
  Config.align_add hv (align_postTag hv ht) q

/-! ## The stack (rules R27, R140) -/

/-- The depths that a valid configuration admits, with the stack that each stands for. -/
theorem Channel.stack_cases {ch : Channel} (h : ch.asp.toNat ≤ 2) :
    ch.asp = 0#2 ∧ ch.stack = [] ∨ ch.asp = 1#2 ∧ ch.stack = [ch.asr0] ∨
      ch.asp = 2#2 ∧ ch.stack = [ch.asr1, ch.asr0] := by
  have hdepth : ch.asp = 0#2 ∨ ch.asp = 1#2 ∨ ch.asp = 2#2 := by
    generalize ch.asp = asp at h
    revert asp
    decide
  rcases hdepth with hasp | hasp | hasp <;> simp [Channel.stack, hasp]

theorem Channel.stack_length {ch : Channel} (h : ch.asp.toNat ≤ 2) : ch.stack.length = ch.asp.toNat := by
  rcases Channel.stack_cases h with ⟨hasp, hst⟩ | ⟨hasp, hst⟩ | ⟨hasp, hst⟩ <;> rw [hasp, hst] <;> rfl

theorem aspMax_of_valid {x : Literals} (h : x.valid = true) : x.aspMax ≤ 2 := by
  simp only [Literals.valid, Bool.and_eq_true, decide_eq_true_eq] at h
  tauto

/-! ## One tag (rules R131 to R143) -/

/-- A walker function that answers `r` for channel `ch` goes where `next` says, once the block has been moved whole, and
stops where it says nowhere; `cnt` says whether the tag pointer follows the block (rules R109, R113). -/
structure Walked (cfg : Config) (cnt : Bool) (next : Option (Word × List Word)) (ch : Channel) (r : Channel × Bool) :
    Prop where
  curOp : r.1.curOp = ch.curOp
  tie : r.1.tie = ch.tie
  stops : next = none → r.2 = true
  goes : ∀ t st, next = some (t, st) → r.2 = false ∧ (r.1.advanced cfg cnt r.1.qwc).tadr = t ∧ r.1.stack = st

theorem Walked.stop {cfg : Config} {cnt : Bool} {ch : Channel} {r : Channel × Bool} (hop : r.1.curOp = ch.curOp)
    (htie : r.1.tie = ch.tie) (hstop : r.2 = true) : Walked cfg cnt none ch r :=
  ⟨hop, htie, fun _ => hstop, fun _ _ h => nomatch h⟩

theorem Walked.go {cfg : Config} {cnt : Bool} {t : Word} {st : List Word} {ch : Channel} {r : Channel × Bool}
    (hop : r.1.curOp = ch.curOp) (htie : r.1.tie = ch.tie) (hgo : r.2 = false)
    (htadr : (r.1.advanced cfg cnt r.1.qwc).tadr = t) (hstack : r.1.stack = st) :
    Walked cfg cnt (some (t, st)) ch r := by
  refine ⟨hop, htie, fun h => (nomatch h), fun t' st' h => ?_⟩
  cases h
  exact ⟨hgo, htadr, hstack⟩

/-- CALL on the full walker pushes and jumps while the stack has room (rule R136). -/
theorem walked_walkCall {cfg : Config} (hv : cfg.literals.valid = true) {ch : Channel} (hwf : ChannelWf cfg ch)
    {a : Word} (ha : cfg.align a = a) :
    Walked cfg false (chainNext cfg .full ch.tadr ch.stack ch.qwc a (some .call)) ch (walkCall cfg ch.qwc a ch) := by
  obtain ⟨-, htadr, -, -, hasp, -⟩ := hwf
  have hmax := aspMax_of_valid hv
  rw [chainNext, Channel.stack_length (hasp.trans hmax)]
  split
  · next hroom =>
    rw [walkCall_of_room _ _ hroom]
    refine .go rfl rfl rfl ha ?_
    rw [align_postBlock hv htadr]
    rcases Channel.stack_cases (hasp.trans hmax) with ⟨h, hst⟩ | ⟨h, hst⟩ | ⟨h, hst⟩
    · simp [Channel.stack, h]
    · simp [Channel.stack, h]
    · rw [h] at hroom
      exact absurd hmax (Nat.not_le_of_lt hroom)
  · next hfull =>
    rw [walkCall_of_full _ _ (Nat.le_of_not_lt hfull)]
    exact .stop rfl rfl rfl

/-- RET on the full walker pops, and stops with the stack empty (rule R137). -/
theorem walked_walkRet {cfg : Config} (hv : cfg.literals.valid = true) {ch : Channel} (hwf : ChannelWf cfg ch)
    (a : Word) :
    Walked cfg false (chainNext cfg .full ch.tadr ch.stack ch.qwc a (some .ret)) ch (walkRet cfg ch) := by
  obtain ⟨-, -, hasr0, hasr1, hasp, -⟩ := hwf
  rcases Channel.stack_cases (hasp.trans (aspMax_of_valid hv)) with ⟨h, hst⟩ | ⟨h, hst⟩ | ⟨h, hst⟩ <;> rw [hst]
  · rw [walkRet_of_empty h]
    exact .stop rfl rfl rfl
  · rw [walkRet_of_saved (by rw [h]; decide)]
    exact .go rfl rfl rfl (by rw [h]; exact hasr0) (by simp [Channel.stack, h])
  · rw [walkRet_of_saved (by rw [h]; decide)]
    exact .go rfl rfl rfl (by rw [h]; exact hasr1) (by simp [Channel.stack, h])

/-- Every opcode on either walker loads its channel by a walker function that goes where the chain goes (rules R131 to
R138, R142, R143). -/
theorem runTag_walked {v : Variant} {op : TagOp} {c : Chan} {q : BitVec 16} (irq : Bool) {a : Word} {s : State}
    (hv : s.cfg.literals.valid = true) (hwf : ChannelWf s.cfg (s.ch c)) (ha : s.cfg.align a = a) :
    ∃ walk, runTag v op c q irq a s = .next (loadTag c (s.cfg.codeOf op) q irq walk s) ∧
      let ch := { s.ch c with qwc := q.toNat, curOp := some (s.cfg.codeOf op) }
      Walked s.cfg (decide (op = .cnt)) (chainNext s.cfg v (s.ch c).tadr (s.ch c).stack q.toNat a (some op)) ch
        (walk ch) := by
  have hq : q.toNat ≤ 0x10000 := by have := q.isLt; omega
  have hloaded (id : TagId) : ChannelWf s.cfg { s.ch c with qwc := q.toNat, curOp := some id } := by
    obtain ⟨hmadr, htadr, hasr0, hasr1, hasp, -⟩ := hwf
    exact ⟨hmadr, htadr, hasr0, hasr1, hasp, hq⟩
  have htag : s.cfg.align (postTag s.cfg (s.ch c).tadr) = postTag s.cfg (s.ch c).tadr := align_postTag hv hwf.2.1
  cases v <;> cases op
  case full.call => exact ⟨_, rfl, walked_walkCall hv (hloaded _) ha⟩
  case full.ret => exact ⟨_, rfl, walked_walkRet hv (hloaded _) a⟩
  case full.refe | simple.refe | full.end_ | simple.end_ | simple.call | simple.ret =>
    exact ⟨_, rfl, .stop rfl rfl rfl⟩
  case full.next | simple.next => exact ⟨_, rfl, .go rfl rfl rfl ha rfl⟩
  case full.ref | simple.ref | full.refs | simple.refs => exact ⟨_, rfl, .go rfl rfl rfl htag rfl⟩
  case full.cnt | simple.cnt =>
    have hblock : s.cfg.align (s.cfg.align (postTag s.cfg (s.ch c).tadr) + unitBytes s.cfg q.toNat) =
        postBlock s.cfg (s.ch c).tadr q.toNat := by
      rw [htag]
      exact align_postBlock hv hwf.2.1 _
    exact ⟨_, rfl, .go rfl rfl rfl hblock rfl⟩

/-! ## One application of the walker -/

/-- The tag at address `t`. -/
def tagAt (s : State) (t : Word) : TagWord := tagFields s.cfg (readUnit s.cfg.unit s.mem t)

/-- Where the chain of channel `c` goes after the tag at `t`, with `st` on the stack. -/
def tagNext (s : State) (c : Chan) (t : Word) (st : List Word) : Option (Word × List Word) :=
  chainNext s.cfg s.cfg.walker[c.val] t st (tagAt s t).q.toNat (tagAt s t).a (s.cfg.tagOp (tagAt s t).id)

/-- A chain holds a tag at least. -/
theorem not_chainOf_zero (s : State) (c : Chan) (t : Word) (st : List Word) : ¬ ChainOf s c 0 t st := id

/-- A tag that goes nowhere is the last one. -/
theorem chainOf_succ_of_stop {s : State} {c : Chan} {t : Word} {st : List Word} (h : tagNext s c t st = none)
    (n : Nat) : ChainOf s c (n + 1) t st ↔ translate s t .read = true ∧ n = 0 := by
  unfold tagNext tagAt at h
  simp only [ChainOf, h]

/-- A tag that goes on is the last one if its interrupt ends the chain, and is followed by the rest otherwise. -/
theorem chainOf_succ_of_go {s : State} {c : Chan} {t t' : Word} {st st' : List Word}
    (h : tagNext s c t st = some (t', st')) (n : Nat) :
    ChainOf s c (n + 1) t st ↔
      translate s t .read = true ∧ if (tagAt s t).irq && (s.ch c).tie then n = 0 else ChainOf s c n t' st' := by
  unfold tagNext tagAt at h
  unfold tagAt
  simp only [ChainOf, h]

theorem ChainOf.translates {s : State} {c : Chan} {n : Nat} {t : Word} {st : List Word} (h : ChainOf s c (n + 1) t st) :
    translate s t .read = true := h.1

/-- A chain stands in memory; of its channel it reads the tag interrupt enable only. -/
theorem ChainOf.congr {s : State} {c : Chan} {x : Channel} {y : Word} (htie : x.tie = (s.ch c).tie) {n : Nat} {t : Word}
    {st : List Word} (h : ChainOf s c n t st) : ChainOf { s.setCh c x with stadrS := y } c n t st := by
  have htie' : (State.ch { s.setCh c x with stadrS := y } c).tie = (s.ch c).tie :=
    (congrArg Channel.tie (State.ch_setCh_self s c x)).trans htie
  induction n generalizing t st with
  | zero => exact h
  | succ n ih =>
    have hsame : tagNext { s.setCh c x with stadrS := y } c t st = tagNext s c t st := rfl
    cases hnext : tagNext s c t st with
    | none => exact (chainOf_succ_of_stop (hsame.trans hnext) n).2 ((chainOf_succ_of_stop hnext n).1 h)
    | some next =>
      obtain ⟨htranslate, hrest⟩ := (chainOf_succ_of_go hnext n).1 h
      refine (chainOf_succ_of_go (hsame.trans hnext) n).2 ⟨htranslate, ?_⟩
      rw [htie']
      change if (tagAt s t).irq && (s.ch c).tie then n = 0 else _
      split
      · next hirq => rwa [if_pos hirq] at hrest
      · next hirq =>
        rw [if_neg hirq] at hrest
        exact ih hrest

/-- The fetch of a tag that the table names runs it. -/
theorem fetchTag_of_tagOp {c : Chan} {s : State} {op : TagOp} (htag : translate s (s.ch c).tadr .read = true)
    (hop : s.cfg.tagOp (tagAt s (s.ch c).tadr).id = some op) :
    fetchTag c s = some (runTag s.cfg.walker[c.val] op c (tagAt s (s.ch c).tadr).q (tagAt s (s.ch c).tadr).irq
      (tagAt s (s.ch c).tadr).a s) := by
  unfold tagAt at hop
  simp only [fetchTag, htag, if_true, hop, tagAt]

/-- The fetch of any other tag loads it as undefined. -/
theorem fetchTag_of_no_tagOp {c : Chan} {s : State} (htag : translate s (s.ch c).tadr .read = true)
    (hop : s.cfg.tagOp (tagAt s (s.ch c).tadr).id = none) :
    fetchTag c s = some (.next (undefinedTag c (tagAt s (s.ch c).tadr) s)) := by
  unfold tagAt at hop
  simp only [fetchTag, htag, if_true, hop, tagAt]

/-- The fetch of a tag that translates loads the channel by a walker function that goes where the chain goes. -/
theorem fetchTag_walked {c : Chan} {s : State} (hv : Config.valid s.cfg = true) (hwf : ChannelWf s.cfg (s.ch c))
    (htag : translate s (s.ch c).tadr .read = true) :
    let w := tagAt s (s.ch c).tadr
    ∃ id walk, fetchTag c s = some (.next (loadTag c id w.q w.irq walk s)) ∧
      let ch := { s.ch c with qwc := w.q.toNat, curOp := some id }
      Walked s.cfg (decide (s.cfg.tagOp id = some .cnt)) (tagNext s c (s.ch c).tadr (s.ch c).stack) ch (walk ch) := by
  intro w
  rw [tagNext]
  cases hop : s.cfg.tagOp w.id with
  | some op =>
    have hcode : s.cfg.tagOp (s.cfg.codeOf op) = some op :=
      tagOp_codeOf (List.contains_iff_mem.2 (mem_tagCode_of_tagOp hop))
    obtain ⟨walk, hrun, hwalk⟩ :=
      runTag_walked (v := s.cfg.walker[c.val]) (op := op) (q := w.q) w.irq (encoding_of_valid hv).2.1 hwf
        (Config.align_align s.cfg _)
    refine ⟨_, walk, (fetchTag_of_tagOp htag hop).trans (congrArg some hrun), ?_⟩
    have hcnt : decide (some op = some TagOp.cnt) = decide (op = .cnt) := decide_eq_decide.2 Option.some_inj
    rw [hcode, hcnt]
    exact hwalk
  | none =>
    rw [fetchTag_of_no_tagOp htag hop]
    unfold undefinedTag
    split <;> exact ⟨_, _, rfl, .stop rfl rfl rfl⟩

theorem Channel.advanced_done (cfg : Config) (cnt : Bool) (m : Nat) (ch : Channel) :
    (ch.advanced cfg cnt m).done = ch.done := by cases cnt <;> rfl

theorem Channel.advanced_tie (cfg : Config) (cnt : Bool) (m : Nat) (ch : Channel) :
    (ch.advanced cfg cnt m).tie = ch.tie := by cases cnt <;> rfl

theorem Channel.advanced_stack (cfg : Config) (cnt : Bool) (m : Nat) (ch : Channel) :
    (ch.advanced cfg cnt m).stack = ch.stack := by cases cnt <;> rfl

/-- Where the tag pointer stands after a transfer does not depend on the end of the chain. -/
theorem Channel.advanced_tadr_of_done (cfg : Config) (cnt b : Bool) (m : Nat) (ch : Channel) :
    (Channel.advanced cfg cnt m { ch with done := b }).tadr = (ch.advanced cfg cnt m).tadr := by cases cnt <;> rfl

theorem curTagOp_of_curOp {s : State} {c : Chan} {id : TagId} (h : (s.ch c).curOp = some id) :
    s.curTagOp c = s.cfg.tagOp id := by
  rw [State.curTagOp, h]

/-- The walker keeps its channel well formed (rules R24 to R27). -/
theorem channelWf_advance_fetchTag {c : Chan} {s t : State} (m : Nat) (hwf : ChannelWf s.cfg (s.ch c))
    (hfetch : fetchTag c s = some (.next t)) : ChannelWf s.cfg ((advanceChannel c m t).ch c) := by
  rcases fetchTag_chanMove c s with hnone | ⟨u, hu, hmove⟩
  · rw [hfetch] at hnone
    cases hnone
  · rw [hfetch] at hu
    cases hu
    exact ((ChanMoves.atoms (.head hmove (chanMoves_advanceChannel ..))).channelsStep.channels c).wf hwf

/-- Channel `x` is what the tag at the pointer of channel `c` and its whole block leave in `s`: the chain stops, or
goes on, as the tag says (rules R109, R146). -/
structure ChainStep (c : Chan) (s : State) (x : Channel) : Prop where
  wf : ChannelWf s.cfg x
  tie : x.tie = (s.ch c).tie
  stops : tagNext s c (s.ch c).tadr (s.ch c).stack = none → x.done = true
  goes : ∀ t st, tagNext s c (s.ch c).tadr (s.ch c).stack = some (t, st) →
    x.done = ((tagAt s (s.ch c).tadr).irq && (s.ch c).tie) ∧ x.tadr = t ∧ x.stack = st

/-- One application of the walker to a tag that translates changes its channel, and publishes an address at most. -/
theorem afterTag_eq {c : Chan} {s : State} (hv : Config.valid s.cfg = true) (hwf : ChannelWf s.cfg (s.ch c))
    (htag : translate s (s.ch c).tadr .read = true) :
    ∃ x y, afterTag c s = some { s.setCh c x with stadrS := y } ∧ ChainStep c s x := by
  obtain ⟨id, walk, hfetch, hwalk⟩ := fetchTag_walked hv hwf htag
  dsimp only at hwalk
  generalize hr : walk _ = r at hwalk
  obtain ⟨ch, stop⟩ := r
  obtain ⟨hop, htie, hstops, hgoes⟩ := hwalk
  have hload := loadTag_of_walk (c := c) (id := id) (tagAt s (s.ch c).tadr).irq hr
  generalize hx : { ch with done := stop || ((tagAt s (s.ch c).tadr).irq && ch.tie) } = x at hload
  rw [hload] at hfetch
  have hcur : (s.setCh c x).curTagOp c = s.cfg.tagOp id := by
    refine curTagOp_of_curOp ?_
    rw [State.ch_setCh_self, ← hx]
    exact hop
  have hafter : afterTag c s = some (advanceChannel c x.qwc (s.setCh c x)) := by
    rw [afterTag, hfetch]
    dsimp only
    rw [State.ch_setCh_self]
  have hwfx := channelWf_advance_fetchTag x.qwc hwf hfetch
  rw [advanceChannel_eq, hcur, State.ch_setCh_self, State.setCh_setCh] at hafter hwfx
  refine ⟨_, _, hafter, ?_, ?_, fun hnone => ?_, fun t st hnext => ?_⟩
  · rwa [← State.ch_setCh_self s c (Channel.advanced ..)]
  · rw [Channel.advanced_tie, ← hx]
    exact htie
  · rw [Channel.advanced_done, ← hx]
    exact Bool.or_eq_true_iff.2 (.inl (hstops hnone))
  · obtain ⟨hgo, htadr, hstack⟩ := hgoes t st hnext
    rw [Channel.advanced_done, Channel.advanced_stack, ← hx]
    refine ⟨?_, (Channel.advanced_tadr_of_done ..).trans htadr, hstack⟩
    change (stop || _ && ch.tie) = _
    rw [show stop = false from hgo, htie, Bool.false_or]

/-! ## The chain -/

/-- Settles O14, by induction on the number of tags: one application of the walker leaves the rest of the chain. -/
theorem chainTerminates : Obligations.ChainTerminates := by
  intro c N s hv hwf hchain n hpos hle
  induction N generalizing s n with
  | zero => exact (not_chainOf_zero _ _ _ _ hchain).elim
  | succ N ih =>
    obtain ⟨k, rfl⟩ := Nat.exists_eq_succ_of_ne_zero (Nat.ne_of_gt hpos)
    obtain ⟨x, y, hafter, hwfx, htie, hstops, hgoes⟩ := afterTag_eq hv hwf hchain.translates
    generalize hu : { s.setCh c x with stadrS := y } = u at hafter
    have hx : u.ch c = x := by rw [← hu]; exact State.ch_setCh_self ..
    have hwalk : walkTags c (k + 1) s = walkTags c k u := by rw [walkTags, hafter]; rfl
    have hlast (hN : N = 0) (hdone : x.done = true) :
        ∃ t, walkTags c (k + 1) s = some t ∧ (t.ch c).done = decide (k + 1 = N + 1) := by
      obtain rfl : k = 0 := by omega
      exact ⟨u, hwalk, by rw [hx, hdone, hN]; rfl⟩
    cases hnext : tagNext s c (s.ch c).tadr (s.ch c).stack with
    | none => exact hlast ((chainOf_succ_of_stop hnext N).1 hchain).2 (hstops hnext)
    | some next =>
      obtain ⟨t', st'⟩ := next
      obtain ⟨-, hrest⟩ := (chainOf_succ_of_go hnext N).1 hchain
      obtain ⟨hdone, htadr, hstack⟩ := hgoes t' st' hnext
      by_cases hirq : ((tagAt s (s.ch c).tadr).irq && (s.ch c).tie) = true
      · rw [if_pos hirq] at hrest
        exact hlast hrest (hdone.trans hirq)
      · rw [if_neg hirq] at hrest
        rw [Bool.not_eq_true] at hirq
        cases k with
        | zero =>
          refine ⟨u, hwalk, ?_⟩
          have hN : N ≠ 0 := fun h => not_chainOf_zero _ _ _ _ (h ▸ hrest)
          rw [hx, hdone, hirq, decide_eq_false (by omega)]
        | succ k =>
          have hcfg : u.cfg = s.cfg := by rw [← hu]; rfl
          have hchain' : ChainOf u c N (u.ch c).tadr (u.ch c).stack := by
            rw [hx, htadr, hstack, ← hu]
            exact hrest.congr htie
          obtain ⟨t, ht, hdone⟩ := ih u (by rwa [hcfg]) (by rwa [hcfg, hx]) hchain' (k + 1) (by omega) (by omega)
          exact ⟨t, hwalk.trans ht, by simpa using hdone⟩

end Sys2Proof.Machine
end

section
/-! PROOFS. What a transfer moves, and how the steps that move nothing end: completion and stall (rules R104, R107,
R110 to R117, R204, R265, R266). -/

namespace Sys2Proof.Machine

/-! ## Transfers (rules R110, R111, R113, R115) -/

/-- A transfer moves units of a number that was wanted, and then the registers follow. -/
theorem transfer_eq_some {c : Chan} {n m : Nat} {s t : State} (h : transfer c n s = some (m, t)) :
    ∃ k ≤ n, m = (moveUnits c k s).1 ∧ t = advanceChannel c m (moveUnits c k s).2 := by
  rcases transfer_cases c n s with ⟨-, hn⟩ | ⟨-, k, hk, hn⟩ <;> rw [hn] at h <;> cases h
  exact ⟨k, hk ▸ leadingUnits_le .., rfl, rfl⟩

/-- The registers that a transfer leaves, one by one. -/
theorem Channel.advanced_eq (cfg : Config) (cnt : Bool) (m : Nat) (ch : Channel) :
    ch.advanced cfg cnt m = { ch with
      madr := cfg.align (ch.madr + unitBytes cfg m)
      qwc := ch.qwc - m
      tadr := if cnt then cfg.align (ch.tadr + unitBytes cfg m) else ch.tadr } := by
  cases cnt <;> rfl

/-- The channel that a transfer leaves: `TADR` follows the block under CNT only (rule R113). -/
theorem advanceChannel_ch (c : Chan) (m : Nat) (s : State) :
    (advanceChannel c m s).ch c = { s.ch c with
      madr := s.cfg.align ((s.ch c).madr + unitBytes s.cfg m)
      qwc := (s.ch c).qwc - m
      tadr :=
        if s.curTagOp c = some .cnt then s.cfg.align ((s.ch c).tadr + unitBytes s.cfg m) else (s.ch c).tadr } := by
  have h := Channel.advanced_eq s.cfg (decide (s.curTagOp c = some .cnt)) m (s.ch c)
  simp only [decide_eq_true_eq] at h
  rw [advanceChannel_eq]
  exact (State.ch_setCh_self ..).trans h

/-- A stall source publishes the address it has reached, any other channel nothing (rule R115). -/
theorem advanceChannel_stadrS (c : Chan) (m : Nat) (s : State) :
    (advanceChannel c m s).stadrS = if (s.ch c).stm = 1#2 then ((advanceChannel c m s).ch c).madr else s.stadrS := by
  rw [advanceChannel_ch, advanceChannel_eq]

@[simp] theorem moveUnits_ch (c d : Chan) (n : Nat) (s : State) : (moveUnits c n s).2.ch d = s.ch d := by
  obtain ⟨x, g, b, o, m, h⟩ := moveUnits_frame c n s
  rw [h]
  rfl

@[simp] theorem moveUnits_cfg (c : Chan) (n : Nat) (s : State) : (moveUnits c n s).2.cfg = s.cfg := by
  obtain ⟨x, g, b, o, m, h⟩ := moveUnits_frame c n s
  rw [h]

@[simp] theorem moveUnits_stadrS (c : Chan) (n : Nat) (s : State) : (moveUnits c n s).2.stadrS = s.stadrS := by
  obtain ⟨x, g, b, o, m, h⟩ := moveUnits_frame c n s
  rw [h]

@[simp] theorem moveUnits_curTagOp (c d : Chan) (n : Nat) (s : State) :
    (moveUnits c n s).2.curTagOp d = s.curTagOp d := by
  simp only [State.curTagOp, moveUnits_ch, moveUnits_cfg]

/-- Settles O29: moving the units touches no register, and then the registers follow. -/
theorem transferAdvances : Obligations.TransferAdvances := by
  intro c n m s t h down
  obtain ⟨k, hk, hm, rfl⟩ := transfer_eq_some h
  refine ⟨hm ▸ (moveUnits_le c k s).trans hk, ?_, ?_⟩
  · rw [advanceChannel_ch, moveUnits_ch, moveUnits_cfg, moveUnits_curTagOp]
    rfl
  · rw [advanceChannel_stadrS, moveUnits_ch, moveUnits_stadrS]

/-! ## The bridge step of IO (rule R204) -/

/-- The endpoint is told of a step that moved units, and of no other. -/
theorem notifyEndpoint_schedIo (c : Chan) (m : Nat) (s : State) :
    (notifyEndpoint c m s).schedIo = if m = 0 then s.schedIo else
      s.schedIo.arm bridgeStep (toIODelta s.cfg (stepDelta s.cfg c m)) (BitVec.ofNat 32 c.val) := by
  unfold notifyEndpoint
  split <;> rfl

/-- Behind the bridge FIFO every step tells the endpoint what it moved, in either direction. -/
theorem moveUnits_schedIo {c : Chan} {s : State} (hfifo : fifoOf s.cfg c = some .bridge) (n : Nat) :
    (moveUnits c n s).2.schedIo = if (moveUnits c n s).1 = 0 then s.schedIo else
      s.schedIo.arm bridgeStep (toIODelta s.cfg (stepDelta s.cfg c (moveUnits c n s).1)) (BitVec.ofNat 32 c.val) := by
  have notified (m : Nat) {u : State} (hu : ∃ x, u = s.setFifo .bridge x) :
      (notifyEndpoint c m u).schedIo = if m = 0 then s.schedIo else
        s.schedIo.arm bridgeStep (toIODelta s.cfg (stepDelta s.cfg c m)) (BitVec.ofNat 32 c.val) := by
    obtain ⟨x, rfl⟩ := hu
    exact notifyEndpoint_schedIo ..
  unfold moveUnits
  dsimp only
  split
  · simp only [sink, hfifo]
    exact notified _ (arbWriteDma_eq ..)
  · simp only [source, hfifo]
    exact notified _ (fifoRead_eq ..)

/-- Settles O46: the registers that follow the transfer are none of the IO scheduler. -/
theorem bridgeNotifiesEndpoint : Obligations.BridgeNotifiesEndpoint := by
  intro c n m s t hfifo h
  obtain ⟨k, -, rfl, rfl⟩ := transfer_eq_some h
  rw [advanceChannel_eq]
  exact moveUnits_schedIo hfifo k

/-! ## The stall check (rules R114, R266) -/

/-- Settles O30: the drain address published is `MADR` itself, which is aligned. -/
theorem stallCheck : Obligations.StallCheck := by
  intro c wanted s _ hlow ch avail
  rw [stallLimit]
  dsimp only
  rw [Config.align_of_low hlow]

/-- Below the source address no whole unit fits in less than one (rule R114). -/
theorem avail_eq_zero {a b u : Nat} (h : b < a + u) : (if a < b then (b - a) / u else 0) = 0 := by
  split
  · exact Nat.div_eq_of_lt (by omega)
  · rfl

/-- A Chain step in the middle of a block goes on with the block (rule R107). -/
theorem continueChan_of_block {c : Chan} {s : State} (hmode : effMode (s.ch c).mod = .chain) (hqwc : 0 < (s.ch c).qwc) :
    continueChan c s = .next (blockStep c s) := by
  simp [continueChan, stepChain, hmode, hqwc.ne']

/-- A step whose block the stall check holds back re-tests (rules R107, R116). -/
theorem blockStep_of_stalled {c : Chan} {s u : State} (hqwc : 0 < (s.ch c).qwc)
    (h : stallLimit c (s.ch c).qwc s = (0, u)) :
    blockStep c s = arm .main (dmaCont c) (retestDelta u.cfg) (BitVec.ofNat 32 c.val) u := by
  simp [blockStep, hqwc.ne', hqwc, h, rearm]

/-- Settles O31: nothing is allowed, so the stall is raised and the step re-tests. -/
theorem stalledDrain : Obligations.StalledDrain := by
  intro c w s hrun hmode hqwc hstm hop hlow hbelow
  have hstall : stallLimit c (s.ch c).qwc s = (0, raiseStall { s with stadrD := (s.ch c).madr }) := by
    rw [stallCheck c _ s hqwc hlow, if_pos ⟨hstm, hmode, hop⟩, avail_eq_zero hbelow, Nat.min_zero]
    rfl
  have hstep := (continueChan_of_block hmode hqwc).trans (congrArg _ (blockStep_of_stalled hqwc hstall))
  obtain ⟨hexec, hframe⟩ := exec_continuation w hrun hstep
  rw [raiseStall_eq] at hexec hframe
  refine ⟨_, hexec, rfl, rfl, rfl, rfl, ?_, rfl, rfl, rfl, rfl, hframe⟩
  refine (Sched.arm_slot_self ..).trans ?_
  rw [show Sched.cycle _ = s.schedMain.cycle from testedSched_cycle ..]

/-! ## Completion (rules R117, R265, R268) -/

theorem testedSched_eq (s : State) (p : Domain) (w : Word) :
    testedSched s p w =
      if w ≠ 0#32 ∧ s.exc p = false then (s.sched p).arm intTest (intDelta s.cfg p) 0#32 else s.sched p := by
  simp [testedSched]

/-- A step with nothing left completes (rule R104). -/
theorem continueChan_complete {c : Chan} {s : State} (hqwc : (s.ch c).qwc = 0)
    (h : effMode (s.ch c).mod = .normal ∨ effMode (s.ch c).mod = .chain ∧ (s.ch c).done = true) :
    continueChan c s = .next (complete c s) := by
  rcases h with hmode | ⟨hmode, hdone⟩
  · simp [continueChan, hmode, hqwc]
  · simp [continueChan, hmode, hqwc, hdone]

/-- The scheduler of MAIN is tested with the completion bit latched. -/
theorem complete_schedMain (c : Chan) (s : State) :
    (complete c s).schedMain = if (complete c s).pending .main ≠ 0#32 ∧ s.excMain = false then
      s.schedMain.arm intTest s.cfg.intDelta 0#32 else s.schedMain := by
  rw [complete, raiseChannel_eq]
  exact testedSched_eq ..

/-- The scheduler of IO is tested for a channel that IO sees, with its status bit latched. -/
theorem complete_schedIo (c : Chan) (s : State) :
    (complete c s).schedIo =
      if s.cfg.ioVisible[c.val] = true ∧ (complete c s).pending .io ≠ 0#32 ∧ s.excIo = false then
        s.schedIo.arm intTest (toIODelta s.cfg s.cfg.intDelta) 0#32 else s.schedIo := by
  rw [complete, raiseChannel_eq]
  cases hvisible : s.cfg.ioVisible[c.val] with
  | true =>
    simp only [State.setCh_cfg, hvisible, if_true, true_and]
    exact testedSched_eq ..
  | false => simp [hvisible]

/-- Settles O25: the completion latches its bits, and each domain is tested with them. -/
theorem completion : Obligations.Completion := by
  intro c w s hc hrun hqwc hmode
  obtain ⟨hexec, -⟩ := exec_continuation w hrun (continueChan_complete hqwc hmode)
  have hcis : setCis s.cfg s.stat c = s.stat ||| (1#32 <<< (s.cfg.layout.statCIS + c.val)) := if_pos hc
  have hio : setIoIstat s.cfg s.ioIstat c = s.ioIstat ||| (1#32 <<< (s.cfg.layout.ioCH + c.val)) := if_pos hc
  rw [← hcis, ← hio]
  refine ⟨_, hexec, complete_ch c s, ?_, ?_, complete_schedMain c s, complete_schedIo c s, ?_, ?_, ?_, ?_, ?_, ?_⟩ <;>
    rw [State.tick, complete, raiseChannel_eq] <;> rfl

end Sys2Proof.Machine
end

section
/-! PROOFS. The bytes of main memory that a step of a channel stores (rules R110, R111). -/

namespace Sys2Proof.Machine

/-! ## What a step stores -/

/-- From `u`, where the block of channel `c` begins, to `t` memory is as before, or it takes the units that the channel
moved from its unit, from its `MADR` on. -/
def StoresMoved (c : Chan) (u t : State) : Prop :=
  t.mem = u.mem ∨ (u.ch c).dir = false ∧
    ∃ d : List Qword, d.length = (u.ch c).qwc - (t.ch c).qwc ∧
      t.mem = writeUnits u.cfg.unit u.mem (u.ch c).madr d

/-- So every byte outside the units that moved is as before. -/
theorem StoresMoved.memGet {c : Chan} {u t : State} (h : StoresMoved c u t) {b : Nat}
    (hb : (u.ch c).dir = true ∨ ¬ InUnits u.cfg.unit (u.ch c).madr ((u.ch c).qwc - (t.ch c).qwc) b) :
    memGet t.mem b = memGet u.mem b := by
  rcases h with hmem | ⟨hdir, d, hlength, hmem⟩
  · rw [hmem]
  · have hout := hb.resolve_left (hdir ▸ Bool.false_ne_true)
    rw [hmem]
    exact memGet_writeUnits_out _ _ _ d b (ne_of_not_inUnits (hlength ▸ hout))

/-- To memory the units that the source supplied are stored from `MADR` on; from memory nothing is. -/
theorem moveUnits_mem (c : Chan) (n : Nat) (s : State) :
    (moveUnits c n s).2.mem = s.mem ∨ (s.ch c).dir = false ∧
      ∃ d : List Qword, d.length = (moveUnits c n s).1 ∧
        (moveUnits c n s).2.mem = writeUnits s.cfg.unit s.mem (s.ch c).madr d := by
  unfold moveUnits
  dsimp only
  split
  · obtain ⟨x, g, b, o, h⟩ := sink_frame c (readUnits s.cfg.unit s.mem (s.ch c).madr n) s
    exact .inl (by rw [h])
  · next hdir =>
    obtain ⟨x, g, b, h⟩ := source_frame c n s
    refine .inr ⟨Bool.eq_false_iff.2 hdir, (source c n s).1, rfl, ?_⟩
    dsimp only
    rw [h]

theorem busError_mem (c : Chan) (s : State) : (busError c s).mem = s.mem := by
  rw [busError, raiseChannel_eq, haltChannel_eq]

theorem complete_mem (c : Chan) (s : State) : (complete c s).mem = s.mem := by
  rw [complete, raiseChannel_eq]
  rfl

theorem transferred_mem (c : Chan) (wanted n m : Nat) (s : State) :
    (transferred c wanted n m s).mem = (moveUnits c n s).2.mem := by
  rw [transferred, advanceChannel_eq]
  rfl

theorem storesMoved_transferStep {c : Chan} {n : Nat} {s : State} (wanted : Nat) (hn : n ≤ (s.ch c).qwc) :
    StoresMoved c s (transferStep c wanted n s) := by
  rcases transferStep_cases c wanted n s with ⟨-, h⟩ | ⟨m, t, ht, h⟩ <;> rw [h]
  · exact .inl (busError_mem c s)
  · obtain ⟨k, hk, rfl, rfl⟩ := transfer_eq_some ht
    change StoresMoved c s (transferred c wanted k (moveUnits c k s).1 s)
    obtain ⟨cnt, hch⟩ := transferred_ch c wanted k (moveUnits c k s).1 s
    have hle : (moveUnits c k s).1 ≤ (s.ch c).qwc := ((moveUnits_le c k s).trans hk).trans hn
    rw [StoresMoved, transferred_mem, hch, Channel.advanced_qwc, Nat.sub_sub_self hle]
    exact moveUnits_mem c k s

/-! ## The stall check before a block (rule R114) -/

theorem stallLimit_le (c : Chan) (wanted : Nat) (s : State) : (stallLimit c wanted s).1 ≤ wanted := by
  unfold stallLimit
  dsimp only
  split
  · exact Nat.min_le_left ..
  · exact le_rfl

/-- The stall check publishes the drain address and may latch the stall; nothing else changes. -/
theorem stallLimit_frame (c : Chan) (wanted : Nat) (s : State) :
    ∃ stat x y, (stallLimit c wanted s).2 = { s with stat := stat, schedMain := x, stadrD := y } := by
  unfold stallLimit
  dsimp only
  split
  · dsimp only
    generalize min wanted _ = allowed
    split
    · rw [raiseStall_eq]
      exact ⟨_, _, _, rfl⟩
    · exact ⟨_, _, _, rfl⟩
  · exact ⟨s.stat, s.schedMain, s.stadrD, rfl⟩

theorem storesMoved_blockStep (c : Chan) (s : State) : StoresMoved c s (blockStep c s) := by
  obtain ⟨stat, x, y, hlimit⟩ := stallLimit_frame c (s.ch c).qwc s
  rcases blockStep_cases c s with ⟨-, h⟩ | ⟨-, -, h⟩ | ⟨-, -, h⟩ <;> rw [h]
  · exact .inl rfl
  · rw [hlimit]
    exact .inl rfl
  · rw [hlimit]
    have hle := stallLimit_le c (s.ch c).qwc s
    exact storesMoved_transferStep (s := { s with stat := stat, schedMain := x, stadrD := y }) _ hle

/-! ## The whole step (rules R104, R107) -/

/-- A step that fetches no tag begins its block where it stands. -/
theorem blockStart_of_no_fetch {c : Chan} {s : State}
    (h : ¬ (effMode (s.ch c).mod = .chain ∧ (s.ch c).qwc = 0 ∧ (s.ch c).done = false)) : blockStart c s = s :=
  if_neg fun hfetch => h hfetch.2

/-- A step that fetches a tag begins its block after the fetch. -/
theorem blockStart_of_fetch {c : Chan} {s u : State} (hrun : s.canRun c = true) (hmode : effMode (s.ch c).mod = .chain)
    (hqwc : (s.ch c).qwc = 0) (hdone : (s.ch c).done = false) (hfetch : fetchTag c s = some (.next u)) :
    blockStart c s = u := by
  rw [blockStart, if_pos ⟨hrun, hmode, hqwc, hdone⟩, hfetch]

/-- The tag fetch leaves the direction of its channel and memory alone (rules R22, R108). -/
theorem blockStart_dir_mem (c : Chan) (s : State) :
    ((blockStart c s).ch c).dir = (s.ch c).dir ∧ (blockStart c s).mem = s.mem ∧ (blockStart c s).cfg = s.cfg := by
  obtain ⟨x, hx⟩ := blockStart_eq c s
  refine ⟨?_, by rw [hx]; rfl, by rw [hx]; rfl⟩
  unfold blockStart
  split
  · rcases fetchTag_chanMove c s with hf | ⟨u, hf, hu⟩ <;> rw [hf]
    have hsteps := (ChanMoves.atoms (.single hu)).channelsStep.channels c
    exact congrArg (fun x => x.1) hsteps.settings
  · rfl

/-- A step of a channel that can run completes, meets a bus error, or transfers from where its block begins. -/
theorem continueChan_blockStart {c : Chan} {s t : State} (hrun : s.canRun c = true) (h : continueChan c s = .next t) :
    t = complete c s ∨ t = busError c s ∨
      t = transferStep c ((blockStart c s).ch c).qwc ((blockStart c s).ch c).qwc (blockStart c s) ∨
      t = blockStep c (blockStart c s) := by
  unfold continueChan at h
  split at h
  · next hmode =>
    have hstart : blockStart c s = s := blockStart_of_no_fetch fun hchain => by rw [hmode] at hchain; cases hchain.1
    rw [hstart]
    cases h
    split
    · exact .inl rfl
    · exact .inr (.inr (.inl rfl))
  · next hmode =>
    split at h
    · cases h
      exact .inl rfl
    · next hleft =>
      unfold stepChain at h
      split at h
      · next hqwc =>
        have hdone : (s.ch c).done = false := Bool.eq_false_iff.2 fun hdone => hleft ⟨hqwc, hdone⟩
        rcases fetchTag_chanMove c s with hf | ⟨u, hf, -⟩ <;> rw [hf] at h <;> cases h
        · exact .inr (.inl rfl)
        · rw [blockStart_of_fetch hrun hmode hqwc hdone hf]
          exact .inr (.inr (.inr rfl))
      · next hqwc =>
        cases h
        rw [blockStart_of_no_fetch fun hchain => hqwc hchain.2.1]
        exact .inr (.inr (.inr rfl))
  · cases h

theorem storesMoved_continueChan {c : Chan} {s t : State} (hrun : s.canRun c = true)
    (h : continueChan c s = .next t) : StoresMoved c (blockStart c s) t := by
  obtain ⟨-, hmem, -⟩ := blockStart_dir_mem c s
  rcases continueChan_blockStart hrun h with rfl | rfl | rfl | rfl
  · exact .inl ((complete_mem c s).trans hmem.symm)
  · exact .inl ((busError_mem c s).trans hmem.symm)
  · exact storesMoved_transferStep _ le_rfl
  · exact storesMoved_blockStep c _

/-- A channel that is told to run stores only what it moves from its unit; one that joins the queue stores nothing. -/
theorem memGet_runOrQueue {c : Chan} {s t : State} (h : runOrQueue c s = .next t) {b : Nat}
    (hb : (s.ch c).dir = true ∨ ¬ InUnits s.cfg.unit ((blockStart c s).ch c).madr
      (((blockStart c s).ch c).qwc - (t.ch c).qwc) b) : memGet t.mem b = memGet s.mem b := by
  rcases runOrQueue_cases c s with ⟨hrun, he⟩ | ⟨-, he⟩ <;> rw [he] at h
  · obtain ⟨u, hu, rfl⟩ := ticked_eq_next h
    obtain ⟨hdir, hmem, hcfg⟩ := blockStart_dir_mem c s
    rw [← hdir, ← hcfg] at hb
    exact ((storesMoved_continueChan hrun hu).memGet hb).trans (by rw [hmem])
  · cases h
    rfl

/-- Settles O24: the continuation and the start write both run their channel, or queue it. -/
theorem stepMemoryFrame : Obligations.StepMemoryFrame := by
  intro c w v s t b
  constructor
  · intro h u hb
    exact memGet_runOrQueue h hb
  · intro hidle hstart h u hb
    rw [exec_start_eq hidle hstart] at h
    have hdir : ((startState c v s).ch c).dir = v.getLsbD s.cfg.layout.chcrDIR := by
      rw [startState, State.ch_setCh_self]
      rfl
    rw [← hdir] at hb
    exact memGet_runOrQueue h hb

end Sys2Proof.Machine
end

section
/-! PROOFS. The global enable turned on: the queued channels step inside the write, one by one (rules R122, R231,
R233). -/

namespace Sys2Proof.Machine

/-! ## The write -/

/-- A write of `CTRL` that turns the enable on stores its bit and restarts the queue (rule R231). -/
theorem exec_wCtrl_on {v : Word} {s : State} (hoff : s.globalEnable = false) (hcpnd : s.cpnd = false)
    (hv : v.getLsbD s.cfg.layout.ctrlDMAE = true) :
    exec (.wCtrl v) s = restartQueued { s with dmae := true } := by
  change afterEnableWrite s.globalEnable { s with dmae := v.getLsbD s.cfg.layout.ctrlDMAE } = _
  rw [hv, hoff]
  simp [afterEnableWrite, State.globalEnable, hcpnd]

/-- A write of `ENABLEW` that turns the enable on does the same (rule R233). -/
theorem exec_wEnablew_on {v : Word} {s : State} (hoff : s.globalEnable = false) (hdmae : s.dmae = true)
    (hv : v.getLsbD s.cfg.layout.enableCPND = false) :
    exec (.wEnablew v) s = restartQueued { s with cpnd := false } := by
  change afterEnableWrite s.globalEnable { s with cpnd := v.getLsbD s.cfg.layout.enableCPND } = _
  rw [hv, hoff]
  simp [afterEnableWrite, State.globalEnable, hdmae]

/-! ## What a restart leaves -/

/-- What the restart of the queue leaves: the enable stays, nothing joins the queue, and a channel that was not queued
is as before. -/
structure Restarted (s t : State) : Prop where
  dmae : t.dmae = s.dmae
  cpnd : t.cpnd = s.cpnd
  queued : ∀ c, (t.ch c).queued = true → (s.ch c).queued = true
  others : ∀ c, (s.ch c).queued = false → t.ch c = s.ch c

theorem Restarted.refl (s : State) : Restarted s s := ⟨rfl, rfl, fun _ => id, fun _ _ => rfl⟩

theorem Restarted.trans {s t u : State} (h : Restarted s t) (h' : Restarted t u) : Restarted s u where
  dmae := h'.dmae.trans h.dmae
  cpnd := h'.cpnd.trans h.cpnd
  queued c := h.queued c ∘ h'.queued c
  others c hc := by
    have hsame := h.others c hc
    exact (h'.others c (by rw [hsame]; exact hc)).trans hsame

theorem restarted_tick (s : State) : Restarted s s.tick := ⟨rfl, rfl, fun _ => id, fun _ _ => rfl⟩

/-- The step of a queued channel stays within its frame. -/
theorem stepFrame_resume {c : Chan} {s t : State} (h : resume c s = .next t) : StepFrame c s t := by
  obtain ⟨u, hu, rfl⟩ := resume_next_cases h
  exact ((stepFrame_setCh c _ s).trans (stepFrame_continueChan hu)).trans (stepFrame_tick c u)

theorem restarted_resume {c : Chan} {s t : State} (hqueued : (s.ch c).queued = true) (h : resume c s = .next t)
    (hw : NoNewWaiting s t) : Restarted s t := by
  have hframe := stepFrame_resume h
  refine ⟨by rw [hframe.fields], by rw [hframe.fields], hw.queued, fun d hd => hframe.channels d fun hdc => ?_⟩
  rw [hdc, hqueued] at hd
  cases hd

/-- With no Interleave channel queued the restart completes. -/
theorem restartFrom_restarted (l : List Chan) {s : State} (hs : NoInterleaveQueued s) :
    ∃ t, restartFrom l s = .next t ∧ Restarted s t := by
  induction l generalizing s with
  | nil => exact ⟨s, rfl, .refl s⟩
  | cons c l ih =>
    rcases restartFrom_cons c l s with ⟨-, h⟩ | ⟨-, -, h⟩ | ⟨hq, -, h⟩ <;> rw [h]
    · exact ih hs
    · obtain ⟨t, ht, hr⟩ := ih ((noNewWaiting_tick s).noInterleaveQueued hs)
      exact ⟨t, ht, (restarted_tick s).trans hr⟩
    · obtain ⟨u, hu, hw⟩ := resume_next (hs c hq)
      obtain ⟨t, ht, hr⟩ := ih (hw.noInterleaveQueued hs)
      rw [hu]
      exact ⟨t, ht, (restarted_resume hq hu hw).trans hr⟩

/-- Settles O33: both writes restart the queue. -/
theorem enableWriteRestarts : Obligations.EnableWriteRestarts := by
  intro v s hoff hs
  refine ⟨fun hcpnd hv => ?_, fun hdmae hv => ?_⟩
  · rw [exec_wCtrl_on hoff hcpnd hv]
    obtain ⟨t, ht, hr⟩ := restartFrom_restarted (s := { s with dmae := true }) _ hs
    exact ⟨t, ht, hr.dmae, hr.cpnd.trans hcpnd, fun c => ⟨hr.queued c, hr.others c⟩⟩
  · rw [exec_wEnablew_on hoff hdmae hv]
    obtain ⟨t, ht, hr⟩ := restartFrom_restarted (s := { s with cpnd := false }) _ hs
    exact ⟨t, ht, hr.dmae.trans hdmae, hr.cpnd, fun c => ⟨hr.queued c, hr.others c⟩⟩

/-! ## The visits of a restart, in order -/

/-- The restart visits channel `c`: a queued channel steps, or stays in the queue if it is masked (rule R122). -/
def visitQueued (c : Chan) (s : State) : Result :=
  if (s.ch c).queued = false then .next s
  else if s.chanMasked c then .next s.tick
  else ticked (continueChan c (s.setCh c { s.ch c with queued := false }))

theorem visitQueued_of_not_queued {c : Chan} {s : State} (h : (s.ch c).queued = false) : visitQueued c s = .next s :=
  if_pos h

theorem visitQueued_of_masked {c : Chan} {s : State} (h : (s.ch c).queued = true) (hm : s.chanMasked c = true) :
    visitQueued c s = .next s.tick :=
  (if_neg (h ▸ Bool.true_eq_false_eq_False)).trans (if_pos hm)

theorem visitQueued_of_unmasked {c : Chan} {s : State} (h : (s.ch c).queued = true) (hm : s.chanMasked c = false) :
    visitQueued c s = resume c s := by
  simp [visitQueued, resume, h, hm]

/-- The restart is the visit of its first channel and the restart of the others. -/
theorem restartFrom_eq_visit (c : Chan) (l : List Chan) (s : State) :
    restartFrom (c :: l) s = andThen (visitQueued c s) (restartFrom l) := by
  rcases restartFrom_cons c l s with ⟨hq, h⟩ | ⟨hq, hm, h⟩ | ⟨hq, hm, h⟩ <;> rw [h]
  · rw [visitQueued_of_not_queued hq, andThen_next]
  · rw [visitQueued_of_masked hq hm, andThen_next]
  · rw [visitQueued_of_unmasked hq hm]

theorem andThen_assoc (r : Result) (f g : State → Result) :
    andThen (andThen r f) g = andThen r fun s => andThen (f s) g := by
  cases r <;> rfl

/-- The restart is its visits, one after another. -/
theorem foldl_visitQueued (l : List Chan) (r : Result) :
    l.foldl (fun r c => andThen r (visitQueued c)) r = andThen r (restartFrom l) := by
  induction l generalizing r with
  | nil => cases r <;> rfl
  | cons c l ih =>
    rw [List.foldl_cons, ih, andThen_assoc]
    exact congrArg (andThen r) (funext fun s => (restartFrom_eq_visit c l s).symm)

/-- Channels that are not queued are passed over. -/
theorem restartFrom_of_none_queued {l : List Chan} {s : State} (h : ∀ d ∈ l, (s.ch d).queued = false) :
    restartFrom l s = .next s := by
  induction l with
  | nil => rfl
  | cons c l ih =>
    rw [restartFrom_eq_visit, visitQueued_of_not_queued (h c List.mem_cons_self), andThen_next]
    exact ih fun d hd => h d (List.mem_cons_of_mem c hd)

/-- After the visit of the one queued channel none of the others is queued. -/
theorem visitQueued_others {c d : Chan} {s t : State} (hd : d ≠ c) (h : visitQueued c s = .next t) :
    t.ch d = s.ch d := by
  cases hq : (s.ch c).queued with
  | false =>
    rw [visitQueued_of_not_queued hq] at h
    cases h
    rfl
  | true =>
    cases hm : s.chanMasked c with
    | true =>
      rw [visitQueued_of_masked hq hm] at h
      cases h
      rfl
    | false =>
      rw [visitQueued_of_unmasked hq hm] at h
      exact (stepFrame_resume h).channels d hd

/-- With one channel queued the restart is the visit of that channel. -/
theorem restartFrom_of_one_queued {c : Chan} {l : List Chan} (hnodup : l.Nodup) (hc : c ∈ l) {s : State}
    (h : ∀ d, d ≠ c → (s.ch d).queued = false) : restartFrom l s = visitQueued c s := by
  induction l with
  | nil => cases hc
  | cons e l ih =>
    obtain ⟨hel, hl⟩ := List.nodup_cons.1 hnodup
    rw [restartFrom_eq_visit]
    by_cases hec : e = c
    · subst hec
      cases hvisit : visitQueued e s with
      | next t =>
        refine restartFrom_of_none_queued fun d hd => ?_
        have hne : d ≠ e := fun h => hel (h ▸ hd)
        rw [visitQueued_others hne hvisit]
        exact h d hne
      | fault f => rfl
      | refused f => rfl
    · rw [visitQueued_of_not_queued (h e hec), andThen_next]
      exact ih hl ((List.mem_cons.1 hc).resolve_left fun h => hec h.symm)

theorem restartQueued_of_one_queued {c : Chan} {s : State} (hc : s.cfg.hasChan c = true)
    (h : ∀ d, d ≠ c → (s.ch d).queued = false) : restartQueued s = visitQueued c s :=
  restartFrom_of_one_queued ((List.nodup_finRange 10).filter _)
    (List.mem_filter.2 ⟨List.mem_finRange c, hc⟩) h

/-- Settles O34: both writes restart the queue, whose restart is its visits. -/
theorem restartStepsInsideTheWrite : Obligations.RestartStepsInsideTheWrite := by
  intro v s hoff visit restart on
  have visits (u : State) (hcfg : u.cfg = s.cfg) : restartQueued u = restart u := by
    have hall := foldl_visitQueued ((List.finRange 10).filter u.cfg.hasChan) (.next u)
    rw [hcfg] at hall
    rw [restartQueued, hcfg]
    exact hall.symm
  have holds {i : Instr} {u : State} (hi : exec i s = restartQueued u) (hcfg : u.cfg = s.cfg)
      (hch : u.chans = s.chans) (hmasked : ∀ c, u.chanMasked c = s.chanMasked c) : on i u := by
    have hch' (d : Chan) : u.ch d = s.ch d := by rw [State.ch, State.ch, hch]
    refine ⟨hi.trans (visits u hcfg), fun c hc hq hothers => ?_⟩
    have hone : exec i s = visitQueued c u :=
      hi.trans (restartQueued_of_one_queued (hcfg ▸ hc) fun d hd => by rw [hch']; exact hothers d hd)
    have hq' : (u.ch c).queued = true := by rw [hch']; exact hq
    rw [hone, ← hmasked c, ← hch' c]
    exact ⟨visitQueued_of_unmasked hq', visitQueued_of_masked hq'⟩
  exact ⟨fun hcpnd hv => holds (exec_wCtrl_on hoff hcpnd hv) rfl rfl fun _ => rfl,
    fun hdmae hv => holds (exec_wEnablew_on hoff hdmae hv) rfl rfl fun _ => rfl⟩

end Sys2Proof.Machine
end

section
/-! PROOFS. The laws of the walker, and the third CALL in a row, property P2 (rules R136, R139, R144, R147). -/

namespace Sys2Proof.Machine

/-! ## The stack under a walker function (rules R27, R142 to R144) -/

/-- A walker function that leaves the depth and both slots of the stack alone. -/
def KeepsStack (walk : Channel → Channel × Bool) : Prop :=
  ∀ ch, (walk ch).1.asp = ch.asp ∧ (walk ch).1.asr0 = ch.asr0 ∧ (walk ch).1.asr1 = ch.asr1

/-- Every walker function that loads `MADR` and `TADR` only. -/
theorem keepsStack_pointers (cfg : Config) (madr tadr : Channel → Word) (stop : Bool) :
    KeepsStack fun ch => ((ch.withMadr cfg (madr ch)).withTadr cfg (tadr ch), stop) := fun _ => ⟨rfl, rfl, rfl⟩

theorem keepsStack_walkEnd (cfg : Config) : KeepsStack (walkEnd cfg) := fun _ => ⟨rfl, rfl, rfl⟩

/-! ## The laws of one load -/

/-- A tag changes nothing but its channel (rule R130). -/
theorem loadTag_eq_setCh (c : Chan) (id : TagId) (q : BitVec 16) (irq : Bool) (walk : Channel → Channel × Bool)
    (s : State) : loadTag c id q irq walk s = s.setCh c ((loadTag c id q irq walk s).ch c) := by
  rw [loadTag, State.ch_setCh_self]

theorem channelWf_loadTag {walk : Channel → Channel × Bool} {c : Chan} {s : State} (h : WalkFollows s.cfg walk)
    (hwf : ChannelWf s.cfg (s.ch c)) (id : TagId) (q : BitVec 16) (irq : Bool) :
    ChannelWf s.cfg ((loadTag c id q irq walk s).ch c) :=
  ((ChanMoves.atoms (.single (chanMove_loadTag h c id q irq))).channelsStep.channels c).wf hwf

theorem loadTag_stack {walk : Channel → Channel × Bool} (h : KeepsStack walk) (c : Chan) (id : TagId) (q : BitVec 16)
    (irq : Bool) (s : State) :
    let x := (loadTag c id q irq walk s).ch c
    x.asp = (s.ch c).asp ∧ x.asr0 = (s.ch c).asr0 ∧ x.asr1 = (s.ch c).asr1 := by
  rw [loadTag, State.ch_setCh_self]
  exact h _

/-- Every tag of the simple walker loads its channel by a walker function that leaves the stack alone (rules R131 to
R135, R138, R142, R143). -/
theorem runTag_simple_keepsStack (op : TagOp) (c : Chan) (q : BitVec 16) (irq : Bool) (a : Word) (s : State) :
    ∃ id walk, KeepsStack walk ∧ runTag .simple op c q irq a s = .next (loadTag c id q irq walk s) := by
  have pointers := keepsStack_pointers s.cfg
  cases op
  case call | ret | end_ => exact ⟨_, _, keepsStack_walkEnd s.cfg, rfl⟩
  case refe => exact ⟨_, walkRefe s.cfg a, pointers _ _ _, rfl⟩
  case cnt => exact ⟨_, walkCnt s.cfg, pointers _ _ _, rfl⟩
  case next => exact ⟨_, walkNext s.cfg a, pointers _ (fun _ => a) _, rfl⟩
  case ref => exact ⟨_, walkRef s.cfg a, pointers _ _ _, rfl⟩
  case refs => exact ⟨_, walkRefs s.cfg a, pointers _ _ _, rfl⟩

/-- A tag with an undefined `ID` loads its channel by a walker function that follows it and leaves the stack alone
(rules R139, R144). -/
theorem undefinedTag_eq_loadTag (c : Chan) (x : TagWord) (s : State) :
    ∃ walk, WalkFollows s.cfg walk ∧ KeepsStack walk ∧ undefinedTag c x s = loadTag c x.id x.q x.irq walk s := by
  unfold undefinedTag
  split
  · exact ⟨walkUndefined s.cfg, walkFollows_pointers s.cfg _ _ _, keepsStack_pointers s.cfg _ _ _, rfl⟩
  · exact ⟨walkEnd s.cfg, walkFollows_walkEnd s.cfg, keepsStack_walkEnd s.cfg, rfl⟩

/-- Settles O13: every tag is one load of its channel. -/
theorem walkerLaws : Obligations.WalkerLaws := by
  intro v op c q irq a x s _ hwf
  constructor
  · obtain ⟨id, walk, hfollows, hrun⟩ := runTag_follows v op c q irq a s
    refine ⟨_, (runTag_eq_exec ..).symm.trans hrun, channelWf_loadTag hfollows hwf .., loadTag_eq_setCh .., ?_⟩
    rintro rfl
    obtain ⟨id', walk', hkeeps, hrun'⟩ := runTag_simple_keepsStack op c q irq a s
    have hload : loadTag c id q irq walk s = loadTag c id' q irq walk' s :=
      Host.Outcome.next.inj (hrun.symm.trans hrun')
    rw [hload]
    exact loadTag_stack hkeeps ..
  · obtain ⟨walk, hfollows, hkeeps, hload⟩ := undefinedTag_eq_loadTag c x s
    dsimp only
    rw [hload]
    exact ⟨channelWf_loadTag hfollows hwf .., loadTag_eq_setCh .., loadTag_stack hkeeps ..⟩

/-! ## CALL in a row (rule R136) -/

/-- CALL with room on the stack jumps, one deeper; slot 0 changes only as the first that is filled. -/
theorem callFull_of_room {c : Chan} {q : BitVec 16} {irq : Bool} {a : Word} {s t : State}
    (hroom : (s.ch c).asp.toNat < s.cfg.literals.aspMax) (h : exec (.callFull c q irq a) s = .next t) :
    t.cfg = s.cfg ∧ (t.ch c).asp = (s.ch c).asp + 1#2 ∧ (t.ch c).tadr = s.cfg.align a ∧
      ((s.ch c).asp ≠ 0#2 → (t.ch c).asr0 = (s.ch c).asr0) := by
  have hload : t = _ := (Host.Outcome.next.inj h).symm.trans (loadTag_of_walk irq (walkCall_of_room _ _ hroom))
  rw [hload, State.ch_setCh_self]
  exact ⟨rfl, rfl, rfl, fun hasp => if_neg hasp⟩

/-- CALL with the stack full ends the chain, with tag pointer and stack as they were. -/
theorem callFull_of_full {c : Chan} {q : BitVec 16} {irq : Bool} {a : Word} {s t : State}
    (hfull : s.cfg.literals.aspMax ≤ (s.ch c).asp.toNat) (h : exec (.callFull c q irq a) s = .next t) :
    (t.ch c).done = true ∧ (t.ch c).asp = (s.ch c).asp ∧ (t.ch c).tadr = (s.ch c).tadr ∧
      (t.ch c).asr0 = (s.ch c).asr0 ∧ (t.ch c).asr1 = (s.ch c).asr1 := by
  have hload : t = _ := (Host.Outcome.next.inj h).symm.trans (loadTag_of_walk irq (walkCall_of_full _ _ hfull))
  rw [hload, State.ch_setCh_self]
  exact ⟨rfl, rfl, rfl, rfl, rfl⟩

/-- Settles O15: two CALLs with room on the stack, then one without. -/
theorem thirdCallStops : Obligations.ThirdCallStops := by
  intro c q1 q2 q3 i1 i2 i3 a1 a2 a3 s t u w hmax hempty h1 h2 h3
  obtain ⟨hcfg1, hasp1, -, -⟩ := callFull_of_room (by rw [hempty, hmax]; decide) h1
  rw [hempty] at hasp1
  obtain ⟨hcfg2, hasp2, htadr2, hslot2⟩ := callFull_of_room (by rw [hasp1, hcfg1, hmax]; decide) h2
  rw [hasp1] at hasp2
  obtain ⟨hdone, hasp3, htadr3, hasr0, hasr1⟩ := callFull_of_full (by rw [hasp2, hcfg2, hcfg1, hmax]; decide) h3
  refine ⟨hdone, hasp3.trans hasp2, ?_, hasr0.trans (hslot2 (by rw [hasp1]; decide)), hasr1⟩
  rw [htadr3, htadr2, hcfg1]
  rfl

end Sys2Proof.Machine
end

section
/-! PROOFS. The event scheduler: what arming does, which member of a pass fires first, when the next pass is due, and
how far a domain may advance (rules R151, R154, R156, R158, R173, R175, R176). -/

namespace Sys2Proof.Machine

/-! ## Arming (rule R151) -/

/-- The next pass comes forward to the armed event if none was due or the event is sooner. -/
theorem Sched.arm_nextEvent (x : Sched) (k : Kind) (d : Nat) (w : Word) :
    (x.arm k d w).nextEvent =
      if x.nextValid = false ∨ sdiff32 (x.cycle + BitVec.ofNat 32 d) x.nextEvent < 0 then
        x.cycle + BitVec.ofNat 32 d else x.nextEvent := by
  simp [Sched.arm]

/-- Settles O40: `arm` replaces one scheduler, and its next pass is that of `Sched.arm_nextEvent`. -/
theorem armEffect : Obligations.ArmEffect := by
  intro p k d w s x due
  have hnext := x.arm_nextEvent k d w
  rw [arm, State.sched_setSched_self, ← sdiff32, ← hnext]
  rfl

/-! ## The order of a pass (rule R156) -/

/-- The pair that orders the firing of kind `k`: how overdue it is, then its number. -/
def Sched.firingKey (x : Sched) (k : Kind) : Int ×ₗ Nat := toLex (sdiff32 (x.due k) x.cycle, k.val)

theorem Sched.firingKey_le (x : Sched) (j k : Kind) :
    x.firingKey j ≤ x.firingKey k ↔ sdiff32 (x.due j) x.cycle < sdiff32 (x.due k) x.cycle ∨
      sdiff32 (x.due j) x.cycle = sdiff32 (x.due k) x.cycle ∧ j.val ≤ k.val :=
  Prod.Lex.toLex_le_toLex

theorem firesBefore_iff (x : Sched) (j k : Kind) : firesBefore x j k = true ↔ x.firingKey j ≤ x.firingKey k := by
  simp [firesBefore, Sched.firingKey_le]

/-- No member comes before the one that fires first. -/
theorem firingKey_firstToFire_le (x : Sched) (k : Kind) (l : List Kind) :
    ∀ j ∈ k :: l, x.firingKey (firstToFire x k l) ≤ x.firingKey j := by
  induction l generalizing k with
  | nil =>
    rintro j (_ | ⟨_, ⟨⟩⟩)
    exact le_rfl
  | cons i l ih =>
    have hwinner : ∃ m, firstToFire x k (i :: l) = firstToFire x m l ∧
        x.firingKey m ≤ x.firingKey k ∧ x.firingKey m ≤ x.firingKey i := by
      rw [firstToFire]
      by_cases h : x.firingKey i ≤ x.firingKey k
      · exact ⟨i, by rw [if_pos ((firesBefore_iff ..).2 h)], h, le_rfl⟩
      · exact ⟨k, by rw [if_neg (h ∘ (firesBefore_iff ..).1)], le_rfl, le_of_not_ge h⟩
    obtain ⟨m, hm, hk, hi⟩ := hwinner
    have hfirst := ih m m List.mem_cons_self
    rw [hm]
    intro j hj
    rcases List.mem_cons.1 hj with rfl | hj
    · exact hfirst.trans hk
    · rcases List.mem_cons.1 hj with rfl | hj
      · exact hfirst.trans hi
      · exact ih m j (List.mem_cons_of_mem _ hj)

/-- Settles O41: the member that fires first has the least key. -/
theorem firingOrder : Obligations.FiringOrder := fun x k l =>
  ⟨firstToFire_mem x k l, fun j hj => (x.firingKey_le ..).1 (firingKey_firstToFire_le x k l j hj)⟩

/-! ## The next pass (rule R158) -/

@[simp] theorem recompute_cycle (x : Sched) : x.recompute.cycle = x.cycle := by
  unfold Sched.recompute
  split <;> rfl

/-- The due times of the armed kinds. -/
theorem mem_armedDues {x : Sched} {t : Word} :
    t ∈ ((List.finRange 16).filter fun k => x.slots[k.val].armed).map x.due ↔
      ∃ k : Kind, x.slots[k.val].armed = true ∧ x.due k = t := by
  simp

/-- With nothing armed no pass is due. -/
theorem recompute_of_unarmed {x : Sched} (h : ∀ k : Kind, x.slots[k.val].armed ≠ true) :
    x.recompute.nextValid = false := by
  have hdues : ((List.finRange 16).filter fun k => x.slots[k.val].armed).map x.due = [] :=
    List.eq_nil_iff_forall_not_mem.2 fun t ht => by
      obtain ⟨k, hk, -⟩ := mem_armedDues.1 ht
      exact h k hk
  rw [Sched.recompute, hdues]
  rfl

/-- With some kind armed the next pass is due when the first armed one is. -/
theorem recompute_of_armed {x : Sched} {k : Kind} (hk : x.slots[k.val].armed = true) :
    x.recompute.nextValid = true ∧
      (∃ j : Kind, x.slots[j.val].armed = true ∧ x.recompute.nextEvent = x.due j) ∧
      sdiff32 x.recompute.nextEvent x.cycle ≤ sdiff32 (x.due k) x.cycle := by
  obtain ⟨b, hb, he, hle⟩ := earliest_le (now := x.cycle) (mem_armedDues.2 ⟨k, hk, rfl⟩)
  obtain ⟨j, hj, rfl⟩ := mem_armedDues.1 hb
  rw [Sched.recompute, he]
  exact ⟨rfl, ⟨j, hj, rfl⟩, hle⟩

theorem recompute_nextValid (x : Sched) :
    x.recompute.nextValid = true ↔ ∃ k : Kind, x.slots[k.val].armed = true := by
  refine ⟨fun h => ?_, fun ⟨k, hk⟩ => (recompute_of_armed hk).1⟩
  by_contra hnone
  rw [recompute_of_unarmed fun k hk => hnone ⟨k, hk⟩] at h
  exact Bool.false_ne_true h

/-- Settles O42: the recomputed next pass is the earliest due time of an armed kind. -/
theorem nextEventRecomputed : Obligations.NextEventRecomputed := by
  intro x
  refine ⟨recompute_slots x, recompute_cycle x, recompute_nextValid x, fun h => ⟨?_, fun k hk => ?_⟩⟩
  · obtain ⟨k, hk⟩ := (recompute_nextValid x).1 h
    exact (recompute_of_armed hk).2.1
  · exact (recompute_of_armed hk).2.2

/-! ## Advances (rules R154, R173, R175, R176) -/

/-- A limit that binds only while something is due. -/
theorem not_or_decide_iff {b : Bool} {P : Prop} [Decidable P] : (!b || decide P) = true ↔ (b = true → P) := by
  cases b <;> simp

/-- When an advance of IO may be made (rule R154, K1). -/
theorem advanceOk_io_iff (n : Nat) (s : State) :
    advanceOk .io n s = true ↔ 1 ≤ n ∧ n < 2147483648 ∧
      (s.schedIo.nextValid = true → (n : Int) ≤ sdiff32 s.schedIo.nextEvent s.schedIo.cycle) ∧
      ∀ l, ioLimit s = some l → (n : Int) ≤ sdiff32 l s.schedIo.cycle := by
  have hcap : n ≤ advanceCap .io ↔ n < 2147483648 := Nat.lt_succ_iff.symm
  simp only [advanceOk, Bool.and_eq_true, decide_eq_true_eq, not_or_decide_iff, hcap, and_assoc]
  cases ioLimit s <;> simp [State.sched]

/-- When an advance of MAIN may be made (rule R154, K2). -/
theorem advanceOk_main_iff (n : Nat) (s : State) :
    advanceOk .main n s = true ↔ 1 ≤ n ∧ n < 1073741824 ∧
      (s.schedMain.nextValid = true → (n : Int) ≤ sdiff32 s.schedMain.nextEvent s.schedMain.cycle) ∧
      (s.schedIo.nextValid = true →
        0 ≤ sdiff32 s.schedIo.nextEvent (ioEq s (s.schedMain.cycle + BitVec.ofNat 32 n))) := by
  have hcap : n ≤ advanceCap .main ↔ n < 1073741824 := Nat.lt_succ_iff.symm
  simp only [advanceOk, Bool.and_eq_true, decide_eq_true_eq, not_or_decide_iff, hcap, and_assoc]
  exact Iff.rfl

/-- An armed I/O-relevant event of MAIN is a candidate of the I/O limit (rule R173). -/
theorem ioEq_due_mem_ioLimitCandidates {s : State} {k : Kind} (hrelevant : s.cfg.ioRelevant[k.val] = true)
    (harmed : s.schedMain.slots[k.val].armed = true) : ioEq s (s.schedMain.due k) ∈ ioLimitCandidates s := by
  refine List.mem_append_right _ (List.mem_map_of_mem ?_)
  simp [hrelevant, harmed]

/-- No advance of IO goes past an armed I/O-relevant event of MAIN (K1). -/
theorem advance_io_le_ioEq_due {s : State} {k : Kind} {n : Nat} (hrelevant : s.cfg.ioRelevant[k.val] = true)
    (harmed : s.schedMain.slots[k.val].armed = true) (h : advanceOk .io n s = true) :
    (n : Int) ≤ sdiff32 (ioEq s (s.schedMain.due k)) s.schedIo.cycle := by
  obtain ⟨l, -, hlimit, hle⟩ :=
    earliest_le (now := s.schedIo.cycle) (ioEq_due_mem_ioLimitCandidates hrelevant harmed)
  obtain ⟨-, -, -, hall⟩ := (advanceOk_io_iff n s).1 h
  exact (hall l hlimit).trans hle

/-- An event just armed is due its delta from now (rule R150). -/
theorem Sched.arm_due_self (x : Sched) (k : Kind) (d : Nat) (w : Word) :
    (x.arm k d w).due k = x.cycle + BitVec.ofNat 32 d := by
  rw [Sched.due, Sched.arm_slot_self]

/-- An advance that may be made is one step, which makes it whole (rule R154). -/
theorem step_advance {s : State} {p : Domain} {n : Nat} {rest : List Op} (hv : Config.valid s.cfg = true)
    (hwindow : sideEffectWindow s = false) (hagenda : s.agenda = .advance p n :: rest)
    (h : advanceOk p n s = true) : step s = .next (advance p n (s.taken rest)) := by
  have hok : advanceOk p n (s.taken rest) = true := h
  have hpos : n ≠ 0 := by
    rintro rfl
    simp [advanceOk] at h
  rw [step_perform hv hwindow hagenda, perform, if_neg hpos, tryAdvance_of_ok hok]
  exact congrArg Host.Outcome.next (if_pos rfl)

/-- Settles O45: the limits are those of `advanceOk`, the event just armed is one of the candidates of the I/O limit,
and an advance is one step. -/
theorem breakEarly : Obligations.BreakEarly := by
  intro s k d n w
  refine ⟨fun hrelevant => ⟨advance_io_le_ioEq_due hrelevant, fun h => ?_⟩, advanceOk_io_iff n s,
    advanceOk_main_iff n s, fun p rest hv hwindow hagenda h => ?_⟩
  · have harmed : (arm .main k d w s).schedMain.slots[k.val].armed = true :=
      congrArg Slot.armed (Sched.arm_slot_self ..)
    have hle := advance_io_le_ioEq_due (s := arm .main k d w s) hrelevant harmed h
    have hdue : (arm .main k d w s).schedMain.due k = s.schedMain.cycle + BitVec.ofNat 32 d := Sched.arm_due_self ..
    rw [hdue] at hle
    exact hle
  · obtain ⟨m, i, r, hadvance⟩ := advance_eq p n (s.taken rest)
    rw [sched_taken] at hadvance
    exact ⟨m, i, r, (step_advance hv hwindow hagenda h).trans (congrArg Host.Outcome.next hadvance)⟩

end Sys2Proof.Machine
end

section
/-! PROOFS. Distances of cycles modulo 2^32, and what keeps one scheduler timely (rules R9, R151 to R154, R158). -/

namespace Sys2Proof.Machine

/-! ## Distances (rule R9) -/

theorem sdiff32_lt (a b : Word) : sdiff32 a b < 2147483648 := BitVec.toInt_lt

theorem le_sdiff32 (a b : Word) : -2147483648 ≤ sdiff32 a b := BitVec.le_toInt _

theorem ofInt_sdiff32 (a b : Word) : BitVec.ofInt 32 (sdiff32 a b) = a - b := BitVec.ofInt_toInt

/-- A distance is any number of its class modulo 2^32 that lies in the signed range. -/
theorem sdiff32_eq {a b : Word} {z : Int} (h : BitVec.ofInt 32 z = a - b) (hlo : -2147483648 ≤ z)
    (hhi : z < 2147483648) : sdiff32 a b = z := by
  rw [sdiff32, ← h, BitVec.toInt_ofInt]
  exact Int.bmod_eq_of_le (by omega) (by omega)

@[simp] theorem sdiff32_self (a : Word) : sdiff32 a a = 0 := by
  simp [sdiff32]

/-- Both ends seen from a third cycle. -/
theorem sdiff32_eq_sub {a b : Word} (c : Word) (hlo : -2147483648 ≤ sdiff32 a c - sdiff32 b c)
    (hhi : sdiff32 a c - sdiff32 b c < 2147483648) : sdiff32 a b = sdiff32 a c - sdiff32 b c := by
  refine sdiff32_eq ?_ hlo hhi
  rw [sub_eq_add_neg, BitVec.ofInt_add, BitVec.ofInt_neg, ofInt_sdiff32, ofInt_sdiff32]
  ring

/-- The far end moves on. -/
theorem sdiff32_add_left {a b : Word} {n : Nat} (h : sdiff32 a b + n < 2147483648) :
    sdiff32 (a + BitVec.ofNat 32 n) b = sdiff32 a b + n := by
  have := le_sdiff32 a b
  refine sdiff32_eq ?_ (by omega) h
  rw [BitVec.ofInt_add, ofInt_sdiff32, BitVec.ofInt_natCast]
  ring

theorem sdiff32_add_self {a : Word} {n : Nat} (h : n ≤ 2147483647) : sdiff32 (a + BitVec.ofNat 32 n) a = n := by
  rw [sdiff32_add_left (by rw [sdiff32_self]; omega), sdiff32_self, zero_add]

/-- The near end moves on. -/
theorem sdiff32_add_right {a b : Word} {n : Nat} (h : -2147483648 ≤ sdiff32 a b - n) :
    sdiff32 a (b + BitVec.ofNat 32 n) = sdiff32 a b - n := by
  have := sdiff32_lt a b
  refine sdiff32_eq ?_ h (by omega)
  rw [sub_eq_add_neg, BitVec.ofInt_add, BitVec.ofInt_neg, ofInt_sdiff32, BitVec.ofInt_natCast]
  ring

/-! ## Timely schedulers (rules R153, R154) -/

/-- An armed event of a timely scheduler is due its remaining cycles from now. -/
theorem SchedTimely.sdiff32_due {x : Sched} (h : SchedTimely x) {k : Kind} (hk : x.slots[k.val].armed = true) :
    sdiff32 (x.due k) x.cycle = x.remaining k ∧ 0 ≤ x.remaining k := by
  obtain ⟨hvalid, hdelta, hstart, hnext⟩ := h.2 k hk
  have hpass := h.1 hvalid
  have hrange : x.slots[k.val].delta.toNat ≤ 2147483647 := hdelta
  have hfrom : sdiff32 (x.due k) x.slots[k.val].start = x.slots[k.val].delta.toNat := by
    have hadd := sdiff32_add_self (a := x.slots[k.val].start) hrange
    rwa [BitVec.ofNat_toNat, BitVec.setWidth_eq] at hadd
  unfold Sched.remaining at hnext ⊢
  have hsub := sdiff32_eq_sub (a := x.due k) (b := x.cycle) x.slots[k.val].start
  rw [hfrom] at hsub
  exact ⟨hsub (by omega) (by omega), by omega⟩

/-- A scheduler with the clock, the slots and the next pass of a timely one. -/
theorem SchedTimely.of_eq {x y : Sched} (h : SchedTimely x) (hcycle : y.cycle = x.cycle) (hslots : y.slots = x.slots)
    (hvalid : y.nextValid = x.nextValid) (hnext : y.nextEvent = x.nextEvent) : SchedTimely y := by
  simpa only [SchedTimely, Sched.remaining, hcycle, hslots, hvalid, hnext] using h

theorem SchedTimely.leavePass {x : Sched} (h : SchedTimely x) (k : Kind) : SchedTimely (x.leavePass k) :=
  h.of_eq rfl rfl rfl rfl

theorem SchedTimely.snapshot {x : Sched} (h : SchedTimely x) : SchedTimely x.snapshot := h.of_eq rfl rfl rfl rfl

/-- A scheduler whose other slots and clock are those of a timely one is timely, if its next pass comes no later than
that one's and than its own event of kind `k`. -/
theorem SchedTimely.of_slot {x y : Sched} (h : SchedTimely x) (k : Kind) (hcycle : y.cycle = x.cycle)
    (hother : ∀ j : Kind, j ≠ k → y.slots[j.val] = x.slots[j.val])
    (hpass : y.nextValid = true → 0 ≤ sdiff32 y.nextEvent y.cycle)
    (hsooner : x.nextValid = true → y.nextValid = true ∧ sdiff32 y.nextEvent y.cycle ≤ sdiff32 x.nextEvent x.cycle)
    (hself : y.slots[k.val].armed = true → y.nextValid = true ∧ y.slots[k.val].delta.toNat ≤ maxDelta ∧
      0 ≤ sdiff32 y.cycle y.slots[k.val].start ∧ sdiff32 y.nextEvent y.cycle ≤ y.remaining k) : SchedTimely y := by
  refine ⟨hpass, fun j hj => ?_⟩
  by_cases hjk : j = k
  · exact hjk ▸ hself (hjk ▸ hj)
  · have hremaining : y.remaining j = x.remaining j := by rw [Sched.remaining, Sched.remaining, hother j hjk, hcycle]
    rw [hother j hjk] at hj ⊢
    obtain ⟨hvalid, hdelta, hstart, hnext⟩ := h.2 j hj
    obtain ⟨hvalid', hle⟩ := hsooner hvalid
    rw [hremaining]
    exact ⟨hvalid', hdelta, hcycle ▸ hstart, hle.trans hnext⟩

/-- A cancelled event is waited for no longer (rule R152). -/
theorem SchedTimely.cancel {x : Sched} (h : SchedTimely x) (k : Kind) : SchedTimely (x.cancel k) := by
  refine h.of_slot k rfl (fun j hj => Sched.cancel_slot_ne x hj) h.1 (fun hvalid => ⟨hvalid, le_rfl⟩) fun hk => ?_
  rw [Sched.cancel_slot_self] at hk
  exact absurd hk Bool.false_ne_true

/-- After arming in a timely scheduler the next pass lies ahead, no later than the armed event and than the next pass
before (rule R151). -/
theorem SchedTimely.sdiff32_arm_nextEvent {x : Sched} (h : SchedTimely x) {d : Nat} (hd : d ≤ maxDelta) (k : Kind)
    (w : Word) : 0 ≤ sdiff32 (x.arm k d w).nextEvent x.cycle ∧ sdiff32 (x.arm k d w).nextEvent x.cycle ≤ d ∧
      (x.nextValid = true → sdiff32 (x.arm k d w).nextEvent x.cycle ≤ sdiff32 x.nextEvent x.cycle) := by
  have hrange : d ≤ 2147483647 := hd
  have hdue : sdiff32 (x.cycle + BitVec.ofNat 32 d) x.cycle = d := sdiff32_add_self hrange
  have hsooner : x.nextValid = true →
      sdiff32 (x.cycle + BitVec.ofNat 32 d) x.nextEvent = d - sdiff32 x.nextEvent x.cycle := by
    intro hvalid
    have hpass := h.1 hvalid
    have hfar := sdiff32_lt x.nextEvent x.cycle
    have hsub := sdiff32_eq_sub (a := x.cycle + BitVec.ofNat 32 d) (b := x.nextEvent) x.cycle
    rw [hdue] at hsub
    exact hsub (by omega) (by omega)
  rw [Sched.arm_nextEvent]
  cases hvalid : x.nextValid with
  | false =>
    rw [if_pos (.inl rfl), hdue]
    exact ⟨by omega, le_rfl, fun h => absurd h Bool.false_ne_true⟩
  | true =>
    have hpass := h.1 hvalid
    specialize hsooner hvalid
    split
    · next hlt =>
      have := hlt.resolve_left Bool.noConfusion
      rw [hdue]
      exact ⟨by omega, le_rfl, fun _ => by omega⟩
    · next hge =>
      have := not_or.1 hge
      exact ⟨hpass, by omega, fun _ => le_rfl⟩

/-- An event armed within the range of rule R163. -/
theorem SchedTimely.arm {x : Sched} (h : SchedTimely x) {d : Nat} (hd : d ≤ maxDelta) (k : Kind) (w : Word) :
    SchedTimely (x.arm k d w) := by
  obtain ⟨hahead, hle, hsooner⟩ := h.sdiff32_arm_nextEvent hd k w
  have hrange : d ≤ 2147483647 := hd
  have hdelta : (BitVec.ofNat 32 d).toNat = d := by rw [BitVec.toNat_ofNat]; omega
  refine h.of_slot k rfl (fun j hj => Sched.arm_slot_ne x d w hj) (fun _ => hahead)
    (fun hvalid => ⟨rfl, hsooner hvalid⟩) fun _ => ?_
  rw [Sched.remaining, Sched.arm_slot_self, Sched.arm_cycle, sdiff32_self, hdelta]
  exact ⟨rfl, hd, le_rfl, by omega⟩

/-- The clock moves on, at most to the next pass (rule R154). -/
theorem SchedTimely.forward {x : Sched} (h : SchedTimely x) {n : Nat}
    (hn : x.nextValid = true → (n : Int) ≤ sdiff32 x.nextEvent x.cycle) : SchedTimely (x.forward n) := by
  have hpass : x.nextValid = true →
      sdiff32 x.nextEvent (x.forward n).cycle = sdiff32 x.nextEvent x.cycle - n := fun hvalid =>
    sdiff32_add_right (by have := hn hvalid; omega)
  refine ⟨fun hvalid => ?_, fun k hk => ?_⟩
  · have := hn hvalid
    have := hpass hvalid
    change 0 ≤ sdiff32 x.nextEvent (x.forward n).cycle
    omega
  · obtain ⟨hvalid, hdelta, hstart, hnext⟩ := h.2 k hk
    have hrange : x.slots[k.val].delta.toNat ≤ 2147483647 := hdelta
    have hle := hn hvalid
    unfold Sched.remaining at hnext
    have hmoved : sdiff32 (x.forward n).cycle x.slots[k.val].start = sdiff32 x.cycle x.slots[k.val].start + n :=
      sdiff32_add_left (by omega)
    refine ⟨hvalid, hdelta, ?_, ?_⟩
    · change 0 ≤ sdiff32 (x.forward n).cycle x.slots[k.val].start
      omega
    · change sdiff32 x.nextEvent (x.forward n).cycle ≤
        (x.slots[k.val].delta.toNat : Int) - sdiff32 (x.forward n).cycle x.slots[k.val].start
      rw [hpass hvalid, hmoved]
      omega

/-- The next pass is recomputed (rule R158). -/
theorem SchedTimely.recompute {x : Sched} (h : SchedTimely x) : SchedTimely x.recompute := by
  refine ⟨fun hvalid => ?_, fun k hk => ?_⟩
  · obtain ⟨k, hk⟩ := (recompute_nextValid x).1 hvalid
    obtain ⟨-, ⟨j, hj, hnext⟩, -⟩ := recompute_of_armed hk
    obtain ⟨hdue, hahead⟩ := h.sdiff32_due hj
    rw [hnext, recompute_cycle, hdue]
    exact hahead
  · rw [recompute_slots] at hk
    obtain ⟨-, hdelta, hstart, -⟩ := h.2 k hk
    obtain ⟨hvalid, -, hle⟩ := recompute_of_armed hk
    rw [(h.sdiff32_due hk).1] at hle
    rw [Sched.remaining, recompute_slots, recompute_cycle]
    exact ⟨hvalid, hdelta, hstart, hle⟩

end Sys2Proof.Machine
end

section
/-! PROOFS. No event is ever late: every operation keeps both schedulers timely (rules R70, R104 to R124, R153 to R158,
R268). -/

namespace Sys2Proof.Machine

/-! ## Deltas within the range of rule R163 -/

theorem intDelta_of_valid {cfg : Config} (h : Config.valid cfg = true) : cfg.intDelta ≤ maxDelta := by
  have hle : cfg.intDelta ≤ 99 := by
    simp only [Config.valid, Bool.and_eq_true, decide_eq_true_eq] at h
    obtain ⟨⟨⟨⟨⟨⟨⟨-, hlatency⟩, -⟩, -⟩, -⟩, -⟩, -⟩, -⟩ := h
    cases hmax : cfg.intLatencyMax with
    | none =>
      rw [hmax] at hlatency
      exact of_decide_eq_true hlatency
    | some l =>
      rw [hmax] at hlatency
      simp only [Bool.and_eq_true, decide_eq_true_eq] at hlatency
      exact hlatency.1.trans hlatency.2
  exact hle.trans (by decide)

theorem inDeltaRange_le (x : Nat) : inDeltaRange x ≤ maxDelta :=
  Nat.mod_lt x (by decide)

theorem stepDelta_of_valid {cfg : Config} (h : Config.valid cfg = true) (c : Chan) (m : Nat) :
    stepDelta cfg c m ≤ maxDelta := by
  have hall : ∀ e ∈ cfg.stepDeltas, e.cycles ≤ maxDelta := by
    simp only [Config.valid, Bool.and_eq_true, List.all_eq_true, decide_eq_true_eq] at h
    obtain ⟨⟨⟨⟨⟨-, hdeltas⟩, -⟩, -⟩, -⟩, -⟩ := h
    exact fun e he => (hdeltas e he).2
  unfold stepDelta
  split
  · next e he => exact hall e (List.mem_of_find?_eq_some he)
  · exact inDeltaRange_le _

theorem retestDelta_of_valid {cfg : Config} (h : Config.valid cfg = true) : retestDelta cfg ≤ maxDelta := by
  simp only [Config.valid, Bool.and_eq_true] at h
  obtain ⟨⟨⟨⟨⟨⟨-, hretest⟩, -⟩, -⟩, -⟩, -⟩, -⟩ := h
  unfold retestDelta
  cases hdelta : cfg.retestDelta with
  | none => exact inDeltaRange_le _
  | some d =>
    rw [hdelta] at hretest
    simp only [Bool.and_eq_true, decide_eq_true_eq] at hretest
    exact hretest.2

/-- A delta converted for IO stays in range. -/
theorem toIODelta_le {d : Nat} (h : d ≤ maxDelta) (cfg : Config) : toIODelta cfg d ≤ maxDelta :=
  max_le (by decide) ((Nat.div_le_self ..).trans h)

theorem intDelta_le {cfg : Config} (h : Config.valid cfg = true) (p : Domain) : intDelta cfg p ≤ maxDelta := by
  cases p with
  | main => exact intDelta_of_valid h
  | io => exact toIODelta_le (intDelta_of_valid h) cfg

/-! ## Operations that keep both schedulers timely -/

/-- From `s` to `t` a timely scheduler stays timely, under a valid configuration, which is kept. -/
structure KeepsTime (s t : State) : Prop where
  cfg : t.cfg = s.cfg
  timely : Config.valid s.cfg = true → ∀ p, SchedTimely (s.sched p) → SchedTimely (t.sched p)

theorem KeepsTime.refl (s : State) : KeepsTime s s := ⟨rfl, fun _ _ => id⟩

theorem KeepsTime.trans {s t u : State} (h : KeepsTime s t) (h' : KeepsTime t u) : KeepsTime s u where
  cfg := h'.cfg.trans h.cfg
  timely hv p := h'.timely (h.cfg ▸ hv) p ∘ h.timely hv p

/-- A change of neither scheduler. -/
theorem KeepsTime.of_eq {s t : State} (hcfg : t.cfg = s.cfg) (hmain : t.schedMain = s.schedMain)
    (hio : t.schedIo = s.schedIo) : KeepsTime s t := by
  refine ⟨hcfg, fun _ p h => ?_⟩
  cases p
  · exact (congrArg SchedTimely hmain).mpr h
  · exact (congrArg SchedTimely hio).mpr h

theorem keepsTime_setSched {s : State} {p : Domain} {x : Sched}
    (h : Config.valid s.cfg = true → SchedTimely (s.sched p) → SchedTimely x) : KeepsTime s (s.setSched p x) := by
  refine ⟨by simp, fun hv q hq => ?_⟩
  cases p <;> cases q
  case main.main | io.io => exact h hv hq
  case main.io | io.main => exact hq

/-- An event armed within the range of rule R163. -/
theorem keepsTime_arm {p : Domain} {k : Kind} {d : Nat} {w : Word} {s : State}
    (h : Config.valid s.cfg = true → d ≤ maxDelta) : KeepsTime s (arm p k d w s) :=
  keepsTime_setSched fun hv ht => ht.arm (h hv) k w

theorem keepsTime_cancel (p : Domain) (k : Kind) (s : State) : KeepsTime s (cancel p k s) :=
  keepsTime_setSched fun _ ht => ht.cancel k

theorem keepsTime_tick (s : State) : KeepsTime s s.tick := .of_eq rfl rfl rfl

theorem keepsTime_setCh (c : Chan) (x : Channel) (s : State) : KeepsTime s (s.setCh c x) := .of_eq rfl rfl rfl

theorem keepsTime_setFifo (f : FifoId) (x : Fifo) (s : State) : KeepsTime s (s.setFifo f x) :=
  .of_eq (by simp) (by simp) (by simp)

theorem keepsTime_evaluatePending (p : Domain) (s : State) : KeepsTime s (evaluatePending p s) := by
  cases p <;> exact .of_eq rfl rfl rfl

theorem keepsTime_setRead (p : Domain) (v : Word) (s : State) : KeepsTime s (s.setRead p v) := by
  cases p <;> exact .of_eq rfl rfl rfl

/-! ## Interrupts and the ends of a transfer (rules R117 to R119, R265 to R268) -/

theorem keepsTime_schedTest (p : Domain) (s : State) : KeepsTime s (schedTest p s) := by
  unfold schedTest
  split
  · exact keepsTime_arm fun hv => intDelta_le hv p
  · exact .refl s

theorem keepsTime_raiseStall (s : State) : KeepsTime s (raiseStall s) := by
  have hlatched : KeepsTime s { s with stat := setSis s.cfg.layout s.stat } := .of_eq rfl rfl rfl
  exact hlatched.trans (keepsTime_schedTest ..)

theorem keepsTime_raiseIo (c : Chan) (s : State) : KeepsTime s (raiseIo c s) := by
  have hlatched : KeepsTime s { s with ioIstat := setIoIstat s.cfg s.ioIstat c } := .of_eq rfl rfl rfl
  unfold raiseIo
  split
  · exact hlatched.trans (keepsTime_schedTest ..)
  · exact .refl s

theorem keepsTime_raiseChannel (c : Chan) (s : State) : KeepsTime s (raiseChannel c s) := by
  have hlatched : KeepsTime s { s with stat := setCis s.cfg s.stat c } := .of_eq rfl rfl rfl
  exact (hlatched.trans (keepsTime_schedTest ..)).trans (keepsTime_raiseIo ..)

theorem keepsTime_complete (c : Chan) (s : State) : KeepsTime s (complete c s) :=
  (keepsTime_setCh ..).trans (keepsTime_raiseChannel ..)

theorem keepsTime_haltChannel (c : Chan) (s : State) : KeepsTime s (haltChannel c s) :=
  (keepsTime_setCh ..).trans (keepsTime_cancel ..)

theorem keepsTime_busError (c : Chan) (s : State) : KeepsTime s (busError c s) := by
  have hlatched : KeepsTime s { s with stat := setBeis s.cfg.layout s.stat } := .of_eq rfl rfl rfl
  exact hlatched.trans ((keepsTime_haltChannel ..).trans (keepsTime_raiseChannel ..))

theorem keepsTime_rearm (c : Chan) (wanted m : Nat) (s : State) : KeepsTime s (rearm c wanted m s) := by
  refine keepsTime_arm fun hv => ?_
  split
  · exact retestDelta_of_valid hv
  · exact stepDelta_of_valid hv c m

/-! ## Steps of a channel (rules R104 to R116) -/

theorem keepsTime_notifyEndpoint (c : Chan) (m : Nat) (s : State) : KeepsTime s (notifyEndpoint c m s) := by
  unfold notifyEndpoint
  split
  · exact .refl s
  · exact keepsTime_arm fun hv => toIODelta_le (stepDelta_of_valid hv c m) s.cfg

theorem keepsTime_arbWriteDma (f : FifoId) (c : Chan) (d : List Qword) (s : State) :
    KeepsTime s (arbWriteDma f c d s).2 := by
  obtain ⟨x, h⟩ := arbWriteDma_eq f c d s
  rw [h]
  exact keepsTime_setFifo ..

theorem keepsTime_fifoRead (f : FifoId) (n : Nat) (s : State) : KeepsTime s (fifoRead f n s).2 :=
  keepsTime_setFifo ..

theorem keepsTime_sink (c : Chan) (d : List Qword) (s : State) : KeepsTime s (sink c d s).2 := by
  unfold sink
  split
  · exact keepsTime_arbWriteDma ..
  · exact (keepsTime_arbWriteDma ..).trans (keepsTime_notifyEndpoint ..)
  · dsimp only
    split <;> exact .of_eq rfl rfl rfl

theorem keepsTime_source (c : Chan) (n : Nat) (s : State) : KeepsTime s (source c n s).2 := by
  unfold source
  split
  · exact keepsTime_fifoRead ..
  · exact (keepsTime_fifoRead ..).trans (keepsTime_notifyEndpoint ..)
  · exact .refl s

theorem keepsTime_moveUnits (c : Chan) (n : Nat) (s : State) : KeepsTime s (moveUnits c n s).2 := by
  unfold moveUnits
  dsimp only
  split
  · exact keepsTime_sink ..
  · exact (keepsTime_source c n s).trans (.of_eq rfl rfl rfl)

theorem keepsTime_advanceChannel (c : Chan) (m : Nat) (s : State) : KeepsTime s (advanceChannel c m s) := by
  rw [advanceChannel_eq]
  exact .of_eq rfl rfl rfl

theorem keepsTime_stallLimit (c : Chan) (wanted : Nat) (s : State) : KeepsTime s (stallLimit c wanted s).2 := by
  have hpublished : KeepsTime s { s with stadrD := s.cfg.align (s.ch c).madr } := .of_eq rfl rfl rfl
  unfold stallLimit
  dsimp only
  split
  · dsimp only
    generalize min wanted _ = allowed
    split
    · exact hpublished.trans (keepsTime_raiseStall ..)
    · exact hpublished
  · exact .refl s

theorem keepsTime_transferStep (c : Chan) (wanted n : Nat) (s : State) : KeepsTime s (transferStep c wanted n s) := by
  rcases transferStep_cases c wanted n s with ⟨-, h⟩ | ⟨m, t, ht, h⟩ <;> rw [h]
  · exact keepsTime_busError c s
  · rcases transfer_cases c n s with ⟨-, hn⟩ | ⟨-, k, -, hk⟩
    · rw [hn] at ht
      cases ht
    · rw [hk] at ht
      cases ht
      exact ((keepsTime_moveUnits ..).trans (keepsTime_advanceChannel ..)).trans (keepsTime_rearm ..)

theorem keepsTime_blockStep (c : Chan) (s : State) : KeepsTime s (blockStep c s) := by
  have hlimit := keepsTime_stallLimit c (s.ch c).qwc s
  rcases blockStep_cases c s with ⟨-, h⟩ | ⟨-, -, h⟩ | ⟨-, -, h⟩ <;> rw [h]
  · exact keepsTime_rearm ..
  · exact hlimit.trans (keepsTime_rearm ..)
  · exact hlimit.trans (keepsTime_transferStep ..)

theorem keepsTime_continueChan {c : Chan} {s t : State} (h : continueChan c s = .next t) : KeepsTime s t := by
  rcases continueChan_cases h with rfl | rfl | rfl | rfl | ⟨id, q, irq, walk, rfl⟩
  · exact keepsTime_complete c s
  · exact keepsTime_transferStep ..
  · exact keepsTime_busError c s
  · exact keepsTime_blockStep c s
  · exact (keepsTime_setCh ..).trans (keepsTime_blockStep ..)

/-! ## Start, continuation and restart (rules R102, R105, R122, R123) -/

theorem keepsTime_runOrQueue {c : Chan} {s t : State} (h : runOrQueue c s = .next t) : KeepsTime s t := by
  rcases runOrQueue_next_cases h with ⟨u, hu, rfl⟩ | rfl
  · exact (keepsTime_continueChan hu).trans (keepsTime_tick u)
  · exact (keepsTime_setCh ..).trans (keepsTime_tick _)

theorem keepsTime_resume {c : Chan} {s t : State} (h : resume c s = .next t) : KeepsTime s t := by
  obtain ⟨u, hu, rfl⟩ := resume_next_cases h
  exact (keepsTime_setCh ..).trans ((keepsTime_continueChan hu).trans (keepsTime_tick u))

theorem keepsTime_restartFrom (l : List Chan) {s t : State} (h : restartFrom l s = .next t) : KeepsTime s t := by
  induction l generalizing s with
  | nil => cases h; exact .refl _
  | cons c l ih =>
    rcases restartFrom_cons c l s with ⟨-, he⟩ | ⟨-, -, he⟩ | ⟨-, -, he⟩ <;> rw [he] at h
    · exact ih h
    · exact (keepsTime_tick s).trans (ih h)
    · obtain ⟨u, hu, h⟩ := andThen_eq_next h
      exact (keepsTime_resume hu).trans (ih h)

theorem keepsTime_chanUnmasked {c : Chan} {s t : State} (h : chanUnmasked c s = .next t) : KeepsTime s t := by
  unfold chanUnmasked at h
  split at h
  · split at h
    · exact keepsTime_resume h
    · cases h
      exact keepsTime_tick s
  · cases h
    exact .refl s

theorem keepsTime_execWChcr {c : Chan} {v : Word} {s t : State} (h : execWChcr c v s = .next t) : KeepsTime s t := by
  rcases execWChcr_cases h with ⟨-, ⟨-, rfl⟩ | ⟨-, rfl⟩⟩ | ⟨-, ⟨-, rfl⟩ | ⟨-, h⟩⟩
  · exact .refl t
  · exact keepsTime_haltChannel c s
  · exact keepsTime_setCh ..
  · exact (keepsTime_setCh ..).trans (keepsTime_runOrQueue h)

theorem keepsTime_writeIdle (c : Chan) (load : Channel → Channel) (s : State) : KeepsTime s (writeIdle c load s) := by
  unfold writeIdle
  split
  · exact .refl s
  · exact keepsTime_setCh ..

/-- A write to either half of the global enable, with what its change starts (rules R231, R233). -/
theorem keepsTime_enableWrite {was : Bool} (dmae cpnd : Bool) {s t : State}
    (h : afterEnableWrite was { s with dmae := dmae, cpnd := cpnd } = .next t) : KeepsTime s t := by
  have hstored : KeepsTime s { s with dmae := dmae, cpnd := cpnd } := .of_eq rfl rfl rfl
  unfold afterEnableWrite at h
  split at h
  · exact hstored.trans (keepsTime_restartFrom _ h)
  · cases h
    exact hstored

/-! ## Outside agents (rules R11, R40, R204) -/

theorem keepsTime_setPathMask {f : FifoId} {i : Nat} {b : Bool} {s t : State} (h : setPathMask f i b s = .next t) :
    KeepsTime s t := by
  have hmask := keepsTime_setFifo f { s.fifo f with pmask := (s.fifo f).pmask.set i b } s
  unfold setPathMask at h
  dsimp only at h
  split at h
  · split at h
    · cases h
      exact hmask
    · exact hmask.trans (keepsTime_chanUnmasked h)
  · cases h
    exact hmask

theorem keepsTime_arbWriteDirect (f : FifoId) (i : Nat) (d : List Qword) (s : State) :
    KeepsTime s (arbWriteDirect f i d s).2 := by
  rcases arbWriteDirect_cases f i d s with h | ⟨-, h⟩ <;> rw [h]
  · exact .refl s
  · exact keepsTime_setFifo ..

/-- Output, and the note that the endpoint has moved a unit. -/
theorem keepsTime_afterMove (f : FifoId) (n : Nat) (o : Output) (s : State) :
    KeepsTime s (afterMove f n (s.emit o)) := by
  rw [afterMove_eq]
  exact .of_eq rfl rfl rfl

/-- What an agent arms is within the range of rule R163, or it is not permitted. -/
theorem keepsTime_performExt {p : Domain} {e : ExtOp} {s t : State} (h : performExt p e s = .next t) :
    KeepsTime s t := by
  cases hp : permitted p s e with
  | false =>
    rw [performExt_not_permitted hp] at h
    cases h
    exact .refl s
  | true =>
    unfold performExt at h
    rw [if_pos hp] at h
    cases e with
    | arm q k d w =>
      cases h
      exact keepsTime_arm fun _ => of_decide_eq_true (Bool.and_eq_true_iff.1 hp).2
    | cancel q k => cases h; exact keepsTime_cancel q k s
    | pathRequest f i b => cases h; exact keepsTime_setFifo ..
    | arbWriteDirect f i d =>
      cases h
      exact (keepsTime_arbWriteDirect ..).trans ((keepsTime_afterMove ..).trans (keepsTime_tick _))
    | setPathMask f i b => exact keepsTime_setPathMask h
    | fifoDrain f k =>
      cases h
      exact (keepsTime_fifoRead ..).trans (keepsTime_afterMove ..)
    | notify c d =>
      cases h
      obtain ⟨-, -, -, -, -, hle⟩ := (mayNotify_iff s c d).1 (Bool.and_eq_true_iff.1 hp).2
      exact keepsTime_arm fun _ => hle
    | chanUnmasked c => exact keepsTime_chanUnmasked h
    | workerPost g w => cases h; cases g <;> exact .of_eq rfl rfl rfl

theorem keepsTime_performExts {p : Domain} (l : List ExtOp) {s t : State} (h : performExts p l s = .next t) :
    KeepsTime s t := by
  induction l generalizing s with
  | nil => cases h; exact .refl _
  | cons e l ih =>
    rw [performExts_cons] at h
    obtain ⟨u, hu, h⟩ := andThen_eq_next h
    exact (keepsTime_performExt hu).trans (ih h)

theorem keepsTime_extHandler {p : Domain} {s t : State} (h : extHandler p s = .next t) : KeepsTime s t :=
  (keepsTime_tick s).trans (keepsTime_performExts _ h)

/-! ## Instructions -/

/-- Every instruction keeps both schedulers timely: tags load a channel, reads and most writes touch no scheduler, and
the others are operations of a channel or of an outside agent. -/
theorem keepsTime_exec {i : Instr} {s t : State} (h : exec i s = .next t) : KeepsTime s t := by
  cases i with
  | refeFull c q irq a | cntFull c q irq a | nextFull c q irq a | refFull c q irq a | refsFull c q irq a
  | callFull c q irq a | retFull c q irq a | endFull c q irq a | refeSimple c q irq a | cntSimple c q irq a
  | nextSimple c q irq a | refSimple c q irq a | refsSimple c q irq a | callSimple c q irq a | retSimple c q irq a
  | endSimple c q irq a => cases h; exact keepsTime_setCh ..
  | rChcr c | rMadr c | rQwc c | rTadr c | rAsr0 c | rAsr1 c | rCtrl | rStat | rStadrS | rStadrD | rFstatGpath
  | rFstatBridge | rEnabler | rIoIstat | rIoImask | rUnmapped p a => cases h; exact keepsTime_setRead ..
  | wChcr c v => exact keepsTime_execWChcr h
  | wMadr c v | wQwc c v | wTadr c v | wAsr0 c v | wAsr1 c v => cases h; exact keepsTime_writeIdle ..
  | wCtrl v => exact keepsTime_enableWrite _ s.cpnd h
  | wEnablew v => exact keepsTime_enableWrite s.dmae _ h
  | wStat v | wIoIstat v | wIoImask v | wStadrS v | wStadrD v | wFstatGpath v | wFstatBridge v | wUnmapped p a v =>
    cases h; exact .of_eq rfl rfl rfl
  | eventDmaContMain c w => exact keepsTime_runOrQueue h
  | eventIntTest p w => cases h; exact keepsTime_evaluatePending p s
  | eventBridgeStepMain w => cases h; exact .refl s
  | eventDmaContIo k w | eventBridgeStepIo w | eventTimer p j w => exact keepsTime_extHandler h

theorem keepsTime_runAccess {p : Domain} {d : Dir} {n : Nat} {a v : Word} {s t : State}
    (h : runAccess p d n a v s = .next t) : KeepsTime s t := by
  unfold runAccess at h
  split at h
  · exact keepsTime_exec h
  · cases h

/-! ## Passes (rules R155 to R158) -/

theorem keepsTime_fire {p : Domain} {k : Kind} {s t : State} (h : fire p k s = .next t) : KeepsTime s t := by
  have hleave : KeepsTime s (s.setSched p ((s.sched p).leavePass k)) := keepsTime_setSched fun _ ht => ht.leavePass k
  cases harmed : (s.sched p).slots[k.val].armed with
  | false =>
    rw [fire_not_armed harmed] at h
    cases h
    exact hleave
  | true =>
    rw [fire_armed harmed] at h
    exact hleave.trans ((keepsTime_cancel ..).trans (keepsTime_exec h))

theorem keepsTime_fireAll {p : Domain} (n : Nat) {s t : State} (h : fireAll p n s = .next t) : KeepsTime s t := by
  induction n generalizing s with
  | zero => cases h; exact .refl _
  | succ n ih =>
    cases hp : (s.sched p).passSet with
    | nil =>
      rw [fireAll_nil hp] at h
      cases h
      exact .refl _
    | cons j l =>
      rw [fireAll_cons hp] at h
      obtain ⟨u, hu, h⟩ := andThen_eq_next h
      exact (keepsTime_fire hu).trans (ih h)

theorem keepsTime_passStart (p : Domain) (s : State) : KeepsTime s (passStart p s) :=
  .of_eq (passStart_cfg p s) (passStart_sched p .main s) (passStart_sched p .io s)

theorem keepsTime_passEnd (p : Domain) (s : State) : KeepsTime s (passEnd p s) :=
  (keepsTime_setSched fun _ ht => ht.recompute).trans (keepsTime_evaluatePending ..)

theorem keepsTime_pass {p : Domain} {s t : State} (h : pass p s = .next t) : KeepsTime s t := by
  obtain ⟨u, hu, rfl⟩ := pass_eq_next h
  exact (keepsTime_passStart p s).trans ((keepsTime_setSched fun _ ht => ht.snapshot).trans
    ((keepsTime_fireAll _ hu).trans (keepsTime_passEnd p u)))

/-! ## Advances (rules R154, R176) -/

theorem keepsTime_reanchor (s : State) : KeepsTime s (reanchor s) := .of_eq rfl rfl rfl

/-- An admitted advance goes past no due pass of its own domain. -/
theorem advanceOk_own {p : Domain} {n : Nat} {s : State} (h : advanceOk p n s = true)
    (hvalid : (s.sched p).nextValid = true) : (n : Int) ≤ sdiff32 (s.sched p).nextEvent (s.sched p).cycle := by
  cases p with
  | main =>
    obtain ⟨-, -, hown, -⟩ := (advanceOk_main_iff n s).1 h
    exact hown hvalid
  | io =>
    obtain ⟨-, -, hown, -⟩ := (advanceOk_io_iff n s).1 h
    exact hown hvalid

theorem keepsTime_advance {p : Domain} {n : Nat} {s : State} (h : advanceOk p n s = true) :
    KeepsTime s (advance p n s) := by
  obtain ⟨m, i, r, he⟩ := advance_eq p n s
  have hanchors : KeepsTime s { s with mainAnchor := m, ioAnchor := i, residue := r } := .of_eq rfl rfl rfl
  rw [he]
  refine hanchors.trans (keepsTime_setSched fun _ ht => ?_)
  exact SchedTimely.forward (x := s.sched p) (by cases p <;> exact ht) (advanceOk_own h)

theorem keepsTime_tryAdvance {p : Domain} {n a : Nat} {s t : State} (h : tryAdvance p n s = some (a, t)) :
    KeepsTime s t := by
  obtain ⟨-, u, rfl | rfl, hok, rfl⟩ := tryAdvance_eq_some h
  · exact keepsTime_advance hok
  · exact (keepsTime_reanchor s).trans (keepsTime_advance hok)

theorem keepsTime_runCycles {p : Domain} {n : Nat} {s t : State} (h : runCycles p n s = some t) : KeepsTime s t := by
  obtain ⟨x, hx, rfl⟩ := Option.map_eq_some_iff.1 h
  exact keepsTime_tryAdvance hx

/-! ## A step (rules R70, R159, R178) -/

theorem keepsTime_release {p : Domain} {s t : State} (h : release p s = .next t) : KeepsTime s t := by
  rcases release_cases p s with ⟨q, -, he⟩ | ⟨q, n, a, u, hu, he⟩ | he <;> rw [he] at h
  · exact keepsTime_pass h
  · cases h
    exact keepsTime_tryAdvance hu
  · cases h
    exact .refl s

theorem jump_eq_some {p : Domain} {s t : State} (h : jump p s = some t) : ∃ n, runCycles p n s = some t := by
  unfold jump at h
  split at h
  · exact ⟨_, h⟩
  · cases h

/-- An idle machine stays as it is, lets a domain pass or wait for its pass, or jumps (rule R154). -/
theorem idle_eq_next {s t : State} (h : idle s = .next t) :
    t = s ∨ (∃ p u, release p s = .next u ∧ t = u.tick) ∨ ∃ p n u, runCycles p n s = some u ∧ t = u.tick := by
  have jumped {p : Domain} {u : State} (hu : jump p s = some u) :
      ∃ p n v, runCycles p n s = some v ∧ u.tick = v.tick := by
    obtain ⟨n, hn⟩ := jump_eq_some hu
    exact ⟨p, n, u, hn, rfl⟩
  unfold idle idleTurn at h
  dsimp only at h
  split at h
  · split at h
    · exact .inr (.inl ⟨_, ticked_eq_next h⟩)
    · split at h
      · exact .inr (.inl ⟨_, ticked_eq_next h⟩)
      · split at h
        · next u hu => cases h; exact .inr (.inr (jumped hu))
        · split at h
          · next u hu => cases h; exact .inr (.inr (jumped hu))
          · cases h; exact .inl rfl
  · cases h; exact .inl rfl

theorem keepsTime_idle {s t : State} (h : idle s = .next t) : KeepsTime s t := by
  rcases idle_eq_next h with rfl | ⟨p, u, hu, rfl⟩ | ⟨p, n, u, hu, rfl⟩
  · exact .refl t
  · exact (keepsTime_release hu).trans (keepsTime_tick u)
  · exact (keepsTime_runCycles hu).trans (keepsTime_tick u)

/-- After a reset nothing is armed and no pass is due (rule R48). -/
theorem keepsTime_performReset (s : State) : KeepsTime s (performReset s) := by
  obtain ⟨-, -, -, ⟨hmain, hio⟩, -⟩ := resetMeetsInvariants
  refine ⟨rfl, fun _ p _ => ?_⟩
  cases p
  · exact hmain
  · exact hio

theorem keepsTime_perform {op : Op} {held s t : State} (hheld : KeepsTime held s) (h : perform op held s = .next t) :
    KeepsTime held t := by
  unfold perform at h
  cases op with
  | access p d n a v =>
    dsimp only at h
    split at h
    · exact hheld.trans (keepsTime_runAccess h)
    · exact keepsTime_release h
  | advance p n =>
    dsimp only at h
    split at h
    · cases h
      exact hheld
    · split at h
      · next a u hu =>
        cases h
        refine (hheld.trans (keepsTime_tryAdvance hu)).trans ?_
        split <;> exact .of_eq rfl rfl rfl
      · exact keepsTime_release h
  | pass p =>
    dsimp only at h
    split at h
    · exact hheld.trans (keepsTime_pass h)
    · split at h
      · exact keepsTime_release h
      · cases h
        exact hheld
  | ext p e =>
    dsimp only at h
    split at h
    · exact hheld.trans (keepsTime_performExt h)
    · exact keepsTime_release h
  | reanchor => cases h; exact hheld.trans (keepsTime_reanchor s)
  | store a d | remap rs => cases h; exact hheld.trans (.of_eq rfl rfl rfl)
  | reset => cases h; exact hheld.trans (keepsTime_performReset s)

theorem keepsTime_step {s t : State} (h : step s = .next t) : KeepsTime s t := by
  have hcounted : KeepsTime s { s with opCount := s.opCount + 1 } := .of_eq rfl rfl rfl
  obtain ⟨-, -, ⟨-, hidle⟩ | ⟨op, rest, -, hop⟩⟩ := step_eq_next h
  · exact hcounted.trans (keepsTime_idle hidle)
  · have htaken : KeepsTime { s with opCount := s.opCount + 1 } (s.taken rest) := .of_eq rfl rfl rfl
    exact hcounted.trans (keepsTime_perform htaken hop)

/-- Settles O55: every operation of a step keeps both schedulers timely. -/
theorem noEventIsLate : Obligations.NoEventIsLate := by
  intro s t ⟨hmain, hio⟩ h
  obtain ⟨hv, -⟩ := step_eq_next h
  have htimely := (keepsTime_step h).timely hv
  exact ⟨htimely .main hmain, htimely .io hio⟩

end Sys2Proof.Machine
end

section
/-! PROOFS. The correspondence of the two clocks: what the conversions of the bridge compute, what moving the anchors
leaves as it is, and where the inverse conversion lands (rules R9, R171, R172). -/

namespace Sys2Proof.Machine

/-! ## Distances across the bridge (rule R9) -/

/-- Distances add up along three cycles, as long as the sum stays in the signed range. -/
theorem sdiff32_eq_add {a b : Word} (c : Word) (hlo : -2147483648 ≤ sdiff32 a c + sdiff32 c b)
    (hhi : sdiff32 a c + sdiff32 c b < 2147483648) : sdiff32 a b = sdiff32 a c + sdiff32 c b := by
  refine sdiff32_eq ?_ hlo hhi
  rw [BitVec.ofInt_add, ofInt_sdiff32, ofInt_sdiff32]
  ring

/-- A cycle given by its signed offset lies that offset away. -/
theorem sdiff32_add_ofInt {a : Word} {z : Int} (hlo : -2147483648 ≤ z) (hhi : z < 2147483648) :
    sdiff32 (a + BitVec.ofInt 32 z) a = z :=
  sdiff32_eq (by ring) hlo hhi

theorem ofInt_sub_one (z : Int) : BitVec.ofInt 32 (z - 1) = BitVec.ofInt 32 z - 1#32 := by
  rw [sub_eq_add_neg, BitVec.ofInt_add, BitVec.ofInt_neg, sub_eq_add_neg]
  rfl

/-- The cycle before lies one less away. -/
theorem sdiff32_sub_one {a b : Word} (h : -2147483648 < sdiff32 a b) : sdiff32 (a - 1#32) b = sdiff32 a b - 1 := by
  have := sdiff32_lt a b
  refine sdiff32_eq ?_ (by omega) (by omega)
  rw [ofInt_sub_one, ofInt_sdiff32]
  ring

/-! ## From MAIN to IO (rule R171) -/

/-- From the anchor on, the truncating division of the conversion is the one that rounds down. -/
theorem ioEq_of_nonneg {s : State} {t : Word} (h : 0 ≤ sdiff32 t s.mainAnchor + s.residue) :
    ioEq s t = s.ioAnchor + BitVec.ofInt 32 ((sdiff32 t s.mainAnchor + s.residue) / s.cfg.ratio) := by
  rw [ioEq, Int.tdiv_eq_ediv_of_nonneg h]

/-- IO cycle `n` after the anchor is current during the `ratio` cycles of MAIN that begin `n * ratio` of them after
the anchor, the residue counted in. -/
theorem ioEq_eq_add {s : State} {t : Word} {n : Int} (hn : 0 ≤ n)
    (hlo : n * s.cfg.ratio ≤ sdiff32 t s.mainAnchor + s.residue)
    (hhi : sdiff32 t s.mainAnchor + s.residue < n * s.cfg.ratio + s.cfg.ratio) :
    ioEq s t = s.ioAnchor + BitVec.ofInt 32 n := by
  have hstart : 0 ≤ n * (s.cfg.ratio : Int) := mul_nonneg hn (Int.natCast_nonneg _)
  rw [ioEq_of_nonneg (hstart.trans hlo), (Int.ediv_eq_iff_of_pos (by omega)).2 ⟨hlo, hhi⟩]

/-! ## Moving the anchors (rule R172) -/

/-- From the old anchor on, the new residue is the part of an IO cycle that has passed. -/
theorem reanchor_residue {s : State} (h : 0 ≤ sdiff32 s.schedMain.cycle s.mainAnchor + s.residue)
    (hratio : 1 ≤ s.cfg.ratio) :
    ((reanchor s).residue : Int) = (sdiff32 s.schedMain.cycle s.mainAnchor + s.residue) % s.cfg.ratio := by
  have hnonneg := Int.emod_nonneg (sdiff32 s.schedMain.cycle s.mainAnchor + s.residue)
    (show (s.cfg.ratio : Int) ≠ 0 by omega)
  rw [reanchor, Int.tmod_eq_emod_of_nonneg h, Int.toNat_of_nonneg hnonneg]

theorem reanchor_residue_lt {s : State} (hratio : 1 ≤ s.cfg.ratio) : (reanchor s).residue < s.cfg.ratio :=
  tmod_toNat_lt _ hratio

/-- Moving the anchors changes nothing else: the new ones are the current cycle of MAIN and its conversion. -/
theorem reanchor_eq (s : State) :
    reanchor s = { s with
      mainAnchor := s.schedMain.cycle, ioAnchor := ioEq s s.schedMain.cycle, residue := (reanchor s).residue } := rfl

/-- Dividing in two parts, with the remainder of the first carried into the second, loses nothing. -/
theorem ediv_add_carry_ediv (d e : Int) {r : Int} (hr : r ≠ 0) : e / r + (d + e % r) / r = (d + e) / r := by
  have hsplit : d + e = d + e % r + r * (e / r) := by rw [add_assoc, Int.emod_add_mul_ediv]
  rw [hsplit, Int.add_mul_ediv_left _ _ hr, add_comm]

/-- The whole IO cycles that the new anchor takes over and those that are left add up to the ones from the old
anchor. -/
theorem ioEq_reanchor {s : State} {t : Word} (hratio : 1 ≤ s.cfg.ratio)
    (hanchor : 0 ≤ sdiff32 s.schedMain.cycle s.mainAnchor) (hafter : 0 ≤ sdiff32 t s.schedMain.cycle)
    (hrange : sdiff32 s.schedMain.cycle s.mainAnchor + sdiff32 t s.schedMain.cycle < 2147483648) :
    ioEq (reanchor s) t = ioEq s t := by
  have hfar : sdiff32 t s.mainAnchor = sdiff32 t s.schedMain.cycle + sdiff32 s.schedMain.cycle s.mainAnchor :=
    sdiff32_eq_add _ (by omega) (by omega)
  have hold : 0 ≤ sdiff32 s.schedMain.cycle s.mainAnchor + s.residue := by omega
  have hleft : ioEq (reanchor s) t = ioEq s s.schedMain.cycle +
      BitVec.ofInt 32 ((sdiff32 t s.schedMain.cycle + (reanchor s).residue) / s.cfg.ratio) :=
    ioEq_of_nonneg (s := reanchor s) (add_nonneg hafter (Int.natCast_nonneg _))
  rw [hleft, ioEq_of_nonneg hold, ioEq_of_nonneg (t := t) (by omega), reanchor_residue hold hratio, add_assoc,
    ← BitVec.ofInt_add, ediv_add_carry_ediv _ _ (by omega), hfar, add_assoc]

/-- Settles O43: the anchors move by whole IO cycles, and the residue keeps the rest. -/
theorem reanchorKeepsCorrespondence : Obligations.ReanchorKeepsCorrespondence := by
  intro s t hratio hanchor hafter hrange
  exact ⟨ioEq_reanchor hratio hanchor hafter hrange, reanchor_residue_lt hratio, reanchor_eq s⟩

/-! ## From IO to MAIN (rule R171) -/

/-- How far after the anchor the inverse conversion lands. -/
theorem sdiff32_mainEq {s : State} {u : Word} (hlo : -2147483648 ≤ sdiff32 u s.ioAnchor * s.cfg.ratio - s.residue)
    (hhi : sdiff32 u s.ioAnchor * s.cfg.ratio - s.residue < 2147483648) :
    sdiff32 (mainEq s u) s.mainAnchor = sdiff32 u s.ioAnchor * s.cfg.ratio - s.residue :=
  sdiff32_add_ofInt hlo hhi

/-- Settles O44: the residue counted in, the cycle the inverse conversion gives is the first of the `ratio` cycles of
`u`, and the one before it the last of those of the IO cycle before. -/
theorem mainEqInverse : Obligations.MainEqInverse := by
  intro s u hratio hresidue hsmall hafter hrange
  have hstart : 0 ≤ sdiff32 u s.ioAnchor * s.cfg.ratio := mul_nonneg hafter (Int.natCast_nonneg _)
  have hmain := sdiff32_mainEq (s := s) (u := u) (by omega) (by omega)
  refine ⟨?_, fun hlater => ?_⟩
  · rw [ioEq_eq_add hafter (by omega) (by omega), ofInt_sdiff32]
    ring
  · have hfirst : (s.cfg.ratio : Int) ≤ sdiff32 u s.ioAnchor * s.cfg.ratio :=
      le_mul_of_one_le_left (Int.natCast_nonneg _) hlater
    have hbefore : sdiff32 (mainEq s u - 1#32) s.mainAnchor = sdiff32 (mainEq s u) s.mainAnchor - 1 :=
      sdiff32_sub_one (by omega)
    have hprevious := sub_one_mul (sdiff32 u s.ioAnchor) (s.cfg.ratio : Int)
    rw [ioEq_eq_add (n := sdiff32 u s.ioAnchor - 1) (by omega) (by omega) (by omega), ofInt_sub_one, ofInt_sdiff32]
    ring

end Sys2Proof.Machine
end

section
/-! PROOFS. The arbiter: whom the priority encoder selects, and what a write through it puts into the ring (rules R191,
R196, R199, R200). -/

namespace Sys2Proof.Machine

/-! ## The priority encoder (rule R196) -/

/-- The winner is the grantable direct path that no grantable one outranks. -/
theorem winner_eq_some_iff {s : State} {f : FifoId} {j : Nat} :
    winner s f = some j ↔ j < nd s.cfg f ∧ grantable s f j = true ∧ ∀ h, h < j → grantable s f h = false := by
  simp only [winner, List.find?_range_eq_some, List.mem_range, Bool.not_eq_true', and_left_comm]

/-! ## The raw write (rule R191) -/

theorem fifoWrite_fst (f : FifoId) (d : List Qword) (s : State) :
    (fifoWrite f d s).1 = min d.length (cap s.cfg f - (s.fifo f).size) := rfl

/-- The occupancy of the ring grows by the units it accepts. -/
theorem fifoWrite_size (f : FifoId) (d : List Qword) (s : State) :
    ((fifoWrite f d s).2.fifo f).size = (s.fifo f).size + (fifoWrite f d s).1 := by
  simp only [fifoWrite, Fifo.write, State.fifo_setFifo_self, Fifo.updateFstat_size, Fifo.foldl_push_size,
    List.length_take, min_eq_left (Nat.min_le_left ..)]

/-! ## The grants (rules R199, R200) -/

theorem arbWriteDma_of_winner {f : FifoId} {j : Nat} {s : State} (h : winner s f = some j) (c : Chan)
    (d : List Qword) : arbWriteDma f c d s = (0, s) := by
  simp [arbWriteDma, h]

theorem arbWriteDma_of_masked {f : FifoId} {c : Chan} {s : State}
    (h : (s.fifo f).pmask.getD (producerIndex s.cfg f c) false = true) (d : List Qword) :
    arbWriteDma f c d s = (0, s) := by
  rw [arbWriteDma, if_pos h, ite_self]

theorem arbWriteDma_of_free {f : FifoId} {c : Chan} {s : State} (hfree : winner s f = none)
    (hopen : (s.fifo f).pmask.getD (producerIndex s.cfg f c) false = false) (d : List Qword) :
    arbWriteDma f c d s = fifoWrite f d s := by
  rw [arbWriteDma, hfree, hopen]
  rfl

theorem arbWriteDirect_of_winner {f : FifoId} {i : Nat} {s : State} (h : winner s f = some i) (d : List Qword) :
    arbWriteDirect f i d s = fifoWrite f d s := if_pos h

theorem arbWriteDirect_of_not_winner {f : FifoId} {i : Nat} {s : State} (h : winner s f ≠ some i)
    (d : List Qword) : arbWriteDirect f i d s = (0, s) := if_neg h

/-- Settles O48: the path that wins is the winner of the priority encoder, and a write through the arbiter is the raw
write or nothing. -/
theorem arbitration : Obligations.Arbitration := by
  intro f c i d s
  simp only [← winner_eq_some_iff]
  refine ⟨?_, fun hnone hopen => ?_, fun hlost => arbWriteDirect_of_not_winner hlost d, fun hwon => ?_⟩
  · rintro (⟨j, hwinner⟩ | hmasked)
    · exact arbWriteDma_of_winner hwinner c d
    · exact arbWriteDma_of_masked hmasked d
  · rw [arbWriteDma_of_free (Option.eq_none_iff_forall_ne_some.2 hnone) hopen d]
    exact ⟨fifoWrite_fst f d s, fifoWrite_size f d s⟩
  · rw [arbWriteDirect_of_winner hwon d]
    exact ⟨fifoWrite_fst f d s, fifoWrite_size f d s⟩

end Sys2Proof.Machine
end

section
/-! PROOFS. Reads of the registers, and writes of the registers that no channel holds: `STAT`, the stall addresses,
the FIFO mirrors and the IO pair (rules R222 to R245). -/

namespace Sys2Proof.Machine

/-! ## Writes of `STAT` (rules R35, R235) -/

/-- A bit of the value written clears a status bit and toggles a mask bit. -/
theorem writeStat_getLsbD (cfg : Config) (st v : Word) {i : Nat} (hi : i < 32) :
    (writeStat cfg st v).getLsbD i =
      ((st.getLsbD i && !(v.getLsbD i && cfg.statStatusMask.getLsbD i)) ^^
        (v.getLsbD i && cfg.statMaskMask.getLsbD i)) := by
  simp only [writeStat, BitVec.getLsbD_xor, BitVec.getLsbD_and, BitVec.getLsbD_not, hi, decide_true, Bool.true_and]

/-- Under a valid configuration no bit of `STAT` is both cleared and toggled, so each stands in one branch. -/
theorem writeStat_getLsbD_of_valid {cfg : Config} (hv : Config.valid cfg = true) (st v : Word) {i : Nat}
    (hi : i < 32) :
    (writeStat cfg st v).getLsbD i =
      if cfg.layout.statCIS ≤ i ∧ i < cfg.layout.statCIS + cfg.literals.nch ∨ i = cfg.layout.statSIS ∨
          i = cfg.layout.statBEIS then
        st.getLsbD i && !v.getLsbD i
      else if cfg.layout.statCIM ≤ i ∧ i < cfg.layout.statCIM + cfg.literals.nch ∨ i = cfg.layout.statSIM then
        st.getLsbD i ^^ v.getLsbD i
      else st.getLsbD i := by
  rw [writeStat_getLsbD cfg st v hi, statStatusMask_getLsbD cfg hi, statMaskMask_getLsbD cfg hi]
  split
  case isTrue hstatus =>
    obtain ⟨-, hmask⟩ := status_apart hv hstatus
    rw [decide_eq_true hstatus, decide_eq_false hmask, Bool.and_true, Bool.and_false, Bool.xor_false]
  case isFalse hstatus =>
    rw [decide_eq_false hstatus, Bool.and_false, Bool.not_false, Bool.and_true]
    split
    case isTrue hmask => rw [decide_eq_true hmask, Bool.and_true]
    case isFalse hmask => rw [decide_eq_false hmask, Bool.and_false, Bool.xor_false]

/-- The write stores its word, and the line of MAIN follows the pending mask of the state it leaves. -/
theorem exec_wStat (v : Word) (s : State) :
    exec (.wStat v) s = .next (State.setExc { s with stat := writeStat s.cfg s.stat v } .main
      (decide (State.pending { s with stat := writeStat s.cfg s.stat v } .main ≠ 0#32))) :=
  congrArg _ (evaluatePending_eq .main _)

/-- Settles O36: the bits by the law of the write, the line by the pending test that ends it. -/
theorem statWrite : Obligations.StatWrite := by
  intro v s hv l n
  refine ⟨_, exec_wStat v s, fun i hi => ?_, ?_, rfl, fun hl hx => ?_⟩
  · exact writeStat_getLsbD_of_valid hv s.stat v hi
  · rw [State.pending_setExc]
    rfl
  · simp [l, n, hl, hx, Layout.default, Literals.written]

/-! ## Register reads (rules R222, R224, R226, R228, R230, R232, R236, R238, R241, R243, R245) -/

/-- The word of `CHCR` with its flags and its fields at their positions (rule R22). -/
theorem Channel.chcr_eq (l : Layout) (ch : Channel) :
    Channel.chcr l ch =
      (if ch.str then 1#32 <<< l.chcrSTR else 0#32) ||| (if ch.dir then 1#32 <<< l.chcrDIR else 0#32) |||
        (BitVec.ofNat 32 ch.mod.toNat <<< l.chcrMOD) ||| (BitVec.ofNat 32 ch.stm.toNat <<< l.chcrSTM) |||
        (BitVec.ofNat 32 ch.chop.toNat <<< l.chcrCHOP) ||| (if ch.tie then 1#32 <<< l.chcrTIE else 0#32) |||
        (BitVec.ofNat 32 ch.asp.toNat <<< l.chcrASP) := by
  simp only [Channel.chcr, bitAt_eq, BitVec.ofNat_toNat]

/-- Settles O17: each read hands its word to one CPU and leaves the rest of the state; the two that assemble a word
by the laws of `CHCR` and of a flag at its position. -/
theorem registerReads : Obligations.RegisterReads := by
  intro c a s ch l bit
  have hchcr : exec (.rChcr c) s = .next (s.setRead .main (Channel.chcr s.cfg.layout (s.ch c))) := rfl
  have hctrl : exec .rCtrl s = .next (s.setRead .main (bitAt s.dmae s.cfg.layout.ctrlDMAE)) := rfl
  rw [Channel.chcr_eq] at hchcr
  rw [bitAt_eq] at hctrl
  exact ⟨hchcr, rfl, rfl, rfl, rfl, rfl, hctrl, rfl, rfl, rfl, rfl, rfl, rfl, rfl, rfl, rfl,
    fun hl => congrArg Layout.ctrlDMAE hl⟩

/-! ## Writes of the stall addresses, the mirrors and the IO pair (rules R237, R239, R240, R242, R245) -/

/-- With the numbers as written the bits of an address below one unit are bits 3:0 (rules R5, R24). -/
theorem align_of_written {cfg : Config} (hx : cfg.literals = Literals.written) (v : Word) :
    cfg.align v = v &&& 0xFFFFFFF0#32 := by
  have hunit : cfg.unit = 16 := by rw [Config.unit, hx]; rfl
  rw [Config.align, hunit]
  rfl

/-- As written the channel bits of the IO pair are bits 9:0 (rule R37). -/
theorem ioMask_of_written {cfg : Config} (hl : cfg.layout = Layout.default) (hx : cfg.literals = Literals.written) :
    cfg.ioMask = 0x3FF#32 := by
  rw [Config.ioMask, Config.chanBits, hl, hx]
  rfl

/-- The write keeps the bits that are set in its value, and the line of IO follows the pending mask. -/
theorem exec_wIoIstat (v : Word) (s : State) :
    exec (.wIoIstat v) s = .next { s with
      ioIstat := writeIoIstat s.cfg s.ioIstat v
      excIo := decide (pendingIo s.cfg (writeIoIstat s.cfg s.ioIstat v) s.ioImask ≠ 0#32) } :=
  congrArg _ (evaluatePending_eq .io _)

/-- The write stores the channel bits of its value, and the line of IO follows the pending mask. -/
theorem exec_wIoImask (v : Word) (s : State) :
    exec (.wIoImask v) s = .next { s with
      ioImask := writeIoImask s.cfg v
      excIo := decide (pendingIo s.cfg s.ioIstat (writeIoImask s.cfg v) ≠ 0#32) } :=
  congrArg _ (evaluatePending_eq .io _)

/-- Settles O35: a stall address is stored aligned, the ignored writes leave the state, and the two writes of the IO
pair end in the pending test. -/
theorem globalWrites : Obligations.GlobalWrites := by
  intro v a p s bits down
  exact ⟨rfl, rfl, rfl, rfl, rfl, exec_wIoIstat v s, exec_wIoImask v s,
    fun hl hx => ⟨ioMask_of_written hl hx, align_of_written hx v⟩⟩

end Sys2Proof.Machine
end
